-- ==== Sys2Proof/Word.lean ====
section
/-! DEFINITION. The word types of the 4A16 and the index types of its parts (00_scope.md, R1). -/

namespace Sys2Proof

/-- A 32-bit data word. -/
abbrev Word := BitVec 32
/-- A byte on the mirror bus. -/
abbrev Byte := BitVec 8
/-- A set of stations: bit s for station s (12_formats.md, Payloads). -/
abbrev StationSet := BitVec 16
/-- A subset of the four word indices of a line: bit i for word index i. -/
abbrev WordMask := BitVec 4
/-- A station number, 0 to 15. -/
abbrev Station := Fin 16
/-- A segment number, 0 to 7. -/
abbrev Segment := Fin 8
/-- A line number, 0 to 16383. -/
abbrev Line := Fin 16384
/-- A word index within a line. -/
abbrev WordIx := Fin 4
/-- A spare line, and the entry of the spare table bound to it. -/
abbrev SpareIx := Fin 24
/-- A staging record. -/
abbrev RecordIx := Fin 16
/-- An entry of the serve job table. -/
abbrev JobIx := Fin 8

/-- The station numbers, ascending. -/
def stations : List Station := List.finRange 16
/-- The segment numbers, ascending. -/
def segments : List Segment := List.finRange 8
/-- The word indices, ascending. -/
def wordIxs : List WordIx := List.finRange 4
/-- The spare lines, ascending. -/
def spareIxs : List SpareIx := List.finRange 24
/-- The entries of the serve job table, ascending. -/
def jobIxs : List JobIx := List.finRange 8

/-- Is station x in the set? -/
def StationSet.has (m : StationSet) (x : Station) : Bool := m.getLsbD x.val
/-- The set of one station. -/
def StationSet.single (x : Station) : StationSet := BitVec.ofNat 16 (2 ^ x.val)
/-- Is word index i in the mask? -/
def WordMask.has (m : WordMask) (i : WordIx) : Bool := m.getLsbD i.val
/-- The mask of one word index. -/
def WordMask.single (i : WordIx) : WordMask := BitVec.ofNat 4 (2 ^ i.val)
/-- The word indices of a mask, ascending. -/
def WordMask.words (m : WordMask) : List WordIx := wordIxs.filter m.has
/-- The number of words in a mask. -/
def WordMask.size (m : WordMask) : Nat := m.words.length

end Sys2Proof
end

