-- ==== Sys2Proof/Config.lean ====
section
/-! DEFINITION. The plain kinds of thing the manual names (health, modes, table states), and the values the manual leaves
open. A constant with no body is a free value: nothing can be proved of it but what holds whatever it is. -/

namespace Sys2Proof

/-- What the check bits report when a word is read (R2). -/
inductive Health where
  | clean
  | correctable
  | uncorrectable
  deriving DecidableEq, Repr, Inhabited

/-- A stored word: the data a read delivers and the health it reports. For a CORRECTABLE word the data is the corrected
data, for an UNCORRECTABLE word the raw data (R2). The 7 check bits are held as the health they give. -/
structure Cell where
  data   : Word
  health : Health
  deriving DecidableEq, Repr, Inhabited

/-- The configured mode of a segment (R5). -/
inductive Mode where
  | off
  | localOnly
  | mirrored
  deriving DecidableEq, Repr, Inhabited

/-- The scrub mode of a segment (R174). -/
inductive ScrubMode where
  | off
  | passive
  | active
  deriving DecidableEq, Repr, Inhabited

/-- The state of a spare-table entry (R29). -/
inductive SpareState where
  | free
  | filling
  | active
  | retired
  deriving DecidableEq, Repr, Inhabited

/-- An entry of the spare table (R29). -/
structure SpareEntry where
  state : SpareState
  line  : Option Line
  mask  : WordMask
  deriving DecidableEq, Repr, Inhabited

/-- The spare table: entry k is bound to spare line k. -/
abbrev SpareTable := Vector SpareEntry 24

/-- A word of the retention domain: in the array by its word address, or in a spare line. -/
inductive StoreWord where
  | array (address : BitVec 16)
  | spare (line : SpareIx) (word : WordIx)
  deriving DecidableEq, Repr

/-- FREE VALUE. What a word holds that nothing has written since the retention supply was last lost (R7: "any data and
any health"). The first argument counts the losses, the second is the word's key. -/
opaque Config.lostCell : Nat → Nat → Cell

/-- FREE VALUE. The mode taken for a descriptor whose mode code is 3, which names none, before START judges it (R174). -/
opaque Config.unnamedMode : Mode

/-- FREE VALUE. The scrub mode taken for a descriptor whose scrub code is 3, before START judges it (R174). -/
opaque Config.unnamedScrub : ScrubMode

end Sys2Proof
end

