-- ==== Sys2Proof/Syntax.lean ====
section
/-! DEFINITION. The commands of the 4A16: one constructor per row of spec/opcode_table.json. The table gives no operands;
each constructor carries what its rule says comes from outside the part. -/

namespace Sys2Proof

/-- A frame as a station hears it: the de-stuffed header and payload bytes in the order sent, and the check word read
(R95, R96). Whether it arrived whole is computed from it. -/
structure Heard where
  bytes : List Byte
  check : Word
  deriving DecidableEq, Repr

/-- The 32 slots of the end field as read, bit n for slot n: slot 2s is the ACK slot and slot 2s + 1 the REJECT slot of
station s (12_formats.md, Positions on the mirror bus). -/
abbrev Slots := BitVec 32

/-- The direction of a WINDOW request, with the data of a write. -/
inductive WindowAccess where
  | write (data : Word)
  | read
  deriving DecidableEq, Repr

/-- A command: an operation or event of the part (spec/opcode_table.json). -/
inductive Instr where
  /-- CORE_RESET (R6). The masks give, word by word, which words of a write in progress hold their new data: in the
  array, and in a spare line. -/
  | coreReset (arrayNew spareNew : WordMask)
  /-- RETENTION_LOSS (R7), with the content the spare table takes. -/
  | retentionLoss (found : SpareTable)
  /-- ARRAY_FAULT (R4) at one word, with the raw data the word takes if its health allows any. -/
  | arrayFault (word : StoreWord) (raw : Word)
  /-- STORE_READ (R43) of a word address. -/
  | storeRead (address : BitVec 16)
  /-- STORE_WRITE (R49) of a word address. -/
  | storeWrite (address : BitVec 16) (data : Word)
  /-- START (R175). -/
  | start
  /-- LEAVE, the command (R137). -/
  | leave
  /-- REJOIN (R139). -/
  | rejoin
  /-- COMMIT (R71), with its interrupt-on-completion flag. -/
  | commit (notify : Bool)
  /-- INVALID_COMMAND (R177): a command-word write. -/
  | invalidCommand (data : Word)
  /-- STATUS_WORD_WRITE (R178). -/
  | statusWordWrite (data : Word)
  /-- LOG_READ (R181): a window read of word 43. -/
  | logRead
  /-- OVERFLOW_COUNT_READ (R181): a window read of word 44. -/
  | overflowCountRead
  /-- CORRECTED_WORD_COUNT_READ (R19): a window read of word 45. -/
  | correctedWordCountRead
  /-- WINDOW_WRITE (R51), the WINDOW request to any other word, read or write. -/
  | windowWrite (address : BitVec 16) (access : WindowAccess)
  /-- STABILISATION_COUNT_DONE (R176). -/
  | stabilisationCountDone
  /-- BUS_CLOCK_SWITCH_DONE (R176). -/
  | busClockSwitchDone
  /-- APPLY_COMPLETION (R15). -/
  | applyCompletion
  /-- LOCAL_READ_COMPLETION (R45). -/
  | localReadCompletion
  /-- LOCAL_WRITE_COMPLETION (R48). -/
  | localWriteCompletion
  /-- GIVE_READ_COMPLETION (R171). -/
  | giveReadCompletion
  /-- FILL_COPY_COMPLETION (R14). -/
  | fillCopyCompletion
  /-- RETURN_COPY_COMPLETION (R36). -/
  | returnCopyCompletion
  /-- SERVE_READ_COMPLETION (R145). -/
  | serveReadCompletion
  /-- SCRUB_STEP_COMPLETION (R24). -/
  | scrubStepCompletion
  /-- FILL_WRITE_COMPLETION (R18). -/
  | fillWriteCompletion
  /-- SCRUB_INTERVAL_EXPIRY (R23). -/
  | scrubIntervalExpiry
  /-- CLAIM_WINDOW_OPENING (R90). -/
  | claimWindowOpening
  /-- CLAIM_RESOLVED (R88) at the first driven claim position. -/
  | claimResolved (position : Fin 64)
  /-- EMPTY_WINDOW_END (R88, R184): the last position of an empty window passes undriven. -/
  | emptyWindowEnd
  /-- CONTINUATION (R101): a driven continuation position. -/
  | continuation
  /-- BREAK_FIELD (R103): a driven break field. -/
  | breakField
  /-- JOIN, its frame end (R127). -/
  | join (heard : Heard) (slots : Slots)
  /-- ROSTER, its frame end (R132). -/
  | roster (heard : Heard) (slots : Slots)
  /-- STALL, its frame end (R159). -/
  | stall (heard : Heard) (slots : Slots)
  /-- LEAVE_FRAME, the frame end of a LEAVE (R138). -/
  | leaveFrame (heard : Heard) (slots : Slots)
  /-- UPDATE, its frame end (R61). -/
  | update (heard : Heard) (slots : Slots)
  /-- ASK, its frame end (R165). -/
  | ask (heard : Heard) (slots : Slots)
  /-- GIVE, its frame end (R168). -/
  | give (heard : Heard) (slots : Slots)
  /-- COPY, its frame end (R154). -/
  | copy (heard : Heard) (slots : Slots)
  /-- EMPTY, its frame end (R94). -/
  | empty (heard : Heard) (slots : Slots)
  /-- DAMAGED_FRAME, its frame end (R87). -/
  | damagedFrame (slots : Slots)
  /-- QUIET_TIMER_EXPIRY (R93). -/
  | quietTimerExpiry
  /-- ROSTER_TIMER_EXPIRY (R126). -/
  | rosterTimerExpiry
  /-- REPAIR_TIMER_EXPIRY (R165) of the entry for a line. -/
  | repairTimerExpiry (line : Line)
  /-- PROGRESS_WINDOW_EXPIRY (R157) of a segment's monitor. -/
  | progressWindowExpiry (segment : Segment)
  /-- WINDOW_MARK (R184): a driven position between frames after a recessive run of so many positions. -/
  | windowMark (recessiveRun : Nat)
  /-- CRYSTAL_PERIOD (R176). -/
  | crystalPeriod
  deriving DecidableEq, Repr

end Sys2Proof
end

