-- ==== Sys2Proof/Machine/State.lean ====
section
/-! DEFINITION. The state of one 4A16, block by block, as plain data, and its value after a core reset. Each block's
structure cites the rules that name its parts. -/

namespace Sys2Proof.Machine

/-- The part never stops: every request, command and event has an effect, and the model reports none as a fault. No
constructor, so no command faults (safe). -/
inductive Fault
  deriving DecidableEq, Repr

/-- Why the model gives a command no meaning. -/
inductive Refusal where
  /-- Raised by exec for a command that has no meaning yet. Safe: nothing is claimed of it. -/
  | notModelled (mnemonic : String)
  deriving DecidableEq, Repr

/-! ### The store (01_the_store.md) -/

/-- The retention marker (R7). -/
inductive Marker where
  | valid
  | invalid
  deriving DecidableEq, Repr

/-- The retention domain (R6): the words, the spare table and the marker. `cells` lists, by rising key, the words written
since the retention supply was last lost; an unlisted word reads as a free value that `losses` selects. `tableLost` says
the table's content is any value and is not used (R29). -/
structure Store where
  cells     : List (Nat × Cell)
  losses    : Nat
  table     : SpareTable
  tableLost : Bool
  marker    : Marker
  deriving DecidableEq, Repr

/-- The claimants of the store port, in order of priority (R9). -/
inductive Claimant where
  | apply
  | localPort
  | giveRead
  | spareCopy
  | serve
  | scrub
  | fill
  deriving DecidableEq, Repr

/-- A masked line write (R8): the masked words, their data, and which of them are poisoned. -/
structure LineWrite where
  line   : Line
  mask   : WordMask
  data   : Vector Word 4
  poison : WordMask
  deriving DecidableEq, Repr

/-- A store operation (R8). A read becomes a read-modify-write by the scrub mode of its segment (R13). -/
inductive StoreOp where
  | read (line : Line)
  | write (w : LineWrite)
  | fillCopy (entry : SpareIx) (line : Line)
  | returnCopy (entry : SpareIx) (line : Line)
  deriving DecidableEq, Repr

/-- The operation in progress (R10). -/
structure Running where
  claimant : Claimant
  op       : StoreOp
  deriving DecidableEq, Repr

/-- The fill state of a segment (The fill). -/
inductive FillState where
  | none
  | waiting
  | filling
  | ended
  deriving DecidableEq, Repr

/-- The store port: the operation in progress (absent when IDLE), what SPARE_COPY presents, the pending APPLY list (R15),
and the fill (R17, R18). What the other claimants present is read off their owners. -/
structure StorePort where
  running   : Option Running
  spareCopy : Option StoreOp
  applyList : List LineWrite
  fill      : Vector FillState 8
  fillNext  : Nat
  deriving DecidableEq, Repr

/-! ### The error log (R180) -/

/-- Where an entry's cause was found. -/
inductive Origin where
  | localRead
  | scrub
  | prefetch
  | bus
  | port
  deriving DecidableEq, Repr

/-- The kinds of log entry, in the order of R180's table. -/
inductive LogKind where
  | wordLost
  | repairFailed
  | spared
  | spareExhausted
  | spareRetired
  | outboundDiscard
  | frameDiscarded
  | expelled
  | selfFault
  | missed
  | joinFailed
  | mismatch
  | founded
  | catchupStalled
  | duplicateNumber
  deriving DecidableEq, Repr

/-- An entry of the error log. -/
structure LogEntry where
  kind    : LogKind
  origin  : Origin
  segment : Option Segment
  line    : Option Line
  station : Option Station
  detail  : Nat
  deriving DecidableEq, Repr

/-! ### Line health (02) -/

/-- What one completed operation reports for one line: a health per word index. -/
abbrev Finding := Vector Health 4

/-- The walker states (The walker). -/
inductive WalkerState where
  | idle
  | timing
  | waiting
  | stepping
  | held
  deriving DecidableEq, Repr

/-- The walker. `toHand` holds the UNCORRECTABLE words of the step not yet taken by the repair unit (R24). -/
structure Walker where
  state     : WalkerState
  cursor    : Nat
  chosen    : Option Line
  interval  : Nat
  firstPass : Bool
  findings  : Option Finding
  toHand    : WordMask
  deriving DecidableEq, Repr

/-- An entry of the suspect list; its age is its place in the list, oldest first (R26). -/
structure Suspect where
  line  : Line
  count : Nat
  deriving DecidableEq, Repr

/-- The line health unit's core-domain state: the corrected-word count (R19), the suspect list (R26), and the marks of R29.
`retire k` is present when the retire-pending mark of entry k is set, with the origin of its SPARE_RETIRED (R36). -/
structure LineHealth where
  corrected : Nat
  suspects  : List Suspect
  copyDone  : Vector Bool 24
  retire    : Vector (Option Origin) 24
  exhausted : List Line
  deriving DecidableEq, Repr

/-! ### The local port (03) -/

/-- The stages of a request in progress. -/
inductive Stage where
  | judging
  | startWait
  | fillWait
  | storeWait
  | repairWait
  | slotWait
  | queueWait
  deriving DecidableEq, Repr

/-- The direction of a STORE request. -/
inductive Direction where
  | read
  | write (data : Word)
  deriving DecidableEq, Repr

/-- The rule by which a read was sent to the store: R41 (LOCAL), R42 (DETACHED or MISMATCH) or R43 (a member). -/
inductive ReadRule where
  | localSegment
  | detached
  | member
  deriving DecidableEq, Repr

/-- The record of the request in progress (R37). Only STORE requests rest in it: a WINDOW request is answered at its
taking (R51). -/
structure Request where
  direction : Direction
  address   : BitVec 16
  stage     : Stage
  rule      : Option ReadRule
  raw       : Option Cell
  deriving DecidableEq, Repr

/-- The statuses of a response (R38). -/
inductive Status where
  | done
  | detached
  | stale
  | corrupt
  | refused
  deriving DecidableEq, Repr

/-- A response of the local port. -/
structure Response where
  status : Status
  data   : Word
  deriving DecidableEq, Repr

/-- The local port: IDLE when no request is held, and the last response it delivered (a latch of the model's own). -/
structure LocalPort where
  request  : Option Request
  response : Option Response
  deriving DecidableEq, Repr

/-! ### The outbound queue (04) and commit chains (05) -/

/-- An entry's state (R53). -/
inductive OutState where
  | waiting
  | sending
  deriving DecidableEq, Repr

/-- What an entry carries (R53). -/
inductive OutBody where
  | update (segment : Segment) (line : Line) (mask : WordMask) (slots : Vector Word 4) (combinable : Bool)
  | group (head : RecordIx) (count : Nat)
  deriving DecidableEq, Repr

/-- An entry of the outbound queue. -/
structure OutEntry where
  body     : OutBody
  state    : OutState
  attempts : Nat
  deriving DecidableEq, Repr

/-- A staging record (R69). -/
structure Record where
  line : Line
  mask : WordMask
  stop : Bool
  link : RecordIx
  data : Vector Word 4
  deriving DecidableEq, Repr

/-- The failure codes (R70). -/
inductive FailCode where
  | chainTooLong
  | chainEmptyRecord
  | chainNotWritable
  | chainAborted
  | abandoned
  deriving DecidableEq, Repr

/-- COMMIT_STATE (R70). -/
inductive CommitState where
  | idle
  | queued
  | sending
  | done
  | failed (code : FailCode) (record : RecordIx)
  deriving DecidableEq, Repr

/-- The commit unit. `sendPos` is the place in the chain of the record whose frame was last composed (R83). -/
structure Commit where
  staging    : Vector Record 16
  head       : RecordIx
  state      : CommitState
  notify     : Bool
  doneNotify : Bool
  sendPos    : Nat
  deriving DecidableEq, Repr

/-- The group buffer while COLLECTING (R79); absent is EMPTY. -/
structure GroupBuffer where
  sender : Station
  length : Nat
  taken  : Nat
  lines  : List LineWrite
  deriving DecidableEq, Repr

/-! ### The mirror bus (06) -/

/-- The common header, field by field (R95, 12_formats.md). -/
structure Header where
  sender  : BitVec 4
  kind    : BitVec 4
  cls     : BitVec 2
  segment : BitVec 3
  gpos    : BitVec 3
  count   : BitVec 4
  offset  : BitVec 11
  length  : BitVec 10
  deriving DecidableEq, Repr

/-- A frame: header and payload bytes. Its check word is a function of them (R96). -/
structure Frame where
  header  : Header
  payload : List Byte
  deriving DecidableEq, Repr

/-- The bus unit states (R84). -/
inductive BusState where
  | off
  | seeking
  | following
  deriving DecidableEq, Repr

/-- The phases of the bus unit. -/
inductive Phase where
  | claiming
  | inFrame
  | endField
  | breaking
  | continuing
  deriving DecidableEq, Repr

/-- Where a unit between frames stands in its claim window (R184): a window is due and has not opened; its quiet stretch is
counted; its mark has been taken and its claim positions are counted. -/
inductive Window where
  | due
  | quiet
  | counting
  deriving DecidableEq, Repr

/-- The bus unit's run record (R101). -/
inductive BusRun where
  | none
  | copy (sender : Station)
  | group (sender : Station)
  deriving DecidableEq, Repr

/-- The quiet timer (R93). -/
inductive QuietTimer where
  | stopped
  | counting
  | held
  deriving DecidableEq, Repr

/-- The items of the transmit selector (R91). -/
inductive Item where
  | roster (joiner : Station)
  | join
  | stall (segment : Segment)
  | leave
  | give
  | ask (line : Line)
  | outbound
  | copy
  | empty
  deriving DecidableEq, Repr

/-- This station's own frame from its composition to its end (R92). -/
structure InFlight where
  item  : Item
  frame : Frame
  deriving DecidableEq, Repr

/-- How a copy run ends (R104). -/
inductive Ending where
  | completed
  | dropped
  | full
  | dry
  | broken
  deriving DecidableEq, Repr

/-- This station's own copy run (R102): its job's entry, its run frame count, and whether the job has left the table. -/
structure CopyRun where
  job   : JobIx
  count : Nat
  gone  : Option Ending
  deriving DecidableEq, Repr

/-- What a station drives in its own two slots of a frame (R106). -/
inductive SlotDrive where
  | ack
  | reject
  deriving DecidableEq, Repr

/-- The bus unit (The medium). `window` tells a window's parts apart in the CLAIMING phase, and `positions` is the count of its
positions since its mark, or since its quiet stretch where no mark was driven, as the last event leaves it (R184); `claim` is the chosen item while a
claim stands (R90); `next` is the frame composed for the next continuation, and is present exactly when this station drives that
position; `breakIn` says it drives the break field; `slot` is the slot it drove in the last frame. -/
structure BusUnit where
  unit         : BusState
  phase        : Option Phase
  window       : Window
  positions    : Nat
  owner        : Option Station
  cls          : Option (Fin 4)
  run          : BusRun
  tracked      : Station
  quiet        : QuietTimer
  emptyPending : Bool
  claim        : Option Item
  inFlight     : Option InFlight
  next         : Option Frame
  copyRun      : Option CopyRun
  breakIn      : Bool
  slot         : Option SlotDrive
  deriving DecidableEq, Repr

/-! ### The roster view (07) -/

/-- A present station's standing (R114). -/
inductive Standing where
  | awaiting
  | settled
  deriving DecidableEq, Repr

/-- A member state (R114). The pair of a CATCHING station, its cursor and passed-over set, exists exactly there. -/
inductive MemberState where
  | none
  | current
  | catching (cursor : Nat) (passed : StationSet)
  | mismatch
  deriving DecidableEq, Repr

/-- A present station in the view. -/
structure Member where
  standing : Standing
  declared : Vector (Option StationSet) 8
  states   : Vector MemberState 8
  miss     : Nat
  reject   : Nat
  deriving DecidableEq, Repr

/-- The roster view: a member for each present station, and last_winner. The digest is a function of it (R116). -/
structure View where
  members    : Vector (Option Member) 16
  lastWinner : Station
  deriving DecidableEq, Repr

/-! ### The join controller (08) -/

/-- The station states. -/
inductive StationState where
  | config
  | clocking
  | filling
  | listening
  | joining
  | rosterWait
  | joined
  | leaving
  | offline
  deriving DecidableEq, Repr

/-- The OFFLINE causes, in the order of their codes. -/
inductive OfflineCause where
  | expelled
  | selfFault
  | missed
  | joinFailed
  | left
  deriving DecidableEq, Repr

/-- A roster record (R131). -/
structure RosterRecord where
  attempts : Nat
  dropped  : Bool
  deriving DecidableEq, Repr

/-- The join controller (R122). `accepted` counts the JOINs this station judged accepted (R126). -/
structure JoinControl where
  station       : StationState
  cause         : Option OfflineCause
  attempts      : Nat
  accepted      : Nat
  joinPending   : Bool
  rosterTimer   : Bool
  leaveAttempts : Nat
  rosters       : Vector (Option RosterRecord) 16
  deriving DecidableEq, Repr

/-- The local state of a segment (R134), derived and not stored. -/
inductive LocalState where
  | off
  | localOnly
  | detached
  | mismatch
  | current
  | catching
  | orphaned
  deriving DecidableEq, Repr

/-! ### Catch-up (09) -/

/-- A line held by a serve job (R141). -/
structure HeldLine where
  offset : Nat
  data   : Vector Word 4
  void   : WordMask
  deriving DecidableEq, Repr

/-- A job's waiting line (R146): its offset, and whether it is held for a repair-list slot. -/
structure WaitingLine where
  offset  : Nat
  forSlot : Bool
  deriving DecidableEq, Repr

/-- A serve job (R141). Its state PREFETCH or READY is derived (R147). -/
structure Job where
  station  : Station
  segment  : Segment
  e        : Nat
  buffer   : List HeldLine
  ahead    : List HeldLine
  waiting  : Option WaitingLine
  reading  : Option Nat
  attempts : Nat
  deriving DecidableEq, Repr

/-- A STALL item (R157). -/
structure StallItem where
  server   : Station
  attempts : Nat
  deriving DecidableEq, Repr

/-- A progress monitor (R156). -/
structure Monitor where
  running : Bool
  count   : Nat
  stall   : Option StallItem
  deriving DecidableEq, Repr

/-- The catch-up unit: the job table, its ring in creation order, the rotation token (R150), and the monitors. -/
structure CatchUp where
  jobs     : Vector (Option Job) 8
  ring     : List JobIx
  token    : Option JobIx
  monitors : Vector Monitor 8
  deriving DecidableEq, Repr

/-! ### Repair (10) -/

/-- The phase of an ASKING entry (R161). The repair timer runs exactly in TIMING. -/
inductive AskPhase where
  | toAsk
  | inFlight
  | timing
  deriving DecidableEq, Repr

/-- The state of a repair entry (R161). -/
inductive RepairState where
  | asking (phase : AskPhase) (asks rejections : Nat) (askedOf : Option Station)
  | failed
  deriving DecidableEq, Repr

/-- An entry of the repair list (R161). -/
structure RepairEntry where
  segment : Segment
  line    : Line
  bad     : WordMask
  state   : RepairState
  origin  : Origin
  deriving DecidableEq, Repr

/-- The state of a give entry (R171). -/
inductive GiveState where
  | toRead
  | reading
  | ready
  | inFlight
  deriving DecidableEq, Repr

/-- An entry of the give queue (R171). -/
structure GiveEntry where
  asker      : Station
  segment    : Segment
  line       : Line
  state      : GiveState
  void       : WordMask
  data       : Vector Word 4
  rejections : Nat
  deriving DecidableEq, Repr

/-! ### Reporting (11) -/

/-- The result codes (R177). -/
inductive ResultCode where
  | ok
  | busy
  | refused
  | configInvalid
  | invalidCommand
  deriving DecidableEq, Repr

/-- The result word: a code, and a field index with CONFIG_INVALID. -/
structure ResultWord where
  code  : ResultCode
  index : Nat
  deriving DecidableEq, Repr

/-- The bus clock (R176). -/
inductive BusClock where
  | internal
  | switching
  | crystal
  deriving DecidableEq, Repr

/-- The reporting block: the configuration block as written, the result word, the status flags and enables in their bit
positions, the error log and its overflow count, and the crystal's count and clock (R174 to R181). -/
structure Reporting where
  config   : Vector Word 21
  result   : ResultWord
  flags    : BitVec 11
  enables  : BitVec 11
  log      : List LogEntry
  overflow : Nat
  stab     : Nat
  crystal  : Bool
  clock    : BusClock
  deriving DecidableEq, Repr

/-! ### The whole state -/

/-- The state of this station, and the queue of commands that wait, first in first out. -/
structure State where
  pending : List Instr
  store   : Store
  sp      : StorePort
  health  : LineHealth
  walker  : Walker
  port    : LocalPort
  out     : List OutEntry
  commit  : Commit
  group   : Option GroupBuffer
  bus     : BusUnit
  view    : Option View
  join    : JoinControl
  catchup : CatchUp
  repair  : List RepairEntry
  gives   : List GiveEntry
  rep     : Reporting
  deriving DecidableEq, Repr

/-- An empty staging record (R69). -/
def Record.zero : Record := ⟨0, 0, false, 0, Vector.replicate 4 0⟩

/-- A FREE spare-table entry: original line absent, written mask empty (R17). -/
def SpareEntry.free : SpareEntry := ⟨.free, none, 0⟩

/-- The default configuration block (R174): every segment LOCAL, scrub PASSIVE, fill off. A descriptor word holds the mode
in bits 17-16 and the scrub mode in bits 19-18 (12_formats.md). -/
def defaultConfig : Vector Word 21 :=
  #v[0, 0x50000#32, 0x50000#32, 0x50000#32, 0x50000#32, 0x50000#32, 0x50000#32, 0x50000#32, 0x50000#32,
     1, 16, 2, 16, 10, 20, 50, 0, 10, 10000, 100, 3]

/-- The bus unit after a core reset (The medium). -/
def BusUnit.reset : BusUnit where
  unit := .off
  phase := none
  window := .due
  positions := 0
  owner := none
  cls := none
  run := .none
  tracked := 15
  quiet := .stopped
  emptyPending := false
  claim := none
  inFlight := none
  next := none
  copyRun := none
  breakIn := false
  slot := none

/-- The machine right after reset: the core domain at its reset values. The retention domain is kept by a core reset; here
it is as at the first power-up (log 2): nothing written, the marker INVALID, the table not in use. -/
def State.reset : State where
  pending := []
  store := { cells := [], losses := 0, table := Vector.replicate 24 SpareEntry.free, tableLost := true, marker := .invalid }
  sp := { running := none, spareCopy := none, applyList := [], fill := Vector.replicate 8 .none, fillNext := 0 }
  health := { corrected := 0, suspects := [], copyDone := Vector.replicate 24 false, retire := Vector.replicate 24 none,
              exhausted := [] }
  walker := { state := .idle, cursor := 0, chosen := none, interval := 10, firstPass := true, findings := none, toHand := 0 }
  port := { request := none, response := none }
  out := []
  commit := { staging := Vector.replicate 16 Record.zero, head := 0, state := .idle, notify := false, doneNotify := false,
              sendPos := 0 }
  group := none
  bus := BusUnit.reset
  view := none
  join := { station := .config, cause := none, attempts := 0, accepted := 0, joinPending := false, rosterTimer := false,
            leaveAttempts := 0, rosters := Vector.replicate 16 none }
  catchup := { jobs := Vector.replicate 8 none, ring := [], token := none,
               monitors := Vector.replicate 8 { running := false, count := 0, stall := none } }
  repair := []
  gives := []
  rep := { config := defaultConfig, result := { code := .ok, index := 0 }, flags := 0, enables := 0, log := [], overflow := 0,
           stab := 0, crystal := false, clock := .internal }

end Sys2Proof.Machine
end

