-- ==== Sys2Proof/Machine/Limits.lean ====
section
/-! DEFINITION. The fixed capacities and limits of the part, each with the rule that states it, and the line arithmetic. -/

namespace Sys2Proof.Machine

/-- The outbound queue holds 0 to 32 entries (R52). -/
def outboundCapacity : Nat := 32
/-- A frame is given up when its rejections reach 8 (R65, R78, R131, R138, R155, R158, R164, R173). -/
def frameRetryLimit : Nat := 8
/-- A station's JOIN attempts (R126). -/
def joinLimit : Nat := 3
/-- The miss count at which a station is marked absent (R112). -/
def missLimit : Nat := 3
/-- The reject count at which a station is marked absent (R112). -/
def rejectLimit : Nat := 4
/-- The repair list holds 0 to 4 entries (R161). -/
def repairCapacity : Nat := 4
/-- ASKs of one entry before it fails (R165). -/
def askLimit : Nat := 3
/-- The give queue holds 0 to 4 entries (R171). -/
def giveCapacity : Nat := 4
/-- The suspect list holds 0 to 12 entries (R26). -/
def suspectCapacity : Nat := 12
/-- The error log holds 0 to 4 entries (R180). -/
def logCapacity : Nat := 4
/-- The overflow count stays at 255 (R180). -/
def overflowMax : Nat := 255
/-- The corrected-word count stays at 65535 (R19). -/
def correctedMax : Nat := 65535
/-- A copy buffer, and a read-ahead, hold 0 to 6 lines (R141). -/
def bufferCapacity : Nat := 6
/-- A job holds at most twelve lines (R144). -/
def heldCapacity : Nat := 12
/-- Lines in a segment (R1). -/
def segmentLines : Nat := 2048
/-- Lines in the array (R1). -/
def arrayLines : Nat := 16384
/-- The payload limit in bytes (R95). -/
def payloadLimit : Nat := 520
/-- Records in a chain (R72). -/
def chainLimit : Nat := 16
/-- Recessive positions in a quiet stretch (12_formats.md). -/
def quietPositions : Nat := 11
/-- Claim positions of a window (12_formats.md). -/
def claimPositions : Nat := 64
/-- Recessive positions after the quiet stretch of a window whose mark was not driven (R184). -/
def emptyPositions : Nat := 65

/-- The line of a word address: a div 4 (R38). -/
def lineOfAddress (a : BitVec 16) : Line := ⟨a.toNat / 4, by have := a.isLt; omega⟩
/-- The word index of a word address: a mod 4 (R38). -/
def wordOfAddress (a : BitVec 16) : WordIx := ⟨a.toNat % 4, by omega⟩
/-- The segment of a line: L div 2048 (R1). -/
def segmentOf (l : Line) : Segment := ⟨l.val / 2048, by omega⟩
/-- The offset of a line within its segment: L mod 2048 (R1). -/
def offsetOf (l : Line) : Nat := l.val % 2048
/-- The line at an offset of a segment: segment × 2048 + offset (R59). -/
def lineAt (g : Segment) (offset : Nat) : Line := ⟨g.val * 2048 + offset % 2048, by omega⟩

/-- The four words of a vector rebuilt word by word. -/
def words4 {α : Type} (f : WordIx → α) : Vector α 4 := Vector.ofFn f

end Sys2Proof.Machine
end

