-- ==== Sys2Proof/Machine/Operands.lean ====
section
/-! DEFINITION. The layouts of 12_formats.md: the check word, the common header, the payload of every frame kind, the view
image, and the words of the control window. Encoders and readers stand side by side. -/

namespace Sys2Proof.Machine

/-! ### Bits and bytes -/

/-- The low n bits of v, most significant first. -/
def toBits : Nat → Nat → List Bool
  | 0, _ => []
  | n + 1, v => v.testBit n :: toBits n v

/-- The number a list of bits spells, most significant first. -/
def ofBits (bs : List Bool) : Nat := bs.foldl (fun acc b => 2 * acc + b.toNat) 0

/-- The bits of bytes in the order sent: each byte most significant bit first. -/
def bytesBits (bytes : List Byte) : List Bool := bytes.flatMap fun b => toBits 8 b.toNat

/-- Bits packed into bytes, most significant first, the last byte padded with 0 bits. The first argument bounds the bytes. -/
def packBytes : Nat → List Bool → List Byte
  | 0, _ => []
  | _, [] => []
  | n + 1, bs => BitVec.ofNat 8 (ofBits ((bs ++ List.replicate 7 false).take 8)) :: packBytes n (bs.drop 8)

/-- The bytes that so many bits take. -/
def bytesFor (nbits : Nat) : Nat := (nbits + 7) / 8

/-- A bit string padded with 0 bits to whole bytes. -/
def bitsToBytes (bs : List Bool) : List Byte := packBytes (bytesFor bs.length) bs

/-- A word as four bytes, most significant first. -/
def wordBytes (w : Word) : List Byte :=
  [w.extractLsb' 24 8, w.extractLsb' 16 8, w.extractLsb' 8 8, w.extractLsb' 0 8]

/-- Bytes read as words, four to a word; a remainder is dropped. -/
def bytesWords : List Byte → List Word
  | a :: b :: c :: d :: rest => (a ++ b ++ c ++ d : BitVec 32) :: bytesWords rest
  | _ => []

/-- A station number field. -/
def stationOfBits (b : BitVec 4) : Station := ⟨b.toNat, b.isLt⟩
/-- The field of a station number. -/
def stationBits (x : Station) : BitVec 4 := BitVec.ofNat 4 x.val
/-- A segment number field. -/
def segmentOfBits (b : BitVec 3) : Segment := ⟨b.toNat, b.isLt⟩
/-- The field of a segment number. -/
def segmentBits (g : Segment) : BitVec 3 := BitVec.ofNat 3 g.val

/-! ### The check word (R183) -/

/-- One bit into the check register: feedback from bit 31, shift left, XOR with 1EDC6F41h. -/
def checkStep (r : Word) (b : Bool) : Word :=
  if r.getLsbD 31 ^^ b then (r <<< 1) ^^^ 0x1EDC6F41#32 else r <<< 1

/-- The check word over bytes (R183): register from all ones, inverted at the end. -/
def checkWord (bytes : List Byte) : Word := ~~~ ((bytesBits bytes).foldl checkStep 0xFFFFFFFF#32)

/-! ### The common header -/

/-- The nine frame kinds (R95). -/
inductive FrameKind where
  | join
  | roster
  | stall
  | leave
  | update
  | ask
  | give
  | copy
  | empty
  deriving DecidableEq, Repr

/-- The kind codes. -/
def FrameKind.code : FrameKind → BitVec 4
  | .join => 1
  | .roster => 2
  | .stall => 3
  | .leave => 4
  | .update => 5
  | .ask => 6
  | .give => 7
  | .copy => 8
  | .empty => 9

/-- The kind a code names. -/
def FrameKind.ofCode (c : BitVec 4) : Option FrameKind :=
  [FrameKind.join, .roster, .stall, .leave, .update, .ask, .give, .copy, .empty].find? fun k => k.code == c

/-- The class of a kind (R95). -/
def FrameKind.cls : FrameKind → BitVec 2
  | .join | .roster | .stall | .leave => 0
  | .update | .ask | .give => 1
  | .copy => 2
  | .empty => 3

/-- Group position codes. -/
def gposNone : BitVec 3 := 0
/-- FIRST. -/
def gposFirst : BitVec 3 := 1
/-- MIDDLE. -/
def gposMiddle : BitVec 3 := 2
/-- LAST. -/
def gposLast : BitVec 3 := 3
/-- SINGLE. -/
def gposSingle : BitVec 3 := 4
/-- OPEN. -/
def gposOpen : BitVec 3 := 5
/-- SHUT. -/
def gposShut : BitVec 3 := 6

/-- The six header bytes. -/
def Header.encode (h : Header) : List Byte :=
  [ h.sender ++ h.kind,
    (h.cls ++ h.segment ++ h.gpos : BitVec 8),
    (h.count ++ 0#1 ++ h.offset.extractLsb' 8 3 : BitVec 8),
    h.offset.extractLsb' 0 8,
    (0#6 ++ h.length.extractLsb' 8 2 : BitVec 8),
    h.length.extractLsb' 0 8 ]

/-- The header of six bytes; the bits marked 0 are ignored. -/
def Header.decode : List Byte → Option Header
  | [b0, b1, b2, b3, b4, b5] => some
    { sender := b0.extractLsb' 4 4, kind := b0.extractLsb' 0 4, cls := b1.extractLsb' 6 2, segment := b1.extractLsb' 3 3,
      gpos := b1.extractLsb' 0 3, count := b2.extractLsb' 4 4, offset := b2.extractLsb' 0 3 ++ b3,
      length := b4.extractLsb' 0 2 ++ b5 }
  | _ => none

/-- The bytes of a frame in the order sent. -/
def Frame.bytes (f : Frame) : List Byte := f.header.encode ++ f.payload

/-- A frame as it reaches a receiver whole. -/
def Frame.heard (f : Frame) : Heard := ⟨f.bytes, checkWord f.bytes⟩

/-- The frame a receiver reads: absent when it did not arrive whole or its check word fails (R87, R96). -/
def readFrame (h : Heard) : Option Frame :=
  match Header.decode (h.bytes.take 6) with
  | none => none
  | some hd =>
    if h.bytes.length == 6 + hd.length.toNat && checkWord h.bytes == h.check then some ⟨hd, h.bytes.drop 6⟩ else none

/-- The frame's kind, if its code names one. -/
def Frame.kind? (f : Frame) : Option FrameKind := FrameKind.ofCode f.header.kind
/-- The sender field. -/
def Frame.sender (f : Frame) : Station := stationOfBits f.header.sender
/-- The segment field. -/
def Frame.segment (f : Frame) : Segment := segmentOfBits f.header.segment
/-- The line recomputed from segment and offset (R59). -/
def Frame.line (f : Frame) : Line := lineAt f.segment f.header.offset.toNat
/-- The payload words. -/
def Frame.words (f : Frame) : List Word := bytesWords f.payload
/-- The first payload word. -/
def Frame.word0 (f : Frame) : Word := f.words.headD 0

/-- A frame composed of its fields; the length is that of the payload. -/
def composeFrame (sender : Station) (k : FrameKind) (g : Segment) (gpos : BitVec 3) (offset count : Nat)
    (payload : List Byte) : Frame :=
  { header := { sender := stationBits sender, kind := k.code, cls := k.cls, segment := segmentBits g, gpos := gpos,
                count := BitVec.ofNat 4 count, offset := BitVec.ofNat 11 offset, length := BitVec.ofNat 10 payload.length },
    payload := payload }

/-! ### Masked words -/

/-- The number of words of a mask below an index. -/
def maskRank (m : WordMask) (i : WordIx) : Nat := (m.words.filter fun j => decide (j < i)).length

/-- The masked words, ascending word index. -/
def gatherWords (m : WordMask) (data : Vector Word 4) : List Word := m.words.map fun i => data[i]

/-- Masked words put in their slots, 0 in the others. -/
def spreadWords (m : WordMask) (ws : List Word) : Vector Word 4 :=
  words4 fun i => if m.has i then ws.getD (maskRank m i) 0 else 0

/-! ### UPDATE (R59, R76) -/

/-- The UPDATE of one line's masked words, at a group position with a group length. -/
def composeUpdate (sender : Station) (l : Line) (m : WordMask) (data : Vector Word 4) (gpos : BitVec 3) (groupLength : Nat) :
    Frame :=
  composeFrame sender .update (segmentOf l) gpos (offsetOf l) m.size
    ((((0#19 ++ BitVec.ofNat 5 groupLength ++ 0#4 ++ m : BitVec 32)) :: gatherWords m data).flatMap wordBytes)

/-- The mask of an UPDATE. -/
def Frame.updateMask (f : Frame) : WordMask := f.word0.extractLsb' 0 4
/-- The group length of an UPDATE. -/
def Frame.groupLength (f : Frame) : Nat := (f.word0.extractLsb' 8 5).toNat
/-- The write an UPDATE carries: the masked words, plain (R61). -/
def Frame.updateWrite (f : Frame) : LineWrite :=
  { line := f.line, mask := f.updateMask, data := spreadWords f.updateMask f.words.tail, poison := 0 }

/-! ### COPY (R152) -/

/-- The void-mask field of place k, 0 for the first. -/
def voidField (masks : List WordMask) (k : Nat) : WordMask := masks.getD k 0

/-- The COPY of a job's lines for a catching station: first offset, lines, break mark. In the place of each void word
stands 0. -/
def composeCopy (sender catching : Station) (g : Segment) (first : Nat) (lines : List HeldLine) (mark : BitVec 3) : Frame :=
  let masks := lines.map (·.void)
  let last : BitVec 1 := if first + lines.length == segmentLines then 1 else 0
  let w0 : BitVec 32 := voidField masks 5 ++ voidField masks 4 ++ voidField masks 3 ++ voidField masks 2 ++ voidField masks 1
    ++ voidField masks 0 ++ 0#3 ++ last ++ stationBits catching
  let body := lines.flatMap fun l => wordIxs.map fun i => if l.void.has i then 0 else l.data[i]
  composeFrame sender .copy g mark first lines.length ((w0 :: body).flatMap wordBytes)

/-- The catching station a COPY names. -/
def Frame.copyStation (f : Frame) : Station := stationOfBits (f.word0.extractLsb' 0 4)
/-- The LAST flag. -/
def Frame.copyLast (f : Frame) : Bool := f.word0.getLsbD 4
/-- The void mask of place k, counted from 0. -/
def Frame.copyVoid (f : Frame) (k : Nat) : WordMask := f.word0.extractLsb' (8 + 4 * k) 4
/-- The writes a COPY carries for its catching station (R154): each line whole, void words poisoned with 0. -/
def Frame.copyWrites (f : Frame) : List LineWrite :=
  (List.range f.header.count.toNat).map fun k =>
    { line := lineAt f.segment (f.header.offset.toNat + k), mask := 15,
      data := words4 fun i => if (f.copyVoid k).has i then 0 else f.words.getD (1 + 4 * k + i.val) 0,
      poison := f.copyVoid k }

/-! ### GIVE, ASK, STALL (R173, R164, R158) -/

/-- The GIVE of a give entry; a void word is sent as 0. -/
def composeGive (sender : Station) (e : GiveEntry) : Frame :=
  composeFrame sender .give e.segment gposNone (offsetOf e.line) 0
    (((0#24 ++ e.void ++ stationBits e.asker : BitVec 32) :: wordIxs.map fun i => if e.void.has i then 0 else e.data[i]).flatMap
      wordBytes)

/-- The asker a GIVE names. -/
def Frame.giveAsker (f : Frame) : Station := stationOfBits (f.word0.extractLsb' 0 4)
/-- The void mask of a GIVE. -/
def Frame.giveVoid (f : Frame) : WordMask := f.word0.extractLsb' 4 4
/-- The write a GIVE carries: its non-void words, plain (R168). -/
def Frame.giveWrite (f : Frame) : LineWrite :=
  { line := f.line, mask := ~~~ f.giveVoid, data := words4 fun i => f.words.getD (1 + i.val) 0, poison := 0 }

/-- The ASK of a repair entry. -/
def composeAsk (sender : Station) (e : RepairEntry) : Frame :=
  composeFrame sender .ask e.segment gposNone (offsetOf e.line) 0 (wordBytes (0#28 ++ e.bad : BitVec 32))

/-- The bad mask of an ASK. -/
def Frame.askMask (f : Frame) : WordMask := f.word0.extractLsb' 0 4

/-- The STALL naming a server. -/
def composeStall (sender : Station) (g : Segment) (server : Station) : Frame :=
  composeFrame sender .stall g gposNone 0 0 (wordBytes (0#28 ++ stationBits server : BitVec 32))

/-- The server a STALL names. -/
def Frame.stallServer (f : Frame) : Station := stationOfBits (f.word0.extractLsb' 0 4)

/-! ### JOIN (R124) -/

/-- A JOIN's declarations. -/
abbrev Declarations := List (Segment × StationSet)

/-- The JOIN of a station's declarations. -/
def composeJoin (sender : Station) (ds : Declarations) : Frame :=
  composeFrame sender .join 0 gposNone 0 ds.length
    (ds.flatMap fun d => wordBytes (0#13 ++ segmentBits d.1 ++ d.2 : BitVec 32))

/-- The declarations of a JOIN: a segment field of 3 bits names no segment outside 0 to 7, and bits 31 to 19 are not read (R124,
log 51). -/
def Frame.declarations (f : Frame) : Declarations :=
  f.words.map fun w => (segmentOfBits (w.extractLsb' 16 3), w.extractLsb' 0 16)

/-! ### LEAVE and EMPTY (R138, R94) -/

/-- The LEAVE frame. -/
def composeLeave (sender : Station) : Frame := composeFrame sender .leave 0 gposNone 0 0 []
/-- The EMPTY frame. -/
def composeEmpty (sender : Station) : Frame := composeFrame sender .empty 0 gposNone 0 0 []

/-! ### The view image -/

/-- The member of a station in the view. -/
def View.member (v : View) (x : Station) : Option Member := v.members[x]
/-- Is a station present? -/
def View.present (v : View) (x : Station) : Bool := (v.member x).isSome
/-- The present stations, ascending. -/
def View.presentList (v : View) : List Station := stations.filter v.present
/-- The present set as a station set. -/
def View.presentSet (v : View) : StationSet := v.presentList.foldl (fun m x => m ||| StationSet.single x) 0
/-- A station's declared mirror set for a segment. -/
def View.declared (v : View) (x : Station) (g : Segment) : Option StationSet := (v.member x).bind fun m => m.declared[g]
/-- A station's member state in a segment; NONE outside the present set (R114). -/
def View.state (v : View) (x : Station) (g : Segment) : MemberState :=
  match v.member x with
  | some m => m.states[g]
  | none => .none

/-- Is the member state CATCHING? -/
def MemberState.isCatching : MemberState → Bool
  | .catching _ _ => true
  | .none | .current | .mismatch => false

/-- The code of a member state in the image. -/
def MemberState.code : MemberState → Nat
  | .none => 0
  | .current => 1
  | .catching _ _ => 2
  | .mismatch => 3

/-- The segments a member declares, as bits. -/
def Member.declares (m : Member) : Nat := segments.foldl (fun a g => if (m.declared[g]).isSome then a + 2 ^ g.val else a) 0

/-- Part 2 of the image for one present station. -/
def Member.imageBits (m : Member) : List Bool :=
  (match m.standing with | .settled => true | .awaiting => false) :: toBits 2 m.miss ++ toBits 2 m.reject ++ toBits 8 m.declares

/-- Part 3 of the image for one segment: declared sets and member states, then passed-over sets. -/
def View.segmentBits (v : View) (g : Segment) : List Bool :=
  (v.presentList.flatMap fun x =>
    match v.declared x g with
    | none => []
    | some d =>
      toBits 16 d.toNat ++ toBits 2 (v.state x g).code ++
        (match v.state x g with
         | .catching c _ => toBits 11 c
         | .none | .current | .mismatch => [])) ++
  (v.presentList.flatMap fun x =>
    match v.state x g with
    | .catching _ p => (v.presentList.filter fun y => v.state y g == .current).map p.has
    | .none | .current | .mismatch => [])

/-- The view image as bits (The view image). -/
def View.imageBits (v : View) : List Bool :=
  toBits 16 v.presentSet.toNat ++ toBits 4 v.lastWinner.val ++
  (v.presentList.flatMap fun x =>
    match v.member x with
    | some m => m.imageBits
    | none => []) ++
  segments.flatMap v.segmentBits

/-- The view image as bytes, padded. -/
def View.image (v : View) : List Byte := bitsToBytes v.imageBits

/-- The digest of a view (R116). -/
def View.digest (v : View) : Word := checkWord v.image

/-- The first n bits as a number, and the rest; absent when there are fewer. -/
def takeBits (n : Nat) (bs : List Bool) : Option (Nat × List Bool) :=
  if n ≤ bs.length then some (ofBits (bs.take n), bs.drop n) else none

/-- What part 2 of the image says of one station. -/
structure ImageHead where
  settled  : Bool
  miss     : Nat
  reject   : Nat
  declares : Nat
  deriving DecidableEq, Repr

/-- Part 2 read for the present stations in turn. R114 gives miss counts of 0 to 2 alone; an image whose 2-bit count is 3 is not
marked for it (R131 lists no such case), and the joiner takes the 3 as the member's miss count (log 48). -/
def readHeads : List Station → List Bool → Option (List (Station × ImageHead) × List Bool)
  | [], bs => some ([], bs)
  | x :: xs, bs =>
    (takeBits 1 bs).bind fun (a, bs) => (takeBits 2 bs).bind fun (b, bs) => (takeBits 2 bs).bind fun (c, bs) =>
      (takeBits 8 bs).bind fun (d, bs) => (readHeads xs bs).map fun (r, bs) => ((x, ⟨a == 1, b, c, d⟩) :: r, bs)

/-- The first part of a segment's section, for the declaring stations in turn: set, member state, cursor. A
member-state field of 0, which Formats does not name, reads as NONE (log 48). -/
def readDeclared : List Station → List Bool → Option (List (Station × StationSet × MemberState) × List Bool)
  | [], bs => some ([], bs)
  | x :: xs, bs =>
    (takeBits 16 bs).bind fun (d, bs) => (takeBits 2 bs).bind fun (c, bs) =>
      if c == 2 then
        (takeBits 11 bs).bind fun (u, bs) => (readDeclared xs bs).map fun (r, bs) =>
          ((x, BitVec.ofNat 16 d, .catching u 0) :: r, bs)
      else
        (readDeclared xs bs).map fun (r, bs) =>
          ((x, BitVec.ofNat 16 d, if c == 1 then .current else if c == 3 then .mismatch else .none) :: r, bs)

/-- A passed-over set from one bit per CURRENT station. -/
def passedOf (current : List Station) (bits : List Bool) : StationSet :=
  (current.zip bits).foldl (fun m p => if p.2 then m ||| StationSet.single p.1 else m) 0

/-- The second part of a segment's section: the passed-over sets of the catching stations in turn. -/
def readPassed (current : List Station) :
    List (Station × StationSet × MemberState) → List Bool → Option (List (Station × StationSet × MemberState) × List Bool)
  | [], bs => some ([], bs)
  | (x, d, .catching u _) :: xs, bs =>
    if current.length ≤ bs.length then
      (readPassed current xs (bs.drop current.length)).map fun (r, bs') =>
        ((x, d, .catching u (passedOf current (bs.take current.length))) :: r, bs')
    else none
  | e :: xs, bs => (readPassed current xs bs).map fun (r, bs) => (e :: r, bs)

/-- What the image says of one segment's declaring stations. -/
abbrev SegmentImage := List (Station × StationSet × MemberState)

/-- One segment's section. -/
def readSegment (g : Segment) (heads : List (Station × ImageHead)) (bs : List Bool) : Option (SegmentImage × List Bool) :=
  (readDeclared ((heads.filter fun h => h.2.declares.testBit g.val).map (·.1)) bs).bind fun (ds, bs) =>
    readPassed ((ds.filter fun e => e.2.2 == .current).map (·.1)) ds bs

/-- The sections of the segments in turn. -/
def readSegments (heads : List (Station × ImageHead)) :
    List Segment → List Bool → Option (List (Segment × SegmentImage) × List Bool)
  | [], bs => some ([], bs)
  | g :: gs, bs =>
    (readSegment g heads bs).bind fun (e, bs) => (readSegments heads gs bs).map fun (r, bs) => ((g, e) :: r, bs)

/-- A member put together from its parts of the image. -/
def memberOfImage (x : Station) (h : ImageHead) (secs : List (Segment × SegmentImage)) : Member :=
  let entry (g : Segment) := (secs.lookup g).bind fun e => e.lookup x
  { standing := if h.settled then .settled else .awaiting,
    declared := Vector.ofFn fun g : Segment => (entry g).map (·.1),
    states := Vector.ofFn fun g : Segment => ((entry g).map (·.2)).getD .none,
    miss := h.miss, reject := h.reject }

/-- The view read from bits, and the number of bits it took; absent when the bits run out. -/
def readImage (bs : List Bool) : Option (View × Nat) :=
  (takeBits 16 bs).bind fun (p, b1) => (takeBits 4 b1).bind fun (w, b2) =>
    (readHeads (stations.filter (StationSet.has (BitVec.ofNat 16 p))) b2).bind fun (heads, b3) =>
      (readSegments heads segments b3).map fun (secs, rest) =>
        ({ members := Vector.ofFn fun x : Station => (heads.lookup x).map fun h => memberOfImage x h secs,
           lastWinner := Fin.ofNat 16 w },
         bs.length - rest.length)

/-! ### ROSTER (R131) -/

/-- The ROSTER to a joiner. -/
def composeRoster (sender joiner : Station) (v : View) : Frame :=
  composeFrame sender .roster 0 gposNone 0 0 (wordBytes (0#28 ++ stationBits joiner : BitVec 32) ++ v.image ++ wordBytes v.digest)

/-- What a ROSTER carries. -/
structure RosterContent where
  joiner : Station
  view   : View
  image  : List Byte
  digest : Word
  deriving DecidableEq, Repr

/-- The content of a ROSTER payload, read from fields already read; absent when the image runs past the payload. -/
def Frame.rosterContent (f : Frame) : Option RosterContent :=
  (readImage (bytesBits (f.payload.drop 4))).map fun (v, n) =>
    { joiner := stationOfBits (f.word0.extractLsb' 0 4), view := v, image := (f.payload.drop 4).take (bytesFor n),
      digest := (bytesWords ((f.payload.drop 4).drop (bytesFor n))).headD 0 }

/-! ### Lengths (R98) -/

/-- The length Formats gives for a kind and count; a ROSTER's follows from the image it carries. -/
def Frame.expectedLength (f : Frame) (k : FrameKind) : Option Nat :=
  match k with
  | .update => some (4 + 4 * f.header.count.toNat)
  | .copy => some (4 + 16 * f.header.count.toNat)
  | .give => some 20
  | .ask | .stall => some 4
  | .join => some (4 * f.header.count.toNat)
  | .leave | .empty => some 0
  | .roster => f.rosterContent.map fun c => 4 + c.image.length + 4

/-! ### Words of the control window -/

/-- A staging record's first word: line 13-0, mask 19-16, STOP 20, link 27-24. -/
def Record.word0 (r : Record) : Word :=
  0#4 ++ BitVec.ofNat 4 r.link.val ++ 0#3 ++ BitVec.ofBool r.stop ++ r.mask ++ 0#2 ++ BitVec.ofNat 14 r.line.val

/-- A record with its first word written: the assigned bits are stored, the others discarded (R185). -/
def Record.setWord0 (r : Record) (w : Word) : Record :=
  { r with line := ⟨(w.extractLsb' 0 14).toNat, (w.extractLsb' 0 14).isLt⟩, mask := w.extractLsb' 16 4, stop := w.getLsbD 20,
           link := ⟨(w.extractLsb' 24 4).toNat, (w.extractLsb' 24 4).isLt⟩ }

/-- The kind codes of the log, in the order of the kinds table: 1 to 15. -/
def LogKind.code : LogKind → Nat
  | .wordLost => 1
  | .repairFailed => 2
  | .spared => 3
  | .spareExhausted => 4
  | .spareRetired => 5
  | .outboundDiscard => 6
  | .frameDiscarded => 7
  | .expelled => 8
  | .selfFault => 9
  | .missed => 10
  | .joinFailed => 11
  | .mismatch => 12
  | .founded => 13
  | .catchupStalled => 14
  | .duplicateNumber => 15

/-- The origin codes of the log. -/
def Origin.code : Origin → Nat
  | .localRead => 0
  | .scrub => 1
  | .prefetch => 2
  | .bus => 3
  | .port => 4

/-- Word A of a log entry: an absent field reads 0 with its present bit clear. -/
def LogEntry.wordA (e : LogEntry) : Word :=
  BitVec.ofNat 14 (e.line.elim 0 (·.val)) ++ 0#1 ++ BitVec.ofNat 4 (e.station.elim 0 (·.val)) ++ BitVec.ofBool e.station.isSome ++
    BitVec.ofBool e.line.isSome ++ BitVec.ofNat 3 (e.segment.elim 0 (·.val)) ++ BitVec.ofBool e.segment.isSome ++
    BitVec.ofNat 3 e.origin.code ++ BitVec.ofNat 4 e.kind.code

/-- Word B of a log entry: its detail. -/
def LogEntry.wordB (e : LogEntry) : Word := 0#16 ++ BitVec.ofNat 16 e.detail

/-- The code of a result. -/
def ResultCode.code : ResultCode → Nat
  | .ok => 0
  | .busy => 1
  | .refused => 2
  | .configInvalid => 3
  | .invalidCommand => 4

/-- The result word. -/
def ResultWord.word (r : ResultWord) : Word :=
  0#16 ++ BitVec.ofNat 8 (if r.code = .configInvalid then r.index else 0) ++ BitVec.ofNat 8 r.code.code

/-- The code of a failure. -/
def FailCode.code : FailCode → Nat
  | .chainTooLong => 1
  | .chainEmptyRecord => 2
  | .chainNotWritable => 3
  | .chainAborted => 4
  | .abandoned => 5

/-- The COMMIT_STATE word: state 2-0, failure code 10-8, record index 19-16. -/
def CommitState.word : CommitState → Word
  | .idle => 0
  | .queued => 1
  | .sending => 2
  | .done => 3
  | .failed c r => 0#12 ++ BitVec.ofNat 4 r.val ++ 0#5 ++ BitVec.ofNat 3 c.code ++ 0#5 ++ 4#3

/-- The code of a station state. -/
def StationState.code : StationState → Nat
  | .config => 0
  | .clocking => 1
  | .filling => 2
  | .listening => 3
  | .joining => 4
  | .rosterWait => 5
  | .joined => 6
  | .leaving => 7
  | .offline => 8

/-- The code of an OFFLINE cause. -/
def OfflineCause.code : OfflineCause → Nat
  | .expelled => 1
  | .selfFault => 2
  | .missed => 3
  | .joinFailed => 4
  | .left => 5

/-- The code of a local state. -/
def LocalState.code : LocalState → Nat
  | .off => 0
  | .localOnly => 1
  | .detached => 2
  | .mismatch => 3
  | .current => 4
  | .catching => 5
  | .orphaned => 6

end Sys2Proof.Machine
end

