-- ==== Sys2Proof/Machine/Flags.lean ====
section
/-! DEFINITION. The status flags, the interrupt output, the result word and the error log (R177 to R181). Every flag that an
event sets and every entry that a rule raises goes through this file. -/

namespace Sys2Proof.Machine

/-- The eleven status flags (R178). -/
inductive StatusFlag where
  | busReady
  | joined
  | offline
  | segmentChange
  | peerChange
  | catchupDone
  | chainDone
  | chainFailed
  | scrubPass
  | logNonempty
  | logOverflow
  deriving DecidableEq, Repr

/-- A flag's position in the status and enable words (12_formats.md). -/
def StatusFlag.bit : StatusFlag → Nat
  | .busReady => 0
  | .joined => 1
  | .offline => 2
  | .segmentChange => 3
  | .peerChange => 4
  | .catchupDone => 5
  | .chainDone => 6
  | .chainFailed => 7
  | .scrubPass => 8
  | .logNonempty => 9
  | .logOverflow => 10

/-- The flag alone, as a flag word. -/
def StatusFlag.mask (f : StatusFlag) : BitVec 11 := BitVec.ofNat 11 (2 ^ f.bit)

/-- Is the flag set in a flag word? -/
def StatusFlag.isIn (f : StatusFlag) (w : BitVec 11) : Bool := w.getLsbD f.bit

/-- Set a status flag; one already set stays set (R178). -/
def Reporting.setFlag (r : Reporting) (f : StatusFlag) : Reporting := { r with flags := r.flags ||| f.mask }

/-- Raise a log entry: taken at the tail while the log holds fewer than 4, otherwise refused and counted (R180). -/
def Reporting.raise (r : Reporting) (e : LogEntry) : Reporting :=
  if r.log.length < logCapacity then
    { r with log := r.log ++ [e], flags := r.flags ||| StatusFlag.logNonempty.mask }
  else
    { r with overflow := min (r.overflow + 1) overflowMax, flags := r.flags ||| StatusFlag.logOverflow.mask }

/-- Remove the oldest entry; an empty log stays as it is (R181). -/
def Reporting.popLog (r : Reporting) : Reporting := { r with log := r.log.tail }

/-- Read the overflow count: it returns to 0 and LOG_OVERFLOW stays (R181). -/
def Reporting.takeOverflow (r : Reporting) : Reporting := { r with overflow := 0 }

/-- Clear the flags whose positions are 1 in the data; LOG_NONEMPTY stays while the log holds an entry (R178, R180). -/
def Reporting.clearFlags (r : Reporting) (d : Word) : Reporting :=
  let wanted : BitVec 11 := d.extractLsb' 0 11
  let cleared := if r.log.isEmpty then wanted else wanted &&& ~~~StatusFlag.logNonempty.mask
  { r with flags := r.flags &&& ~~~cleared }

/-- Leave a command's outcome in the result word (R177). -/
def Reporting.setResult (r : Reporting) (c : ResultCode) (index : Nat) : Reporting := { r with result := ⟨c, index⟩ }

/-- Set a status flag of the machine. -/
def State.setFlag (s : State) (f : StatusFlag) : State := { s with rep := s.rep.setFlag f }

/-- Set a flag when a condition holds. -/
def State.setFlagIf (s : State) (c : Bool) (f : StatusFlag) : State := if c then s.setFlag f else s

/-- Raise a log entry of the machine. -/
def State.raise (s : State) (e : LogEntry) : State := { s with rep := s.rep.raise e }

/-- Leave a command's outcome in the result word. -/
def State.setResult (s : State) (c : ResultCode) (index : Nat := 0) : State := { s with rep := s.rep.setResult c index }

/-- The flags that count toward the interrupt output: CHAIN_DONE only beside the done-notify mark (R179). -/
def State.interruptFlags (s : State) : BitVec 11 :=
  let live := s.rep.flags &&& s.rep.enables
  if s.commit.doneNotify then live else live &&& ~~~StatusFlag.chainDone.mask

/-- The interrupt output (R179). -/
def State.interruptOutput (s : State) : Bool := s.interruptFlags != 0

/-- An entry of origin BUS. -/
def busEntry (k : LogKind) (g : Option Segment) (l : Option Line) (x : Option Station) (detail : Nat) : LogEntry :=
  { kind := k, origin := .bus, segment := g, line := l, station := x, detail := detail }

/-- An entry that concerns a line, with no station. -/
def lineEntry (k : LogKind) (o : Origin) (l : Line) (detail : Nat) : LogEntry :=
  { kind := k, origin := o, segment := some (segmentOf l), line := some l, station := none, detail := detail }

end Sys2Proof.Machine
end

