-- ==== Sys2Proof/Machine/Views.lean ====
section
/-! DEFINITION. The roster view: the selections derived from it (R117), joining and founding (R127, R128), marking absent
(R118), the counters of a frame end (R110 to R112), and what a frame's own effects change in it. -/

namespace Sys2Proof.Machine

/-! ### Selections (R117) -/

/-- Is a station present and SETTLED? -/
def View.settled (v : View) (x : Station) : Bool :=
  match v.member x with
  | some m => m.standing == .settled
  | none => false

/-- Is a station present and AWAITING? -/
def View.awaiting (v : View) (x : Station) : Bool :=
  match v.member x with
  | some m => m.standing == .awaiting
  | none => false

/-- A member of a segment is CURRENT or CATCHING there (04, Sending). -/
def View.isMember (v : View) (x : Station) (g : Segment) : Bool :=
  match v.state x g with
  | .current | .catching _ _ => true
  | .none | .mismatch => false

/-- Is a present station CURRENT in a segment? -/
def View.isCurrent (v : View) (x : Station) (g : Segment) : Bool := v.state x g == .current

/-- The cursor of a pair, if the pair exists. -/
def View.cursor (v : View) (j : Station) (g : Segment) : Option Nat :=
  match v.state j g with
  | .catching c _ => some c
  | .none | .current | .mismatch => none

/-- The server of a pair (R117). -/
def View.server (v : View) (j : Station) (g : Segment) : Option Station :=
  match v.state j g with
  | .catching _ passed => v.presentList.find? fun x => x != j && v.isCurrent x g && !passed.has x
  | .none | .current | .mismatch => none

/-- The join responder for a JOIN by x (R117). -/
def View.joinResponder (v : View) (x : Station) : Option Station := v.presentList.find? fun y => y != x && v.settled y

/-- The repair responder for an asker in a segment (R117). -/
def View.repairResponder (v : View) (x : Station) (g : Segment) : Option Station :=
  v.presentList.find? fun y => y != x && v.isCurrent y g

/-- Is some present station other than j CURRENT in a segment? -/
def View.otherCurrent (v : View) (j : Station) (g : Segment) : Bool := v.presentList.any fun y => y != j && v.isCurrent y g

/-- The local state a station's own entry gives a MIRRORED segment (R134). A NONE, of an image alone, reads DETACHED
(log 26). -/
def View.localState (v : View) (me : Station) (g : Segment) : LocalState :=
  match v.state me g with
  | .none => .detached
  | .mismatch => .mismatch
  | .current => .current
  | .catching _ _ =>
    match v.server me g with
    | some p => if v.settled p then .catching else .orphaned
    | none => .orphaned

/-! ### Changing members -/

/-- Replace one station's member. -/
def View.setMember (v : View) (x : Station) (m : Option Member) : View :=
  { v with members := Vector.ofFn fun y : Station => if y = x then m else v.member y }

/-- Change every member. -/
def View.mapMembers (v : View) (f : Station → Member → Member) : View :=
  { v with members := Vector.ofFn fun y : Station => (v.member y).map (f y) }

/-- Change one station's member, if it is present. -/
def View.modifyMember (v : View) (x : Station) (f : Member → Member) : View :=
  v.mapMembers fun y m => if y = x then f m else m

/-- Set one member state. -/
def Member.setState (m : Member) (g : Segment) (st : MemberState) : Member :=
  { m with states := Vector.ofFn fun h : Segment => if h = g then st else m.states[h] }

/-- Set one station's member state in a segment. -/
def View.setState (v : View) (x : Station) (g : Segment) (st : MemberState) : View :=
  v.modifyMember x fun m => m.setState g st

/-- Change every pair of a member. -/
def Member.mapPairs (m : Member) (f : Segment → Nat → StationSet → MemberState) : Member :=
  { m with states := Vector.ofFn fun g : Segment =>
      match m.states[g] with
      | .catching c p => f g c p
      | .none => .none
      | .current => .current
      | .mismatch => .mismatch }

/-! ### Marking absent (R118) -/

/-- A set without one station. -/
def StationSet.without (m : StationSet) (x : Station) : StationSet := m &&& ~~~StationSet.single x

/-- A station leaves the view and every passed-over set; last_winner stays (R118). -/
def View.without (v : View) (x : Station) : View :=
  (v.setMember x none).mapMembers fun _ m => m.mapPairs fun _ c p => .catching c (StationSet.without p x)

/-- Has a pair no server while some other present station is CURRENT in its segment? -/
def View.spent (v : View) (j : Station) (g : Segment) : Bool := (v.server j g).isNone && v.otherCurrent j g

/-- Every pair left without a server while another present station is CURRENT has its passed-over set cleared (R118). -/
def View.clearSpent (v : View) : View :=
  v.mapMembers fun j m => m.mapPairs fun g c p => .catching c (if v.spent j g then 0 else p)

/-- Mark stations absent together: the selections are derived after all of the removals (R112, R118). -/
def View.markAbsent (v : View) (xs : List Station) : View := (xs.foldl View.without v).clearSpent

/-! ### Joining (R127, R128) -/

/-- The present stations whose declared sets break a condition of R128 for x declaring m in segment g. -/
def View.conflicts (v : View) (x : Station) (g : Segment) (m : StationSet) : List Station :=
  v.presentList.filter fun y =>
    y != x &&
      ((m.has y && v.declared y g != some m) ||
        (match v.declared y g with
         | some d => d.has x && d != m
         | none => false))

/-- A founding in g: every pair of the segment starts over (R128). -/
def View.restartPairs (v : View) (g : Segment) : View :=
  v.mapMembers fun _ m => m.mapPairs fun h c p => if h = g then .catching 0 0 else .catching c p

/-- Judge one declared segment of a joiner (R128). -/
def View.judgeSegment (v : View) (x : Station) (d : Segment × StationSet) : View :=
  if !(v.conflicts x d.1 d.2).isEmpty then v.setState x d.1 .mismatch
  else if v.otherCurrent x d.1 then v.setState x d.1 (.catching 0 0)
  else (v.restartPairs d.1).setState x d.1 .current

/-- The member a JOIN makes present: counts 0, the declared sets recorded, every member state NONE (R127). -/
def joinedMember (standing : Standing) (ds : Declarations) : Member :=
  { standing := standing, declared := Vector.ofFn fun g : Segment => ds.lookup g, states := Vector.replicate 8 .none,
    miss := 0, reject := 0 }

/-- An accepted JOIN from x: absent first if present, then present with every declared segment judged (R127). -/
def View.join (v : View) (x : Station) (standing : Standing) (ds : Declarations) : View :=
  let gone := if v.present x then v.markAbsent [x] else v
  ds.foldl (fun v d => v.judgeSegment x d) (gone.setMember x (some (joinedMember standing ds)))

/-- The view of a station that joins alone, before the end-field changes: last_winner 15 (R129). -/
def View.alone (x : Station) (ds : Declarations) : View :=
  View.join { members := Vector.replicate 16 none, lastWinner := 15 } x .settled ds

/-! ### The other own effects -/

/-- An accepted ROSTER: the addressed station becomes SETTLED (R132). -/
def View.settle (v : View) (x : Station) : View := v.modifyMember x fun m => { m with standing := .settled }

/-- An accepted COPY: the pair's cursor rises, and at LAST the station becomes CURRENT (R154). -/
def View.copied (v : View) (j : Station) (g : Segment) (first n : Nat) (last : Bool) : View :=
  match v.state j g with
  | .catching _ p => v.setState j g (if last then .current else .catching (first + n) p)
  | .none | .current | .mismatch => v

/-- An accepted STALL: the named server is passed over, and a set that leaves no server is cleared (R159). -/
def View.passOver (v : View) (j : Station) (g : Segment) (p : Station) : View :=
  match v.state j g with
  | .catching c passed =>
    let v' := v.setState j g (.catching c (passed ||| StationSet.single p))
    if v'.spent j g then v.setState j g (.catching c 0) else v'
  | .none | .current | .mismatch => v

/-! ### The end field (R106, R107) -/

/-- Is a station's ACK slot driven? -/
def ackSlot (slots : Slots) (x : Station) : Bool := slots.getLsbD (2 * x.val)
/-- Is a station's REJECT slot driven? -/
def rejectSlot (slots : Slots) (x : Station) : Bool := slots.getLsbD (2 * x.val + 1)
/-- Did a station drive ACK, taking a driven REJECT as REJECT? -/
def droveAck (slots : Slots) (x : Station) : Bool := ackSlot slots x && !rejectSlot slots x
/-- Was no REJECT slot at all driven (R89)? -/
def noReject (slots : Slots) : Bool := stations.all fun x => !rejectSlot slots x
/-- Was some slot driven? -/
def someSlot (slots : Slots) : Bool := slots != 0

/-- Acceptance at a station that holds a view (R107). The owner's own REJECT slot counts, also where the owner is the only present
station (R106, R111, R129, log 50). -/
def View.accepts (v : View) (slots : Slots) : Bool := v.presentList.all fun x => !rejectSlot slots x

/-! ### Counters (R109 to R112) -/

/-- A station that reached a limit, with its cause. -/
abbrev Marking := Station × OfflineCause

/-- The counters of one station at an accepted frame (R110). -/
def Member.countAccepted (m : Member) (isOwner ack : Bool) : Member :=
  if isOwner || ack then { m with miss := 0, reject := 0 } else { m with miss := m.miss + 1 }

/-- The end-field changes of an accepted frame: last_winner takes the owner, and the stations present during the frame are
counted (R110). -/
def View.countAccepted (v during : View) (owner : Station) (slots : Slots) : View :=
  { v.mapMembers fun x m =>
      if during.present x then m.countAccepted (x == owner) (droveAck slots x) else m with lastWinner := owner }

/-- The stations present during the frame, other than its owner, that drove ACK (R111). -/
def View.ackers (during : View) (owner : Station) (slots : Slots) : List Station :=
  during.presentList.filter fun x => x != owner && droveAck slots x

/-- The stations whose reject count a rejected frame raises (R111). -/
def View.atFault (during : View) (owner : Station) (slots : Slots) : List Station :=
  if (during.ackers owner slots).isEmpty then during.presentList.filter (· == owner)
  else during.presentList.filter (rejectSlot slots)

/-- The end-field changes of a rejected frame (R111). -/
def View.countRejected (v during : View) (owner : Station) (slots : Slots) : View :=
  v.mapMembers fun x m =>
    if (during.atFault owner slots).contains x then { m with reject := m.reject + 1 }
    else if (during.ackers owner slots).contains x then { m with reject := 0 }
    else m

/-- The stations at a limit after the counters moved, ascending (R112). -/
def View.limits (v during : View) (owner : Station) (slots : Slots) : List Marking :=
  v.presentList.filterMap fun x =>
    match v.member x with
    | none => none
    | some m =>
      if missLimit ≤ m.miss then some (x, .missed)
      else if rejectLimit ≤ m.reject then
        some (x, if (during.ackers owner slots).isEmpty then .selfFault else .expelled)
      else none

/-- The log kind of a marking (R112). -/
def OfflineCause.logKind : OfflineCause → LogKind
  | .expelled => .expelled
  | .selfFault => .selfFault
  | .missed | .joinFailed | .left => .missed

/-! ### Frames -/

/-- What an accepted frame's own effects make of the view (R127, R132, R138, R154, R159). -/
def Frame.viewEffect (f : Frame) (v : View) : View :=
  match f.kind? with
  | some .join => v.join f.sender .awaiting f.declarations
  | some .roster =>
    match f.rosterContent with
    | some c => v.settle c.joiner
    | none => v
  | some .leave => v.markAbsent [f.sender]
  | some .copy => v.copied f.copyStation f.segment f.header.offset.toNat f.header.count.toNat f.copyLast
  | some .stall => v.passOver f.sender f.segment f.stallServer
  | some .update | some .ask | some .give | some .empty | none => v

end Sys2Proof.Machine
end

