-- ==== Sys2Proof/Machine/Ops.lean ====
section
/-! DEFINITION. The shared operations: the fields of the configuration block, the local segment states, and the named
operations on the retention domain (reads, masked writes, the spare redirection, the two copies). -/

namespace Sys2Proof

/-- The key of a word of the retention domain: array word a is a, word w of spare line k is 65536 + 4k + w (log 3). -/
def StoreWord.key : StoreWord → Nat
  | .array a => a.toNat
  | .spare k w => 65536 + 4 * k.val + w.val

/-- Does an entry redirect a line: FILLING or ACTIVE, and naming it? -/
def SpareEntry.names (e : SpareEntry) (l : Line) : Bool :=
  (match e.state with
   | .filling | .active => true
   | .free | .retired => false) && e.line == some l

/-- The cell as a plain write of its data leaves it. -/
def Cell.cleaned (c : Cell) : Cell := ⟨c.data, .clean⟩

/-- A fault on one word: its health worsens by one step; an UNCORRECTABLE word takes the raw data (R4). -/
def Cell.faulted (c : Cell) (raw : Word) : Cell :=
  match c.health with
  | .clean => ⟨c.data, .correctable⟩
  | .correctable | .uncorrectable => ⟨raw, .uncorrectable⟩

end Sys2Proof

namespace Sys2Proof.Machine

/-! ### The configuration block (R174, 12_formats.md) -/

/-- The number a configuration word holds. -/
def Reporting.field (r : Reporting) (i : Fin 21) : Nat := r.config[i].toNat

/-- A segment's descriptor word. -/
def Reporting.descriptor (r : Reporting) (g : Segment) : Word :=
  let i : Fin 21 := ⟨1 + g.val, by omega⟩
  r.config[i]

/-- The mode of a descriptor; code 3 names none (log 26). -/
def descriptorMode (d : Word) : Mode :=
  match (d.extractLsb' 16 2).toNat with
  | 0 => .off
  | 1 => .localOnly
  | 2 => .mirrored
  | _ => Config.unnamedMode

/-- The scrub mode of a descriptor; code 3 names none (log 26). -/
def descriptorScrub (d : Word) : ScrubMode :=
  match (d.extractLsb' 18 2).toNat with
  | 0 => .off
  | 1 => .passive
  | 2 => .active
  | _ => Config.unnamedScrub

/-- The mirror set of a descriptor. -/
def descriptorSet (d : Word) : StationSet := d.extractLsb' 0 16

/-- This station's number: field 0. -/
def State.me (s : State) : Station := Fin.ofNat 16 (s.rep.field 0)
/-- The configured mode of a segment. -/
def State.mode (s : State) (g : Segment) : Mode := descriptorMode (s.rep.descriptor g)
/-- The mirror set of a segment. -/
def State.mirrorSet (s : State) (g : Segment) : StationSet := descriptorSet (s.rep.descriptor g)
/-- The scrub mode of a segment; an OFF segment's is taken as OFF (R5). -/
def State.scrub (s : State) (g : Segment) : ScrubMode :=
  match s.mode g with
  | .off => .off
  | .localOnly | .mirrored => descriptorScrub (s.rep.descriptor g)
/-- The fill flag of a segment. -/
def State.fillFlag (s : State) (g : Segment) : Bool := (s.rep.descriptor g).getLsbD 20
/-- The frozen stabilisation wait's target, 2^n (R176). -/
def State.stabTarget (s : State) : Nat := 2 ^ (s.rep.field 10)
/-- RUN_MIN. -/
def State.runMin (s : State) : Nat := s.rep.field 11
/-- RUN_MAX. -/
def State.runMax (s : State) : Nat := s.rep.field 12
/-- The progress floor. -/
def State.progressFloor (s : State) : Nat := s.rep.field 16
/-- Scrub FAST. -/
def State.scrubFast (s : State) : Nat := s.rep.field 17
/-- Scrub SLOW. -/
def State.scrubSlow (s : State) : Nat := s.rep.field 18
/-- Scrub STEP. -/
def State.scrubStep (s : State) : Nat := s.rep.field 19
/-- The spare threshold. -/
def State.threshold (s : State) : Nat := s.rep.field 20

/-! ### The station state and the local states (R122, R134) -/

/-- Is the station JOINED or LEAVING? -/
def State.inGroup (s : State) : Bool := s.join.station == .joined || s.join.station == .leaving

/-- The roster view, held in JOINED and LEAVING alone (R114). -/
def State.heldView (s : State) : Option View := if s.inGroup then s.view else none

/-- Has START frozen the configuration, and CLOCKING passed, so that blocks present store operations? -/
def State.started (s : State) : Bool := s.join.station != .config && s.join.station != .clocking

/-- This station's own member state in a segment. -/
def State.ownState (s : State) (g : Segment) : MemberState :=
  match s.heldView with
  | some v => v.state s.me g
  | none => .none

/-- This station's own cursor in a segment, while it is CATCHING there. -/
def State.ownCursor (s : State) (g : Segment) : Option Nat :=
  match s.ownState g with
  | .catching c _ => some c
  | .none | .current | .mismatch => none

/-- The local state of a segment (R134). -/
def State.localState (s : State) (g : Segment) : LocalState :=
  match s.mode g with
  | .off => .off
  | .localOnly => .localOnly
  | .mirrored =>
    match s.heldView with
    | some v => v.localState s.me g
    | none => .detached

/-- The local states of all segments. -/
def State.localStates (s : State) : List LocalState := segments.map s.localState

/-- Is a segment writable by a chain (R72)? -/
def State.writable (s : State) (g : Segment) : Bool :=
  match s.localState g with
  | .current | .catching => true
  | .off | .localOnly | .detached | .mismatch | .orphaned => false

/-- Is a word of a line repairable (R162)? -/
def State.repairable (s : State) (l : Line) : Bool :=
  s.mode (segmentOf l) == .mirrored &&
    (match s.ownState (segmentOf l) with
     | .current => true
     | .catching c _ => decide (offsetOf l < c)
     | .none | .mismatch => false)

/-! ### Cells (R2, R3, R7) -/

/-- The word location of a word index of an array line. -/
def arrayWord (l : Line) (i : WordIx) : StoreWord := .array (BitVec.ofNat 16 (4 * l.val + i.val))

/-- A cell put in a listing kept by rising key. -/
def insertCell (k : Nat) (c : Cell) : List (Nat × Cell) → List (Nat × Cell)
  | [] => [(k, c)]
  | e :: es => if k < e.1 then (k, c) :: e :: es else if k = e.1 then (k, c) :: es else e :: insertCell k c es

/-- The canonical form of the listing: strictly rising keys. -/
def cellsRising : List (Nat × Cell) → Bool
  | [] => true
  | [_] => true
  | a :: b :: rest => decide (a.1 < b.1) && cellsRising (b :: rest)

/-- The canonical form of the store (log 3). -/
def Store.wf (st : Store) : Bool := cellsRising st.cells

/-- What a word holds; an unlisted one reads as a free value (R7). -/
def Store.cell (st : Store) (w : StoreWord) : Cell :=
  (st.cells.lookup w.key).getD (Config.lostCell st.losses w.key)

/-- Write one word. -/
def Store.put (st : Store) (w : StoreWord) (c : Cell) : Store := { st with cells := insertCell w.key c st.cells }

/-- Write the words of a mask at the locations given. -/
def Store.putMask (st : Store) (at' : WordIx → StoreWord) (m : WordMask) (cell : WordIx → Cell) : Store :=
  m.words.foldl (fun st i => st.put (at' i) (cell i)) st

/-- The cell a masked line write leaves in a word: CLEAN when plain, UNCORRECTABLE when poisoned (R3). -/
def LineWrite.cell (w : LineWrite) (i : WordIx) : Cell := ⟨w.data[i], if w.poison.has i then .uncorrectable else .clean⟩

/-! ### The spare redirection (R11, R12) -/

/-- The entry that redirects a line. While the table is lost, none (R29). -/
def Store.spareFor (st : Store) (l : Line) : Option SpareIx :=
  if st.tableLost then none else spareIxs.find? fun k => st.table[k].names l

/-- The entry that redirects a line, if it is ACTIVE. -/
def Store.activeSpare (st : Store) (l : Line) : Option SpareIx :=
  (st.spareFor l).filter fun k => st.table[k].state == .active

/-- Where a line's words are read: the ACTIVE spare, otherwise the array (R11). -/
def Store.readAt (st : Store) (l : Line) (i : WordIx) : StoreWord :=
  match st.activeSpare l with
  | some k => .spare k i
  | none => arrayWord l i

/-- The four cells a read of a line finds (R2, R11). -/
def Store.readLine (st : Store) (l : Line) : Vector Cell 4 := words4 fun i => st.cell (st.readAt l i)

/-- Replace one entry of the spare table. -/
def Store.setEntry (st : Store) (k : SpareIx) (e : SpareEntry) : Store := { st with table := st.table.set k e }

/-- Set mask bits of an entry. -/
def Store.markWritten (st : Store) (k : SpareIx) (m : WordMask) : Store :=
  st.setEntry k { st.table[k] with mask := st.table[k].mask ||| m }

/-- A FILLING entry whose mask is full becomes ACTIVE (R33). -/
def Store.activate (st : Store) (k : SpareIx) : Store :=
  if st.table[k].state == .filling && st.table[k].mask == 15#4 then st.setEntry k { st.table[k] with state := .active } else st

/-- Words written to a line where R12 sends them: those of `arr` to the array copy and those of `spr` to the spare copy, each
where the line's entry has that copy written. A completed write has both masks equal. -/
def Store.writeParts (st : Store) (l : Line) (arr spr : WordMask) (cell : WordIx → Cell) : Store :=
  match st.spareFor l with
  | none => st.putMask (arrayWord l) arr cell
  | some k =>
    if st.table[k].state == .active then st.putMask (.spare k) spr cell
    else ((st.putMask (arrayWord l) arr cell).putMask (.spare k) spr cell).markWritten k spr

/-- The entry of a line activated, if its mask is full. -/
def Store.activateLine (st : Store) (l : Line) : Store :=
  match st.spareFor l with
  | none => st
  | some k => st.activate k

/-- A completed write of masked words to a line (R12, R33). -/
def Store.writeWords (st : Store) (l : Line) (m : WordMask) (cell : WordIx → Cell) : Store :=
  if m == 0 then st else (st.writeParts l m m cell).activateLine l

/-- A completed masked line write (R8). -/
def Store.write (st : Store) (w : LineWrite) : Store := st.writeWords w.line w.mask w.cell

/-! ### Reads with write-back, and the copies (R13, R14, R35) -/

/-- The words of a line that satisfy a test. -/
def maskOf (p : WordIx → Bool) : WordMask := wordIxs.foldl (fun m i => if p i then m ||| WordMask.single i else m) 0

/-- The CORRECTABLE words of cells read. -/
def correctableMask (cells : Vector Cell 4) : WordMask := maskOf fun i => cells[i].health == .correctable
/-- The UNCORRECTABLE words of cells read. -/
def uncorrectableMask (cells : Vector Cell 4) : WordMask := maskOf fun i => cells[i].health == .uncorrectable

/-- The write-back of a read: the CORRECTABLE words, corrected and plain, where R12 sends them (R13). -/
def Store.writeBack (st : Store) (l : Line) (cells : Vector Cell 4) : Store :=
  st.writeWords l (correctableMask cells) fun i => cells[i].cleaned

/-- The array cells of a line, whatever the table says. -/
def Store.arrayLine (st : Store) (l : Line) : Vector Cell 4 := words4 fun i => st.cell (arrayWord l i)
/-- The cells of a spare line. -/
def Store.spareLine (st : Store) (k : SpareIx) : Vector Cell 4 := words4 fun i => st.cell (.spare k i)

/-- The words a fill copy writes: bit clear, and CLEAN or CORRECTABLE (R14). -/
def Store.fillMask (st : Store) (k : SpareIx) (l : Line) : WordMask :=
  maskOf fun i => !st.table[k].mask.has i && (st.arrayLine l)[i].health != .uncorrectable

/-- The fill copy of an entry, its words in `m` written (R14). -/
def Store.fillCopyWords (st : Store) (k : SpareIx) (l : Line) (m : WordMask) : Store :=
  (st.putMask (.spare k) m fun i => (st.arrayLine l)[i].cleaned).markWritten k m

/-- The completed fill copy (R14, R33). -/
def Store.fillCopy (st : Store) (k : SpareIx) (l : Line) : Store :=
  (st.fillCopyWords k l (st.fillMask k l)).activate k

/-- The return copy of an entry, its words in `m` written to the array: plain, or poisoned where the spare has lost the word
(R35). -/
def Store.returnCopyWords (st : Store) (k : SpareIx) (l : Line) (m : WordMask) : Store :=
  st.putMask (arrayWord l) m fun i =>
    let c := (st.spareLine k)[i]
    if c.health == .uncorrectable then c else c.cleaned

/-- The table cleared by a cold start (R17, R29). -/
def Store.clearTable (st : Store) : Store := { st with table := Vector.replicate 24 SpareEntry.free, tableLost := false }

/-- The line as the pending APPLY writes will leave it (R16). -/
def overlay (ws : List LineWrite) (l : Line) (cells : Vector Cell 4) : Vector Cell 4 :=
  ws.foldl (fun cs w => if w.line = l then words4 fun i => if w.mask.has i then w.cell i else cs[i] else cs) cells

/-! ### Faults and losses (R4, R7) -/

/-- A fault in the array or in a spare line (R4). -/
def Store.fault (st : Store) (w : StoreWord) (raw : Word) : Store := st.put w ((st.cell w).faulted raw)

/-- The loss of the retention supply: no word keeps its value, the table takes any content and is not used, and the marker is
INVALID (R7, R29). -/
def Store.lose (st : Store) (found : SpareTable) : Store :=
  { cells := [], losses := st.losses + 1, table := found, tableLost := true, marker := .invalid }

end Sys2Proof.Machine
end

