-- ==== Sys2Proof/Machine/LineHealth.lean ====
section
/-! DEFINITION. The line health unit (02): the corrected-word count, the suspect list, promotion and retirement, and the
completion of an operation that reads. -/

namespace Sys2Proof.Machine

/-- The corrected-word count raised, staying at 65535 (R19). -/
def LineHealth.count (h : LineHealth) (n : Nat) : LineHealth := { h with corrected := min (h.corrected + n) correctedMax }

/-- The suspect entry of a line removed, if any (R28). -/
def LineHealth.dropSuspect (h : LineHealth) (l : Line) : LineHealth :=
  { h with suspects := h.suspects.filter fun e => e.line != l }

/-- The lowest count of a list of suspects. -/
def lowestCount : List Suspect → Nat
  | [] => 0
  | [e] => e.count
  | e :: es => min e.count (lowestCount es)

/-- The list without its oldest entry of lowest count (R27). -/
def dropLowest (xs : List Suspect) : List Suspect := xs.eraseP fun e => e.count == lowestCount xs

/-- A correctable finding for a line: the list after it, and whether the line is due for promotion (R27, R28). -/
def noteSuspect (threshold : Nat) (l : Line) (xs : List Suspect) : List Suspect × Bool :=
  match xs.find? fun e => e.line == l with
  | some e =>
    if threshold ≤ e.count + 1 then (xs.filter fun e => e.line != l, true)
    else (xs.map fun e => if e.line = l then { e with count := e.count + 1 } else e, false)
  | none => ((if xs.length < suspectCapacity then xs else dropLowest xs) ++ [⟨l, 1⟩], false)

/-- The lowest-numbered FREE entry of the table (R30). -/
def Store.firstFree (st : Store) : Option SpareIx := spareIxs.find? fun k => st.table[k].state == .free

/-- The number of RETIRED entries (R31). -/
def Store.retiredCount (st : Store) : Nat := (spareIxs.filter fun k => st.table[k].state == .retired).length

/-- Promotion of a line (R30), or its want of a FREE entry (R31). While the table is lost it is not used, and no entry is
taken (R29, log 4); the line's suspect entry is removed all the same, and nothing is logged (R28, log 45). -/
def State.promote (s : State) (o : Origin) (l : Line) : State :=
  let h := s.health.dropSuspect l
  if s.store.tableLost then { s with health := h }
  else
    match s.store.firstFree with
    | some k =>
      { s with
        store := s.store.setEntry k ⟨.filling, some l, 0⟩
        health := { h with copyDone := h.copyDone.set k false, retire := h.retire.set k none }
        rep := s.rep.raise (lineEntry .spared o l k.val) }
    | none =>
      if h.exhausted.contains l then { s with health := h }
      else
        { s with
          health := { h with exhausted := h.exhausted ++ [l] }
          rep := s.rep.raise (lineEntry .spareExhausted o l s.store.retiredCount) }

/-- A failing ACTIVE spare: its retire-pending mark is set and SPARE_RETIRED logged, once (R34). -/
def State.markRetire (s : State) (o : Origin) (l : Line) (k : SpareIx) : State :=
  if s.health.retire[k].isSome then s
  else
    { s with
      health := { s.health with retire := s.health.retire.set k (some o) }
      rep := s.rep.raise (lineEntry .spareRetired o l k.val) }

/-- The corrected words of a finding counted (R19). -/
def State.countCorrected (s : State) (cells : Vector Cell 4) : State :=
  { s with health := s.health.count (correctableMask cells).size }

/-- A finding from the array of a line without a spare: the suspect list, then at most one promotion (R20, steps 1 to 3). -/
def State.arrayFinding (s : State) (o : Origin) (l : Line) (cells : Vector Cell 4) : State :=
  let noted := if correctableMask cells == 0 then (s.health.suspects, false) else noteSuspect s.threshold l s.health.suspects
  let s' := { s with health := { s.health with suspects := noted.1 } }
  if noted.2 || uncorrectableMask cells != 0 then s'.promote o l else s'

/-- What the unit does with a finding beyond counting, judged on the table at the operation's grant (R20). -/
def State.actOnFinding (s : State) (granted : Store) (o : Origin) (l : Line) (cells : Vector Cell 4) : State :=
  match s.scrub (segmentOf l) with
  | .off => s
  | .passive | .active =>
    match granted.spareFor l with
    | none => s.arrayFinding o l cells
    | some k =>
      if granted.table[k].state == .active && uncorrectableMask cells != 0 then s.markRetire o l k else s

/-- The origin a claimant's finding carries (Log entries raised by this unit). -/
def Claimant.origin : Claimant → Origin
  | .localPort => .localRead
  | .giveRead => .bus
  | .serve => .prefetch
  | .apply | .spareCopy | .scrub | .fill => .scrub

/-- The cells a completing read delivers: as read, with the pending APPLY writes overlaid (R16). -/
def State.delivered (s : State) (l : Line) : Vector Cell 4 := overlay s.sp.applyList l (s.store.readLine l)

/-- The completion of a line read or read-modify-write by LOCAL, GIVE_READ, SERVE or SCRUB: the write-back unless the scrub
mode is OFF (R13), then the findings of the cells as read (R19, R20). -/
def State.completeRead (s : State) (c : Claimant) (l : Line) : State :=
  let cells := s.store.readLine l
  let written :=
    match s.scrub (segmentOf l) with
    | .off => s.store
    | .passive | .active => s.store.writeBack l cells
  (({ s with store := written }).countCorrected cells).actOnFinding s.store c.origin l cells

end Sys2Proof.Machine
end

