-- ==== Sys2Proof/Machine/RepairUnit.lean ====
section
/-! DEFINITION. The repair unit (10): the repair list and the give queue as lists, and the taking of lost words. -/

namespace Sys2Proof.Machine

/-! ### The repair list -/

/-- Is an entry ASKING? -/
def RepairEntry.asking (e : RepairEntry) : Bool :=
  match e.state with
  | .asking _ _ _ _ => true
  | .failed => false

/-- Is an entry ASKING in phase TO_ASK? -/
def RepairEntry.toAsk (e : RepairEntry) : Bool :=
  match e.state with
  | .asking .toAsk _ _ _ => true
  | .asking .inFlight _ _ _ | .asking .timing _ _ _ | .failed => false

/-- The entry of a line, if any (R161: at most one). -/
def repairFor (xs : List RepairEntry) (l : Line) : Option RepairEntry := xs.find? fun e => e.line == l

/-- Change the entry of a line. -/
def repairMap (xs : List RepairEntry) (l : Line) (f : RepairEntry → RepairEntry) : List RepairEntry :=
  xs.map fun e => if e.line = l then f e else e

/-- Remove the entry of a line. -/
def repairErase (xs : List RepairEntry) (l : Line) : List RepairEntry := xs.filter fun e => e.line != l

/-- The state an entry becomes ASKING in (R161, R162). -/
def freshAsk : RepairState := .asking .toAsk 0 0 none

/-- A new entry placed youngest: in a free place, or in that of the oldest FAILED entry; absent when four are ASKING (R163). -/
def repairInsert (xs : List RepairEntry) (e : RepairEntry) : Option (List RepairEntry) :=
  if xs.length < repairCapacity then some (xs ++ [e])
  else if xs.all RepairEntry.asking then none
  else some (xs.eraseP (fun x => !x.asking) ++ [e])

/-- Did an event remove an entry or turn one FAILED (R163)? -/
def madeRoom (before after : List RepairEntry) : Bool :=
  before.any fun e => !(after.any fun x => x.line == e.line && (x.asking || !e.asking))

/-! ### Handing a lost word (R162) -/

/-- The repair unit's answer to a requester. -/
inductive HandAnswer where
  | asking
  | lost
  | held
  deriving DecidableEq, Repr

/-- The log entry for words of a line that no repair will bring (R162). -/
def wordLost (o : Origin) (l : Line) (m : WordMask) : LogEntry := lineEntry .wordLost o l m.toNat

/-- The state after a word is handed, and the answer (R162, R163). -/
def State.handWord (s : State) (o : Origin) (l : Line) (i : WordIx) : HandAnswer × State :=
  let bit := WordMask.single i
  if !s.repairable l then (.lost, s.raise (wordLost o l bit))
  else
    match repairFor s.repair l with
    | some e =>
      if e.asking then (.asking, { s with repair := repairMap s.repair l fun e => { e with bad := e.bad ||| bit } })
      else if e.bad.has i then (.lost, s)
      else
        (.asking,
          { s with repair := repairMap s.repair l fun e => { e with bad := e.bad ||| bit, state := freshAsk } })
    | none =>
      let responder := s.heldView.bind fun v => v.repairResponder s.me (segmentOf l)
      let entry (st : RepairState) : RepairEntry := ⟨segmentOf l, l, bit, st, o⟩
      match responder with
      | some _ =>
        match repairInsert s.repair (entry freshAsk) with
        | some xs => (.asking, { s with repair := xs })
        | none => (.held, s)
      | none =>
        match repairInsert s.repair (entry .failed) with
        | some xs => (.lost, ({ s with repair := xs }).raise (wordLost o l bit))
        | none => (.held, s)

/-! ### Applied writes (R168, R169) -/

/-- The words a masked line write stores plain. -/
def LineWrite.plainMask (w : LineWrite) : WordMask := w.mask &&& ~~~w.poison

/-- Applied words leave the bad mask of their line's entry, and an entry left empty is removed (R169). -/
def repairCure (xs : List RepairEntry) (w : LineWrite) : List RepairEntry :=
  (repairMap xs w.line fun e => { e with bad := e.bad &&& ~~~w.plainMask }).filter fun e => e.bad != 0

/-- The entry of a GIVE's line after the GIVE covers its words: removed, or FAILED with what is left (R168). -/
def repairCovered (xs : List RepairEntry) (w : LineWrite) : List RepairEntry :=
  (repairCure xs w).map fun e => if e.line = w.line then { e with state := .failed } else e

/-! ### The give queue (R171 to R173) -/

/-- A new give entry for an accepted ASK: absorbed by one held for the asker and line, dropped when four are held (R171). Its void
mask and data words are 0 until its read (log 43). -/
def giveTake (xs : List GiveEntry) (asker : Station) (g : Segment) (l : Line) : List GiveEntry :=
  if xs.any fun e => e.asker == asker && e.line == l then xs
  else if xs.length < giveCapacity then xs ++ [⟨asker, g, l, .toRead, 0, Vector.replicate 4 0, 0⟩]
  else xs

/-- READY entries for a write's line take its written words and lose their void bits (R172). -/
def givePatch (xs : List GiveEntry) (w : LineWrite) : List GiveEntry :=
  xs.map fun e =>
    if e.state = .ready ∧ e.line = w.line then
      { e with data := words4 fun i => if w.mask.has i then w.data[i] else e.data[i], void := e.void &&& ~~~w.mask }
    else e

/-- A READING entry takes the cells its read delivered, and becomes READY (R171). -/
def giveRead (xs : List GiveEntry) (cells : Vector Cell 4) : List GiveEntry :=
  xs.map fun e =>
    if e.state = .reading then
      { e with state := .ready, void := uncorrectableMask cells,
               data := words4 fun i => if cells[i].health == .uncorrectable then 0 else cells[i].data }
    else e

/-- READY heads whose asker is gone, or whose responder is another station, are removed unsent (R172). -/
def giveJudge (v : View) (me : Station) (xs : List GiveEntry) : List GiveEntry :=
  xs.dropWhile fun e =>
    e.state == .ready && (!v.present e.asker || v.repairResponder e.asker e.segment != some me)

end Sys2Proof.Machine
end

