-- ==== Sys2Proof/Machine/CatchUpUnit.lean ====
section
/-! DEFINITION. The catch-up unit (09): the serve job table, its ring and token, prefetch, snoop, the pace of runs, and the
progress monitors. -/

namespace Sys2Proof.Machine

/-! ### Jobs (R141, R144, R147) -/

/-- The lines a job holds. -/
def Job.held (j : Job) : Nat := j.buffer.length + j.ahead.length

/-- A new job (R141). -/
def newJob (x : Station) (g : Segment) (runMax : Nat) : Job := ⟨x, g, runMax, [], [], none, none, 0⟩

/-- The offset after the last line a job holds; the cursor when it holds none (R144). -/
def Job.nextOffset (j : Job) (cursor : Nat) : Nat := cursor + j.held

/-- Is a job READY (R147)? -/
def Job.ready (j : Job) (cursor : Nat) : Bool :=
  j.buffer.length == min bufferCapacity (segmentLines - cursor) ||
    (!j.buffer.isEmpty && j.ahead.isEmpty && j.waiting.isSome)

/-- Does a job need a read (R144)? -/
def Job.needsRead (j : Job) (cursor : Nat) : Bool :=
  j.waiting.isNone && j.reading.isNone && decide (j.held < heldCapacity) && decide (j.nextOffset cursor < segmentLines)

/-- A line added after the last line held (R145). -/
def Job.add (j : Job) (l : HeldLine) : Job :=
  if j.buffer.length < bufferCapacity then { j with buffer := j.buffer ++ [l] } else { j with ahead := j.ahead ++ [l] }

/-- The first n lines removed from the front of the buffer, and the read-ahead moved up (R154). -/
def Job.advance (j : Job) (n : Nat) : Job :=
  let kept := j.buffer.drop n
  let room := bufferCapacity - kept.length
  { j with buffer := kept ++ j.ahead.take room, ahead := j.ahead.drop room, attempts := 0 }

/-- A held line with the words of a write (R148). -/
def HeldLine.patch (h : HeldLine) (w : LineWrite) : HeldLine :=
  { h with data := words4 fun i => if w.mask.has i then w.data[i] else h.data[i], void := h.void &&& ~~~w.mask }

/-- A job with the words of a write in the line it holds (R148). -/
def Job.snoop (j : Job) (w : LineWrite) : Job :=
  let f := fun h : HeldLine => if lineAt j.segment h.offset = w.line then h.patch w else h
  { j with buffer := j.buffer.map f, ahead := j.ahead.map f }

/-- A job whose frame is discarded at the retry limit: emptied, to read again from the cursor (R155, log 27). -/
def Job.restart (j : Job) : Job := { j with buffer := [], ahead := [], waiting := none, reading := none, attempts := 0 }

/-! ### The table, the ring and the token (R142, R143, R150) -/

/-- Change every job. -/
def CatchUp.mapJobs (c : CatchUp) (f : Job → Job) : CatchUp :=
  { c with jobs := Vector.ofFn fun k : JobIx => (c.jobs[k]).map f }

/-- Replace one entry of the table. -/
def CatchUp.setJob (c : CatchUp) (k : JobIx) (j : Option Job) : CatchUp := { c with jobs := c.jobs.set k j }

/-- Change one job, if the entry holds one. -/
def CatchUp.modifyJob (c : CatchUp) (k : JobIx) (f : Job → Job) : CatchUp := c.setJob k ((c.jobs[k]).map f)

/-- The job count read-out (R141). -/
def CatchUp.jobCount (c : CatchUp) : Nat := (jobIxs.filter fun k => (c.jobs[k]).isSome).length

/-- The ring read from one of its jobs, once around. -/
def CatchUp.ringFrom (c : CatchUp) (k : JobIx) : List JobIx :=
  c.ring.dropWhile (· != k) ++ c.ring.takeWhile (· != k)

/-- The job that follows one in the ring: itself when it is alone. -/
def CatchUp.following (c : CatchUp) (k : JobIx) : JobIx := (c.ringFrom k).getD 1 k

/-- A job leaves the table and the ring, and the token moves from it (R143, R150). -/
def CatchUp.removeJob (c : CatchUp) (k : JobIx) : CatchUp :=
  let ring := c.ring.filter (· != k)
  { (c.setJob k none) with
    ring := ring
    token := if ring.isEmpty then none else if c.token = some k then some (c.following k) else c.token }

/-- A job created in the lowest-numbered free entry, if one is free (R142, R150). -/
def CatchUp.createJob (c : CatchUp) (j : Job) : CatchUp :=
  match jobIxs.find? fun k => (c.jobs[k]).isNone with
  | none => c
  | some k => { (c.setJob k (some j)) with ring := c.ring ++ [k], token := if c.token.isNone then some k else c.token }

/-- Does this station serve a pair (R142)? The pair of an AWAITING station is not served, a re-JOIN's included (R130, R143,
log 52). -/
def View.serves (v : View) (me x : Station) (g : Segment) : Bool := v.server x g == some me && v.settled x

/-- The pairs this station serves, in ascending order of segment and then of station (R142). -/
def View.servedPairs (v : View) (me : Station) : List (Station × Segment) :=
  segments.flatMap fun g => (stations.filter fun x => v.serves me x g).map fun x => (x, g)

/-- Does the table hold a job for a pair? -/
def CatchUp.hasJob (c : CatchUp) (x : Station) (g : Segment) : Bool :=
  jobIxs.any fun k =>
    match c.jobs[k] with
    | some j => j.station == x && j.segment == g
    | none => false

/-- The jobs that satisfy a test leave the table. -/
def CatchUp.dropWhere (c : CatchUp) (p : Job → Bool) : CatchUp :=
  jobIxs.foldl (fun c k =>
    match c.jobs[k] with
    | some j => if p j then c.removeJob k else c
    | none => c) c

/-- At a frame end: the jobs no longer served are dropped, then each served pair without a job takes an entry (R142). -/
def CatchUp.review (c : CatchUp) (v : View) (me : Station) (runMax : Nat) : CatchUp :=
  (v.servedPairs me).foldl (fun c p => if c.hasJob p.1 p.2 then c else c.createJob (newJob p.1 p.2 runMax))
    (c.dropWhere fun j => !v.serves me j.station j.segment)

/-- The cursor of a job's pair. -/
def State.jobCursor (s : State) (j : Job) : Nat := ((s.heldView.bind fun v => v.cursor j.station j.segment)).getD 0

/-- Is the job of an entry READY? -/
def State.jobReady (s : State) (k : JobIx) : Bool :=
  match s.catchup.jobs[k] with
  | some j => j.ready (s.jobCursor j)
  | none => false

/-- At a window opening, a token on a job that is not READY moves to the first READY job (R150). -/
def State.moveToken (s : State) : State :=
  match s.catchup.token with
  | none => s
  | some k =>
    match (s.catchup.ringFrom k).find? s.jobReady with
    | some k' => { s with catchup := { s.catchup with token := some k' } }
    | none => s

/-! ### Prefetch (R144 to R146) -/

/-- Is a SERVE read the operation in progress? -/
def State.serving (s : State) : Bool :=
  match s.sp.running with
  | some r => r.claimant == .serve
  | none => false

/-- The job whose SERVE read is presented or in progress, if any. -/
def CatchUp.reader (c : CatchUp) : Option JobIx :=
  jobIxs.find? fun k =>
    match c.jobs[k] with
    | some j => j.reading.isSome
    | none => false

/-- Does the job of an entry need a read? -/
def State.jobNeedsRead (s : State) (k : JobIx) : Bool :=
  match s.catchup.jobs[k] with
  | some j => j.needsRead (s.jobCursor j)
  | none => false

/-- SERVE presents its next read: of the job the token names first, then in ring order (R144). -/
def State.presentServe (s : State) : State :=
  if s.serving || s.catchup.reader.isSome then s
  else
    match s.catchup.token with
    | none => s
    | some t =>
      match (s.catchup.ringFrom t).find? s.jobNeedsRead with
      | some k => { s with catchup := s.catchup.modifyJob k fun j => { j with reading := some (j.nextOffset (s.jobCursor j)) } }
      | none => s

/-- What the repair unit's answers make of the lost words of a read: all lost, or the line waits, for a slot or not (R146). -/
def State.handPrefetch (l : Line) : List WordIx → State → Option Bool × State
  | [], s => (none, s)
  | i :: is, s =>
    match s.handWord .prefetch l i with
    | (.asking, s') => (some false, s')
    | (.held, s') => (some true, s')
    | (.lost, s') => State.handPrefetch l is s'

/-- The end of a job's SERVE read with the cells delivered: the line is added, or becomes the waiting line (R145, R146). -/
def State.endServe (s : State) (k : JobIx) (g : Segment) (offset : Nat) (cells : Vector Cell 4) : State :=
  let bad := uncorrectableMask cells
  match State.handPrefetch (lineAt g offset) bad.words s with
  | (some slot, s') =>
    { s' with catchup := s'.catchup.modifyJob k fun j => { j with reading := none, waiting := some ⟨offset, slot⟩ } }
  | (none, s') =>
    { s' with catchup := s'.catchup.modifyJob k fun j =>
        ({ j with reading := none }).add ⟨offset, words4 fun i => cells[i].data, bad⟩ }

/-- The waiting lines released: those whose line has no ASKING entry, and, at room, those held for a slot (R147, R163). -/
def State.releaseJobs (s : State) (room : Bool) : State :=
  { s with catchup := s.catchup.mapJobs fun j =>
      match j.waiting with
      | none => j
      | some w =>
        let asked := (repairFor s.repair (lineAt j.segment w.offset)).any RepairEntry.asking
        if (if w.forSlot then room else !asked) then { j with waiting := none } else j }

/-! ### Runs (R104, R150, R151) -/

/-- The effective run length after a run's ending (R151). -/
def stepE (runMin runMax e : Nat) : Ending → Nat
  | .broken => max runMin (e - 2)
  | .full => min runMax (e + 1)
  | .dry | .completed | .dropped => e

/-- A run's ending taken: E is stepped, and the token moves after FULL and DRY (R150, R151). -/
def State.endRun (s : State) (k : JobIx) (ending : Ending) : State :=
  let c := s.catchup.modifyJob k fun j => { j with e := stepE s.runMin s.runMax j.e ending }
  match ending with
  | .full | .dry => { s with catchup := { c with token := some (c.following k) } }
  | .broken => { s with catchup := c }
  | .completed | .dropped => s

/-- The COPY of a run's job, its count including this frame (R102, R152). -/
def State.copyFrame (s : State) (j : Job) (count : Nat) : Frame :=
  composeCopy s.me j.station j.segment (s.jobCursor j) j.buffer (if s.runMin ≤ count then gposOpen else gposShut)

/-! ### Progress monitors (R156, R157) -/

/-- A STOPPED monitor. R156 gives the line count a value only while the monitor is RUNNING; that it is 0 in a STOPPED one, after
reset and after a stop, is the model's choice (log 54). -/
def Monitor.stopped : Monitor := ⟨false, 0, none⟩

/-- A fresh window: the count 0 and the timer started (R156). -/
def Monitor.fresh (m : Monitor) : Monitor := { m with running := true, count := 0 }

/-- Change every monitor. -/
def CatchUp.mapMonitors (c : CatchUp) (f : Segment → Monitor → Monitor) : CatchUp :=
  { c with monitors := Vector.ofFn fun g : Segment => f g c.monitors[g] }

/-- Change one monitor. -/
def CatchUp.modifyMonitor (c : CatchUp) (g : Segment) (f : Monitor → Monitor) : CatchUp :=
  c.mapMonitors fun h m => if h = g then f m else m

/-- The server of this station's own pair in a segment. -/
def State.ownServer (s : State) (g : Segment) : Option Station := s.heldView.bind fun v => v.server s.me g

/-- A monitor after the view's changes, with the server of its pair before them (R156). -/
def State.reviewMonitor (s : State) (before : Option Station) (g : Segment) (m : Monitor) : Monitor :=
  if s.localState g = .catching then
    if !m.running then Monitor.fresh { m with stall := none }
    else if before != s.ownServer g then m.fresh
    else m
  else Monitor.stopped

/-- The monitors after the view's changes, from the servers before them (R156). -/
def State.reviewMonitors (s : State) (before : Segment → Option Station) : State :=
  { s with catchup := s.catchup.mapMonitors fun g m => s.reviewMonitor (before g) g m }

/-- The expiry of a monitor's window (R157). -/
def State.expireWindow (s : State) (g : Segment) : State :=
  let m := s.catchup.monitors[g]
  if m.running then
    let stall :=
      match m.stall with
      | some i => some i
      | none => if m.count ≤ s.progressFloor then (s.ownServer g).map fun p => ⟨p, 0⟩ else none
    { s with catchup := s.catchup.modifyMonitor g fun m => Monitor.fresh { m with stall := stall } }
  else s

/-- A monitor without a STALL item whose server is no longer the pair's (R158). -/
def Monitor.judgeStall (m : Monitor) (server : Option Station) : Monitor :=
  match m.stall with
  | some i => if server = some i.server then m else { m with stall := none }
  | none => m

/-- The STALL items whose server has changed are removed at a window opening (R158). -/
def State.judgeStalls (s : State) : State :=
  { s with catchup := s.catchup.mapMonitors fun g m => m.judgeStall (s.ownServer g) }

end Sys2Proof.Machine
end

