-- ==== Sys2Proof/Machine/Outbound.lean ====
section
/-! DEFINITION. The outbound queue (04) and the commit unit (05): taking a write, forwarding, the chain walk, COMMIT, and what
each outcome of an own frame does to the head and the chain. -/

namespace Sys2Proof.Machine

/-! ### Chains (R70, R72) -/

/-- The records of a chain: the links followed from a head, so many records. -/
def chainFrom (staging : Vector Record 16) : Nat → RecordIx → List RecordIx
  | 0, _ => []
  | n + 1, r => r :: chainFrom staging n staging[r].link

/-- The outcome of the walk over a chain: its record count, or the failure. -/
inductive Walk where
  | valid (count : Nat)
  | failed (code : FailCode) (record : RecordIx)
  deriving DecidableEq, Repr

/-- The walk of validation: at each record the mask, then the segment, then STOP; the first argument bounds the records left,
the second counts those passed (R72). -/
def walkChain (staging : Vector Record 16) (writable : Segment → Bool) : Nat → Nat → RecordIx → Walk
  | 0, _, r => .failed .chainTooLong r
  | left + 1, passed, r =>
    let rec' := staging[r]
    if rec'.mask == 0 then .failed .chainEmptyRecord r
    else if !writable (segmentOf rec'.line) then .failed .chainNotWritable r
    else if rec'.stop then .valid (passed + 1)
    else if left == 0 then .failed .chainTooLong r
    else walkChain staging writable left (passed + 1) rec'.link

/-- The records of the chain of a GROUP entry, of the head and count given. -/
def Commit.chain (c : Commit) (head : RecordIx) (count : Nat) : List RecordIx := chainFrom c.staging count head

/-- The group the queue holds, if any: its head record and count. One chain is pending at a time (R71). -/
def groupOf (q : List OutEntry) : Option (RecordIx × Nat) :=
  q.findSome? fun e =>
    match e.body with
    | .group head count => some (head, count)
    | .update _ _ _ _ _ => none

/-- Is a chain QUEUED or SENDING? -/
def CommitState.pending : CommitState → Bool
  | .queued | .sending => true
  | .idle | .done | .failed _ _ => false

/-- The write-protected records: those of a QUEUED or SENDING chain (R74). -/
def State.protectedRecords (s : State) : List RecordIx :=
  if s.commit.state.pending then
    match groupOf s.out with
    | some (head, count) => s.commit.chain head count
    | none => []
  else []

/-! ### Queue entries (R53 to R57) -/

/-- Does an entry reference a line (R53)? -/
def OutEntry.references (staging : Vector Record 16) (e : OutEntry) (l : Line) : Bool :=
  match e.body with
  | .update _ line _ _ _ => line == l
  | .group head count => (chainFrom staging count head).any fun r => staging[r].line == l

/-- An entry with a word combined into it, if it can still combine (R55). -/
def OutEntry.combine (e : OutEntry) (i : WordIx) (d : Word) : Option OutEntry :=
  match e.body, e.state with
  | .update g l m slots true, .waiting =>
    some { e with body := .update g l (m ||| WordMask.single i) (words4 fun j => if j = i then d else slots[j]) true }
  | _, _ => none

/-- Combine a write into the first entry that references its line, from a list youngest first; absent when that entry cannot
take it or no entry references the line (R55). -/
def combineFirst (refs : OutEntry → Bool) (i : WordIx) (d : Word) : List OutEntry → Option (List OutEntry)
  | [] => none
  | e :: es => if refs e then (e.combine i d).map (· :: es) else (combineFirst refs i d es).map (e :: ·)

/-- A new UPDATE entry (R54). -/
def newUpdate (l : Line) (i : WordIx) (d : Word) : OutEntry :=
  ⟨.update (segmentOf l) l (WordMask.single i) (words4 fun j => if j = i then d else 0) true, .waiting, 0⟩

/-- The queue after a write is offered to it: combined, or a new entry at the tail; absent when it must wait for a place (R49,
R54, R55). -/
def queueTake (staging : Vector Record 16) (q : List OutEntry) (l : Line) (i : WordIx) (d : Word) : Option (List OutEntry) :=
  match combineFirst (fun e => e.references staging l) i d q.reverse with
  | some r => some r.reverse
  | none => if q.length < outboundCapacity then some (q ++ [newUpdate l i d]) else none

/-- The value an entry forwards for a word, if it is an UPDATE entry holding the word (R57). -/
def OutEntry.forwards (e : OutEntry) (l : Line) (i : WordIx) : Option Word :=
  match e.body with
  | .update _ line m slots _ => if line == l && m.has i then some slots[i] else none
  | .group _ _ => none

/-- The forwarding lookup, from the tail towards the head (R57). -/
def forwardLookup (q : List OutEntry) (l : Line) (i : WordIx) : Option Word := q.reverse.findSome? fun e => e.forwards l i

/-- The combinable mark cleared. -/
def OutEntry.unmark (e : OutEntry) : OutEntry :=
  match e.body with
  | .update g l m slots _ => { e with body := .update g l m slots false }
  | .group _ _ => e

/-- Does an entry carry an UPDATE of a segment? -/
def OutEntry.updateOf (e : OutEntry) (g : Segment) : Bool :=
  match e.body with
  | .update h _ _ _ _ => h == g
  | .group _ _ => false

/-! ### COMMIT (R71 to R73) -/

/-- A valid chain taken: a GROUP entry at the tail, the marks of the UPDATE entries of its lines cleared (R56, R73). -/
def State.queueChain (s : State) (count : Nat) (notify : Bool) : State :=
  let group : OutEntry := ⟨.group s.commit.head count, .waiting, 0⟩
  let lines := (s.commit.chain s.commit.head count).map fun r => s.commit.staging[r].line
  let marked := s.out.map fun e => if lines.any fun l => e.references s.commit.staging l then e.unmark else e
  { s with out := marked ++ [group], commit := { s.commit with state := .queued, notify := notify, sendPos := 0 } }

/-- COMMIT: judged by the station state and COMMIT_STATE, validated, and queued (R71, R73). -/
def State.commitChain (s : State) (notify : Bool) : State :=
  if s.join.station = .leaving then s.setResult .refused
  else if s.commit.state.pending then s.setResult .busy
  else
    match walkChain s.commit.staging s.writable chainLimit 0 s.commit.head with
    | .failed code r =>
      (({ s with commit := { s.commit with state := .failed code r } }).setFlag .chainFailed).setResult .refused
    | .valid count =>
      if outboundCapacity ≤ s.out.length then s.setResult .busy else (s.queueChain count notify).setResult .ok

/-! ### The head -/

/-- The chain fails: COMMIT_STATE and CHAIN_FAILED (R75, R78, R83). -/
def State.failChain (s : State) (code : FailCode) (r : RecordIx) : State :=
  ({ s with commit := { s.commit with state := .failed code r } }).setFlag .chainFailed

/-- The judgement of a GROUP head at a window opening: removed when a record has become unwritable (R75). -/
def State.judgeGroupHead (s : State) : State :=
  match s.out with
  | ⟨.group head count, .waiting, _⟩ :: rest =>
    match (s.commit.chain head count).find? fun r => !s.writable (segmentOf s.commit.staging[r].line) with
    | some r => ({ s with out := rest }).failChain .chainAborted r
    | none => s
  | _ => s

/-- The group position of a record's frame (R76). -/
def groupPosition (count pos : Nat) : BitVec 3 :=
  if count = 1 then gposSingle else if pos = 0 then gposFirst else if pos + 1 = count then gposLast else gposMiddle

/-- The frame of the record at a place in the chain (R76). -/
def State.groupFrame (s : State) (head : RecordIx) (count pos : Nat) : Frame :=
  let r := s.commit.staging[((s.commit.chain head count).getD pos head)]
  composeUpdate s.me r.line r.mask r.data (groupPosition count pos) count

/-- The record whose frame was last composed, for a SENDING chain; the head record for a QUEUED one (R83). -/
def State.chainRecord (s : State) : RecordIx :=
  match groupOf s.out with
  | some (head, count) => if s.commit.state = .sending then (s.commit.chain head count).getD s.commit.sendPos head else head
  | none => s.commit.head

/-- The writes of a group at its sender, in chain order (R81). -/
def Commit.chainWrites (c : Commit) (head : RecordIx) (count : Nat) : List LineWrite :=
  (c.chain head count).map fun r =>
    { line := c.staging[r].line, mask := c.staging[r].mask, data := c.staging[r].data, poison := 0 }

/-- The chain completes at the accepted LAST or SINGLE of its run (R82). -/
def State.completeChain (s : State) (head : RecordIx) (count : Nat) (rest : List OutEntry) : State :=
  let last := (s.commit.chain head count).getLastD head
  ({ s with
      out := rest
      commit := { s.commit with state := .done, head := s.commit.staging[last].link, doneNotify := s.commit.notify } }).setFlag
    .chainDone

/-- The outbound head at the end of its accepted frame: an UPDATE entry is removed (R62), a run goes on (R77) or completes
(R82). -/
def State.outboundAccepted (s : State) : State :=
  match s.out with
  | [] => s
  | e :: rest =>
    match e.body with
    | .update _ _ _ _ _ => { s with out := rest }
    | .group head count =>
      if s.commit.sendPos + 1 < count then { s with out := { e with attempts := 0 } :: rest }
      else s.completeChain head count rest

/-- The log entry of a discarded UPDATE entry (R65). -/
def updateDiscarded (l : Line) (m : WordMask) : LogEntry := busEntry .frameDiscarded (some (segmentOf l)) (some l) none m.toNat

/-- The outbound head at the end of its rejected frame: an UPDATE entry returns to WAITING, its eighth rejection judged after
the view's changes (R64); a group's run goes on or is abandoned, its FRAME_DISCARDED raised here and so before the entries of the
frame end's markings (R77, R78, log 24). -/
def State.outboundRejected (s : State) : State :=
  match s.out with
  | [] => s
  | e :: rest =>
    match e.body with
    | .update _ _ _ _ _ => { s with out := { e with state := .waiting, attempts := e.attempts + 1 } :: rest }
    | .group head count =>
      if e.attempts + 1 < frameRetryLimit then { s with out := { e with attempts := e.attempts + 1 } :: rest }
      else
        let r := (s.commit.chain head count).getD s.commit.sendPos head
        (({ s with out := rest }).failChain .abandoned r).raise
          (updateDiscarded s.commit.staging[r].line s.commit.staging[r].mask)

/-- An UPDATE head at the frame retry limit is discarded (R65). -/
def State.discardSpentHead (s : State) : State :=
  match s.out with
  | ⟨.update _ l m _ _, _, attempts⟩ :: rest =>
    if frameRetryLimit ≤ attempts then ({ s with out := rest }).raise (updateDiscarded l m) else s
  | _ => s

/-- The UPDATE entries of a segment discarded, with one OUTBOUND_DISCARD if there were any (R66). -/
def State.discardSegment (s : State) (g : Segment) : State :=
  let n := (s.out.filter fun e => e.updateOf g).length
  if n = 0 then s
  else
    ({ s with out := s.out.filter fun e => !e.updateOf g }).raise
      { kind := .outboundDiscard, origin := .port, segment := some g, line := none, station := none, detail := n }

/-- The whole queue discarded at OFFLINE, with one OUTBOUND_DISCARD if it held any entry (R67). -/
def State.discardQueue (s : State) : State :=
  if s.out.isEmpty then s
  else
    ({ s with out := [] }).raise
      { kind := .outboundDiscard, origin := .port, segment := none, line := none, station := none, detail := s.out.length }

/-- A pending chain fails at OFFLINE (R83). -/
def State.abortChain (s : State) : State :=
  if s.commit.state.pending then s.failChain .chainAborted s.chainRecord else s

end Sys2Proof.Machine
end

