-- ==== Sys2Proof/Machine/PortUnit.lean ====
section
/-! DEFINITION. The local port (03): the judgement of a STORE request, at its taking and at every re-taking, and the ends of
its LOCAL operations. -/

namespace Sys2Proof.Machine

/-- The line of a request. -/
def Request.line (r : Request) : Line := lineOfAddress r.address
/-- The word index of a request. -/
def Request.word (r : Request) : WordIx := wordOfAddress r.address
/-- The segment of a request. -/
def Request.segment (r : Request) : Segment := segmentOf r.line
/-- The raw data a request holds (R47). -/
def Request.rawData (r : Request) : Word := (r.raw.map (·.data)).getD 0

/-- Deliver a response: the record is cleared and the port IDLE (R37). -/
def State.answer (s : State) (st : Status) (d : Word) : State := { s with port := ⟨none, some ⟨st, d⟩⟩ }

/-- Hold a request in a stage (R37). -/
def State.holdRequest (s : State) (r : Request) (st : Stage) : State :=
  { s with port := { s.port with request := some { r with stage := st } } }

/-- Send a read to the store by a rule (R41, R42, R43). -/
def State.sendRead (s : State) (r : Request) (rule : ReadRule) : State :=
  s.holdRequest { r with rule := some rule } .storeWait

/-- Is a segment's fill under way (R40)? -/
def State.fillPending (s : State) (g : Segment) : Bool :=
  match s.sp.fill[g] with
  | .waiting | .filling => true
  | .none | .ended => false

/-- Is a line below this station's cursor in its segment? -/
def State.belowCursor (s : State) (l : Line) : Bool :=
  match s.ownCursor (segmentOf l) with
  | some c => decide (offsetOf l < c)
  | none => false

/-- A read judged as a member's: forwarded, or sent to the store (R43). -/
def State.judgeMemberRead (s : State) (r : Request) : State :=
  match forwardLookup s.out r.line r.word with
  | some d => s.answer .done d
  | none => s.sendRead r .member

/-- A read at or above the cursor: forwarded, or STALE (R44). -/
def State.judgeStaleRead (s : State) (r : Request) : State :=
  match forwardLookup s.out r.line r.word with
  | some d => s.answer .done d
  | none => s.answer .stale 0

/-- The judgement of a read by the local state (R41 to R44). -/
def State.judgeRead (s : State) (r : Request) : State :=
  match s.localState r.segment with
  | .off => s.answer .refused 0
  | .localOnly => s.sendRead r .localSegment
  | .detached | .mismatch => s.sendRead r .detached
  | .current => s.judgeMemberRead r
  | .catching | .orphaned => if s.belowCursor r.line then s.judgeMemberRead r else s.judgeStaleRead r

/-- A write offered to the outbound queue (R49). -/
def State.offerWrite (s : State) (r : Request) (d : Word) : State :=
  match queueTake s.commit.staging s.out r.line r.word d with
  | some q => ({ s with out := q }).answer .done 0
  | none => s.holdRequest r .queueWait

/-- The judgement of a write by the local state (R48, R49). -/
def State.judgeWrite (s : State) (r : Request) (d : Word) : State :=
  match s.localState r.segment with
  | .off | .detached | .mismatch | .orphaned => s.answer .refused 0
  | .localOnly => s.holdRequest r .storeWait
  | .current | .catching => if s.join.station = .joined then s.offerWrite r d else s.answer .refused 0

/-- The judgement of a STORE request by its segment's fill and local state (R40). -/
def State.judgeSegment (s : State) (r : Request) : State :=
  if s.fillPending r.segment then s.holdRequest r .fillWait
  else
    match r.direction with
    | .read => s.judgeRead r
    | .write d => s.judgeWrite r d

/-- The judgement of a STORE request (R39). -/
def State.judge (s : State) (r : Request) : State :=
  match s.join.station with
  | .config => s.answer .refused 0
  | .clocking => s.holdRequest r .startWait
  | .filling | .listening | .joining | .rosterWait | .joined | .leaving | .offline => s.judgeSegment r

/-- Re-take the request held in a stage, if one is. -/
def State.retake (s : State) (st : Stage) : State :=
  match s.port.request with
  | some r => if r.stage = st then s.judge r else s
  | none => s

/-- A STORE request presented by the controller: taken when the port is IDLE (R37). While BUSY the port takes none, and nothing
changes (log 7). -/
def State.takeRequest (s : State) (d : Direction) (a : BitVec 16) : State :=
  match s.port.request with
  | some _ => s
  | none => s.judge ⟨d, a, .judging, none, none⟩

/-! ### The completion of a LOCAL read (R41, R42, R45, R46) -/

/-- An UNCORRECTABLE word of a read that no repair is to serve: handed on, and answered CORRUPT (R41, R42). -/
def State.answerCorrupt (s : State) (r : Request) : State :=
  (s.handWord .localRead r.line r.word).2.answer .corrupt r.rawData

/-- An UNCORRECTABLE word of a member's read: the repair unit's answer decides (R46). -/
def State.handRead (s : State) (r : Request) : State :=
  match s.handWord .localRead r.line r.word with
  | (.asking, s') => s'.holdRequest r .repairWait
  | (.lost, s') => s'.answer .corrupt r.rawData
  | (.held, s') => s'.holdRequest r .slotWait

/-- The answer of a read by R41 or R42: the value with a status, or CORRUPT. -/
def State.answerRead (s : State) (r : Request) (st : Status) (c : Cell) : State :=
  if c.health == .uncorrectable then s.answerCorrupt r else s.answer st c.data

/-- The answer of a read by the first case of R45. -/
def State.answerMember (s : State) (r : Request) (c : Cell) : State :=
  if c.health == .uncorrectable then s.handRead r else s.answer .done c.data

/-- The judgement of a member's read at its completion (R45). -/
def State.judgeCompletedRead (s : State) (r : Request) (c : Cell) : State :=
  match s.localState r.segment with
  | .current => s.answerMember r c
  | .catching | .orphaned => if s.belowCursor r.line then s.answerMember r c else s.answer .stale 0
  | .detached | .mismatch | .off | .localOnly => s.answerRead r .detached c

/-- The end of a LOCAL read: the addressed word recorded, and the read answered or held (R41, R42, R45). -/
def State.endRead (s : State) (r : Request) (c : Cell) : State :=
  let r := { r with raw := some c }
  match r.rule with
  | some .localSegment => s.answerRead r .done c
  | some .detached => s.answerRead r .detached c
  | some .member | none => s.judgeCompletedRead r c

/-! ### Release by the repair unit (R47, R170) -/

/-- A read in REPAIR_WAIT: re-taken once its word has left the mask, answered CORRUPT once its entry is FAILED (R170). -/
def State.releaseRead (s : State) : State :=
  match s.port.request with
  | none => s
  | some r =>
    if r.stage = .repairWait then
      match repairFor s.repair r.line with
      | none => s.judge r
      | some e =>
        if !e.bad.has r.word then s.judge r else if e.asking then s else s.answer .corrupt r.rawData
    else s

/-- The reads held on the repair list when the station goes OFFLINE (R47). -/
def State.corruptHeldRead (s : State) : State :=
  match s.port.request with
  | none => s
  | some r => if r.stage = .repairWait ∨ r.stage = .slotWait then s.answer .corrupt r.rawData else s

end Sys2Proof.Machine
end

