-- ==== Sys2Proof/Machine/WalkerUnit.lean ====
section
/-! DEFINITION. The walker (R21 to R25): eligibility, the choice of a line, the end of a step, and the pace. -/

namespace Sys2Proof.Machine

/-- Is a segment configured MIRRORED or LOCAL with scrub mode ACTIVE? -/
def State.walked (s : State) (g : Segment) : Bool := s.scrub g == .active

/-- The offset of a segment below which its lines are eligible (R22). -/
def State.eligibleLimit (s : State) (g : Segment) : Nat :=
  if s.walked g then min segmentLines ((s.ownCursor g).getD segmentLines) else 0

/-- Is a line eligible for a walker step (R22)? -/
def State.eligible (s : State) (l : Line) : Bool := decide (offsetOf l < s.eligibleLimit (segmentOf l))

/-- The first eligible line of a segment in a range of line numbers. -/
def State.eligibleIn (s : State) (low high : Nat) (g : Segment) : Option Line :=
  let first := max low (g.val * segmentLines)
  if first < min high (g.val * segmentLines + s.eligibleLimit g) then some (lineAt g (first - g.val * segmentLines)) else none

/-- The first eligible line from one line number up to, not including, another (R23). -/
def State.firstEligible (s : State) (low high : Nat) : Option Line := segments.findSome? (s.eligibleIn low high)

/-- A line chosen: the SCRUB operation is presented and the walker WAITS (R23). -/
def State.presentStep (s : State) (l : Line) : State := { s with walker := { s.walker with state := .waiting, chosen := some l } }

/-- The choice of a line at the timer's expiry, or again at a withdrawal (R23, R24). -/
def State.chooseLine (s : State) : State :=
  match s.firstEligible s.walker.cursor arrayLines with
  | some l => s.presentStep l
  | none =>
    match s.firstEligible 0 s.walker.cursor with
    | some l => (({ s with walker := { s.walker with firstPass := false } }).setFlag .scrubPass).presentStep l
    | none => { s with walker := { s.walker with state := .timing, chosen := none } }

/-- The walker starts at the entry to LISTENING from FILLING (R21). -/
def State.startWalker (s : State) : State :=
  if segments.any s.walked then
    { s with walker := { state := .timing, cursor := 0, chosen := none, interval := s.scrubFast, firstPass := true,
                         findings := none, toHand := 0 } }
  else s

/-- The interval after a step with the findings given (R25). -/
def State.nextInterval (s : State) (f : Finding) : Nat :=
  if s.walker.firstPass || wordIxs.any fun i => f[i] != .clean then s.scrubFast
  else min s.scrubSlow (s.walker.interval + s.scrubStep)

/-- The end of a step: the interval is set and the timer started (R24, R25). -/
def State.endStep (s : State) : State :=
  let i := match s.walker.findings with
    | some f => s.nextInterval f
    | none => s.walker.interval
  { s with walker := { s.walker with state := .timing, chosen := none, interval := i, findings := none, toHand := 0 } }

/-- The UNCORRECTABLE words of a step handed on in turn, until one is held for a slot (R24). -/
def State.handStep (l : Line) : List WordIx → State → State
  | [], s => s.endStep
  | i :: is, s =>
    match s.handWord .scrub l i with
    | (.held, s') => { s' with walker := { s'.walker with state := .held } }
    | (_, s') =>
      State.handStep l is { s' with walker := { s'.walker with toHand := s'.walker.toHand &&& ~~~WordMask.single i } }

/-- The words still to hand on, handed (R24). -/
def State.handOn (s : State) : State :=
  match s.walker.chosen with
  | some l => State.handStep l s.walker.toHand.words s
  | none => s.endStep

/-- A completed step on a line with the cells read: the cursor passes the line, and the lost words are handed on (R24). -/
def State.finishStep (s : State) (l : Line) (cells : Vector Cell 4) : State :=
  State.handOn
    { s with walker := { s.walker with
        cursor := l.val + 1, findings := some (Vector.ofFn fun i : WordIx => cells[i].health),
        toHand := uncorrectableMask cells } }

/-- A HELD walker hands its word again (R163). -/
def State.wakeWalker (s : State) : State := if s.walker.state = .held then s.handOn else s

/-- A WAITING step whose line has stopped being eligible is withdrawn and chosen again at once (R24). -/
def State.reviewWalker (s : State) : State :=
  match s.walker.state, s.walker.chosen with
  | .waiting, some l => if s.eligible l then s else s.chooseLine
  | _, _ => s

end Sys2Proof.Machine
end

