-- ==== Sys2Proof/Machine/StorePortUnit.lean ====
section
/-! DEFINITION. The store port (R8 to R10): what each claimant presents, the grant, and what each completion does; the fill
(R17, R18); and the release of the requesters held on the repair list (R163, R170). -/

namespace Sys2Proof.Machine

/-- The release after the repair list has changed: the held read, the waiting lines, and, at room, the walker and then a read
waiting for a slot (R163, R170). -/
def State.releaseHeld (s : State) (room : Bool) : State :=
  let s1 := s.releaseRead.releaseJobs room
  if room then s1.wakeWalker.retake .slotWait else s1

/-- The release after an event that began with a given repair list: nothing while the list stands as it was, and room where the
event removed an entry or turned one FAILED (R163, R170). -/
def State.releaseSince (s : State) (before : List RepairEntry) : State :=
  if s.repair = before then s else s.releaseHeld (madeRoom before s.repair)

/-! ### What the claimants present (R9) -/

/-- The claimants in order of priority (R9). -/
def claimants : List Claimant := [.apply, .localPort, .giveRead, .spareCopy, .serve, .scrub, .fill]

/-- Is a claimant's operation in progress? -/
def State.runningFor (s : State) (c : Claimant) : Bool :=
  match s.sp.running with
  | some r => r.claimant == c
  | none => false

/-- The masked line write of one word of a LOCAL write (R48). -/
def localWrite (r : Request) (d : Word) : LineWrite :=
  ⟨r.line, WordMask.single r.word, words4 fun i => if i = r.word then d else 0, 0⟩

/-- The LOCAL operation of a request (R41, R48). -/
def Request.storeOp (r : Request) : StoreOp :=
  match r.direction with
  | .read => .read r.line
  | .write d => .write (localWrite r d)

/-- The fill write of a line: four zero words (The fill). -/
def zeroLine (l : Line) : LineWrite := ⟨l, 15, Vector.replicate 4 0, 0⟩

/-- The segment being filled, if any. -/
def StorePort.fillingSegment (p : StorePort) : Option Segment := segments.find? fun g => p.fill[g] == .filling

/-- Set a segment's fill state. -/
def StorePort.setFill (p : StorePort) (g : Segment) (f : FillState) : StorePort := { p with fill := p.fill.set g f }

/-- What a claimant presents. -/
def State.presented (s : State) : Claimant → Option StoreOp
  | .apply => s.sp.applyList.head?.map .write
  | .localPort =>
    match s.port.request with
    | some r => if r.stage = .storeWait then some r.storeOp else none
    | none => none
  | .giveRead => (s.gives.find? fun e => e.state == .reading).map fun e => .read e.line
  | .spareCopy => s.sp.spareCopy
  | .serve =>
    s.catchup.reader.bind fun k => (s.catchup.jobs[k]).bind fun j => j.reading.map fun o => .read (lineAt j.segment o)
  | .scrub => if s.walker.state = .waiting then s.walker.chosen.map .read else none
  | .fill => s.sp.fillingSegment.map fun g => .write (zeroLine (lineAt g s.sp.fillNext))

/-- GIVE_READ takes the oldest TO_READ entry, one read at a time (R171). -/
def State.presentGive (s : State) : State :=
  if s.runningFor .giveRead || s.gives.any fun e => e.state == .reading then s
  else
    match s.gives.findIdx? fun e => e.state == .toRead with
    | some n => { s with gives := s.gives.modify n fun e => { e with state := .reading } }
    | none => s

/-- Is a copy still wanted: the fill copy of an entry still FILLING, or the return copy of one still retiring (R14, R32)? -/
def State.copyWanted (s : State) : StoreOp → Bool
  | .fillCopy k l => s.store.table[k].state == .filling && s.store.table[k].line == some l
  | .returnCopy k _ => (s.health.retire[k]).isSome
  | .read _ | .write _ => false

/-- The return copy of an entry, if due (R32, case 1). -/
def State.returnDue (s : State) (k : SpareIx) : Option StoreOp :=
  if (s.health.retire[k]).isSome then (s.store.table[k].line).map (.returnCopy k) else none

/-- The fill copy of an entry, if due (R32, case 2). -/
def State.fillDue (s : State) (k : SpareIx) : Option StoreOp :=
  match s.store.table[k].line with
  | none => none
  | some l =>
    if s.store.table[k].state == .filling && !s.health.copyDone[k] && s.mode (segmentOf l) != .off && !s.fillPending (segmentOf l)
    then some (.fillCopy k l) else none

/-- The copy SPARE_COPY chooses when it presents (R32). -/
def State.copyDue (s : State) : Option StoreOp :=
  match spareIxs.findSome? s.returnDue with
  | some op => some op
  | none => spareIxs.findSome? s.fillDue

/-- SPARE_COPY presents: a copy presented stays unless it is withdrawn, and none is presented while one is in progress. While
the table is lost there is none (R29, R32). -/
def State.presentSpareCopy (s : State) : State :=
  let kept := if s.store.tableLost then none else s.sp.spareCopy.filter s.copyWanted
  let chosen := if kept.isSome || s.store.tableLost || s.runningFor .spareCopy then kept else s.copyDue
  { s with sp := { s.sp with spareCopy := chosen } }

/-- FILL presents: the next WAITING segment becomes FILLING when none is (The fill). -/
def State.presentFill (s : State) : State :=
  if s.sp.fillingSegment.isSome then s
  else
    match segments.find? fun g => s.sp.fill[g] == .waiting with
    | some g => { s with sp := { s.sp.setFill g .filling with fillNext := 0 } }
    | none => s

/-! ### The grant (R10) -/

/-- The operation the port would grant: of the first presenting claimant in priority. -/
def State.nextGrant (s : State) : Option Running := claimants.findSome? fun c => (s.presented c).map fun op => ⟨c, op⟩

/-- The grant of an operation: SPARE_COPY presents it no longer, and the walker STEPS (R10, R24). -/
def State.begin (s : State) (r : Running) : State :=
  { s with
    sp := { s.sp with running := some r, spareCopy := if r.claimant = .spareCopy then none else s.sp.spareCopy }
    walker := if r.claimant = .scrub then { s.walker with state := .stepping } else s.walker }

/-- The store port grants when it is IDLE and some claimant presents (R10). -/
def State.grant (s : State) : State :=
  match s.sp.running with
  | some _ => s
  | none =>
    match s.nextGrant with
    | some r => s.begin r
    | none => s

/-- The claimants present what their owners' state now calls for, and the port grants if it can. Blocks present from the entry
to FILLING on (log 21). -/
def State.settle (s : State) : State :=
  if s.started then s.reviewWalker.presentGive.presentSpareCopy.presentServe.presentFill.grant else s

/-! ### The fill (R7, R17, R18) -/

/-- The end of FILLING when no segment is WAITING or FILLING: the marker is written VALID, the station LISTENS and the walker
starts (R7, R18, R21, R122). -/
def State.leaveFilling (s : State) : State :=
  if s.join.station = .filling ∧ segments.all fun g => !s.fillPending g then
    State.startWalker
      { s with store := { s.store with marker := .valid }, join := { s.join with station := .listening } }
  else s

/-- The entry to FILLING: a cold start clears the table and fills every segment, a warm start fills the flagged ones (R7, R17,
R18). A request in START_WAIT is re-taken (R39). -/
def State.enterFilling (s : State) : State :=
  let cold := s.store.marker == .invalid
  let s1 :=
    { s with
      store := if cold then s.store.clearTable else s.store
      sp := { s.sp with fill := Vector.ofFn fun g : Segment => if cold || s.fillFlag g then .waiting else .none, fillNext := 0 }
      join := { s.join with station := .filling } }
  (s1.retake .startWait).leaveFilling

/-! ### Completions -/

/-- The port becomes IDLE at a completion (R10). -/
def State.idlePort (s : State) : State := { s with sp := { s.sp with running := none } }

/-- An APPLY write completes and leaves the list (R15). -/
def State.completeApply (s : State) (w : LineWrite) : State :=
  { s with store := s.store.write w, sp := { s.sp with applyList := s.sp.applyList.tail } }

/-- A LOCAL read completes (R41, R45). -/
def State.completeLocalRead (s : State) (l : Line) : State :=
  let cells := s.delivered l
  let s' := s.completeRead .localPort l
  match s'.port.request with
  | some r => if r.stage = .storeWait then s'.endRead r cells[r.word] else s'
  | none => s'

/-- A LOCAL write completes, and the request is answered DONE (R48). -/
def State.completeLocalWrite (s : State) (w : LineWrite) : State := ({ s with store := s.store.write w }).answer .done 0

/-- The lost words of a give entry's read handed to this station's own repair unit, in ascending word index (log 33); a word held
for a slot is dropped (R171). -/
def State.handGive (s : State) (l : Line) (m : WordMask) : State := m.words.foldl (fun s i => (s.handWord .bus l i).2) s

/-- A GIVE_READ read completes. When its entry is gone, the data is discarded and no lost word is handed on (R171, log 43). -/
def State.completeGiveRead (s : State) (l : Line) : State :=
  let cells := s.delivered l
  let s' := s.completeRead .giveRead l
  if s'.gives.any fun e => e.state == .reading && e.line == l then
    ({ s' with gives := giveRead s'.gives cells }).handGive l (uncorrectableMask cells)
  else s'

/-- A SERVE read completes; the data is discarded when its job is gone (R143, R145). -/
def State.completeServe (s : State) (l : Line) : State :=
  let cells := s.delivered l
  let s' := s.completeRead .serve l
  match s'.catchup.reader with
  | none => s'
  | some k =>
    match s'.catchup.jobs[k] with
    | none => s'
    | some j =>
      match j.reading with
      | none => s'
      | some o => if lineAt j.segment o = l then s'.endServe k j.segment o cells else s'

/-- A walker step completes (R24). -/
def State.completeScrub (s : State) (l : Line) : State :=
  let cells := s.store.readLine l
  let s' := s.completeRead .scrub l
  if s'.walker.state = .stepping then s'.finishStep l cells else s'

/-- A fill copy completes: the spare written, the words counted, the copy-done mark set (R14, R19, R32). A table lost meanwhile is
not used, nor its spare written (R29, log 4). -/
def State.completeFillCopy (s : State) (k : SpareIx) (l : Line) : State :=
  let filled := if s.store.tableLost then s.store else s.store.fillCopy k l
  let s' := ({ s with store := filled }).countCorrected (s.store.arrayLine l)
  { s' with health := { s'.health with copyDone := s'.health.copyDone.set k true } }

/-- The entry RETIRED at the end of its return copy, and its mark cleared (R36). -/
def State.retireEntry (s : State) (k : SpareIx) : State :=
  { s with
    store := s.store.setEntry k { s.store.table[k] with state := .retired }
    health := { s.health with retire := s.health.retire.set k none } }

/-- A return copy completes: the array written, the words counted, the entry RETIRED and the line promoted again (R19, R35, R36).
With the table lost meanwhile the words are counted and nothing is written (R29, log 4). -/
def State.completeReturnCopy (s : State) (k : SpareIx) (l : Line) : State :=
  let counted := s.countCorrected (s.store.spareLine k)
  if s.store.tableLost then counted
  else
    let origin := (s.health.retire[k]).getD .scrub
    (({ counted with store := s.store.returnCopyWords k l 15 }).retireEntry k).promote origin l

/-- A fill write completes; the last of a segment ends its fill, and a request waiting for it is re-taken (R18, R40). -/
def State.completeFill (s : State) (w : LineWrite) : State :=
  let s' := { s with store := s.store.write w }
  match s.sp.fillingSegment with
  | none => s'
  | some g =>
    if s.sp.fillNext + 1 < segmentLines then { s' with sp := { s'.sp with fillNext := s'.sp.fillNext + 1 } }
    else
      let s2 := State.leaveFilling { s' with sp := { s'.sp.setFill g .ended with fillNext := 0 } }
      s2.retake .fillWait

/-! ### A core reset in the middle of an operation (R6) -/

/-- The retention domain after an operation cut short: the words of `arr` were written in the array and those of `spr` in a
spare line; a spare word and its mask bit change together, so that the bit of a spare word that stays old stays as it was, set
or clear (R6, log 46). -/
def Store.cutShort (st : Store) (writeBack : Bool) (op : StoreOp) (arr spr : WordMask) : Store :=
  match op with
  | .write w => st.writeParts w.line (w.mask &&& arr) (w.mask &&& spr) w.cell
  | .read l =>
    let cells := st.readLine l
    let m := if writeBack then correctableMask cells else 0
    st.writeParts l (m &&& arr) (m &&& spr) fun i => cells[i].cleaned
  | .fillCopy k l => if st.tableLost then st else st.fillCopyWords k l (st.fillMask k l &&& spr)
  | .returnCopy k l => if st.tableLost then st else st.returnCopyWords k l arr

/-- The retention domain after a core reset (R6). -/
def State.storeAfterReset (s : State) (arr spr : WordMask) : Store :=
  match s.sp.running with
  | none => s.store
  | some r =>
    let wb := match r.op with
      | .read l => s.scrub (segmentOf l) != .off
      | .write _ | .fillCopy _ _ | .returnCopy _ _ => false
    s.store.cutShort wb r.op arr spr

end Sys2Proof.Machine
end

