-- ==== Sys2Proof/Machine/Transmit.lean ====
section
/-! DEFINITION. The transmit selector (R91), the judgement of its items at a window opening, the composition of frames (R92),
and the beginning of a frame. -/

namespace Sys2Proof.Machine

/-! ### The selector (R91) -/

/-- The joiner this station's ROSTER item addresses (R131). -/
def State.rosterDue (s : State) : Option Station :=
  s.heldView.bind fun v => stations.find? fun x =>
    v.awaiting x && v.joinResponder x == some s.me &&
      (match s.join.rosters[x] with
       | some r => !r.dropped
       | none => false)

/-- The segment of this station's STALL item: the lowest (R158). -/
def State.stallDue (s : State) : Option Segment := segments.find? fun g => (s.catchup.monitors[g].stall).isSome

/-- Is the LEAVE item pending (R137)? -/
def State.leaveDue (s : State) : Bool := s.join.station == .leaving && s.out.isEmpty && !s.commit.state.pending

/-- Is the head of the give queue READY? -/
def State.giveDue (s : State) : Bool :=
  match s.gives with
  | e :: _ => e.state == .ready
  | [] => false

/-- The line of the oldest entry in phase TO_ASK (R164). -/
def State.askDue (s : State) : Option Line := (s.repair.find? RepairEntry.toAsk).map (·.line)

/-- Is the job the token names READY (R150)? -/
def State.copyReady (s : State) : Bool :=
  match s.catchup.token with
  | some k => s.jobReady k
  | none => false

/-- The items a JOINED or LEAVING station offers at class 0 or 1, in the selector's order (R91). -/
def State.urgentItem (s : State) : Option Item :=
  match s.rosterDue with
  | some x => some (.roster x)
  | none =>
    match s.stallDue with
    | some g => some (.stall g)
    | none =>
      if s.leaveDue then some .leave
      else if s.giveDue then some .give
      else
        match s.askDue with
        | some l => some (.ask l)
        | none => if s.out.isEmpty then none else some .outbound

/-- The first item offered in the lowest-numbered class, in a state whose items are judged (R91). -/
def State.chosenItem (s : State) : Option Item :=
  match s.join.station with
  | .joining | .rosterWait => if s.join.joinPending then some .join else none
  | .joined | .leaving =>
    match s.urgentItem with
    | some i => some i
    | none =>
      if s.copyReady then some .copy
      else if s.join.station == .joined && s.bus.emptyPending then some .empty
      else none
  | .config | .clocking | .filling | .listening | .offline => none

/-- The judgements made at a window opening: STALL items, the give head, the GROUP head and the token (R91, R75, R150, R158,
R172). -/
def State.judgeItems (s : State) : State :=
  match s.heldView with
  | none => s
  | some v =>
    let s1 := s.judgeStalls
    (State.judgeGroupHead { s1 with gives := giveJudge v s.me s1.gives }).moveToken

/-- Does this station have an item pending at class 0 or 1 that its station state admits (R103, R104)? The items count as the
blocks hold them: a STALL, GIVE or GROUP head that the next opening's judgement will drop is pending until that opening (R58, R75,
R91, R158, R172, log 23). -/
def State.urgentPending (s : State) : Bool := s.inGroup && s.urgentItem.isSome

/-- The class of an item. -/
def Item.cls : Item → Fin 4
  | .roster _ | .join | .stall _ | .leave => 0
  | .give | .ask _ | .outbound => 1
  | .copy => 2
  | .empty => 3

/-! ### Claim positions (R88, R89) -/

/-- The winner that rotation distances are reckoned from. -/
def State.lastWinner (s : State) : Station :=
  match s.heldView with
  | some v => v.lastWinner
  | none => s.bus.tracked

/-- The rotation distance of a station. -/
def rotationDistance (x last : Station) : Nat := (x.val + 31 - last.val) % 16

/-- The claim position of a station in a class. -/
def claimPosition (x last : Station) (c : Fin 4) : Nat := 16 * c.val + rotationDistance x last

/-- The station a claim position belongs to. -/
def stationAt (p : Fin 64) (last : Station) : Station := Fin.ofNat 16 (last.val + 1 + p.val % 16)

/-- The class of a claim position. -/
def classAt (p : Fin 64) : Fin 4 := ⟨p.val / 16, by omega⟩

/-- This station's own claim position in the open window, if it claims. -/
def State.ownPosition (s : State) : Option Nat := s.bus.claim.map fun i => claimPosition s.me s.lastWinner i.cls

/-! ### Composition (R92) -/

/-- This station's declarations: the segments configured MIRRORED, ascending (R124). -/
def State.declarations (s : State) : Declarations :=
  (segments.filter fun g => s.mode g == .mirrored).map fun g => (g, s.mirrorSet g)

/-- The outbound head at its claim: an UPDATE entry becomes SENDING without its mark (R58), a GROUP entry begins its run
(R76). -/
def State.sendOutbound (s : State) : Option (Frame × State) :=
  match s.out with
  | [] => none
  | e :: rest =>
    match e.body with
    | .update _ l m slots _ =>
      some (composeUpdate s.me l m slots gposNone 0, { s with out := { e.unmark with state := .sending } :: rest })
    | .group head count =>
      some (s.groupFrame head count 0,
        { s with out := { e with state := .sending } :: rest, commit := { s.commit with state := .sending, sendPos := 0 } })

/-- The ASK of a line's entry, which enters phase IN_FLIGHT (R164). -/
def State.sendAsk (s : State) (l : Line) : Option (Frame × State) :=
  (repairFor s.repair l).bind fun e =>
    match e.state with
    | .asking .toAsk asks rejections of =>
      some (composeAsk s.me e,
        { s with repair := repairMap s.repair l fun e => { e with state := .asking .inFlight asks rejections of } })
    | .asking .inFlight _ _ _ | .asking .timing _ _ _ | .failed => none

/-- The GIVE of the head, which becomes IN_FLIGHT (R173). -/
def State.sendGive (s : State) : Option (Frame × State) :=
  match s.gives with
  | e :: rest => some (composeGive s.me e, { s with gives := { e with state := .inFlight } :: rest })
  | [] => none

/-- The first COPY of a run of the job the token names (R102). The job was READY at the opening that chose it; where the repair
timer's expiry has since cleared the waiting line that alone made a short buffer READY (R147, R167), the spec does not say whether
the item is withdrawn (R90): the claim stands, and the frame carries what the buffer holds (log 53). -/
def State.sendCopy (s : State) : Option (Frame × State) :=
  s.catchup.token.bind fun k => (s.catchup.jobs[k]).map fun j =>
    (s.copyFrame j 1, { s with bus := { s.bus with copyRun := some ⟨k, 1, none⟩ } })

/-- The frame of an item, with what its composition changes; absent when the item has gone. -/
def State.compose (s : State) : Item → Option (Frame × State)
  | .roster x => s.heldView.map fun v => (composeRoster s.me x v, s)
  | .join => some (composeJoin s.me s.declarations, s)
  | .stall g => (s.catchup.monitors[g].stall).map fun i => (composeStall s.me g i.server, s)
  | .leave => some (composeLeave s.me, s)
  | .give => s.sendGive
  | .ask l => s.sendAsk l
  | .outbound => s.sendOutbound
  | .copy => s.sendCopy
  | .empty => some (composeEmpty s.me, s)

/-! ### The beginning of a frame (R86, R93, R101) -/

/-- The bus unit at the beginning of a frame: its owner and class known, the quiet timer held. -/
def BusUnit.beginFrame (b : BusUnit) (owner : Station) (c : Fin 4) (run : BusRun) (own : Option InFlight) : BusUnit :=
  { b with
    phase := some .inFrame, window := .due, owner := some owner, cls := some c, run := run, claim := none, inFlight := own,
    next := none, breakIn := false, slot := none, quiet := if b.quiet = .counting then .held else b.quiet }

/-- The run record at the beginning of a frame that follows a claim window (R101). -/
def runAtClaim (owner : Station) (c : Fin 4) : BusRun := if c = 2 then .copy owner else .none

/-- The count of the window's positions taken to a number (R184). -/
def BusUnit.countTo (b : BusUnit) (n : Nat) : BusUnit := { b with positions := n }

/-- A claim resolved at a position: the count stands there, the winner's frame begins, and a winner composes (R88, R92). -/
def State.resolveClaim (s : State) (p : Fin 64) : State :=
  let owner := stationAt p s.lastWinner
  let c := classAt p
  let listen : State := { s with bus := (s.bus.countTo p.val).beginFrame owner c (runAtClaim owner c) none }
  match s.bus.claim with
  | none => listen
  | some item =>
    if s.ownPosition = some p.val then
      match s.compose item with
      | some (f, s') => { s' with bus := (s'.bus.countTo p.val).beginFrame owner c (runAtClaim owner c) (some ⟨item, f⟩) }
      | none => listen
    else listen

/-- The run record at a continuation (R101). -/
def runAtContinuation (owner : Station) (c : Fin 4) (run : BusRun) : BusRun := if c = 1 then .group owner else run

/-- A continuation: the next frame of the same owner and class begins; the sender's is the one composed at the last frame end
(R101, R102, R105). -/
def State.continueRun (s : State) (owner : Station) (c : Fin 4) : State :=
  let own := s.bus.next.map fun f => (⟨if c = 1 then .outbound else .copy, f⟩ : InFlight)
  let run := s.bus.copyRun.map fun r => { r with count := r.count + 1 }
  { s with bus := { (s.bus.beginFrame owner c (runAtContinuation owner c s.bus.run) own) with copyRun := run } }

/-- The bus unit where a claim window follows: no run, no frame decoded, and the window due. -/
def BusUnit.awaitWindow (b : BusUnit) : BusUnit :=
  { b with
    phase := some .claiming, window := .due, owner := none, cls := none, run := .none, next := none, copyRun := none,
    breakIn := false }

end Sys2Proof.Machine
end

