-- ==== Sys2Proof/Machine/Validation.lean ====
section
/-! DEFINITION. Receiver validation (R96 to R100): when a frame is malformed, a duplicate, or inconsistent with a view. -/

namespace Sys2Proof.Machine

/-- The counts a kind admits (R95). -/
def FrameKind.admitsCount (k : FrameKind) (n : Nat) : Bool :=
  match k with
  | .update => decide (1 ≤ n ∧ n ≤ 4)
  | .copy => decide (1 ≤ n ∧ n ≤ 6)
  | .join => decide (n ≤ 8)
  | .roster | .stall | .leave | .ask | .give | .empty => n == 0

/-- The group positions a kind admits (R95). -/
def FrameKind.admitsPosition (k : FrameKind) (p : BitVec 3) : Bool :=
  match k with
  | .update => p == gposNone || p == gposFirst || p == gposMiddle || p == gposLast || p == gposSingle
  | .copy => p == gposOpen || p == gposShut
  | .join | .roster | .stall | .leave | .ask | .give | .empty => p == gposNone

/-- The malformed cases of an UPDATE (R60, R76). -/
def Frame.updateMalformed (f : Frame) : Bool :=
  let n := f.groupLength
  f.updateMask == 0 || f.updateMask.size != f.header.count.toNat ||
    (if f.header.gpos = gposNone then n != 0
     else if f.header.gpos = gposSingle then n != 1
     else decide (n < 2 ∨ 16 < n))

/-- The malformed cases of a COPY (R153). -/
def Frame.copyMalformed (f : Frame) : Bool :=
  let n := f.header.count.toNat
  let finish := f.header.offset.toNat + n
  f.copyStation == f.sender || decide (segmentLines < finish) || f.copyLast != (finish == segmentLines) ||
    ((List.range 6).any fun k => decide (n ≤ k) && f.copyVoid k != 0) ||
    !(f.header.gpos == gposOpen || f.header.gpos == gposShut)

/-- Are the declared segments strictly ascending? -/
def ascendingSegments : Declarations → Bool
  | [] => true
  | [_] => true
  | a :: b :: rest => decide (a.1 < b.1) && ascendingSegments (b :: rest)

/-- The malformed cases of a JOIN (R124). -/
def Frame.joinMalformed (f : Frame) : Bool :=
  (f.declarations.any fun d => !d.2.has f.sender) || !ascendingSegments f.declarations

/-- The malformed cases of a ROSTER (R131). -/
def Frame.rosterMalformed (f : Frame) : Bool :=
  match f.rosterContent with
  | none => true
  | some c => !c.view.awaiting c.joiner || !c.view.settled f.sender || c.digest != checkWord c.image

/-- The malformed cases that the owning chapter of a kind lists. -/
def Frame.kindMalformed (f : Frame) : FrameKind → Bool
  | .update => f.updateMalformed
  | .copy => f.copyMalformed
  | .join => f.joinMalformed
  | .roster => f.rosterMalformed
  | .give => f.giveAsker == f.sender
  | .ask => f.askMask == 0
  | .stall => f.stallServer == f.sender
  | .leave | .empty => false

/-- A frame whose check word passes is malformed (R98). -/
def Frame.malformed (f : Frame) (owner : Station) (c : Fin 4) : Bool :=
  match f.kind? with
  | none => true
  | some k =>
    f.header.cls != k.cls || f.header.cls.toNat != c.val || f.sender != owner ||
      decide (payloadLimit < f.header.length.toNat) || f.expectedLength k != some f.header.length.toNat ||
      !k.admitsCount f.header.count.toNat || !k.admitsPosition f.header.gpos || f.kindMalformed k

/-- A COPY is inconsistent with a view (R100). -/
def Frame.copyInconsistent (f : Frame) (v : View) : Bool :=
  match v.cursor f.copyStation f.segment with
  | none => true
  | some u => v.server f.copyStation f.segment != some f.sender || f.header.offset.toNat != u

/-- A ROSTER is inconsistent with a view (R100). -/
def Frame.rosterInconsistent (f : Frame) (v : View) : Bool :=
  match f.rosterContent with
  | none => false
  | some c => v.joinResponder c.joiner != some f.sender || c.digest != v.digest

/-- A frame is inconsistent with a view (R100). -/
def Frame.inconsistent (f : Frame) (v : View) : Bool :=
  match f.kind? with
  | some .update => !v.isMember f.sender f.segment
  | some .copy => f.copyInconsistent v
  | some .roster => f.rosterInconsistent v
  | some .give => v.repairResponder f.giveAsker f.segment != some f.sender
  | some .stall => v.server f.sender f.segment != some f.stallServer
  | some .join | some .leave | some .ask | some .empty | none => false

/-- What the checks make of a frame (R97). -/
structure Judgement where
  failed       : Bool
  malformed    : Bool
  duplicate    : Bool
  inconsistent : Bool
  deriving DecidableEq, Repr

/-- Is the frame marked for rejection? -/
def Judgement.marks (j : Judgement) : Bool := j.failed || j.malformed || j.duplicate || j.inconsistent

/-- Could the frame's own effects not be taken: its check failed, or it was malformed (R108)? -/
def Judgement.unreadable (j : Judgement) : Bool := j.failed || j.malformed

/-- No check marks the frame. -/
def Judgement.sound : Judgement := ⟨false, false, false, false⟩

/-- The checks of a frame heard (R96, R98, R99, and R100 for a station that holds a view). -/
def State.judgeFrame (s : State) (f : Option Frame) (owner : Station) (c : Fin 4) : Judgement :=
  match f with
  | none => ⟨true, false, false, false⟩
  | some f =>
    { failed := false, malformed := f.malformed owner c, duplicate := f.sender == s.me,
      inconsistent := match s.heldView with
        | some v => f.inconsistent v
        | none => false }

/-- Does the station validate frames and drive slots (R97, R106)? -/
def State.validates (s : State) : Bool := s.inGroup || s.join.station == .rosterWait

end Sys2Proof.Machine
end

