-- ==== Sys2Proof/Machine/FrameEffects.lean ====
section
/-! DEFINITION. What an accepted frame's own effects do at this station beside the view (R61, R79 to R81, R154, R159, R165,
R168, R171), and what a rejection does to this station's own item. -/

namespace Sys2Proof.Machine

/-! ### Applied writes (R15, R148, R169, R172) -/

/-- The writes a frame end assigns to this station: entered on the pending APPLY list, and handed to the repair list, the jobs
and the give queue in list order. -/
def State.enterWrites (s : State) (ws : List LineWrite) : State :=
  { s with
    sp := { s.sp with applyList := s.sp.applyList ++ ws }
    catchup := s.catchup.mapJobs fun j => ws.foldl Job.snoop j
    gives := ws.foldl givePatch s.gives
    repair := ws.foldl repairCure s.repair }

/-! ### Groups at a receiver (R79 to R81) -/

/-- The group buffer after an accepted group frame, and the writes it applies. -/
def takeGroupFrame (b : Option GroupBuffer) (f : Frame) (record : List LineWrite) : Option GroupBuffer × List LineWrite :=
  if f.header.gpos = gposFirst then (some ⟨f.sender, f.groupLength, 1, record⟩, [])
  else if f.header.gpos = gposSingle then (none, record)
  else
    match b with
    | none => (none, [])
    | some b =>
      if b.sender = f.sender ∧ b.length = f.groupLength then
        if f.header.gpos = gposMiddle ∧ b.taken + 1 < b.length then
          (some { b with taken := b.taken + 1, lines := b.lines ++ record }, [])
        else if f.header.gpos = gposLast ∧ b.taken + 1 = b.length then (none, b.lines ++ record)
        else (none, [])
      else (none, [])

/-- An accepted UPDATE of another station (R61, R79). -/
def State.takeUpdate (s : State) (v : View) (f : Frame) : State :=
  let record := if v.isMember s.me f.segment then [f.updateWrite] else []
  if f.header.gpos = gposNone then ({ s with group := none }).enterWrites record
  else
    let t := takeGroupFrame s.group f record
    ({ s with group := t.1 }).enterWrites t.2

/-- The writes of this station's own accepted UPDATE or group frame (R61, R81). -/
def State.ownWrites (s : State) (v : View) (f : Frame) : List LineWrite :=
  match s.out with
  | ⟨.group head count, _, _⟩ :: _ => if s.commit.sendPos + 1 < count then [] else s.commit.chainWrites head count
  | _ => if v.isMember s.me f.segment then [f.updateWrite] else []

/-- This station's own accepted UPDATE or group frame (R62, R77, R82). -/
def State.takeOwnUpdate (s : State) (v : View) (f : Frame) : State :=
  (({ s with group := none }).outboundAccepted).enterWrites (s.ownWrites v f)

/-! ### The other kinds -/

/-- A re-JOIN: the joiner's give entries, the jobs of its pairs and its ROSTER record vanish first (R127). New jobs for its pairs
come with its ROSTER (R142, log 52). -/
def State.forgetStation (s : State) (x : Station) : State :=
  { s with
    gives := s.gives.filter fun e => e.asker != x
    catchup := s.catchup.dropWhere fun j => j.station == x
    join := { s.join with rosters := s.join.rosters.set x none } }

/-- This station's own accepted STALL: CATCHUP_STALLED is logged, the item removed, and a fresh window taken (R159). -/
def State.takeOwnStall (s : State) (v : View) (f : Frame) : State :=
  ({ s with catchup := s.catchup.modifyMonitor f.segment fun m => Monitor.fresh { m with stall := none } }).raise
    (busEntry .catchupStalled (some f.segment) none (some f.stallServer) ((v.cursor s.me f.segment).getD 0))

/-- The asker's entry at its accepted ASK (R165). An entry whose responder changed while it was TO_ASK keeps its count of asks
(R161, R166, log 42). -/
def RepairEntry.asked (e : RepairEntry) (responder : Option Station) : RepairEntry :=
  match e.state with
  | .asking .inFlight asks _ _ => { e with state := .asking .timing (asks + 1) 0 responder }
  | .asking .toAsk _ _ _ | .asking .timing _ _ _ | .failed => e

/-- An accepted ASK at its asker (R165). -/
def State.takeOwnAsk (s : State) (v : View) (f : Frame) : State :=
  { s with repair := repairMap s.repair f.line fun e => e.asked (v.repairResponder s.me f.segment) }

/-- An accepted ASK at the responder (R171). -/
def State.takeAsk (s : State) (v : View) (f : Frame) : State :=
  if v.repairResponder f.sender f.segment = some s.me then { s with gives := giveTake s.gives f.sender f.segment f.line } else s

/-- An accepted GIVE at the asker it names, a member of its segment (R136, R168). -/
def State.takeGive (s : State) (v : View) (f : Frame) : State :=
  if f.giveAsker = s.me ∧ v.isMember s.me f.segment then
    match repairFor s.repair f.line with
    | none => s
    | some e =>
      let w := f.giveWrite
      let left := e.bad &&& ~~~w.plainMask
      let s1 := { s with repair := repairCovered s.repair w }
      let s2 :=
        if e.asking && left != 0 then
          s1.raise { wordLost e.origin e.line left with station := some f.sender }
        else s1
      s2.enterWrites (if w.mask == 0 then [] else [w])
  else s

/-- An accepted COPY at the station it names, a member of its segment (R136, R154). One that is CURRENT, and whose REJECT of the
frame was lost, takes it too (log 47). -/
def State.takeCopy (s : State) (v : View) (f : Frame) : State :=
  if f.copyStation = s.me ∧ v.isMember s.me f.segment then
    let s1 := s.enterWrites f.copyWrites
    let s2 :=
      { s1 with catchup := s1.catchup.modifyMonitor f.segment fun m => { m with count := m.count + f.header.count.toNat } }
    s2.setFlagIf f.copyLast .catchupDone
  else s

/-- This station's own accepted COPY: the lines leave the job, or the job completes (R143, R154). -/
def State.takeOwnCopy (s : State) (f : Frame) : State :=
  match s.bus.copyRun with
  | none => s
  | some run =>
    if f.copyLast then
      { s with catchup := s.catchup.removeJob run.job, bus := { s.bus with copyRun := some { run with gone := some .completed } } }
    else { s with catchup := s.catchup.modifyJob run.job fun j => j.advance f.header.count.toNat }

/-- The own effects of another station's accepted frame, beside the view. -/
def State.takePeerFrame (s : State) (v : View) (f : Frame) : State :=
  match f.kind? with
  | some .update => s.takeUpdate v f
  | some .join => if v.present f.sender then ({ s with group := none }).forgetStation f.sender else { s with group := none }
  | some .ask => ({ s with group := none }).takeAsk v f
  | some .give => ({ s with group := none }).takeGive v f
  | some .copy => ({ s with group := none }).takeCopy v f
  | some .roster | some .stall | some .leave | some .empty | none => { s with group := none }

/-- The own effects of this station's accepted frame, beside the view. -/
def State.takeOwnFrame (s : State) (v : View) (f : Frame) : State :=
  match f.kind? with
  | some .update => s.takeOwnUpdate v f
  | some .stall => ({ s with group := none }).takeOwnStall v f
  | some .ask => ({ s with group := none }).takeOwnAsk v f
  | some .give => { s with group := none, gives := s.gives.tail }
  | some .copy => ({ s with group := none }).takeOwnCopy f
  | some .join | some .roster | some .leave | some .empty | none => { s with group := none }

/-! ### Rejections of this station's own frames -/

/-- A rejected ROSTER (R131). -/
def State.rejectRoster (s : State) (x : Station) : State :=
  match s.join.rosters[x] with
  | none => s
  | some r =>
    let dropped := decide (frameRetryLimit ≤ r.attempts + 1)
    let s' := { s with join := { s.join with rosters := s.join.rosters.set x (some ⟨r.attempts + 1, r.dropped || dropped⟩) } }
    if dropped then s'.raise (busEntry .frameDiscarded none none (some x) 0) else s'

/-- A rejected STALL (R158). -/
def State.rejectStall (s : State) (g : Segment) : State :=
  match s.catchup.monitors[g].stall with
  | none => s
  | some i =>
    if i.attempts + 1 < frameRetryLimit then
      { s with catchup := s.catchup.modifyMonitor g fun m => { m with stall := some { i with attempts := i.attempts + 1 } } }
    else
      ({ s with catchup := s.catchup.modifyMonitor g fun m => { m with stall := none } }).raise
        (busEntry .frameDiscarded (some g) none (some i.server) 0)

/-- A rejected GIVE (R173). -/
def State.rejectGive (s : State) : State :=
  match s.gives with
  | [] => s
  | e :: rest =>
    if e.rejections + 1 < frameRetryLimit then
      { s with gives := { e with state := .ready, rejections := e.rejections + 1 } :: rest }
    else
      ({ s with gives := rest }).raise (busEntry .frameDiscarded (some e.segment) (some e.line) (some e.asker) e.void.toNat)

/-- A rejected ASK (R164). -/
def State.rejectAsk (s : State) (l : Line) : State :=
  match repairFor s.repair l with
  | none => s
  | some e =>
    match e.state with
    | .asking .inFlight asks rejections of =>
      if rejections + 1 < frameRetryLimit then
        { s with repair := repairMap s.repair l fun e => { e with state := .asking .toAsk asks (rejections + 1) of } }
      else
        ({ s with repair := repairMap s.repair l fun e => { e with state := .failed } }).raise
          (busEntry .frameDiscarded (some e.segment) (some e.line) none e.bad.toNat)
    | .asking .toAsk _ _ _ | .asking .timing _ _ _ | .failed => s

/-- A rejected COPY (R155). -/
def State.rejectCopy (s : State) (f : Frame) : State :=
  match s.bus.copyRun with
  | none => s
  | some run =>
    match s.catchup.jobs[run.job] with
    | none => s
    | some j =>
      if j.attempts + 1 < frameRetryLimit then
        { s with catchup := s.catchup.modifyJob run.job fun j => { j with attempts := j.attempts + 1 } }
      else
        ({ s with catchup := s.catchup.modifyJob run.job Job.restart }).raise
          (busEntry .frameDiscarded (some f.segment) (some f.line) (some f.copyStation) f.header.count.toNat)

/-- A rejected LEAVE; its eighth rejection is judged after the markings (R138). -/
def State.rejectLeave (s : State) : State :=
  { s with join := { s.join with leaveAttempts := s.join.leaveAttempts + 1 } }

/-- What a rejection does to this station's own item. -/
def State.ownRejected (s : State) (i : InFlight) : State :=
  match i.item with
  | .roster x => s.rejectRoster x
  | .stall g => s.rejectStall g
  | .leave => s.rejectLeave
  | .give => s.rejectGive
  | .ask l => s.rejectAsk l
  | .outbound => s.outboundRejected
  | .copy => s.rejectCopy i.frame
  | .join | .empty => s

end Sys2Proof.Machine
end

