-- ==== Sys2Proof/Machine/FrameEnd.lean ====
section
/-! DEFINITION. The frame end (R86, R109): the station's judgement and slot, the four steps of a station that holds a view, the
blocks' reactions to the changed view (R119), going OFFLINE (R120), and the frame end of a station without a view (R125,
R132). -/

namespace Sys2Proof.Machine

/-- A frame as this station meets its end: its owner and class as decoded at its beginning, what was read of it, this
station's judgement, and the slots. `own` is this station's item when the frame is its own. -/
structure Ended where
  owner : Station
  cls   : Fin 4
  frame : Option Frame
  own   : Option InFlight
  judged : Judgement
  slots : Slots
  deriving DecidableEq, Repr

/-! ### Reactions to the changed view (R119) -/

/-- The roster records: one for each AWAITING station this station is responder for (R131). -/
def State.reviewRosters (s : State) (v : View) : State :=
  { s with join := { s.join with
      rosters := Vector.ofFn fun x : Station =>
        if v.awaiting x && v.joinResponder x == some s.me then some ((s.join.rosters[x]).getD ⟨0, false⟩) else none } }

/-- Does a local state admit posted writes? -/
def LocalState.posts : LocalState → Bool
  | .current | .catching => true
  | .off | .localOnly | .detached | .mismatch | .orphaned => false

/-- Does a segment's local state leave those that admit posted writes (R66)? -/
def State.leaves (before s : State) (g : Segment) : Bool := (before.localState g).posts && !(s.localState g).posts

/-- A segment's change of local state: SEGMENT_CHANGE, and its UPDATE entries discarded when it leaves CURRENT or CATCHING
(R66, R135). -/
def State.reviewSegment (before : State) (s : State) (g : Segment) : State :=
  let s1 := s.setFlagIf (before.localState g != s.localState g) .segmentChange
  if State.leaves before s g then s1.discardSegment g else s1

/-- The changes of the local states at a frame end (R135), in ascending order of segment, and with it the OUTBOUND_DISCARD entries
(R66, log 33). -/
def State.reviewSegments (before s : State) : State := segments.foldl (State.reviewSegment before) s

/-- Is the head an UPDATE entry of a segment that leaves (R66)? -/
def State.headLeaves (before s : State) : Bool :=
  s.out.head?.any fun e => segments.any fun g => e.updateOf g && State.leaves before s g

/-- The frame's own effect on the head, before the discards of the segments: a spent head falls, but for one of a segment that
leaves, which is counted in that segment's discard (R65, R66). -/
def State.reviewHead (before s : State) : State := if State.headLeaves before s then s else s.discardSpentHead

/-- A copy run whose job is no longer served ends DROPPED (R104). -/
def State.reviewRun (s : State) (v : View) : State :=
  match s.bus.copyRun with
  | none => s
  | some run =>
    match s.catchup.jobs[run.job] with
    | none => s
    | some j =>
      if run.gone.isSome || v.serves s.me j.station j.segment then s
      else { s with bus := { s.bus with copyRun := some { run with gone := some .dropped } } }

/-- The jobs after the view's changes (R142). -/
def State.reviewJobs (s : State) (v : View) : State := { s with catchup := s.catchup.review v s.me s.runMax }

/-- The judgement of one ASKING entry against the changed view: what it becomes, and the log entry raised (R166). -/
def State.judgeEntry (s : State) (v : View) (e : RepairEntry) : Option RepairEntry × Option LogEntry :=
  match e.state with
  | .failed => (some e, none)
  | .asking phase _ rejections of =>
    if !s.repairable e.line then (none, none)
    else
      match v.repairResponder s.me e.segment with
      | none => (some { e with state := .failed }, some (wordLost e.origin e.line e.bad))
      | some r =>
        if phase = .timing ∧ of ≠ some r then (some { e with state := .asking .toAsk 0 rejections of }, none) else (some e, none)

/-- The judgement of the repair list at a frame end (R166), its log entries in list order, oldest first (log 33). -/
def State.reviewRepair (s : State) (v : View) : State :=
  let judged := s.repair.map (s.judgeEntry v)
  (judged.filterMap (·.2)).foldl State.raise { s with repair := judged.filterMap (·.1) }

/-- The held requests re-taken at a frame end: a write waiting for the queue, and a read waiting for a slot whose segment's
local state or cursor changed (R47, R50). Each is re-taken once, after all the view's changes, where one frame end has several
occasions for it (log 32). -/
def State.reviewPort (before s : State) : State :=
  let s1 := s.retake .queueWait
  match s1.port.request with
  | none => s1
  | some r =>
    if before.localState r.segment = s1.localState r.segment ∧ before.ownCursor r.segment = s1.ownCursor r.segment then s1
    else s1.retake .slotWait

/-! ### What follows the frame (R77, R103, R104) -/

/-- The next frame of this station's group run, composed at the frame end before it (R76, R77). -/
def State.continueGroup (s : State) (accepted : Bool) : State :=
  match s.out with
  | ⟨.group head count, .sending, _⟩ :: _ =>
    let pos := if accepted then s.commit.sendPos + 1 else s.commit.sendPos
    { s with commit := { s.commit with sendPos := pos }, bus := { s.bus with next := some (s.groupFrame head count pos) } }
  | _ => s

/-- The ending of this station's copy run at a frame end, or none when it goes on (R104). -/
def State.runEnding (s : State) (run : CopyRun) : Option Ending :=
  match run.gone, s.catchup.jobs[run.job] with
  | some e, _ => some e
  | none, none => some .dropped
  | none, some j =>
    if j.e ≤ run.count then some .full
    else if j.buffer.isEmpty then some .dry
    else if s.runMin ≤ run.count && s.urgentPending then some .broken
    else none

/-- The decision on this station's copy run: it ends and its ending is taken (log 36), or the next COPY is composed (R102,
R104). -/
def State.continueCopy (s : State) : State :=
  match s.bus.copyRun with
  | none => s
  | some run =>
    match s.runEnding run with
    | some e =>
      let s' := s.endRun run.job e
      { s' with bus := { s'.bus with copyRun := none } }
    | none =>
      match s.catchup.jobs[run.job] with
      | some j => { s with bus := { s.bus with next := some (s.copyFrame j (run.count + 1)) } }
      | none => s

/-- Is the frame a peer's COPY with its break mark OPEN, read whole (R103)? -/
def Ended.open (e : Ended) : Bool :=
  match e.own, e.frame with
  | none, some f => e.cls == 2 && f.kind? == some .copy && f.header.gpos == gposOpen
  | _, _ => false

/-- What this station does after the frame: its group run, its copy run, or its break-in. -/
def State.afterFrame (s : State) (e : Ended) (accepted : Bool) : State :=
  match e.own.map InFlight.item with
  | some .outbound => s.continueGroup accepted
  | some .copy => s.continueCopy
  | some _ => s
  | none => { s with bus := { s.bus with breakIn := e.open && s.urgentPending } }

/-! ### The blocks after the view's changes -/

/-- The judgements of the blocks at a station that stays in the group, from the state before the frame end (R119, R135, R142,
R156, R166). -/
def State.reviewBlocks (before s : State) (v : View) : State :=
  let s1 := State.reviewSegments before (State.reviewHead before (s.reviewRosters v))
  (((s1.reviewRun v).reviewJobs v).reviewMonitors before.ownServer).reviewRepair v

/-- The blocks' reactions at a station that stays in the group; the held requests are re-taken last (log 32). -/
def State.reactBlocks (before s : State) (v : View) : State :=
  State.reviewPort before ((State.reviewBlocks before s v).releaseSince before.repair)

/-! ### Going OFFLINE (R120) -/

/-- The blocks' state that rested on the view, emptied (R120). -/
def State.teardown (s : State) (cause : OfflineCause) : State :=
  { s with
    view := none
    group := none
    gives := []
    repair := []
    catchup := { jobs := Vector.replicate 8 none, ring := [], token := none, monitors := Vector.replicate 8 Monitor.stopped }
    join := { s.join with station := .offline, cause := some cause, joinPending := false, rosterTimer := false,
                          rosters := Vector.replicate 16 none }
    bus := { s.bus with
      tracked := s.lastWinner, quiet := .stopped, emptyPending := false, claim := none, next := none, copyRun := none,
      breakIn := false } }

/-- Did the local state of any segment change? -/
def State.segmentsChanged (before s : State) : Bool := segments.any fun g => before.localState g != s.localState g

/-- The station goes OFFLINE: the requesters that the frame's own effects have released are served first (R47, R163, R170, log
44), then the queue, the chain, the view and what rested on it fall, then the requesters still held (R67, R83, R120). The local
states and the present set are compared with those before the frame end, not with any in between (log 38). -/
def State.goOffline (before s : State) (cause : OfflineCause) : State :=
  let s0 := s.releaseSince before.repair
  let s1 := (s0.discardSpentHead.abortChain.discardQueue).teardown cause
  let s2 := ((s1.setFlag .offline).setFlagIf s.heldView.isSome .peerChange).setFlagIf
    (State.segmentsChanged before s1) .segmentChange
  (s2.wakeWalker.corruptHeldRead).retake .queueWait

/-! ### The end field at a station that holds a view (R107 to R113) -/

/-- The marking of this station for its lost REJECT, beside the limits reached (R108). -/
def withLostReject (ms : List Marking) (me : Station) (lost : Bool) : List Marking :=
  if lost && !(ms.map Prod.fst).contains me then
    stations.filterMap fun x => if x = me then some (me, .missed) else (ms.lookup x).map fun c => (x, c)
  else ms

/-- The entries of the markings, in ascending station number (R112). -/
def State.logMarkings (s : State) (owner : Station) (ms : List Marking) : State :=
  ms.foldl (fun s (m : Marking) => s.raise (busEntry m.2.logKind none none (some m.1) owner.val)) s

/-- The log entry of a LEAVE given up (R138). -/
def leaveDiscarded (me : Station) : LogEntry := busEntry .frameDiscarded none none (some me) 0

/-- The view after the end-field changes: `taken` is the view after the frame's own effects, `during` that of the frame (R109,
step 3). -/
def Ended.counted (e : Ended) (taken during : View) (accepted : Bool) : View :=
  if accepted then taken.countAccepted during e.owner e.slots else taken.countRejected during e.owner e.slots

/-- The markings of step 4, a lost REJECT of this station among them (R108, R112). -/
def Ended.marks (e : Ended) (me : Station) (counted during : View) (lost : Bool) : List Marking :=
  withLostReject (counted.limits during e.owner e.slots) me lost

/-- A view after its markings (R112, R118). -/
def View.marked (counted : View) (marks : List Marking) : View :=
  if marks.isEmpty then counted else counted.markAbsent (marks.map Prod.fst)

/-- The changed view held: the group of a marked sender discarded (R80), the markings logged (R112), PEER_CHANGE set. -/
def State.takeView (s : State) (e : Ended) (v during : View) (marks : List Marking) (joined : Bool) : State :=
  (({ s with view := some v, group := s.group.filter fun b => !(marks.map Prod.fst).contains b.sender }).logMarkings e.owner
    marks).setFlagIf (joined || v.presentSet != during.presentSet) .peerChange

/-- The blocks take the changed view (R119), or the station goes OFFLINE: marked absent (R113), or its LEAVE given up
(R138). An accepted JOIN that bears this station's own number and was not sent by it leaves this station present, AWAITING in its
own view, and so JOINED (log 37). Where an eighth rejection of the LEAVE comes with a marking of this station, the marking is
taken and no FRAME_DISCARDED is raised (log 30). -/
def State.afterView (before s : State) (e : Ended) (v : View) (marks : List Marking) (accepted : Bool) : State :=
  if !v.present s.me then State.goOffline before s ((marks.lookup s.me).getD .left)
  else if s.join.station = .leaving ∧ frameRetryLimit ≤ s.join.leaveAttempts then
    State.goOffline before (s.raise (leaveDiscarded s.me)) .left
  else (State.reactBlocks before s v).afterFrame e accepted

/-- Was the frame a JOIN whose own effects were taken (R127)? -/
def Ended.joins (e : Ended) (accepted lost : Bool) : Bool := accepted && !lost && (e.frame.bind Frame.kind?) == some .join

/-- Steps 3 and 4 and what follows (R109, R113, R119). -/
def State.conclude (before s : State) (e : Ended) (taken during : View) (accepted lost : Bool) : State :=
  let counted := e.counted taken during accepted
  let marks := e.marks s.me counted during lost
  let v := counted.marked marks
  State.afterView before (s.takeView e v during marks (e.joins accepted lost)) e v marks accepted

/-- The frame end of a station that holds a view (R109). -/
def State.endWithView (s : State) (v : View) (e : Ended) : State :=
  let accepted := v.accepts e.slots
  let lost := accepted && e.own.isNone && e.judged.unreadable
  match accepted && !lost, e.frame with
  | true, some f =>
    let s1 := if e.own.isSome then s.takeOwnFrame v f else s.takePeerFrame v f
    State.conclude s s1 e (f.viewEffect v) v accepted lost
  | _, _ =>
    let s1 := match e.own with
      | some i => if accepted then s else s.ownRejected i
      | none => s
    State.conclude s s1 e v v accepted lost

/-! ### The frame end of a station without a view (R107, R123, R125, R129, R132) -/

/-- Was an ACK slot of a station other than the owner driven (R106, R125)? -/
def ackDriven (slots : Slots) (owner : Station) : Bool := stations.any fun x => x != owner && ackSlot slots x

/-- The join attempts are spent: JOIN_FAILED is logged, and the station goes OFFLINE (R126). -/
def State.failJoin (s : State) : State :=
  State.goOffline s (s.raise (busEntry .joinFailed none none (some s.me) s.join.accepted)) .joinFailed

/-- The station enters JOINED with a view (R129, R132). -/
def State.enterJoined (s : State) (v : View) : State :=
  (({ s with
      view := some v
      group := none
      join := { s.join with station := .joined, joinPending := false, rosterTimer := false } }).setFlag .joined).setFlag
    .peerChange

/-- The entry a joiner raises for a segment of the view it takes: FOUNDED where it is CURRENT, MISMATCH where it conflicts
(R129, R132). -/
def joinerEntry (v : View) (me : Station) (g : Segment) : Option LogEntry :=
  match v.state me g with
  | .current => some (busEntry .founded (some g) none (some me) 0)
  | .mismatch =>
    let cs := (v.declared me g).elim [] (v.conflicts me g)
    some (busEntry .mismatch (some g) none cs.head? cs.length)
  | .none | .catching _ _ => none

/-- The entries a joiner raises, in ascending segment order. -/
def State.logJoin (s : State) (v : View) : State := (segments.filterMap (joinerEntry v s.me)).foldl State.raise s

/-- A JOIN that draws no slot: the station builds its view and is JOINED alone (R129). -/
def State.joinAlone (s : State) : State :=
  let v := { View.alone s.me s.declarations with lastWinner := s.me }
  State.reactBlocks s ((s.enterJoined v).logJoin v) v

/-- The end of this station's own JOIN (R125, R126). -/
def State.endOwnJoin (s : State) (e : Ended) : State :=
  let n := s.join.attempts + 1
  if !noReject e.slots then
    let s1 := { s with join := { s.join with attempts := n, joinPending := decide (n < joinLimit) } }
    if n < joinLimit then s1 else s1.failJoin
  else
    let s1 := { s with join := { s.join with attempts := n, accepted := s.join.accepted + 1 } }
    if ackDriven e.slots e.owner then
      { s1 with join := { s1.join with station := .rosterWait, joinPending := false, rosterTimer := true } }
    else s1.joinAlone

/-- A LISTENING station is in step with the bus: its JOIN becomes pending (R123). -/
def State.beginJoining (s : State) : State :=
  { s with join := { s.join with station := .joining, attempts := 0, accepted := 0, joinPending := true } }

/-- The ROSTER taken at the end of ROSTER_WAIT: the view of the image, then this frame end's own effects and end-field changes
(R114, R132). The joiner's entries are raised before those of this frame end's markings (log 24). -/
def State.takeRoster (s : State) (e : Ended) (c : RosterContent) : State :=
  State.conclude s ((s.enterJoined c.view).logJoin c.view) e (c.view.settle s.me) c.view true false

/-- The ROSTER addressed to this station, if the frame is one that passed its checks. One that this station marked is not taken,
though its REJECT be lost (R132, log 49). -/
def Ended.rosterFor (e : Ended) (me : Station) : Option RosterContent :=
  match e.frame with
  | some f =>
    if f.kind? = some .roster ∧ !e.judged.marks then f.rosterContent.filter fun c => c.joiner == me else none
  | none => none

/-- The frame end of a station without a view. -/
def State.endWithoutView (s : State) (e : Ended) : State :=
  let s1 := if noReject e.slots then { s with bus := { s.bus with tracked := e.owner } } else s
  match e.own with
  | some _ =>
    match s1.join.station with
    | .joining | .rosterWait => s1.endOwnJoin e
    | .config | .clocking | .filling | .listening | .joined | .leaving | .offline => s1
  | none =>
    match s1.join.station with
    | .listening => s1.beginJoining
    | .rosterWait =>
      match e.rosterFor s1.me with
      | some c => if noReject e.slots then s1.takeRoster e c else s1
      | none => s1
    | .config | .clocking | .filling | .joining | .joined | .leaving | .offline => s1

/-! ### The whole frame end -/

/-- The slot this station drives, and DUPLICATE_NUMBER for a frame that carries its number (R99, R106). -/
def State.driveSlot (s : State) (e : Ended) : State :=
  if e.own.isNone && s.validates then
    let s1 := { s with bus := { s.bus with slot := some (if e.judged.marks then .reject else .ack) } }
    if e.judged.duplicate then s1.raise (busEntry .duplicateNumber none none (some s.me) e.cls.val) else s1
  else s

/-- What follows the end field by the frame's class, and the quiet timer restarted (R93, R101). -/
def BusUnit.endFrame (b : BusUnit) (c : Fin 4) (joined : Bool) : BusUnit :=
  let b1 := { b with inFlight := none, emptyPending := false, quiet := if joined then .counting else .stopped }
  if c = 1 then { b1 with phase := some .continuing }
  else if c = 2 then { b1 with phase := some .breaking }
  else b1.awaitWindow

/-- The frame end, taken by the part. -/
def State.endFrame (s : State) (e : Ended) : State :=
  let s1 := s.driveSlot e
  let s2 := match s1.heldView with
    | some v => s1.endWithView v e
    | none => s1.endWithoutView e
  State.settle { s2 with bus := s2.bus.endFrame e.cls (s2.join.station == .joined) }

/-- The frame at whose end this station stands, with what it heard of it. -/
def State.ended (s : State) (owner : Station) (c : Fin 4) (heard : Option Heard) (slots : Slots) : Ended :=
  match s.bus.inFlight with
  | some i => ⟨owner, c, some i.frame, some i, Judgement.sound, slots⟩
  | none =>
    let f := heard.bind readFrame
    ⟨owner, c, f, none, s.judgeFrame f owner c, slots⟩

/-- A frame end event: it comes only to a FOLLOWING unit with a frame in progress (R85, R86). -/
def State.frameEnd (s : State) (heard : Option Heard) (slots : Slots) : State :=
  match s.bus.unit, s.bus.phase, s.bus.owner, s.bus.cls with
  | .following, some .inFrame, some owner, some c => s.endFrame (s.ended owner c heard slots)
  | _, _, _, _ => s

end Sys2Proof.Machine
end

