-- ==== Sys2Proof/Machine/BusEvents.lean ====
section
/-! DEFINITION. The meanings of the bus events between frames: CLAIM_WINDOW_OPENING, CLAIM_RESOLVED, EMPTY_WINDOW_END,
CONTINUATION, BREAK_FIELD, WINDOW_MARK. An event that cannot come where the bus unit stands, or that this station's own drive
excludes, changes nothing (log 6). -/

namespace Sys2Proof.Machine

/-- Can a claim window open here: where one is due, or after a break field and continuation position that passed undriven? The
positions this station drives itself do not pass undriven (R101, log 14). -/
def BusUnit.windowCanOpen (b : BusUnit) : Bool :=
  b.unit == .following &&
    (match b.phase with
     | some .claiming => b.window == .due
     | some .continuing => b.next.isNone
     | some .breaking => b.next.isNone && !b.breakIn
     | some .inFrame | some .endField | none => false)

/-- The bus unit in the quiet stretch of a window that has opened (R88, R184). -/
def BusUnit.openWindow (b : BusUnit) : BusUnit := { b.awaitWindow with window := .quiet, positions := 0 }

/-- The opening of a claim window: the items are judged, and the claim decided (R75, R90, R91). A LEAVE that becomes due as the
judgement drops a GROUP head is offered in this same window (R137, log 41). -/
def State.openWindow (s : State) : State :=
  let s1 := State.judgeItems { s with bus := s.bus.openWindow }
  ({ s1 with bus := { s1.bus with claim := s1.chosenItem } }).retake .queueWait

/-- CLAIM_WINDOW_OPENING (R90). -/
def execClaimWindowOpening (s : State) : Host.Outcome State Fault Refusal :=
  .next (if s.bus.windowCanOpen then s.openWindow.settle else s)

/-- Can a window resolve at a position: its mark has been taken, and this station does not drive an earlier position (R88,
R184)? -/
def State.canResolve (s : State) (p : Nat) : Bool :=
  s.bus.unit == .following && s.bus.phase == some .claiming && s.bus.window == .counting &&
    s.ownPosition.all fun q => decide (p ≤ q)

/-- CLAIM_RESOLVED (R88, R92): the first driven claim position, counted from the window's mark. -/
def execClaimResolved (position : Fin 64) (s : State) : Host.Outcome State Fault Refusal :=
  .next (if s.canResolve position.val then s.resolveClaim position else s)

/-- A SEEKING unit in step with the bus, its window at the part given (R85, R184). -/
def BusUnit.follow (b : BusUnit) (w : Window) (count : Nat) : BusUnit :=
  { b with unit := .following, phase := some .claiming, window := w, positions := count }

/-- The positions at whose last one a window that passes undriven ends: the claim positions after its mark, or those after the
quiet stretch of one whose mark was not driven (R184). -/
def Window.length (w : Window) : Nat :=
  match w with
  | .due => 0
  | .quiet => emptyPositions
  | .counting => claimPositions

/-- Can the end of an empty window come: a window is open, and this station does not claim in it (R88, R184)? -/
def BusUnit.canEmpty (b : BusUnit) : Bool :=
  b.unit == .following && b.phase == some .claiming && b.window != .due && b.claim == none

/-- The end of an empty window at a FOLLOWING unit: the count stands at the window's last position, the next window is due, and a
LISTENING station begins to join (R88, R123, R184). -/
def State.endEmptyWindow (s : State) : State :=
  let s' := { s with bus := { s.bus with window := .due, positions := s.bus.window.length } }
  if s.join.station = .listening then s'.beginJoining else s'

/-- EMPTY_WINDOW_END: the count reaches the last position of an empty window (R88, R123, R184). The first one that a SEEKING unit
counts brings it in step (R85). -/
def execEmptyWindowEnd (s : State) : Host.Outcome State Fault Refusal :=
  .next (match s.bus.unit with
    | .off => s
    | .seeking => { s with bus := s.bus.follow .due emptyPositions }
    | .following => if s.bus.canEmpty then s.endEmptyWindow else s)

/-- Can a driven continuation position be read here: after a class-1 frame, or after a class-2 frame whose break field passed
undriven (R101)? -/
def BusUnit.canContinue (b : BusUnit) : Bool :=
  b.unit == .following && (b.phase == some .continuing || (b.phase == some .breaking && !b.breakIn))

/-- CONTINUATION (R101). -/
def execContinuation (s : State) : Host.Outcome State Fault Refusal :=
  .next (match s.bus.owner, s.bus.cls with
    | some owner, some c => if s.bus.canContinue then s.continueRun owner c else s
    | _, _ => s)

/-- The run of this station broken into: its composed frame is not sent, and BROKEN is handed over (R104). -/
def State.breakRun (s : State) : State :=
  match s.bus.copyRun with
  | some run => s.endRun run.job .broken
  | none => s

/-- BREAK_FIELD (R103, R104): a driven break field ends the run, and a claim window follows. -/
def execBreakField (s : State) : Host.Outcome State Fault Refusal :=
  .next (if s.bus.unit = .following ∧ s.bus.phase = some .breaking then
      let s' := s.breakRun
      { s' with bus := s'.bus.awaitWindow }
    else s)

/-- A driven position at a FOLLOWING unit between frames, after a recessive run: in a quiet stretch, of at least 11 positions, it
is the window's mark; once the mark is taken it is a claim at the position the run has reached, however long the run (R184). -/
def State.takeMark (s : State) (recessiveRun : Nat) : State :=
  if s.bus.phase = some .claiming then
    match s.bus.window with
    | .due => s
    | .quiet => if quietPositions ≤ recessiveRun then { s with bus := { s.bus with window := .counting, positions := 0 } } else s
    | .counting =>
      if h : recessiveRun < 64 then (if s.canResolve recessiveRun then s.resolveClaim ⟨recessiveRun, h⟩ else s) else s
  else s

/-- WINDOW_MARK (R184): a driven position after a recessive run of so many positions. A SEEKING unit becomes FOLLOWING at the
first one of at least 11. -/
def execWindowMark (recessiveRun : Nat) (s : State) : Host.Outcome State Fault Refusal :=
  .next (match s.bus.unit with
    | .off => s
    | .seeking => if quietPositions ≤ recessiveRun then { s with bus := s.bus.follow .counting 0 } else s
    | .following => s.takeMark recessiveRun)

end Sys2Proof.Machine
end

