-- ==== Sys2Proof/Machine/FrameEnds.lean ====
section
/-! DEFINITION. The meanings of the ten frame ends. What a frame is, is decided by the bytes heard, or by this station's own
frame in flight: every row is the one frame end (R86, R109), and the row names the kind that its bytes carry (log 12). -/

namespace Sys2Proof.Machine

/-- The frame end of a JOIN (R125, R127). -/
def execJoin (heard : Heard) (slots : Slots) (s : State) : Host.Outcome State Fault Refusal :=
  .next (s.frameEnd (some heard) slots)

/-- The frame end of a ROSTER (R131, R132). -/
def execRoster (heard : Heard) (slots : Slots) (s : State) : Host.Outcome State Fault Refusal :=
  .next (s.frameEnd (some heard) slots)

/-- The frame end of a STALL (R158, R159). -/
def execStall (heard : Heard) (slots : Slots) (s : State) : Host.Outcome State Fault Refusal :=
  .next (s.frameEnd (some heard) slots)

/-- The frame end of a LEAVE (R138). -/
def execLeaveFrame (heard : Heard) (slots : Slots) (s : State) : Host.Outcome State Fault Refusal :=
  .next (s.frameEnd (some heard) slots)

/-- The frame end of an UPDATE (R61 to R65, R77 to R82). -/
def execUpdate (heard : Heard) (slots : Slots) (s : State) : Host.Outcome State Fault Refusal :=
  .next (s.frameEnd (some heard) slots)

/-- The frame end of an ASK (R164, R165, R171). -/
def execAsk (heard : Heard) (slots : Slots) (s : State) : Host.Outcome State Fault Refusal :=
  .next (s.frameEnd (some heard) slots)

/-- The frame end of a GIVE (R168, R173). -/
def execGive (heard : Heard) (slots : Slots) (s : State) : Host.Outcome State Fault Refusal :=
  .next (s.frameEnd (some heard) slots)

/-- The frame end of a COPY (R104, R154, R155). -/
def execCopy (heard : Heard) (slots : Slots) (s : State) : Host.Outcome State Fault Refusal :=
  .next (s.frameEnd (some heard) slots)

/-- The frame end of an EMPTY (R94). -/
def execEmpty (heard : Heard) (slots : Slots) (s : State) : Host.Outcome State Fault Refusal :=
  .next (s.frameEnd (some heard) slots)

/-- The frame end of a frame that did not arrive whole (R87). -/
def execDamagedFrame (slots : Slots) (s : State) : Host.Outcome State Fault Refusal := .next (s.frameEnd none slots)

end Sys2Proof.Machine
end

