-- ==== Sys2Proof/Machine/StartUp.lean ====
section
/-! DEFINITION. The meanings of the events of the clock's start-up (R176): CRYSTAL_PERIOD, STABILISATION_COUNT_DONE,
BUS_CLOCK_SWITCH_DONE. -/

namespace Sys2Proof.Machine

/-- Is the stabilisation count running: in CLOCKING, the switch not begun (R176)? -/
def State.stabilising (s : State) : Bool := s.join.station == .clocking && s.rep.crystal && s.rep.clock == .internal

/-- The count at a value; at 2^n the bus clock begins its switch (R176). -/
def State.setStab (s : State) (n : Nat) : State :=
  { s with rep := { s.rep with stab := n, clock := if s.stabTarget ≤ n then .switching else .internal } }

/-- CRYSTAL_PERIOD (R176): the count rises by 1. -/
def execCrystalPeriod (s : State) : Host.Outcome State Fault Refusal :=
  .next (if s.stabilising then s.setStab (s.rep.stab + 1) else s)

/-- STABILISATION_COUNT_DONE (R176): the count stands at 2^n and the switch begins (log 17). -/
def execStabilisationCountDone (s : State) : Host.Outcome State Fault Refusal :=
  .next (if s.stabilising then s.setStab s.stabTarget else s)

/-- The bus clock switched: BUS_READY is set and the bus unit SEEKS (R84, R176). -/
def State.busReady (s : State) : State :=
  ({ s with
      rep := { s.rep with clock := .crystal }
      bus := { s.bus with unit := .seeking } }).setFlag .busReady

/-- BUS_CLOCK_SWITCH_DONE (R176, R7): the station enters FILLING. -/
def execBusClockSwitchDone (s : State) : Host.Outcome State Fault Refusal :=
  .next (if s.join.station = .clocking ∧ s.rep.clock = .switching then s.busReady.enterFilling.settle else s)

end Sys2Proof.Machine
end

