-- ==== Sys2Proof/Machine/StoreCompletions.lean ====
section
/-! DEFINITION. The meanings of the nine completions of the store port (R8, R10). A completion of an operation that is not in
progress changes nothing (log 6). -/

namespace Sys2Proof.Machine

/-- The end of a completion: the port IDLE, then granted again at once if claimants present (R10). -/
def State.afterCompletion (s : State) : State := s.idlePort.settle

/-- APPLY_COMPLETION (R15). -/
def execApplyCompletion (s : State) : Host.Outcome State Fault Refusal :=
  .next (match s.sp.running with
    | some ⟨.apply, .write w⟩ => (s.completeApply w).afterCompletion
    | _ => s)

/-- LOCAL_READ_COMPLETION (R41, R42, R45, R46). -/
def execLocalReadCompletion (s : State) : Host.Outcome State Fault Refusal :=
  .next (match s.sp.running with
    | some ⟨.localPort, .read l⟩ => ((s.completeLocalRead l).releaseSince s.repair).afterCompletion
    | _ => s)

/-- LOCAL_WRITE_COMPLETION (R48). -/
def execLocalWriteCompletion (s : State) : Host.Outcome State Fault Refusal :=
  .next (match s.sp.running with
    | some ⟨.localPort, .write w⟩ => (s.completeLocalWrite w).afterCompletion
    | _ => s)

/-- GIVE_READ_COMPLETION (R171). -/
def execGiveReadCompletion (s : State) : Host.Outcome State Fault Refusal :=
  .next (match s.sp.running with
    | some ⟨.giveRead, .read l⟩ => ((s.completeGiveRead l).releaseSince s.repair).afterCompletion
    | _ => s)

/-- FILL_COPY_COMPLETION (R14, R32). -/
def execFillCopyCompletion (s : State) : Host.Outcome State Fault Refusal :=
  .next (match s.sp.running with
    | some ⟨.spareCopy, .fillCopy k l⟩ => (s.completeFillCopy k l).afterCompletion
    | _ => s)

/-- RETURN_COPY_COMPLETION (R35, R36). -/
def execReturnCopyCompletion (s : State) : Host.Outcome State Fault Refusal :=
  .next (match s.sp.running with
    | some ⟨.spareCopy, .returnCopy k l⟩ => (s.completeReturnCopy k l).afterCompletion
    | _ => s)

/-- SERVE_READ_COMPLETION (R145, R146). -/
def execServeReadCompletion (s : State) : Host.Outcome State Fault Refusal :=
  .next (match s.sp.running with
    | some ⟨.serve, .read l⟩ => ((s.completeServe l).releaseSince s.repair).afterCompletion
    | _ => s)

/-- SCRUB_STEP_COMPLETION (R24, R25). -/
def execScrubStepCompletion (s : State) : Host.Outcome State Fault Refusal :=
  .next (match s.sp.running with
    | some ⟨.scrub, .read l⟩ => ((s.completeScrub l).releaseSince s.repair).afterCompletion
    | _ => s)

/-- FILL_WRITE_COMPLETION (R17, R18). -/
def execFillWriteCompletion (s : State) : Host.Outcome State Fault Refusal :=
  .next (match s.sp.running with
    | some ⟨.fill, .write w⟩ => (s.completeFill w).afterCompletion
    | _ => s)

end Sys2Proof.Machine
end

