-- ==== Sys2Proof/Machine/StoreRequests.lean ====
section
/-! DEFINITION. The meanings of the STORE requests of the local port: STORE_READ, STORE_WRITE. -/

namespace Sys2Proof.Machine

/-- STORE_READ (R37, R39 to R44). -/
def execStoreRead (address : BitVec 16) (s : State) : Host.Outcome State Fault Refusal :=
  .next (s.takeRequest .read address).settle

/-- STORE_WRITE (R37, R39, R40, R48, R49). -/
def execStoreWrite (address : BitVec 16) (data : Word) (s : State) : Host.Outcome State Fault Refusal :=
  .next (s.takeRequest (.write data) address).settle

end Sys2Proof.Machine
end

