-- ==== Sys2Proof/Machine/Supplies.lean ====
section
/-! DEFINITION. The meanings of the events on the supplies, the reset line and the array: CORE_RESET, RETENTION_LOSS,
ARRAY_FAULT. -/

namespace Sys2Proof.Machine

/-- CORE_RESET (R6): the core domain returns to its reset values, the retention domain stands, but for an operation in progress,
whose write part is left done word by word as the masks say. The queue of commands is the model's own and stays. -/
def execCoreReset (arrayNew spareNew : WordMask) (s : State) : Host.Outcome State Fault Refusal :=
  .next { State.reset with pending := s.pending, store := s.storeAfterReset arrayNew spareNew }

/-- RETENTION_LOSS (R7). -/
def execRetentionLoss (found : SpareTable) (s : State) : Host.Outcome State Fault Refusal :=
  .next (State.settle { s with store := s.store.lose found })

/-- ARRAY_FAULT (R4). -/
def execArrayFault (word : StoreWord) (raw : Word) (s : State) : Host.Outcome State Fault Refusal :=
  .next { s with store := s.store.fault word raw }

end Sys2Proof.Machine
end

