-- ==== Sys2Proof/Machine/TimerExpiries.lean ====
section
/-! DEFINITION. The meanings of the timer expiries. The expiry of a timer that is not running changes nothing (log 6). -/

namespace Sys2Proof.Machine

/-- SCRUB_INTERVAL_EXPIRY (R23). -/
def execScrubIntervalExpiry (s : State) : Host.Outcome State Fault Refusal :=
  .next (if s.walker.state = .timing then s.chooseLine.settle else s)

/-- QUIET_TIMER_EXPIRY (R93): EMPTY becomes pending. -/
def execQuietTimerExpiry (s : State) : Host.Outcome State Fault Refusal :=
  .next (if s.join.station = .joined ∧ s.bus.quiet = .counting then
      { s with bus := { s.bus with quiet := .stopped, emptyPending := true } }
    else s)

/-- ROSTER_TIMER_EXPIRY (R126): the JOIN becomes pending again, or the attempts are spent. -/
def execRosterTimerExpiry (s : State) : Host.Outcome State Fault Refusal :=
  .next (if s.join.station = .rosterWait ∧ s.join.rosterTimer then
      if s.join.attempts < joinLimit then { s with join := { s.join with joinPending := true, rosterTimer := false } }
      else s.failJoin.settle
    else s)

/-- An entry whose repair timer expires: asked again, or FAILED after three asks, and whether it failed (R165, R167). -/
def RepairEntry.expire (e : RepairEntry) : RepairEntry × Bool :=
  match e.state with
  | .asking .timing asks rejections of =>
    if asks < askLimit then ({ e with state := .asking .toAsk asks rejections of }, false) else ({ e with state := .failed }, true)
  | .asking .toAsk _ _ _ | .asking .inFlight _ _ _ | .failed => (e, false)

/-- The station an entry's last ASK asked (R161). -/
def RepairEntry.askedOf (e : RepairEntry) : Option Station :=
  match e.state with
  | .asking _ _ _ of => of
  | .failed => none

/-- The REPAIR_FAILED entry (R165). -/
def repairFailed (e : RepairEntry) : LogEntry := { lineEntry .repairFailed e.origin e.line e.bad.toNat with station := e.askedOf }

/-- REPAIR_TIMER_EXPIRY of the entry for a line (R165). -/
def execRepairTimerExpiry (line : Line) (s : State) : Host.Outcome State Fault Refusal :=
  .next (match repairFor s.repair line with
    | none => s
    | some e =>
      let s1 := { s with repair := repairMap s.repair line fun e => e.expire.1 }
      if e.expire.2 then ((s1.raise (repairFailed e)).releaseHeld true).settle else s1)

/-- PROGRESS_WINDOW_EXPIRY of a segment's monitor (R157). -/
def execProgressWindowExpiry (segment : Segment) (s : State) : Host.Outcome State Fault Refusal := .next (s.expireWindow segment)

end Sys2Proof.Machine
end

