-- ==== Sys2Proof/Machine/WindowRequests.lean ====
section
/-! DEFINITION. The control window (R51, R185, 12_formats.md) and the meanings of the WINDOW requests, the commands of the
command word among them (R71, R137, R139, R175, R177). -/

namespace Sys2Proof.Machine

/-- A WINDOW request: taken and answered when the port is IDLE (R37, R51); while it is BUSY nothing is taken (log 7). -/
def State.windowRequest (s : State) (effect : State → State) : State :=
  match s.port.request with
  | some _ => s
  | none => effect s

/-! ### START (R175) -/

/-- Is a segment descriptor in range, with this station in the mirror set of a MIRRORED segment (R175, 12_formats.md)? -/
def descriptorValid (d : Word) (me : Station) : Bool :=
  d.extractLsb' 21 11 == 0 && d.extractLsb' 16 2 != 3 && d.extractLsb' 18 2 != 3 &&
    (d.extractLsb' 16 2 != 2 || (descriptorSet d).has me)

/-- Does a number lie in a range? -/
def inRange (low high n : Nat) : Bool := decide (low ≤ n ∧ n ≤ high)

/-- Does a field of the block pass START (R174, R175)? -/
def Reporting.fieldValid (r : Reporting) (i : Fin 21) : Bool :=
  let n := r.field i
  match i.val with
  | 0 => inRange 0 15 n
  | 9 => inRange 0 3 n
  | 10 => inRange 10 18 n
  | 11 => inRange 1 8 n
  | 12 => inRange 1 32 n && decide (r.field 11 ≤ n)
  | 13 | 14 | 15 => inRange 1 255 n
  | 16 => inRange 0 255 n
  | 17 | 19 => inRange 1 65535 n
  | 18 => inRange 1 65535 n && decide (r.field 17 ≤ n)
  | 20 => inRange 2 7 n
  | _ => descriptorValid r.config[i] (Fin.ofNat 16 (r.field 0))

/-- The first field that fails (R175). -/
def Reporting.firstInvalid (r : Reporting) : Option (Fin 21) := (List.finRange 21).find? fun i => !r.fieldValid i

/-- The START command (R175, R176). -/
def State.startCommand (s : State) : State :=
  if s.join.station = .config then
    match s.rep.firstInvalid with
    | some i => s.setResult .configInvalid i.val
    | none =>
      ({ s with
          join := { s.join with station := .clocking }
          rep := { s.rep with crystal := true } }).setResult .ok
  else s.setResult .refused

/-! ### LEAVE and REJOIN (R93, R137, R139) -/

/-- The LEAVE command: JOINED to LEAVING, the quiet timer stopped, a pending EMPTY cancelled and its claim withdrawn (R90, R93,
R137). -/
def State.leaveCommand (s : State) : State :=
  if s.join.station = .joined then
    ({ s with
        join := { s.join with station := .leaving, leaveAttempts := 0 }
        bus := { s.bus with
          quiet := .stopped, emptyPending := false
          claim := if s.bus.claim = some Item.empty then none else s.bus.claim } }).setResult .ok
  else s.setResult .refused

/-- The REJOIN command: OFFLINE to LISTENING (R139). -/
def State.rejoinCommand (s : State) : State :=
  if s.join.station = .offline then
    ({ s with
        join := { s.join with station := .listening, cause := none, attempts := 0, accepted := 0, leaveAttempts := 0 } }).setResult
      .ok
  else s.setResult .refused

/-- Does a command word name exactly one command, with the interrupt-on-completion flag only beside COMMIT (R177)? -/
def namesOneCommand (d : Word) : Bool :=
  ([0, 1, 2, 3].filter fun i => d.getLsbD i).length == 1 && (d.getLsbD 3 || !d.getLsbD 8)

/-- A write of the command word: the one command it names, otherwise INVALID_COMMAND (R177). -/
def State.commandWord (s : State) (d : Word) : State :=
  if namesOneCommand d then
    if d.getLsbD 0 then s.startCommand
    else if d.getLsbD 1 then s.leaveCommand
    else if d.getLsbD 2 then s.rejoinCommand
    else s.commitChain (d.getLsbD 8)
  else s.setResult .invalidCommand

/-! ### The other owned words -/

/-- A write of the status word: the flags written as 1 are cleared, and CHAIN_DONE takes the done-notify mark with it (R82,
R178, R180). -/
def State.writeStatus (s : State) (d : Word) : State :=
  { s with
    rep := s.rep.clearFlags d
    commit := { s.commit with doneNotify := s.commit.doneNotify && !d.getLsbD StatusFlag.chainDone.bit } }

/-- The corrected-word count read and cleared (R19). -/
def State.clearCorrected (s : State) : State := { s with health := { s.health with corrected := 0 } }

/-! ### Reads of the window (R182, R185) -/

/-- The station state word. -/
def JoinControl.word (j : JoinControl) : Word :=
  0#24 ++ BitVec.ofNat 4 (j.cause.elim 0 OfflineCause.code) ++ BitVec.ofNat 4 j.station.code

/-- The word of a segment: its local state and this station's cursor. -/
def State.segmentWord (s : State) (g : Segment) : Word :=
  0#5 ++ BitVec.ofNat 11 ((s.ownCursor g).getD 0) ++ 0#13 ++ BitVec.ofNat 3 (s.localState g).code

/-- The word of a staging record at a place 0 to 7 in it; the last three are unassigned (R185). -/
def Record.wordAt (r : Record) : Nat → Word
  | 0 => r.word0
  | 1 => r.data[0]
  | 2 => r.data[1]
  | 3 => r.data[2]
  | 4 => r.data[3]
  | _ => 0

/-- The record a window address from 128 lies in. -/
def recordAt (a : Nat) : RecordIx := Fin.ofNat 16 ((a - 128) / 8)

/-- The word of the oldest log entry by a layout; 0 for the empty entry (R181). -/
def Reporting.oldest (r : Reporting) (f : LogEntry → Word) : Word := r.log.head?.elim 0 f

/-- The window word at an address below 256, as it stands (R182, R185). -/
def State.windowWord (s : State) (a : Nat) : Word :=
  if h : a < 21 then s.rep.config[a]
  else if 128 ≤ a then s.commit.staging[recordAt a].wordAt (a % 8)
  else
    match a with
    | 33 => s.rep.result.word
    | 34 => 0#21 ++ s.rep.flags
    | 35 => 0#21 ++ s.rep.enables
    | 36 => BitVec.ofNat 32 s.commit.head.val
    | 37 => s.commit.state.word
    | 40 | 42 => s.rep.oldest LogEntry.wordA
    | 41 | 43 => s.rep.oldest LogEntry.wordB
    | 44 => BitVec.ofNat 32 s.rep.overflow
    | 45 => BitVec.ofNat 32 s.health.corrected
    | 48 => s.join.word
    | 49 => s.heldView.elim 0 fun v => 0#16 ++ v.presentSet
    | 50 => s.heldView.elim 0 View.digest
    | 51 => BitVec.ofNat 32 s.out.length
    | 52 => BitVec.ofNat 32 s.catchup.jobCount
    | 53 => BitVec.ofNat 32 s.rep.stab
    | 56 | 57 | 58 | 59 | 60 | 61 | 62 | 63 => s.segmentWord (Fin.ofNat 8 (a - 56))
    | _ => 0

/-- What a read of a window word does beside returning it (R19, R181, R185). -/
def State.readEffect (s : State) (a : Nat) : State :=
  match a with
  | 43 => { s with rep := s.rep.popLog }
  | 44 => { s with rep := s.rep.takeOverflow }
  | 45 => s.clearCorrected
  | _ => s

/-- A read of the window (R51, R185). -/
def State.readWindow (s : State) (address : BitVec 16) : State :=
  let a := address.toNat
  if a < 256 then (s.readEffect a).answer .done (s.windowWord a) else s.answer .refused 0

/-! ### Writes of the window (R69, R70, R74, R174, R179, R185) -/

/-- A write of the configuration block, admitted in CONFIG (R174). -/
def State.writeConfig (s : State) (i : Fin 21) (d : Word) : Option State :=
  if s.join.station = .config then some { s with rep := { s.rep with config := s.rep.config.set i d } } else none

/-- A write of COMMIT_HEAD, refused while a chain is QUEUED or SENDING (R70, R74). -/
def State.writeHead (s : State) (d : Word) : Option State :=
  if s.commit.state.pending then none
  else some { s with commit := { s.commit with head := ⟨(d.extractLsb' 0 4).toNat, (d.extractLsb' 0 4).isLt⟩ } }

/-- A record with the word at a place in it written; absent for the unassigned words (R69, R185). -/
def Record.write (r : Record) (d : Word) : Nat → Option Record
  | 0 => some (r.setWord0 d)
  | 1 => some { r with data := r.data.set 0 d }
  | 2 => some { r with data := r.data.set 1 d }
  | 3 => some { r with data := r.data.set 2 d }
  | 4 => some { r with data := r.data.set 3 d }
  | _ => none

/-- A write of a staging record, refused for a record of a pending chain (R69, R74). -/
def State.writeRecord (s : State) (a : Nat) (d : Word) : Option State :=
  let r := recordAt a
  if s.protectedRecords.contains r then none
  else (s.commit.staging[r].write d (a % 8)).map fun x => { s with commit := { s.commit with staging := s.commit.staging.set r x } }

/-- What a write to a window word does; absent when its owner refuses it (R51, R185). -/
def State.writeEffect (s : State) (a : Nat) (d : Word) : Option State :=
  if h : a < 21 then s.writeConfig ⟨a, h⟩ d
  else if 128 ≤ a then (if a < 256 then s.writeRecord a d else none)
  else
    match a with
    | 32 => some (s.commandWord d)
    | 34 => some (s.writeStatus d)
    | 35 => some { s with rep := { s.rep with enables := d.extractLsb' 0 11 } }
    | 36 => s.writeHead d
    | _ => none

/-- A write of the window (R51, R185). -/
def State.writeWindow (s : State) (address : BitVec 16) (d : Word) : State :=
  match s.writeEffect address.toNat d with
  | some s' => s'.answer .done 0
  | none => s.answer .refused 0

/-! ### The meanings -/

/-- START (R175): a write of the command word that names it. -/
def execStart (s : State) : Host.Outcome State Fault Refusal :=
  .next (s.windowRequest fun s => s.startCommand.answer .done 0)

/-- LEAVE, the command (R137). -/
def execLeave (s : State) : Host.Outcome State Fault Refusal :=
  .next (s.windowRequest fun s => s.leaveCommand.answer .done 0)

/-- REJOIN (R139). -/
def execRejoin (s : State) : Host.Outcome State Fault Refusal :=
  .next (s.windowRequest fun s => s.rejoinCommand.answer .done 0)

/-- COMMIT, with its interrupt-on-completion flag (R71, R73). -/
def execCommit (notify : Bool) (s : State) : Host.Outcome State Fault Refusal :=
  .next (s.windowRequest fun s => (s.commitChain notify).answer .done 0)

/-- INVALID_COMMAND: a write of the command word that names no one command (R177). A word that does name one does what it
names. -/
def execInvalidCommand (data : Word) (s : State) : Host.Outcome State Fault Refusal :=
  .next (s.windowRequest fun s => (s.commandWord data).answer .done 0)

/-- STATUS_WORD_WRITE (R178). -/
def execStatusWordWrite (data : Word) (s : State) : Host.Outcome State Fault Refusal :=
  .next (s.windowRequest fun s => (s.writeStatus data).answer .done 0)

/-- LOG_READ (R181): the read of word 43, which pops the oldest entry. -/
def execLogRead (s : State) : Host.Outcome State Fault Refusal := .next (s.windowRequest fun s => s.readWindow 43#16)

/-- OVERFLOW_COUNT_READ (R181): the read of word 44. -/
def execOverflowCountRead (s : State) : Host.Outcome State Fault Refusal := .next (s.windowRequest fun s => s.readWindow 44#16)

/-- CORRECTED_WORD_COUNT_READ (R19): the read of word 45. -/
def execCorrectedWordCountRead (s : State) : Host.Outcome State Fault Refusal :=
  .next (s.windowRequest fun s => s.readWindow 45#16)

/-- WINDOW_WRITE (R51): a WINDOW request to any word, a write or a plain read (log 10). -/
def execWindowWrite (address : BitVec 16) (access : WindowAccess) (s : State) : Host.Outcome State Fault Refusal :=
  .next (s.windowRequest fun s =>
    match access with
    | .write d => s.writeWindow address d
    | .read => s.readWindow address)

end Sys2Proof.Machine
end

