-- ==== Sys2Proof/Machine/Dispatch.lean ====
section
/-! DEFINITION. One arm per command, each one direct call of its meaning. -/

namespace Sys2Proof.Machine

/-- The effect of a command on everything but the queue. -/
def exec (i : Instr) (s : State) : Host.Outcome State Fault Refusal :=
  match i with
  | .coreReset arrayNew spareNew => Sys2Proof.Machine.execCoreReset arrayNew spareNew s
  | .retentionLoss found => Sys2Proof.Machine.execRetentionLoss found s
  | .arrayFault word raw => Sys2Proof.Machine.execArrayFault word raw s
  | .storeRead address => Sys2Proof.Machine.execStoreRead address s
  | .storeWrite address data => Sys2Proof.Machine.execStoreWrite address data s
  | .start => Sys2Proof.Machine.execStart s
  | .leave => Sys2Proof.Machine.execLeave s
  | .rejoin => Sys2Proof.Machine.execRejoin s
  | .commit notify => Sys2Proof.Machine.execCommit notify s
  | .invalidCommand data => Sys2Proof.Machine.execInvalidCommand data s
  | .statusWordWrite data => Sys2Proof.Machine.execStatusWordWrite data s
  | .logRead => Sys2Proof.Machine.execLogRead s
  | .overflowCountRead => Sys2Proof.Machine.execOverflowCountRead s
  | .correctedWordCountRead => Sys2Proof.Machine.execCorrectedWordCountRead s
  | .windowWrite address access => Sys2Proof.Machine.execWindowWrite address access s
  | .stabilisationCountDone => Sys2Proof.Machine.execStabilisationCountDone s
  | .busClockSwitchDone => Sys2Proof.Machine.execBusClockSwitchDone s
  | .applyCompletion => Sys2Proof.Machine.execApplyCompletion s
  | .localReadCompletion => Sys2Proof.Machine.execLocalReadCompletion s
  | .localWriteCompletion => Sys2Proof.Machine.execLocalWriteCompletion s
  | .giveReadCompletion => Sys2Proof.Machine.execGiveReadCompletion s
  | .fillCopyCompletion => Sys2Proof.Machine.execFillCopyCompletion s
  | .returnCopyCompletion => Sys2Proof.Machine.execReturnCopyCompletion s
  | .serveReadCompletion => Sys2Proof.Machine.execServeReadCompletion s
  | .scrubStepCompletion => Sys2Proof.Machine.execScrubStepCompletion s
  | .fillWriteCompletion => Sys2Proof.Machine.execFillWriteCompletion s
  | .scrubIntervalExpiry => Sys2Proof.Machine.execScrubIntervalExpiry s
  | .claimWindowOpening => Sys2Proof.Machine.execClaimWindowOpening s
  | .claimResolved position => Sys2Proof.Machine.execClaimResolved position s
  | .emptyWindowEnd => Sys2Proof.Machine.execEmptyWindowEnd s
  | .continuation => Sys2Proof.Machine.execContinuation s
  | .breakField => Sys2Proof.Machine.execBreakField s
  | .join heard slots => Sys2Proof.Machine.execJoin heard slots s
  | .roster heard slots => Sys2Proof.Machine.execRoster heard slots s
  | .stall heard slots => Sys2Proof.Machine.execStall heard slots s
  | .leaveFrame heard slots => Sys2Proof.Machine.execLeaveFrame heard slots s
  | .update heard slots => Sys2Proof.Machine.execUpdate heard slots s
  | .ask heard slots => Sys2Proof.Machine.execAsk heard slots s
  | .give heard slots => Sys2Proof.Machine.execGive heard slots s
  | .copy heard slots => Sys2Proof.Machine.execCopy heard slots s
  | .empty heard slots => Sys2Proof.Machine.execEmpty heard slots s
  | .damagedFrame slots => Sys2Proof.Machine.execDamagedFrame slots s
  | .quietTimerExpiry => Sys2Proof.Machine.execQuietTimerExpiry s
  | .rosterTimerExpiry => Sys2Proof.Machine.execRosterTimerExpiry s
  | .repairTimerExpiry line => Sys2Proof.Machine.execRepairTimerExpiry line s
  | .progressWindowExpiry segment => Sys2Proof.Machine.execProgressWindowExpiry segment s
  | .windowMark recessiveRun => Sys2Proof.Machine.execWindowMark recessiveRun s
  | .crystalPeriod => Sys2Proof.Machine.execCrystalPeriod s

end Sys2Proof.Machine
end

