-- ==== Sys2Proof/Safety.lean ====
section
/-! DEFINITION. What every reachable state satisfies: the store's canonical form, the capacities the manual states, and the
agreement of the station state with the OFFLINE cause and with the view. Beside it, the words the statements are made in: the
configuration's ranges, the records of a chain, the store an operation would leave, and the frame ends they speak of. -/

namespace Sys2Proof.Machine

/-- The capacities: the error log and its overflow count (R180), the outbound queue (R52), the repair list (R161), the give
queue (R171), the suspect list (R26) and the corrected-word count (R19). -/
structure Bounded (s : State) : Prop where
  log       : s.rep.log.length ≤ logCapacity
  overflow  : s.rep.overflow ≤ overflowMax
  out       : s.out.length ≤ outboundCapacity
  repair    : s.repair.length ≤ repairCapacity
  gives     : s.gives.length ≤ giveCapacity
  suspects  : s.health.suspects.length ≤ suspectCapacity
  corrected : s.health.corrected ≤ correctedMax

/-- The invariant of every step: the store is in canonical form, the capacities hold, the OFFLINE cause is present exactly in
OFFLINE (R122), and a view is held exactly in JOINED and LEAVING (R114). -/
structure Sound (s : State) : Prop where
  store   : s.store.wf = true
  bounded : Bounded s
  cause   : s.join.cause.isSome = true ↔ s.join.station = .offline
  view    : s.view.isSome = s.inGroup

/-! ### Words for the statements -/

/-- What it leaves of a state that the claimants present what they now want and the port grants if it can (R9, R10): the
presentations and the grant move, and nothing else. What GIVE_READ, SERVE, SPARE_COPY and FILL then present is what they choose in
the state before (R9, R32, R144, R171). Where the port was IDLE, no claimant before the one granted presents. -/
structure Settled (s t : State) : Prop where
  pending   : t.pending = s.pending
  store     : t.store = s.store
  health    : t.health = s.health
  port      : t.port = s.port
  out       : t.out = s.out
  commit    : t.commit = s.commit
  group     : t.group = s.group
  bus       : t.bus = s.bus
  view      : t.view = s.view
  join      : t.join = s.join
  repair    : t.repair = s.repair
  rep       : t.rep = s.rep ∨ (s.walker.state = .waiting ∧ t.rep = s.rep.setFlag .scrubPass)
  gives     : t.gives = if s.started then s.presentGive.gives else s.gives
  catchup   : t.catchup = if s.started then s.presentServe.catchup else s.catchup
  spareCopy : s.started = true → t.sp.spareCopy = s.presentSpareCopy.sp.spareCopy ∨ (t.sp.spareCopy = none ∧
                ∃ op, s.presentSpareCopy.sp.spareCopy = some op ∧ t.sp.running = some ⟨.spareCopy, op⟩)
  fillNow   : s.started = true → t.sp.fill = s.presentFill.sp.fill ∧ t.sp.fillNext = s.presentFill.sp.fillNext
  still     : s.started = false → t = s
  walker    : s.walker.state ≠ .waiting → t.walker = s.walker
  pace      : t.walker.cursor = s.walker.cursor ∧ t.walker.interval = s.walker.interval
  applyList : t.sp.applyList = s.sp.applyList
  fill      : ∀ g : Segment, t.sp.fill[g] = s.sp.fill[g] ∨ (s.sp.fill[g] = .waiting ∧ t.sp.fill[g] = .filling)
  busy      : ∀ r, s.sp.running = some r → t.sp.running = some r
  idle      : s.started = true → t.sp.running = none → ∀ c, t.presented c = none
  priority  : s.started = true → s.sp.running = none → ∀ r, t.sp.running = some r →
                ∀ c, claimants.idxOf c < claimants.idxOf r.claimant → t.presented c = none

/-- The STORE request of a direction. -/
def storeCommand (a : BitVec 16) : Direction → Instr
  | .read => .storeRead a
  | .write d => .storeWrite a d

/-- The port as a response leaves it (R37). -/
def answered (st : Status) (d : Word) : LocalPort := ⟨none, some ⟨st, d⟩⟩

/-- An entry that a write to its line can combine into (R55). -/
def OutEntry.canCombine (e : OutEntry) : Prop := e.state = .waiting ∧ ∃ g l m slots, e.body = .update g l m slots true

/-- The youngest entry of a queue that references a line, if any, can take no write (R54, R55). -/
def NeedsNewEntry (s : State) (l : Line) : Prop :=
  ∀ older e younger, s.out = older ++ e :: younger → e.references s.commit.staging l = true →
    (∀ y ∈ younger, y.references s.commit.staging l = false) → ¬e.canCombine

/-- A field of the configuration block lies in its range, a MIRRORED segment's set holds this station, RUN_MIN ≤ RUN_MAX and
FAST ≤ SLOW (R174, R175, 12_formats.md). -/
def FieldInRange (r : Reporting) (i : Fin 21) : Prop :=
  let n := r.field i
  match i.val with
  | 0 => n ≤ 15
  | 9 => n ≤ 3
  | 10 => 10 ≤ n ∧ n ≤ 18
  | 11 => 1 ≤ n ∧ n ≤ 8
  | 12 => r.field 11 ≤ n ∧ n ≤ 32
  | 13 | 14 | 15 => 1 ≤ n ∧ n ≤ 255
  | 16 => n ≤ 255
  | 17 | 19 => 1 ≤ n ∧ n ≤ 65535
  | 18 => r.field 17 ≤ n ∧ n ≤ 65535
  | 20 => 2 ≤ n ∧ n ≤ 7
  | _ => n < 2 ^ 21 ∧ n / 2 ^ 16 % 4 ≠ 3 ∧ n / 2 ^ 18 % 4 ≠ 3 ∧ (n / 2 ^ 16 % 4 = 2 → n.testBit (r.field 0) = true)

/-- A record passes the walk of validation: a mask that is not empty, in a writable segment (R72). -/
def RecordPasses (s : State) (r : RecordIx) : Prop :=
  s.commit.staging[r].mask ≠ 0 ∧ s.writable (segmentOf s.commit.staging[r].line) = true

/-- The store as the operation in progress would leave its words on completing (R8, R13, R14, R35). -/
def State.wholeStore (s : State) : StoreOp → Store
  | .write w => s.store.write w
  | .read l => if s.scrub (segmentOf l) = .off then s.store else s.store.writeBack l (s.store.readLine l)
  | .fillCopy k l => if s.store.tableLost then s.store else s.store.fillCopy k l
  | .returnCopy k l => if s.store.tableLost then s.store else s.store.returnCopyWords k l 15

/-- A frame of this owner and class is in progress, and the bus unit follows it (R86). -/
structure InFrame (s : State) (owner : Station) (c : Fin 4) : Prop where
  unit  : s.bus.unit = .following
  phase : s.bus.phase = some .inFrame
  owner : s.bus.owner = some owner
  cls   : s.bus.cls = some c

/-- Every station present in a view but the owner acknowledges, and none that is present rejects (R106, R107). -/
def AllAcknowledge (v : View) (owner : Station) (slots : Slots) : Prop :=
  ∀ x, v.present x = true → rejectSlot slots x = false ∧ (x ≠ owner → ackSlot slots x = true)

/-- The end of another station's frame f at a station in the group with view v: it passes every check here, and all
acknowledge. -/
structure GoodFrame (s : State) (v : View) (f : Frame) (owner : Station) (c : Fin 4) (slots : Slots) : Prop where
  inFrame : InFrame s owner c
  view    : s.heldView = some v
  self    : v.present s.me = true
  peer    : s.bus.inFlight = none
  checks  : (s.judgeFrame (some f) owner c).marks = false
  acks    : AllAcknowledge v owner slots
  leave   : s.join.leaveAttempts < frameRetryLimit

/-- The end of this station's own frame, all others acknowledging. -/
structure OwnFrame (s : State) (v : View) (i : InFlight) (c : Fin 4) (slots : Slots) : Prop where
  inFrame : InFrame s s.me c
  view    : s.heldView = some v
  self    : v.present s.me = true
  own     : s.bus.inFlight = some i
  acks    : AllAcknowledge v s.me slots
  leave   : s.join.leaveAttempts < frameRetryLimit

/-- The row of the table that names the frame end of a kind. -/
def FrameKind.row : FrameKind → Heard → Slots → Instr
  | .join => .join
  | .roster => .roster
  | .stall => .stall
  | .leave => .leaveFrame
  | .update => .update
  | .ask => .ask
  | .give => .give
  | .copy => .copy
  | .empty => .empty

/-- A view holds no count at a limit (R112). -/
def View.BelowLimits (v : View) : Prop := ∀ x m, v.member x = some m → m.miss < missLimit ∧ m.reject < rejectLimit

/-- No request waits for a place in the outbound queue (R50). -/
def State.NoQueueWait (s : State) : Prop := ∀ r, s.port.request = some r → r.stage ≠ .queueWait

/-- This station owes a joiner its ROSTER: the joiner AWAITS, this station is its responder, and the record is not dropped
(R131). -/
def State.Owes (s : State) (v : View) (x : Station) : Prop :=
  v.awaiting x = true ∧ v.joinResponder x = some s.me ∧ ∃ r, s.join.rosters[x] = some r ∧ r.dropped = false

/-- The stations that a rejected frame is acknowledged by: present, not its owner, ACK driven and REJECT not (R106, R111). -/
def Acknowledged (v : View) (owner : Station) (slots : Slots) (x : Station) : Prop :=
  v.present x = true ∧ x ≠ owner ∧ ackSlot slots x = true ∧ rejectSlot slots x = false

/-- A staging record is write-protected: a record of the chain of the queue's GROUP entry, while that chain is QUEUED or SENDING
(R74). -/
def RecordProtected (s : State) (r : RecordIx) : Prop :=
  (s.commit.state = .queued ∨ s.commit.state = .sending) ∧
    ∃ older head count st n younger, s.out = older ++ ⟨.group head count, st, n⟩ :: younger ∧
      (∀ e ∈ older, ∀ h c, e.body ≠ .group h c) ∧ r ∈ chainFrom s.commit.staging count head

/-- The one entry of a table in use that names a line in FILLING or ACTIVE (R11). -/
structure Redirects (st : Store) (k : SpareIx) (l : Line) : Prop where
  inUse : st.tableLost = false
  names : st.table[k].names l = true
  alone : ∀ j : SpareIx, st.table[j].names l = true → j = k

/-- No entry of the table redirects a line (R11, R29). -/
def Unredirected (st : Store) (l : Line) : Prop := st.tableLost = true ∨ ∀ k : SpareIx, st.table[k].names l = false

/-- What the port holds of a request judged in a state, once its segment's fill has ended, where the queue takes no write (R40 to
R44, R48, R49). -/
def RequestJudged (s : State) (r : Request) (p : LocalPort) : Prop :=
  let l := lineOfAddress r.address
  match r.direction with
  | .write _ =>
    (s.localState (segmentOf l) = .localOnly → p.request = some { r with stage := .storeWait }) ∧
    (s.localState (segmentOf l) ∈ [LocalState.off, .detached, .mismatch, .orphaned] → p = answered .refused 0)
  | .read =>
    match s.localState (segmentOf l), forwardLookup s.out l (wordOfAddress r.address) with
    | .off, _ => p = answered .refused 0
    | .localOnly, _ => p.request = some { r with stage := .storeWait, rule := some .localSegment }
    | .detached, _ | .mismatch, _ => p.request = some { r with stage := .storeWait, rule := some .detached }
    | .current, some v | .catching, some v | .orphaned, some v => p = answered .done v
    | .current, none => p.request = some { r with stage := .storeWait, rule := some .member }
    | .catching, none | .orphaned, none =>
      if s.belowCursor l then p.request = some { r with stage := .storeWait, rule := some .member } else p = answered .stale 0

/-- The words that a write leaves of four that a unit holds for a line, and of their void bits (R148, R172). -/
def WordsTaken (w : LineWrite) (data data' : Vector Word 4) (void void' : WordMask) : Prop :=
  ∀ i : WordIx, (w.mask.has i = true → data'[i] = w.data[i] ∧ void'.has i = false) ∧
    (w.mask.has i = false → data'[i] = data[i] ∧ void'.has i = void.has i)

/-- What a write leaves of a line that a job of a segment holds (R148). -/
def LineTakes (w : LineWrite) (g : Segment) (h h' : HeldLine) : Prop :=
  h'.offset = h.offset ∧ (lineAt g h.offset ≠ w.line → h' = h) ∧
    (lineAt g h.offset = w.line → WordsTaken w h.data h'.data h.void h'.void)

/-- What a write leaves of a give entry (R172). -/
def GiveTakes (w : LineWrite) (e e' : GiveEntry) : Prop :=
  (e.state = .ready → e.line = w.line →
      e' = { e with data := e'.data, void := e'.void } ∧ WordsTaken w e.data e'.data e.void e'.void) ∧
    (e.state ≠ .ready ∨ e.line ≠ w.line → e' = e)

/-- The log has taken the entries, first of all that the command raised: an order that is the model's where other rules raise
entries too (R180, log 24). -/
def Logged (s t : State) (es : List LogEntry) : Prop := s.rep.log.length + es.length ≤ 4 → s.rep.log ++ es <+: t.rep.log

/-- A pair of a view without the stations xs has no server, while some other station present is CURRENT in its segment (R118,
R159). -/
def SpentWithout (v : View) (xs : List Station) (j : Station) (g : Segment) (passed : StationSet) : Prop :=
  (∃ y, y ∉ xs ∧ y ≠ j ∧ v.isCurrent y g = true) ∧
    ∀ y, y ∉ xs → y ≠ j → v.isCurrent y g = true → passed.has y = true

/-- A declared set m of a joiner x for a segment breaks a condition of compatibility with a view (R128). -/
def Clashes (v : View) (x : Station) (g : Segment) (m : StationSet) : Prop :=
  ∃ y, y ≠ x ∧ v.present y = true ∧
    ((m.has y = true ∧ v.declared y g ≠ some m) ∨ ∃ d, v.declared y g = some d ∧ d.has x = true ∧ d ≠ m)

/-- The log entry of a marking (R112). -/
def markingEntry (owner : Station) (m : Marking) : LogEntry :=
  ⟨match m.2 with
    | .expelled => .expelled
    | .selfFault => .selfFault
    | .missed | .joinFailed | .left => .missed, .bus, none, none, some m.1, owner.val⟩

/-- What the markings ms leave of a station whose view the end field made w (R112, R113, R118). -/
structure MarkingsTaken (s u : State) (w : View) (ms : List Marking) (owner : Station) : Prop where
  others : ms.lookup s.me = none → u.view = some (if ms = [] then w else w.markAbsent (ms.map Prod.fst)) ∧
             u.join.station = s.join.station ∧ ∀ b, u.group = some b → b.sender ∉ ms.map Prod.fst
  self   : ∀ cause, ms.lookup s.me = some cause →
             u.join.station = .offline ∧ u.join.cause = some cause ∧ u.view = none ∧ u.group = none
  peers  : ms ≠ [] → StatusFlag.peerChange.isIn u.rep.flags = true
  logged : Logged s u (ms.map (markingEntry owner))

end Sys2Proof.Machine
end

