-- ==== Sys2Proof/WellFormed.lean ====
section
/-! DEFINITION. What makes a command well formed: that its operands are those of its own row. The machine is total on
ill-formed commands too: it does what the operands say. -/

namespace Sys2Proof

/-- Does a command word name exactly one command, with the interrupt-on-completion flag only beside COMMIT (R177)? -/
def commandWordValid (d : Word) : Bool :=
  let names := [d.getLsbD 0, d.getLsbD 1, d.getLsbD 2, d.getLsbD 3].filter id
  names.length == 1 && (d.getLsbD 3 || !d.getLsbD 8)

/-- Is the WINDOW request one to a word without behaviour of its own: not a write to the command word or the status word,
and not a read of LOG_READ word B, the overflow count or the corrected-word count? -/
def plainWindowAccess (address : BitVec 16) : WindowAccess → Bool
  | .write _ => address != 32#16 && address != 34#16
  | .read    => address != 43#16 && address != 44#16 && address != 45#16

/-- The kind nibble of a heard frame, if a first byte was heard (12_formats.md, Common header). -/
def Heard.kindNibble (h : Heard) : Option (BitVec 4) := h.bytes.head?.map (·.extractLsb' 0 4)

/-- Does a heard frame carry this kind's code, or a code that names no kind (0 and 10 to 15)? -/
def Heard.carries (h : Heard) (code : BitVec 4) : Bool :=
  match h.kindNibble with
  | none   => true
  | some k => k == code || k == 0#4 || 10#4 ≤ k

/-- A well-formed command. -/
def Instr.wellFormed : Instr → Bool
  | .coreReset _ _ | .retentionLoss _ | .arrayFault _ _ | .storeRead _ | .storeWrite _ _ => true
  | .start | .leave | .rejoin | .commit _ => true
  | .invalidCommand d => !commandWordValid d
  | .statusWordWrite _ | .logRead | .overflowCountRead | .correctedWordCountRead => true
  | .windowWrite a x => plainWindowAccess a x
  | .stabilisationCountDone | .busClockSwitchDone | .crystalPeriod => true
  | .applyCompletion | .localReadCompletion | .localWriteCompletion | .giveReadCompletion => true
  | .fillCopyCompletion | .returnCopyCompletion | .serveReadCompletion | .scrubStepCompletion => true
  | .fillWriteCompletion | .scrubIntervalExpiry => true
  | .claimWindowOpening | .claimResolved _ | .emptyWindowEnd | .continuation | .breakField => true
  | .join h _ => h.carries 1#4
  | .roster h _ => h.carries 2#4
  | .stall h _ => h.carries 3#4
  | .leaveFrame h _ => h.carries 4#4
  | .update h _ => h.carries 5#4
  | .ask h _ => h.carries 6#4
  | .give h _ => h.carries 7#4
  | .copy h _ => h.carries 8#4
  | .empty h _ => h.carries 9#4
  | .damagedFrame _ => true
  | .quietTimerExpiry | .rosterTimerExpiry | .repairTimerExpiry _ | .progressWindowExpiry _ => true
  | .windowMark n => decide (11 ≤ n)

end Sys2Proof
end

