-- ==== Sys2Proof/Certificates/Slice0/Obligations.lean ====
section
/-! DEFINITION. The statements for the provers: what a step is, what each command does to the state it is sent to, what every
step keeps, and the two selections and layouts on which these rest. In the statements that end in `Settled u t`, the command
leaves `u`, and `t` differs from it by the operations that the claimants of the store port then present and the port grants. -/

open Sys2Proof Sys2Proof.Machine

/-! ### The step, and what every step keeps -/

/-- A step takes the command at the front of the queue and executes it with the queue's rest. On an empty queue the part idles:
the model's choice (log 8). -/
def Obligations.StepTakesTheFront : Prop :=
  (∀ (c : Instr) (rest : List Instr) (s : State), step { s with pending := c :: rest } = exec c { s with pending := rest }) ∧
  ∀ s : State, s.pending = [] → step s = .next s

/-- Every command answers a next state in every state, and leaves the queue as it finds it. -/
def Obligations.EveryCommandCompletes : Prop := ∀ (c : Instr) (s : State), ∃ t, exec c s = .next t ∧ t.pending = s.pending

/-- Every step keeps the store's canonical form, the stated capacities, and the agreement of the station state with its
OFFLINE cause and with the view. -/
def Obligations.StepKeepsSoundness : Prop := ∀ s t : State, Sound s → step s = .next t → Sound t

/-- The state after reset satisfies the invariant. -/
def Obligations.ResetIsSound : Prop := Sound State.reset

/-! ### The supplies and the array -/

/-- CORE_RESET: the core domain takes its reset values, and the queue of commands, the model's own, stays. The retention domain
stands, but for the operation in progress: each word holds what it held or what the whole operation would have left in it, and a
written-mask bit that was clear is set only if the spare word holds its new value, and is clear only if it holds its old one;
one that was set stays set, the model's choice where the spare word stays old (log 46). -/
def Obligations.CoreResetClearsTheCoreDomain : Prop :=
  ∀ (arr spr : WordMask) (s : State), ∃ t, exec (.coreReset arr spr) s = .next t ∧ t.pending = s.pending ∧
    t.sp.running = none ∧ t.sp.applyList = [] ∧ t.sp.spareCopy = none ∧ (∀ g : Segment, t.sp.fill[g] = .none) ∧
    t.health.corrected = 0 ∧ t.health.suspects = [] ∧ t.health.exhausted = [] ∧
    (∀ k : SpareIx, t.health.copyDone[k] = false ∧ t.health.retire[k] = none) ∧
    t.walker.state = .idle ∧ t.walker.cursor = 0 ∧ t.walker.chosen = none ∧ t.walker.interval = t.scrubFast ∧
    t.walker.firstPass = true ∧ t.walker.findings = none ∧
    t.port.request = none ∧ t.out = [] ∧ t.commit.head = 0 ∧ t.commit.state = .idle ∧ t.commit.doneNotify = false ∧
    (∀ r : RecordIx, t.commit.staging[r].line.val = 0 ∧ t.commit.staging[r].mask = 0 ∧ t.commit.staging[r].stop = false ∧
      t.commit.staging[r].link.val = 0 ∧ ∀ i : WordIx, t.commit.staging[r].data[i] = 0) ∧
    t.group = none ∧ t.view = none ∧ t.repair = [] ∧ t.gives = [] ∧
    t.bus.unit = .off ∧ t.bus.phase = none ∧ t.bus.window = .due ∧ t.bus.positions = 0 ∧ t.bus.owner = none ∧ t.bus.cls = none ∧ t.bus.run = .none ∧
    t.bus.tracked.val = 15 ∧ t.bus.quiet = .stopped ∧ t.bus.emptyPending = false ∧
    t.join.station = .config ∧ t.join.cause = none ∧ t.join.attempts = 0 ∧ t.join.leaveAttempts = 0 ∧
    t.join.rosterTimer = false ∧ (∀ x : Station, t.join.rosters[x] = none) ∧
    (∀ k : JobIx, t.catchup.jobs[k] = none) ∧ t.catchup.ring = [] ∧ t.catchup.token = none ∧
    (∀ g : Segment, t.catchup.monitors[g].running = false ∧ t.catchup.monitors[g].stall = none) ∧
    (∀ g : Segment, t.mode g = .localOnly ∧ t.mirrorSet g = 0 ∧ t.scrub g = .passive ∧ t.fillFlag g = false) ∧
    t.rep.field 0 = 0 ∧ t.rep.field 9 = 1 ∧ t.rep.field 10 = 16 ∧ t.rep.field 11 = 2 ∧ t.rep.field 12 = 16 ∧
    t.rep.field 13 = 10 ∧ t.rep.field 14 = 20 ∧ t.rep.field 15 = 50 ∧ t.rep.field 16 = 0 ∧ t.rep.field 17 = 10 ∧
    t.rep.field 18 = 10000 ∧ t.rep.field 19 = 100 ∧ t.rep.field 20 = 3 ∧
    t.rep.result = ⟨.ok, 0⟩ ∧ t.rep.flags = 0 ∧ t.rep.enables = 0 ∧ t.rep.log = [] ∧ t.rep.overflow = 0 ∧
    t.rep.stab = 0 ∧ t.rep.crystal = false ∧ t.rep.clock = .internal ∧
    t.store.marker = s.store.marker ∧ t.store.tableLost = s.store.tableLost ∧
    (∀ k : SpareIx, t.store.table[k].state = s.store.table[k].state ∧ t.store.table[k].line = s.store.table[k].line) ∧
    (s.sp.running = none → t.store = s.store) ∧
    ∀ r, s.sp.running = some r →
      (∀ w : StoreWord, t.store.cell w = s.store.cell w ∨ t.store.cell w = (s.wholeStore r.op).cell w) ∧
      ∀ (k : SpareIx) (i : WordIx),
        (s.store.table[k].mask.has i = true → t.store.table[k].mask.has i = true) ∧
        (s.store.table[k].mask.has i = false →
          (t.store.table[k].mask.has i = true → t.store.cell (.spare k i) = (s.wholeStore r.op).cell (.spare k i)) ∧
          (t.store.table[k].mask.has i = false → s.store.table[k].state = .filling →
            t.store.cell (.spare k i) = s.store.cell (.spare k i)))

/-- RETENTION_LOSS: the marker is INVALID, the table takes any content and is not used, and no word keeps its value: each reads
as a free value. Everything else stays. -/
def Obligations.RetentionLossLosesTheDomain : Prop :=
  ∀ (found : SpareTable) (s : State), ∃ u t, exec (.retentionLoss found) s = .next t ∧ Settled u t ∧
    u = { s with store := u.store } ∧ u.store.marker = .invalid ∧ u.store.table = found ∧ (∀ l, u.store.spareFor l = none) ∧
    u.store.losses = s.store.losses + 1 ∧ ∀ w : StoreWord, u.store.cell w = Config.lostCell (s.store.losses + 1) w.key

/-- ARRAY_FAULT: one word's health worsens by one step, with the corrected data kept or any raw data; nothing else changes, and
the next read of the word's line finds it. -/
def Obligations.ArrayFaultWorsensOneWord : Prop :=
  ∀ (w : StoreWord) (raw : Word) (s : State), ∃ t, exec (.arrayFault w raw) s = .next t ∧
    t = { s with store := t.store } ∧ t.store = { s.store with cells := t.store.cells } ∧
    (∀ x, x ≠ w → t.store.cell x = s.store.cell x) ∧
    ((s.store.cell w).health = .clean → t.store.cell w = ⟨(s.store.cell w).data, .correctable⟩) ∧
    ((s.store.cell w).health = .correctable → t.store.cell w = ⟨raw, .uncorrectable⟩) ∧
    ((s.store.cell w).health = .uncorrectable → t.store.cell w = ⟨raw, .uncorrectable⟩) ∧
    ∀ (l : Line) (i : WordIx), s.store.readAt l i = w → (t.store.readLine l)[i] = t.store.cell w

/-! ### The store and its port -/

/-- A masked line write goes where the entry naming the line sends it: to an ACTIVE spare alone; to the array and a FILLING
spare, whose mask bits are set and which becomes ACTIVE when its mask is full; otherwise to the array. A read of a line finds the
words of its ACTIVE spare, otherwise those of the array. -/
def Obligations.TheSpareTableRedirects : Prop :=
  (∀ (st : Store) (w : LineWrite), st.tableLost = false →
    (∀ k : SpareIx, st.table[k].names w.line = true → (∀ j : SpareIx, st.table[j].names w.line = true → j = k) →
      (st.table[k].state = .active →
        (∀ i, w.mask.has i = true → (st.write w).cell (.spare k i) = w.cell i) ∧
        (∀ x, (∀ i, w.mask.has i = true → x ≠ .spare k i) → (st.write w).cell x = st.cell x) ∧ (st.write w).table = st.table) ∧
      (st.table[k].state = .filling →
        (∀ i, w.mask.has i = true →
          (st.write w).cell (.spare k i) = w.cell i ∧ (st.write w).cell (arrayWord w.line i) = w.cell i) ∧
        (∀ x, (∀ i, w.mask.has i = true → x ≠ .spare k i ∧ x ≠ arrayWord w.line i) → (st.write w).cell x = st.cell x) ∧
        (∀ j : SpareIx, j ≠ k → (st.write w).table[j] = st.table[j]) ∧
        (st.table[k].mask ≠ 15 → (st.write w).table[k] =
          ⟨if st.table[k].mask ||| w.mask = 15 then .active else .filling, some w.line, st.table[k].mask ||| w.mask⟩))) ∧
    ((∀ k : SpareIx, st.table[k].names w.line = false) →
      (∀ i, w.mask.has i = true → (st.write w).cell (arrayWord w.line i) = w.cell i) ∧
      (∀ x, (∀ i, w.mask.has i = true → x ≠ arrayWord w.line i) → (st.write w).cell x = st.cell x) ∧
      (st.write w).table = st.table)) ∧
  ∀ (st : Store) (l : Line),
    (∀ k : SpareIx, st.tableLost = false → st.table[k].state = .active → st.table[k].line = some l →
      (∀ j : SpareIx, st.table[j].names l = true → j = k) → ∀ i : WordIx, (st.readLine l)[i] = st.cell (.spare k i)) ∧
    ((∀ k : SpareIx, st.table[k].line = some l → st.table[k].state ≠ .active) →
      ∀ i : WordIx, (st.readLine l)[i] = st.cell (arrayWord l i))

/-- The store port: BUSY it grants nothing; IDLE it stays so while no claimant presents, and otherwise grants the operation of
the first presenting claimant in the order of priority. -/
def Obligations.GrantsInPriorityOrder : Prop :=
  claimants = [.apply, .localPort, .giveRead, .spareCopy, .serve, .scrub, .fill] ∧
  ∀ s : State,
    (∀ r, s.sp.running = some r → s.grant = s) ∧
    (s.sp.running = none → (∀ c, s.presented c = none) → s.grant = s) ∧
    ∀ (c : Claimant) (op : StoreOp), s.sp.running = none → s.presented c = some op →
      (∀ d, claimants.idxOf d < claimants.idxOf c → s.presented d = none) → s.grant.sp.running = some ⟨c, op⟩

/-- What the claimants present. APPLY: the first write of its list. LOCAL: the read or the write of one word of the request in
STORE_WAIT. SCRUB: the read of the line the walker WAITS for. GIVE_READ: the oldest entry TO_READ, one at a time. SERVE: of the
jobs from the token on in ring order, the first that needs a read, and of it the line after the last one it holds. SPARE_COPY: the
return copy of the lowest entry with its retire-pending mark; otherwise the fill copy of the lowest FILLING entry not yet copied
whose segment is not OFF and not to be filled; none while the table is lost. FILL: four zero words at the next line, of the lowest
segment WAITING. That no spare copy is presented while the table is lost is the model's form of R29 (log 4). -/
def Obligations.ClaimantsPresentTheirWork : Prop :=
  ∀ s : State,
    (∀ w rest, s.sp.applyList = w :: rest → s.presented .apply = some (.write w)) ∧
    (s.sp.applyList = [] → s.presented .apply = none) ∧
    (∀ r, s.port.request = some r → r.stage = .storeWait →
      (r.direction = .read → s.presented .localPort = some (.read (lineOfAddress r.address))) ∧
      ∀ d, r.direction = .write d → s.presented .localPort = some (.write ⟨lineOfAddress r.address,
        WordMask.single (wordOfAddress r.address), (Vector.replicate 4 0).set (wordOfAddress r.address) d, 0⟩)) ∧
    ((∀ r, s.port.request = some r → r.stage ≠ .storeWait) → s.presented .localPort = none) ∧
    (∀ l, s.walker.state = .waiting → s.walker.chosen = some l → s.presented .scrub = some (.read l)) ∧
    (s.walker.state ≠ .waiting → s.presented .scrub = none) ∧
    ((∀ e ∈ s.gives, e.state ≠ .reading) → (∀ r, s.sp.running = some r → r.claimant ≠ .giveRead) →
      (∀ before e after, s.gives = before ++ e :: after → (∀ x ∈ before, x.state ≠ .toRead) → e.state = .toRead →
        s.presentGive = { s with gives := before ++ { e with state := .reading } :: after } ∧
        s.presentGive.presented .giveRead = some (.read e.line)) ∧
      ((∀ e ∈ s.gives, e.state ≠ .toRead) → s.presentGive = s)) ∧
    ((∃ e ∈ s.gives, e.state = .reading) ∨ (∃ r, s.sp.running = some r ∧ r.claimant = .giveRead) → s.presentGive = s) ∧
    (∀ k : JobIx, s.jobNeedsRead k = true ↔ ∃ j, s.catchup.jobs[k] = some j ∧ j.waiting = none ∧ j.reading = none ∧
      j.buffer.length + j.ahead.length < 12 ∧ s.jobCursor j + j.buffer.length + j.ahead.length < 2048) ∧
    (∀ v c p j, s.heldView = some v → v.state j.station j.segment = .catching c p → s.jobCursor j = c) ∧
    ((∀ (k : JobIx) j, s.catchup.jobs[k] = some j → j.reading = none) →
      (∀ r, s.sp.running = some r → r.claimant ≠ .serve) → ∀ tk before after, s.catchup.token = some tk →
        s.catchup.ring = before ++ tk :: after → tk ∉ before →
        (∀ (xs ys : List JobIx) k j, tk :: after ++ before = xs ++ k :: ys → (∀ x ∈ xs, s.jobNeedsRead x = false) →
          s.jobNeedsRead k = true → s.catchup.jobs[k] = some j → ∀ o, o = s.jobCursor j + j.buffer.length + j.ahead.length →
          s.presentServe = { s with catchup := { s.catchup with jobs := s.catchup.jobs.set k (some { j with reading := some o }) } } ∧
          s.presentServe.presented .serve = some (.read (lineAt j.segment o))) ∧
        ((∀ x ∈ s.catchup.ring, s.jobNeedsRead x = false) → s.presentServe = s)) ∧
    (s.store.tableLost = true → s.presentSpareCopy.sp.spareCopy = none) ∧
    (s.store.tableLost = false →
      (∀ k l, s.sp.spareCopy = some (.fillCopy k l) →
        (s.store.table[k].state = .filling → s.store.table[k].line = some l →
          s.presentSpareCopy.sp.spareCopy = some (.fillCopy k l)) ∧
        (s.store.table[k].state ≠ .filling → s.presentSpareCopy.sp.spareCopy ≠ some (.fillCopy k l))) ∧
      (s.sp.spareCopy = none → (∀ r, s.sp.running = some r → r.claimant ≠ .spareCopy) → ∀ (k : SpareIx) (l : Line),
        s.store.table[k].line = some l →
        (s.health.retire[k] ≠ none → (∀ j < k, s.health.retire[j] = none) →
          s.presentSpareCopy.sp.spareCopy = some (.returnCopy k l)) ∧
        ∀ due : SpareIx → Prop, (∀ j : SpareIx, due j ↔ s.store.table[j].state = .filling ∧ s.health.copyDone[j] = false ∧
            ∃ l, s.store.table[j].line = some l ∧ s.mode (segmentOf l) ≠ .off ∧ s.sp.fill[segmentOf l] ≠ .waiting ∧
              s.sp.fill[segmentOf l] ≠ .filling) →
          (∀ j : SpareIx, s.health.retire[j] = none) → due k → (∀ j < k, ¬due j) →
          s.presentSpareCopy.sp.spareCopy = some (.fillCopy k l))) ∧
    (∀ g : Segment, s.sp.fill[g] = .filling → (∀ h < g, s.sp.fill[h] ≠ .filling) → s.presentFill = s ∧
      s.presented .fill = some (.write ⟨lineAt g s.sp.fillNext, 15, Vector.replicate 4 0, 0⟩)) ∧
    ((∀ h : Segment, s.sp.fill[h] ≠ .filling) →
      (∀ g : Segment, s.sp.fill[g] = .waiting → (∀ h < g, s.sp.fill[h] ≠ .waiting) →
        s.presentFill = { s with sp := { s.sp with fill := s.sp.fill.set g .filling, fillNext := 0 } }) ∧
      ((∀ h : Segment, s.sp.fill[h] ≠ .waiting) → s.presentFill = s ∧ s.presented .fill = none))

/-! ### STORE requests -/

/-- A port that holds a request takes none: a WINDOW request changes nothing, and a STORE request nothing but what claimants
present. That it is not taken is the model's form of R37 (log 7). -/
def Obligations.BusyPortTakesNoRequest : Prop :=
  ∀ (s : State) (r : Request), s.port.request = some r →
    (∀ (d : Direction) (a : BitVec 16), ∃ t, exec (storeCommand a d) s = .next t ∧ Settled s t) ∧
    exec .start s = .next s ∧ exec .leave s = .next s ∧ exec .rejoin s = .next s ∧ (∀ n, exec (.commit n) s = .next s) ∧
    (∀ d, exec (.invalidCommand d) s = .next s) ∧ (∀ d, exec (.statusWordWrite d) s = .next s) ∧ exec .logRead s = .next s ∧
    exec .overflowCountRead s = .next s ∧ exec .correctedWordCountRead s = .next s ∧
    ∀ a x, exec (.windowWrite a x) s = .next s

/-- A STORE request is refused in CONFIG, held in START_WAIT in CLOCKING, and held in FILL_WAIT while its segment's fill is
WAITING or FILLING. -/
def Obligations.StoreRequestsWaitForStartUp : Prop :=
  ∀ (s : State) (d : Direction) (a : BitVec 16), s.port.request = none →
    (s.join.station = .config → ∃ t, exec (storeCommand a d) s = .next t ∧ Settled { s with port := answered .refused 0 } t) ∧
    (s.join.station = .clocking → ∃ t, exec (storeCommand a d) s = .next t ∧
      Settled { s with port := { s.port with request := some ⟨d, a, .startWait, none, none⟩ } } t) ∧
    (s.started = true → (s.sp.fill[segmentOf (lineOfAddress a)] = .waiting ∨ s.sp.fill[segmentOf (lineOfAddress a)] = .filling) →
      ∃ t, exec (storeCommand a d) s = .next t ∧
        Settled { s with port := { s.port with request := some ⟨d, a, .fillWait, none, none⟩ } } t)

/-- A STORE read goes to the store: of a LOCAL segment; of a DETACHED or MISMATCH one; and of a segment that is CURRENT, or
CATCHING or ORPHANED with the line below this station's cursor, where no entry of the outbound queue forwards the word. It is
answered at its taking: REFUSED of an OFF segment; DONE with the forwarded word of a segment that is CURRENT, CATCHING or
ORPHANED; and STALE with 0, at or above the cursor, where none is forwarded. -/
def Obligations.StoreReadIsJudged : Prop :=
  ∀ (s : State) (a : BitVec 16), s.port.request = none → s.started = true →
    s.sp.fill[segmentOf (lineOfAddress a)] ≠ .waiting → s.sp.fill[segmentOf (lineOfAddress a)] ≠ .filling →
    (∀ rule : ReadRule,
      (match s.localState (segmentOf (lineOfAddress a)) with
        | .localOnly => rule = .localSegment
        | .detached | .mismatch => rule = .detached
        | .current => rule = .member ∧ forwardLookup s.out (lineOfAddress a) (wordOfAddress a) = none
        | .catching | .orphaned => rule = .member ∧ s.belowCursor (lineOfAddress a) = true ∧
            forwardLookup s.out (lineOfAddress a) (wordOfAddress a) = none
        | .off => False) →
      ∃ t, exec (.storeRead a) s = .next t ∧
        Settled { s with port := { s.port with request := some ⟨.read, a, .storeWait, some rule, none⟩ } } t) ∧
    ∀ (st : Status) (v : Word),
      (match s.localState (segmentOf (lineOfAddress a)) with
        | .off => st = .refused ∧ v = 0
        | .current => st = .done ∧ forwardLookup s.out (lineOfAddress a) (wordOfAddress a) = some v
        | .catching | .orphaned =>
            (st = .done ∧ forwardLookup s.out (lineOfAddress a) (wordOfAddress a) = some v) ∨
              (st = .stale ∧ v = 0 ∧ s.belowCursor (lineOfAddress a) = false ∧
                forwardLookup s.out (lineOfAddress a) (wordOfAddress a) = none)
        | .localOnly | .detached | .mismatch => False) →
      ∃ t, exec (.storeRead a) s = .next t ∧ Settled { s with port := answered st v } t

/-- The forwarding lookup returns the slot of the youngest UPDATE entry that references the line and holds the word, whether it
is WAITING or SENDING, combinable or not; without one it returns nothing. -/
def Obligations.ForwardingFindsTheYoungest : Prop :=
  ∀ (l : Line) (i : WordIx),
    (∀ (older younger : List OutEntry) (g : Segment) (m : WordMask) (slots : Vector Word 4) (c : Bool) (st : OutState) (n : Nat),
      m.has i = true →
      (∀ y ∈ younger, ∀ g' m' slots' c', y.body = .update g' l m' slots' c' → m'.has i = false) →
      forwardLookup (older ++ ⟨.update g l m slots c, st, n⟩ :: younger) l i = some slots[i]) ∧
    ∀ q : List OutEntry, (∀ y ∈ q, ∀ g' m' slots' c', y.body = .update g' l m' slots' c' → m'.has i = false) →
      forwardLookup q l i = none

/-- A STORE write that does not reach the queue: REFUSED of an OFF, DETACHED, MISMATCH or ORPHANED segment, and of any mirrored
one while the station is LEAVING; sent to the store of a LOCAL one. -/
def Obligations.StoreWriteAnsweredOrSent : Prop :=
  ∀ (s : State) (a : BitVec 16) (d : Word), s.port.request = none → s.started = true →
    s.sp.fill[segmentOf (lineOfAddress a)] ≠ .waiting → s.sp.fill[segmentOf (lineOfAddress a)] ≠ .filling →
    (s.localState (segmentOf (lineOfAddress a)) = .localOnly → ∃ t, exec (.storeWrite a d) s = .next t ∧
      Settled { s with port := { s.port with request := some ⟨.write d, a, .storeWait, none, none⟩ } } t) ∧
    (s.localState (segmentOf (lineOfAddress a)) ∈ [LocalState.off, .detached, .mismatch, .orphaned] ∨
        (s.localState (segmentOf (lineOfAddress a)) ≠ .localOnly ∧ s.join.station = .leaving) →
      ∃ t, exec (.storeWrite a d) s = .next t ∧ Settled { s with port := answered .refused 0 } t)

/-- A STORE write that the queue admits combines into the youngest entry that references its line, where that is an UPDATE entry
WAITING with its mark set: its slot takes the data and its mask the word, and it keeps its place, attempts and mark. One that can
combine into no entry makes one at the tail where the queue holds fewer than 32, and is held in QUEUE_WAIT where it holds 32. -/
def Obligations.StoreWriteEntersTheQueue : Prop :=
  ∀ (s : State) (a : BitVec 16) (d : Word), s.port.request = none → s.join.station = .joined →
    s.sp.fill[segmentOf (lineOfAddress a)] ≠ .waiting → s.sp.fill[segmentOf (lineOfAddress a)] ≠ .filling →
    (s.localState (segmentOf (lineOfAddress a)) = .current ∨ s.localState (segmentOf (lineOfAddress a)) = .catching) →
    (∀ (older younger : List OutEntry) (g : Segment) (m : WordMask) (slots : Vector Word 4) (n : Nat),
       s.out = older ++ ⟨.update g (lineOfAddress a) m slots true, .waiting, n⟩ :: younger →
       (∀ y ∈ younger, y.references s.commit.staging (lineOfAddress a) = false) →
       ∃ t, exec (.storeWrite a d) s = .next t ∧
         Settled { s with
           out := older ++ ⟨.update g (lineOfAddress a) (m ||| WordMask.single (wordOfAddress a))
             (slots.set (wordOfAddress a) d) true, .waiting, n⟩ :: younger
           port := answered .done 0 } t) ∧
    (NeedsNewEntry s (lineOfAddress a) →
     (s.out.length < 32 → ∃ t, exec (.storeWrite a d) s = .next t ∧
       Settled { s with
         out := s.out ++ [⟨.update (segmentOf (lineOfAddress a)) (lineOfAddress a) (WordMask.single (wordOfAddress a))
           ((Vector.replicate 4 0).set (wordOfAddress a) d) true, .waiting, 0⟩]
         port := answered .done 0 } t) ∧
     (s.out.length = 32 → ∃ t, exec (.storeWrite a d) s = .next t ∧
       Settled { s with port := { s.port with request := some ⟨.write d, a, .queueWait, none, none⟩ } } t))

/-! ### The command word -/

/-- START in CONFIG judges the block field by field: the first field out of its range is reported and the station stays; with
every field in range the block is frozen, the crystal enabled, and the station enters CLOCKING. -/
def Obligations.StartJudgesTheBlock : Prop :=
  ∀ s : State, s.port.request = none → s.join.station = .config →
    ((∀ i, FieldInRange s.rep i) → exec .start s = .next
      { s with
        join := { s.join with station := .clocking }
        rep := { s.rep with crystal := true, result := ⟨.ok, 0⟩ }
        port := answered .done 0 }) ∧
    ∀ i, ¬FieldInRange s.rep i → (∀ j < i, FieldInRange s.rep j) → exec .start s = .next
      { s with rep := { s.rep with result := ⟨.configInvalid, i.val⟩ }, port := answered .done 0 }

/-- LEAVE in JOINED: the station is LEAVING, the quiet timer stops, and a pending EMPTY is cancelled with its claim. REJOIN in
OFFLINE: the station is LISTENING, with no cause and its counts 0. START outside CONFIG, LEAVE outside JOINED and REJOIN outside
OFFLINE leave REFUSED in the result word and change nothing else. -/
def Obligations.LeaveAndRejoinInTheirStates : Prop :=
  ∀ s : State, s.port.request = none →
    (s.join.station = .joined → exec .leave s = .next
      { s with
        join := { s.join with station := .leaving, leaveAttempts := 0 }
        bus := { s.bus with
          quiet := .stopped, emptyPending := false, claim := if s.bus.claim = some .empty then none else s.bus.claim }
        rep := { s.rep with result := ⟨.ok, 0⟩ }
        port := answered .done 0 }) ∧
    (s.join.station = .offline → exec .rejoin s = .next
      { s with
        join := { s.join with station := .listening, cause := none, attempts := 0, accepted := 0, leaveAttempts := 0 }
        rep := { s.rep with result := ⟨.ok, 0⟩ }
        port := answered .done 0 }) ∧
    (s.join.station ≠ .config → exec .start s = .next
      { s with rep := { s.rep with result := ⟨.refused, 0⟩ }, port := answered .done 0 }) ∧
    (s.join.station ≠ .joined → exec .leave s = .next
      { s with rep := { s.rep with result := ⟨.refused, 0⟩ }, port := answered .done 0 }) ∧
    (s.join.station ≠ .offline → exec .rejoin s = .next
      { s with rep := { s.rep with result := ⟨.refused, 0⟩ }, port := answered .done 0 })

/-- COMMIT is REFUSED in LEAVING, and BUSY while a chain is QUEUED or SENDING; nothing else changes. Otherwise it walks the chain
from COMMIT_HEAD: the first record that fails ends it with its code and index, sixteen records without STOP fail it at the
sixteenth, and a chain that fails leaves FAILED, CHAIN_FAILED and REFUSED, and nothing else. -/
def Obligations.CommitJudgesTheChain : Prop :=
  (∀ (s : State) (n : Bool), s.port.request = none →
    (s.join.station = .leaving → exec (.commit n) s = .next
      { s with rep := { s.rep with result := ⟨.refused, 0⟩ }, port := answered .done 0 }) ∧
    (s.join.station ≠ .leaving → s.commit.state = .queued ∨ s.commit.state = .sending → exec (.commit n) s = .next
      { s with rep := { s.rep with result := ⟨.busy, 0⟩ }, port := answered .done 0 })) ∧
  ∀ (s : State) (n : Bool) (k : Nat), s.port.request = none → s.join.station ≠ .leaving → s.commit.state.pending = false →
    k < 16 →
    (∀ j < k, RecordPasses s ((chainFrom s.commit.staging 16 s.commit.head).getD j 0) ∧
      (s.commit.staging[(chainFrom s.commit.staging 16 s.commit.head).getD j 0]).stop = false) →
    ∀ (code : FailCode) (r : RecordIx), r = (chainFrom s.commit.staging 16 s.commit.head).getD k 0 →
      ((code = .chainEmptyRecord ∧ s.commit.staging[r].mask = 0) ∨
        (code = .chainNotWritable ∧ s.commit.staging[r].mask ≠ 0 ∧ s.writable (segmentOf s.commit.staging[r].line) = false) ∨
        (code = .chainTooLong ∧ k = 15 ∧ RecordPasses s r ∧ s.commit.staging[r].stop = false)) →
      exec (.commit n) s = .next
        { s with
          commit := { s.commit with state := .failed code r }
          rep := { s.rep with result := ⟨.refused, 0⟩, flags := s.rep.flags ||| StatusFlag.chainFailed.mask }
          port := answered .done 0 }

/-- COMMIT of a chain whose records pass up to one with STOP set: a GROUP entry at the tail with the head record and the count,
the marks of the entries of its lines cleared, QUEUED, the notify mark recorded and OK; BUSY where the queue holds 32. -/
def Obligations.CommitQueuesAValidChain : Prop :=
  ∀ (s : State) (n : Bool) (k : Nat), s.port.request = none → s.join.station ≠ .leaving → s.commit.state.pending = false →
    k < 16 →
    (∀ j < k, RecordPasses s ((chainFrom s.commit.staging 16 s.commit.head).getD j 0) ∧
      (s.commit.staging[(chainFrom s.commit.staging 16 s.commit.head).getD j 0]).stop = false) →
    RecordPasses s ((chainFrom s.commit.staging 16 s.commit.head).getD k 0) →
    (s.commit.staging[(chainFrom s.commit.staging 16 s.commit.head).getD k 0]).stop = true →
    (s.out.length < 32 → exec (.commit n) s = .next
      { s with
        out := (s.out.map fun e =>
          if (chainFrom s.commit.staging (k + 1) s.commit.head).any fun r =>
              e.references s.commit.staging s.commit.staging[r].line
          then e.unmark else e) ++ [⟨.group s.commit.head (k + 1), .waiting, 0⟩]
        commit := { s.commit with state := .queued, notify := n, sendPos := 0 }
        rep := { s.rep with result := ⟨.ok, 0⟩ }
        port := answered .done 0 }) ∧
    (32 ≤ s.out.length → exec (.commit n) s = .next
      { s with rep := { s.rep with result := ⟨.busy, 0⟩ }, port := answered .done 0 })

/-- A command word that names no command, or two or more, or carries the interrupt flag without COMMIT, leaves INVALID_COMMAND
in the result word, is answered DONE, and changes nothing else. One that names a command is that
command, whatever its other bits. -/
def Obligations.CommandWordNamesOneCommand : Prop :=
  ∀ (s : State) (d : Word), s.port.request = none →
    (([0, 1, 2, 3].filter fun i => d.getLsbD i).length ≠ 1 ∨ (d.getLsbD 8 = true ∧ d.getLsbD 3 = false) →
      exec (.invalidCommand d) s = .next
        { s with rep := { s.rep with result := ⟨.invalidCommand, 0⟩ }, port := answered .done 0 }) ∧
    exec (.windowWrite 32#16 (.write d)) s = exec (.invalidCommand d) s ∧
    ((∀ i < 4, d.getLsbD i = (i == 0)) → d.getLsbD 8 = false → exec (.invalidCommand d) s = exec .start s) ∧
    ((∀ i < 4, d.getLsbD i = (i == 1)) → d.getLsbD 8 = false → exec (.invalidCommand d) s = exec .leave s) ∧
    ((∀ i < 4, d.getLsbD i = (i == 2)) → d.getLsbD 8 = false → exec (.invalidCommand d) s = exec .rejoin s) ∧
    ((∀ i < 4, d.getLsbD i = (i == 3)) → exec (.invalidCommand d) s = exec (.commit (d.getLsbD 8)) s)

/-! ### The rest of the control window -/

/-- A write of the status word clears the flags written as 1, LOG_NONEMPTY only where the log is empty, and with CHAIN_DONE the
done-notify mark; it sets none, and changes nothing else. An entry raised is taken at the tail where the log holds fewer than 4,
setting LOG_NONEMPTY; otherwise it is refused and counted, up to 255, setting LOG_OVERFLOW. -/
def Obligations.FlagsAndLogTakeTheirEvents : Prop :=
  (∀ (s : State) (d : Word), s.port.request = none → ∃ t, exec (.statusWordWrite d) s = .next t ∧
    t = { s with
      rep := { s.rep with flags := t.rep.flags }
      commit := { s.commit with doneNotify := s.commit.doneNotify && !d.getLsbD 6 }
      port := answered .done 0 } ∧
    ∀ f : StatusFlag, f.isIn t.rep.flags =
      (f.isIn s.rep.flags && !(d.getLsbD f.bit && (f != .logNonempty || s.rep.log.isEmpty)))) ∧
  ∀ (s : State) (e : LogEntry),
    (s.rep.log.length < 4 → s.raise e =
      { s with rep := { s.rep with log := s.rep.log ++ [e], flags := s.rep.flags ||| StatusFlag.logNonempty.mask } }) ∧
    (4 ≤ s.rep.log.length → s.raise e =
      { s with rep := { s.rep with overflow := min (s.rep.overflow + 1) 255, flags := s.rep.flags ||| StatusFlag.logOverflow.mask } })

/-- The log's words: LOG_PEEK returns the oldest entry, LOG_READ returns it and removes it, each the empty entry from an empty
log; the overflow count returns its value and is set to 0, LOG_OVERFLOW staying. A read of the count after a refusal returns the
raised count and leaves 0; one before it returns the old count and leaves 1. The corrected-word count is read and set to 0 too. -/
def Obligations.LogIsReadOldestFirst : Prop :=
  ∀ s : State, s.port.request = none →
    (∀ (e : LogEntry) (rest : List LogEntry), s.rep.log = e :: rest →
      exec .logRead s = .next { s with rep := { s.rep with log := rest }, port := answered .done e.wordB } ∧
      exec (.windowWrite 42#16 .read) s = .next { s with port := answered .done e.wordA } ∧
      exec (.windowWrite 40#16 .read) s = .next { s with port := answered .done e.wordA } ∧
      exec (.windowWrite 41#16 .read) s = .next { s with port := answered .done e.wordB }) ∧
    (s.rep.log = [] →
      exec .logRead s = .next { s with port := answered .done 0 } ∧
      exec (.windowWrite 42#16 .read) s = .next { s with port := answered .done 0 } ∧
      exec (.windowWrite 40#16 .read) s = .next { s with port := answered .done 0 } ∧
      exec (.windowWrite 41#16 .read) s = .next { s with port := answered .done 0 }) ∧
    exec .correctedWordCountRead s = .next
      { s with health := { s.health with corrected := 0 }, port := answered .done (BitVec.ofNat 32 s.health.corrected) } ∧
    exec .overflowCountRead s = .next
      { s with rep := { s.rep with overflow := 0 }, port := answered .done (BitVec.ofNat 32 s.rep.overflow) } ∧
    ∀ e : LogEntry, s.rep.log.length = 4 →
      (∃ t, exec .overflowCountRead (s.raise e) = .next t ∧ t.rep.overflow = 0 ∧
        t.port = answered .done (BitVec.ofNat 32 (min (s.rep.overflow + 1) 255))) ∧
      ∃ t, exec .overflowCountRead s = .next t ∧ (t.raise e).rep.overflow = 1

/-- Writes of the window's other words: the configuration block in CONFIG alone; the enables in every state; COMMIT_HEAD and the
staging records except, while a chain is QUEUED or SENDING, for the records of the chain of the queue's GROUP entry; a read-only
or unassigned word, and an address of 256 or above, refused. -/
def Obligations.WindowWritesGoToTheirOwners : Prop :=
  ∀ (s : State) (d : Word), s.port.request = none →
    (∀ i : Fin 21, s.join.station = .config → exec (.windowWrite (BitVec.ofNat 16 i.val) (.write d)) s = .next
      { s with rep := { s.rep with config := s.rep.config.set i d }, port := answered .done 0 }) ∧
    (∀ i : Fin 21, s.join.station ≠ .config → exec (.windowWrite (BitVec.ofNat 16 i.val) (.write d)) s = .next
      { s with port := answered .refused 0 }) ∧
    exec (.windowWrite 35#16 (.write d)) s = .next
      { s with rep := { s.rep with enables := d.extractLsb' 0 11 }, port := answered .done 0 } ∧
    (s.commit.state.pending = false → exec (.windowWrite 36#16 (.write d)) s = .next
      { s with commit := { s.commit with head := ⟨d.toNat % 16, Nat.mod_lt _ (by decide)⟩ }, port := answered .done 0 }) ∧
    (s.commit.state.pending = true → exec (.windowWrite 36#16 (.write d)) s = .next { s with port := answered .refused 0 }) ∧
    (∀ (r : RecordIx) (w : Fin 5), ¬RecordProtected s r → ∃ t,
      exec (.windowWrite (BitVec.ofNat 16 (128 + 8 * r.val + w.val)) (.write d)) s = .next t ∧
        t = { s with commit := { s.commit with staging := t.commit.staging }, port := answered .done 0 } ∧
        (∀ q : RecordIx, q ≠ r → t.commit.staging[q] = s.commit.staging[q]) ∧
        (∀ i : WordIx, t.commit.staging[r].data[i] = if w.val = i.val + 1 then d else s.commit.staging[r].data[i]) ∧
        (w.val ≠ 0 → t.commit.staging[r] = { s.commit.staging[r] with data := t.commit.staging[r].data }) ∧
        (w.val = 0 → t.commit.staging[r].line.val = d.toNat % 2 ^ 14 ∧ t.commit.staging[r].mask = d.extractLsb' 16 4 ∧
          t.commit.staging[r].stop = d.getLsbD 20 ∧ t.commit.staging[r].link.val = d.toNat / 2 ^ 24 % 16)) ∧
    (∀ (r : RecordIx) (w : Fin 8), RecordProtected s r ∨ 5 ≤ w.val →
      exec (.windowWrite (BitVec.ofNat 16 (128 + 8 * r.val + w.val)) (.write d)) s = .next
          { s with port := answered .refused 0 }) ∧
    (∀ a : BitVec 16, (21 ≤ a.toNat ∧ a.toNat ≤ 31) ∨ a.toNat = 33 ∨ (37 ≤ a.toNat ∧ a.toNat ≤ 127) ∨ 256 ≤ a.toNat →
      exec (.windowWrite a (.write d)) s = .next { s with port := answered .refused 0 }) ∧
    ∀ a : BitVec 16, 256 ≤ a.toNat → exec (.windowWrite a .read) s = .next { s with port := answered .refused 0 }

/-- A plain read of the window is answered DONE with the word as it stands and changes nothing else: the station state and
its cause, the local states and this station's cursors among them. An unassigned word, and the command word, read as 0. -/
def Obligations.WindowReadsTheWord : Prop :=
  ∀ s : State, s.port.request = none →
    (∀ a : BitVec 16, a.toNat < 256 → plainWindowAccess a .read = true → exec (.windowWrite a .read) s = .next
      { s with port := answered .done (s.windowWord a.toNat) }) ∧
    (∀ i : Fin 21, s.windowWord i.val = s.rep.config[i]) ∧
    s.windowWord 32 = 0 ∧ s.windowWord 33 = s.rep.result.word ∧ s.windowWord 34 = s.rep.flags.zeroExtend 32 ∧
    s.windowWord 35 = s.rep.enables.zeroExtend 32 ∧ s.windowWord 36 = BitVec.ofNat 32 s.commit.head.val ∧
    s.windowWord 37 = s.commit.state.word ∧ s.windowWord 51 = BitVec.ofNat 32 s.out.length ∧
    s.windowWord 52 = BitVec.ofNat 32 (jobIxs.filter fun k => (s.catchup.jobs[k]).isSome).length ∧
    s.windowWord 53 = BitVec.ofNat 32 s.rep.stab ∧
    (s.windowWord 48).toNat = 16 * (match s.join.cause with
      | none => 0
      | some .expelled => 1 | some .selfFault => 2 | some .missed => 3 | some .joinFailed => 4 | some .left => 5) +
      (match s.join.station with
      | .config => 0 | .clocking => 1 | .filling => 2 | .listening => 3 | .joining => 4 | .rosterWait => 5 | .joined => 6
      | .leaving => 7 | .offline => 8) ∧
    (∀ g : Segment, (s.windowWord (56 + g.val)).toNat = 65536 * (match s.ownCursor g with
        | some c => c % 2048
        | none => 0) +
      (match s.localState g with
      | .off => 0 | .localOnly => 1 | .detached => 2 | .mismatch => 3 | .current => 4 | .catching => 5 | .orphaned => 6)) ∧
    (∀ (g : Segment) c, s.ownCursor g = some c ↔ ∃ v p, s.heldView = some v ∧ v.state s.me g = .catching c p) ∧
    (s.heldView = none → s.windowWord 49 = 0 ∧ s.windowWord 50 = 0) ∧
    (∀ v, s.heldView = some v → s.windowWord 49 = v.presentSet.zeroExtend 32 ∧ s.windowWord 50 = v.digest) ∧
    (∀ r : RecordIx, s.windowWord (128 + 8 * r.val) = s.commit.staging[r].word0 ∧
      (∀ i : WordIx, s.windowWord (129 + 8 * r.val + i.val) = s.commit.staging[r].data[i]) ∧
      s.windowWord (133 + 8 * r.val) = 0 ∧ s.windowWord (134 + 8 * r.val) = 0 ∧ s.windowWord (135 + 8 * r.val) = 0) ∧
    ∀ a : Nat, (21 ≤ a ∧ a ≤ 31) ∨ a = 38 ∨ a = 39 ∨ a = 46 ∨ a = 47 ∨ a = 54 ∨ a = 55 ∨ (64 ≤ a ∧ a ≤ 127) → s.windowWord a = 0

/-- The interrupt output is asserted while some flag is set with its enable, CHAIN_DONE counting only beside the done-notify
mark; the enables are clear and the output deasserted after a core reset; a write of the enable word takes effect at its taking
and a read returns it, in every station state. -/
def Obligations.InterruptOutputFollowsTheFlags : Prop :=
  (∀ s : State, s.interruptOutput = true ↔
    ∃ f : StatusFlag, f.isIn s.rep.flags = true ∧ f.isIn s.rep.enables = true ∧ (f = .chainDone → s.commit.doneNotify = true)) ∧
  (∀ (a p : WordMask) (s : State), ∃ t, exec (.coreReset a p) s = .next t ∧ t.rep.enables = 0 ∧ t.interruptOutput = false) ∧
  (∀ (s : State) (d : Word), s.port.request = none → exec (.windowWrite 35#16 (.write d)) s = .next
    { s with rep := { s.rep with enables := d.extractLsb' 0 11 }, port := answered .done 0 }) ∧
  ∀ s : State, s.port.request = none → exec (.windowWrite 35#16 .read) s = .next
    { s with port := answered .done (s.rep.enables.zeroExtend 32) }

/-! ### Start-up -/

/-- In CLOCKING, with the switch not begun, a crystal period raises the count by 1, and the bus clock begins its switch at 2^n;
STABILISATION_COUNT_DONE is the count at 2^n (log 17). Otherwise neither changes anything. -/
def Obligations.CrystalCountRunsToTheSwitch : Prop :=
  ∀ s : State,
    (s.stabilising = true →
      (s.rep.stab + 1 < 2 ^ s.rep.field 10 → exec .crystalPeriod s = .next
          { s with rep := { s.rep with stab := s.rep.stab + 1 } }) ∧
      (s.rep.stab + 1 = 2 ^ s.rep.field 10 → exec .crystalPeriod s = .next
        { s with rep := { s.rep with stab := 2 ^ s.rep.field 10, clock := .switching } }) ∧
      exec .stabilisationCountDone s = .next { s with rep := { s.rep with stab := 2 ^ s.rep.field 10, clock := .switching } }) ∧
    (s.stabilising = false → exec .crystalPeriod s = .next s ∧ exec .stabilisationCountDone s = .next s)

/-- BUS_CLOCK_SWITCH_DONE in CLOCKING sets BUS_READY, the bus unit SEEKS, and the station enters FILLING. A cold start clears the
spare table and puts every segment to fill; a warm start keeps the retention domain and puts the flagged segments to fill, and
with none flagged the marker is VALID and the station LISTENING at once. -/
def Obligations.SwitchEntersFilling : Prop :=
  ∀ s : State, s.join.station = .clocking → s.rep.clock = .switching →
    ∃ u t, exec .busClockSwitchDone s = .next t ∧ Settled u t ∧
      u.rep = { s.rep with clock := .crystal, flags := s.rep.flags ||| StatusFlag.busReady.mask } ∧
      u.bus = { s.bus with unit := .seeking } ∧
      u.pending = s.pending ∧ u.health = s.health ∧ u.out = s.out ∧ u.commit = s.commit ∧ u.group = s.group ∧ u.view = s.view ∧
      u.catchup = s.catchup ∧ u.repair = s.repair ∧ u.gives = s.gives ∧
      (s.store.marker = .invalid →
        u.store = { s.store with table := Vector.replicate 24 ⟨.free, none, 0⟩, tableLost := false } ∧
        u.join = { s.join with station := .filling } ∧ (∀ g : Segment, u.sp.fill[g] = .waiting) ∧ u.walker = s.walker) ∧
      (s.store.marker = .valid →
        (∀ g : Segment, u.sp.fill[g] = if s.fillFlag g then .waiting else .none) ∧
        ((∃ g : Segment, s.fillFlag g = true) →
          u.store = s.store ∧ u.join = { s.join with station := .filling } ∧ u.walker = s.walker) ∧
        ((∀ g : Segment, s.fillFlag g = false) →
          u.store = { s.store with marker := .valid } ∧ u.join = { s.join with station := .listening } ∧
          ((∃ g, s.scrub g = .active) → u.walker.state = .timing ∧ u.walker.cursor = 0 ∧ u.walker.interval = s.scrubFast ∧
            u.walker.firstPass = true) ∧
          ((∀ g, s.scrub g ≠ .active) → u.walker = s.walker)))

/-! ### The completions of the store port -/

/-- An APPLY write completes: its words are written and it leaves the list. A LOCAL write completes: its words are written and
the request is answered DONE. The port becomes IDLE, and grants again. -/
def Obligations.WriteCompletions : Prop :=
  ∀ (s : State) (w : LineWrite),
    (s.sp.running = some ⟨.apply, .write w⟩ → ∃ t, exec .applyCompletion s = .next t ∧
      Settled { s with store := s.store.write w, sp := { s.sp with running := none, applyList := s.sp.applyList.tail } } t) ∧
    (s.sp.running = some ⟨.localPort, .write w⟩ → ∃ t, exec .localWriteCompletion s = .next t ∧
      Settled { s with store := s.store.write w, sp := { s.sp with running := none }, port := answered .done 0 } t)

/-- What the completion of a line read by LOCAL, GIVE_READ, SERVE or SCRUB does to the words and the count. The count rises by the
CORRECTABLE words, up to 65535. With the scrub mode OFF nothing else changes. Otherwise each CORRECTABLE word becomes CLEAN with
its corrected data where it was read; with a FILLING spare in the spare line too, where it sets its mask bit, a full mask making
the entry ACTIVE; and every other word stays. -/
def Obligations.ReadCompletionsWriteBack : Prop :=
  ∀ (s t : State) (c : Claimant) (l : Line), t = s.completeRead c l →
    t = { s with store := t.store, health := t.health, rep := t.rep } ∧
    t.health.corrected =
      min (s.health.corrected + (wordIxs.filter fun i => (s.store.readLine l)[i].health == .correctable).length) 65535 ∧
    (s.scrub (segmentOf l) = .off → t = { s with health := { s.health with corrected := t.health.corrected } }) ∧
    (s.scrub (segmentOf l) ≠ .off →
      (Unredirected s.store l →
        (∀ i, (s.store.cell (arrayWord l i)).health = .correctable →
          t.store.cell (arrayWord l i) = ⟨(s.store.cell (arrayWord l i)).data, .clean⟩) ∧
        ∀ w, (∀ i, w = arrayWord l i → (s.store.cell w).health ≠ .correctable) → t.store.cell w = s.store.cell w) ∧
      ∀ k : SpareIx, Redirects s.store k l →
        (s.store.table[k].state = .active →
          (∀ i, (s.store.cell (.spare k i)).health = .correctable →
            t.store.cell (.spare k i) = ⟨(s.store.cell (.spare k i)).data, .clean⟩) ∧
          (∀ w, (∀ i, w = .spare k i → (s.store.cell w).health ≠ .correctable) → t.store.cell w = s.store.cell w) ∧
          t.store.table = s.store.table) ∧
        (s.store.table[k].state = .filling →
          (∀ i, (s.store.cell (arrayWord l i)).health = .correctable →
            t.store.cell (arrayWord l i) = ⟨(s.store.cell (arrayWord l i)).data, .clean⟩ ∧
            t.store.cell (.spare k i) = ⟨(s.store.cell (arrayWord l i)).data, .clean⟩) ∧
          (∀ w, (∀ i, w = arrayWord l i ∨ w = .spare k i → (s.store.cell (arrayWord l i)).health ≠ .correctable) →
            t.store.cell w = s.store.cell w) ∧
          (∀ i, t.store.table[k].mask.has i =
            (s.store.table[k].mask.has i || (s.store.cell (arrayWord l i)).health == .correctable)) ∧
          t.store.table[k].line = some l ∧
          (s.store.table[k].mask ≠ 15 → (t.store.table[k].state = if t.store.table[k].mask = 15 then .active else .filling)) ∧
          ∀ j : SpareIx, j ≠ k → t.store.table[j] = s.store.table[j]))

/-- What the line health unit does with the finding of a completed read where the scrub mode is not OFF. Of a line without a
spare: a correctable finding raises the line's count in the suspect list, or enters it as the youngest with count 1, in place of
the oldest entry of lowest count where twelve are held; at the threshold, or with an uncorrectable word, the line is promoted to
the lowest FREE entry with SPARED logged, or raises SPARE_EXHAUSTED once where none is FREE. Of a failing ACTIVE spare: its
retire-pending mark with SPARE_RETIRED logged, once. Of a line with a FILLING spare: nothing. -/
def Obligations.FindingsMoveTheSpareTable : Prop :=
  Claimant.origin .localPort = .localRead ∧ Claimant.origin .giveRead = .bus ∧ Claimant.origin .serve = .prefetch ∧
  Claimant.origin .scrub = .scrub ∧
  ∀ (s t : State) (c : Claimant) (l : Line) (bad good : Prop), t = s.completeRead c l → s.scrub (segmentOf l) ≠ .off →
    (bad ↔ ∃ i : WordIx, ((s.store.readLine l)[i]).health = .uncorrectable) →
    (good ↔ ∃ i : WordIx, ((s.store.readLine l)[i]).health = .correctable) →
    (Unredirected s.store l → ¬bad →
      (¬good → t.health.suspects = s.health.suspects ∧ t.store.table = s.store.table ∧ t.rep = s.rep) ∧
      (good →
        (∀ before n after, s.health.suspects = before ++ ⟨l, n⟩ :: after → (∀ e ∈ before ++ after, e.line ≠ l) →
          n + 1 < s.rep.field 20 →
          t.health.suspects = before ++ ⟨l, n + 1⟩ :: after ∧ t.store.table = s.store.table ∧ t.rep = s.rep) ∧
        ((∀ e ∈ s.health.suspects, e.line ≠ l) → t.store.table = s.store.table ∧ t.rep = s.rep ∧
          (s.health.suspects.length < 12 → t.health.suspects = s.health.suspects ++ [⟨l, 1⟩]) ∧
          ∀ before e after, s.health.suspects = before ++ e :: after → s.health.suspects.length = 12 →
            (∀ x ∈ before, e.count < x.count) → (∀ x ∈ after, e.count ≤ x.count) →
            t.health.suspects = before ++ after ++ [⟨l, 1⟩]))) ∧
    (s.store.tableLost = false → (∀ k : SpareIx, s.store.table[k].names l = false) →
      bad ∨ (good ∧ (∃ e ∈ s.health.suspects, e.line = l) ∧
        ∀ e ∈ s.health.suspects, e.line = l → s.rep.field 20 ≤ e.count + 1) →
      (∀ e ∈ t.health.suspects, e.line ≠ l) ∧
      (∀ k : SpareIx, s.store.table[k].state = .free → (∀ j < k, s.store.table[j].state ≠ .free) →
        t.store.table[k] = ⟨.filling, some l, 0⟩ ∧ (∀ j : SpareIx, j ≠ k → t.store.table[j] = s.store.table[j]) ∧
        t.health.copyDone[k] = false ∧ t.health.retire[k] = none ∧
        t.rep = s.rep.raise ⟨.spared, c.origin, some (segmentOf l), some l, none, k.val⟩) ∧
      ((∀ k : SpareIx, s.store.table[k].state ≠ .free) → t.store.table = s.store.table ∧
        (l ∉ s.health.exhausted → t.health.exhausted = s.health.exhausted ++ [l] ∧
          t.rep = s.rep.raise ⟨.spareExhausted, c.origin, some (segmentOf l), some l, none,
            (spareIxs.filter fun k => s.store.table[k].state == .retired).length⟩) ∧
        (l ∈ s.health.exhausted → t.health.exhausted = s.health.exhausted ∧ t.rep = s.rep))) ∧
    ∀ k : SpareIx, Redirects s.store k l →
      t.health.suspects = s.health.suspects ∧ t.health.exhausted = s.health.exhausted ∧
      (s.store.table[k].state = .active → bad → s.health.retire[k] = none →
        t.health.retire = s.health.retire.set k (some c.origin) ∧
        t.rep = s.rep.raise ⟨.spareRetired, c.origin, some (segmentOf l), some l, none, k.val⟩) ∧
      (s.store.table[k].state = .filling ∨ ¬bad ∨ s.health.retire[k] ≠ none →
        t.health.retire = s.health.retire ∧ t.rep = s.rep)

/-- A LOCAL read completes with its word CLEAN or CORRECTABLE, as delivered: DONE of a LOCAL segment, DETACHED of a DETACHED or
MISMATCH one, and a member's read by the state and cursor it then finds: DONE, STALE with 0, or DETACHED. -/
def Obligations.LocalReadIsAnswered : Prop :=
  ∀ (s : State) (r : Request) (st : Status) (v : Word),
    s.sp.running = some ⟨.localPort, .read (lineOfAddress r.address)⟩ → s.port.request = some r → r.stage = .storeWait →
    ((s.delivered (lineOfAddress r.address))[wordOfAddress r.address]).health ≠ .uncorrectable →
    (match r.rule, s.localState (segmentOf (lineOfAddress r.address)) with
      | some .localSegment, _ => st = .done ∧ v = ((s.delivered (lineOfAddress r.address))[wordOfAddress r.address]).data
      | some .detached, _ => st = .detached ∧ v = ((s.delivered (lineOfAddress r.address))[wordOfAddress r.address]).data
      | _, .current => st = .done ∧ v = ((s.delivered (lineOfAddress r.address))[wordOfAddress r.address]).data
      | _, .catching | _, .orphaned =>
          if s.belowCursor (lineOfAddress r.address) then
            st = .done ∧ v = ((s.delivered (lineOfAddress r.address))[wordOfAddress r.address]).data
          else st = .stale ∧ v = 0
      | _, .detached | _, .mismatch | _, .off | _, .localOnly =>
          st = .detached ∧ v = ((s.delivered (lineOfAddress r.address))[wordOfAddress r.address]).data) →
    ∃ u t, exec .localReadCompletion s = .next t ∧ Settled u t ∧ u.port = answered st v ∧
      u.store = (s.completeRead .localPort (lineOfAddress r.address)).store ∧
      u.health = (s.completeRead .localPort (lineOfAddress r.address)).health ∧
      u.rep = (s.completeRead .localPort (lineOfAddress r.address)).rep ∧
      u.pending = s.pending ∧ u.sp = { s.sp with running := none } ∧ u.walker = s.walker ∧ u.out = s.out ∧ u.commit = s.commit ∧
      u.group = s.group ∧ u.bus = s.bus ∧ u.view = s.view ∧ u.join = s.join ∧ u.catchup = s.catchup ∧ u.repair = s.repair ∧
      u.gives = s.gives

/-- A LOCAL read completes with its word UNCORRECTABLE: CORRUPT with the raw data where the word is not repairable, with
WORD_LOST logged after the entries of the finding, an order that is the model's choice (log 24). A member's read waits in
REPAIR_WAIT on a new entry of the repair list where the list has room and a repair responder exists, and in SLOT_WAIT where four
entries are ASKING for other lines. Whatever the list holds, a member's read does what the repair unit answers. -/
def Obligations.LocalReadOfALostWord : Prop :=
  ∀ (s : State) (r : Request), s.sp.running = some ⟨.localPort, .read (lineOfAddress r.address)⟩ → s.port.request = some r →
    r.stage = .storeWait → ((s.delivered (lineOfAddress r.address))[wordOfAddress r.address]).health = .uncorrectable →
    (s.repairable (lineOfAddress r.address) = false → s.localState (segmentOf (lineOfAddress r.address)) ≠ .catching →
      s.localState (segmentOf (lineOfAddress r.address)) ≠ .orphaned →
      ∃ u t, exec .localReadCompletion s = .next t ∧ Settled u t ∧
        u.port = answered .corrupt ((s.delivered (lineOfAddress r.address))[wordOfAddress r.address]).data ∧
        u.repair = s.repair ∧
        u.rep = (s.completeRead .localPort (lineOfAddress r.address)).rep.raise
          ⟨.wordLost, .localRead, some (segmentOf (lineOfAddress r.address)), some (lineOfAddress r.address), none,
            2 ^ (wordOfAddress r.address).val⟩) ∧
    (s.repairable (lineOfAddress r.address) = true → s.localState (segmentOf (lineOfAddress r.address)) = .current →
      (r.rule = some .member ∨ r.rule = none) → (∀ e ∈ s.repair, e.line ≠ lineOfAddress r.address) →
      (∃ v y, s.heldView = some v ∧ v.repairResponder s.me (segmentOf (lineOfAddress r.address)) = some y) →
      (s.repair.length < 4 → ∃ u t, exec .localReadCompletion s = .next t ∧ Settled u t ∧
        u.port.request = some { r with stage := .repairWait,
                                       raw := some ((s.delivered (lineOfAddress r.address))[wordOfAddress r.address]) } ∧
        u.repair = s.repair ++ [⟨segmentOf (lineOfAddress r.address), lineOfAddress r.address,
          WordMask.single (wordOfAddress r.address), .asking .toAsk 0 0 none, .localRead⟩]) ∧
      (s.repair.length = 4 → (∀ e ∈ s.repair, e.state ≠ .failed) →
        ∃ u t, exec .localReadCompletion s = .next t ∧ Settled u t ∧ u.repair = s.repair ∧
          u.port.request = some { r with stage := .slotWait,
                                         raw := some ((s.delivered (lineOfAddress r.address))[wordOfAddress r.address]) })) ∧
    (s.localState (segmentOf (lineOfAddress r.address)) = .current ∨
        ((s.localState (segmentOf (lineOfAddress r.address)) = .catching ∨
          s.localState (segmentOf (lineOfAddress r.address)) = .orphaned) ∧ s.belowCursor (lineOfAddress r.address) = true) →
      (r.rule = some .member ∨ r.rule = none) → s.walker.state ≠ .held → ∀ a s',
      (s.completeRead .localPort (lineOfAddress r.address)).handWord .localRead (lineOfAddress r.address)
        (wordOfAddress r.address) = (a, s') →
      ∃ u t, exec .localReadCompletion s = .next t ∧ Settled u t ∧ u.repair = s'.repair ∧ u.rep = s'.rep ∧
        match a with
        | .asking => u.port.request = some { r with stage := .repairWait,
                                                    raw := some ((s.delivered (lineOfAddress r.address))[wordOfAddress r.address]) }
        | .lost => u.port = answered .corrupt ((s.delivered (lineOfAddress r.address))[wordOfAddress r.address]).data
        | .held => u.port.request = some { r with stage := .slotWait,
                                                  raw := some ((s.delivered (lineOfAddress r.address))[wordOfAddress r.address]) })

/-- The repair unit's answer for a lost word. Of a line that is not repairable: LOST, with WORD_LOST logged. Of a line with an
entry: ASKING takes the word into its mask; FAILED with the word in its mask answers LOST, and FAILED without it asks anew. Of a
line without one: an ASKING entry, youngest, where a repair responder exists, otherwise a FAILED one with WORD_LOST logged; a full
list gives up its oldest FAILED entry for it, and where all four are ASKING the word is HELD and nothing changes. -/
def Obligations.LostWordsAreHanded : Prop :=
  ∀ (s : State) (o : Origin) (l : Line) (i : WordIx),
    (s.repairable l = true ↔ s.mode (segmentOf l) = .mirrored ∧ (s.ownState (segmentOf l) = .current ∨
      ∃ c p, s.ownState (segmentOf l) = .catching c p ∧ offsetOf l < c)) ∧
    (s.repairable l = false → s.handWord o l i = (.lost, s.raise ⟨.wordLost, o, some (segmentOf l), some l, none, 2 ^ i.val⟩)) ∧
    (s.repairable l = true →
      (∀ before e after, s.repair = before ++ e :: after → e.line = l → (∀ x ∈ before ++ after, x.line ≠ l) →
        (e.state ≠ .failed → s.handWord o l i = (.asking,
          { s with repair := before ++ { e with bad := e.bad ||| WordMask.single i } :: after })) ∧
        (e.state = .failed → e.bad.has i = true → s.handWord o l i = (.lost, s)) ∧
        (e.state = .failed → e.bad.has i = false → s.handWord o l i = (.asking,
          { s with repair := before ++
              { e with bad := e.bad ||| WordMask.single i, state := .asking .toAsk 0 0 none } :: after }))) ∧
      ((∀ x ∈ s.repair, x.line ≠ l) →
        (4 ≤ s.repair.length → (∀ x ∈ s.repair, x.state ≠ .failed) → s.handWord o l i = (.held, s)) ∧
        ∀ kept : List RepairEntry,
          ((s.repair.length < 4 ∧ kept = s.repair) ∨
            (4 ≤ s.repair.length ∧ ∃ before e after, s.repair = before ++ e :: after ∧ e.state = .failed ∧
              (∀ x ∈ before, x.state ≠ .failed) ∧ kept = before ++ after)) →
          (∀ v y, s.heldView = some v → v.repairResponder s.me (segmentOf l) = some y → s.handWord o l i = (.asking,
            { s with repair := kept ++ [⟨segmentOf l, l, WordMask.single i, .asking .toAsk 0 0 none, o⟩] })) ∧
          ((∀ v, s.heldView = some v → v.repairResponder s.me (segmentOf l) = none) → s.handWord o l i = (.lost,
            { s with
              repair := kept ++ [⟨segmentOf l, l, WordMask.single i, .failed, o⟩]
              rep := s.rep.raise ⟨.wordLost, o, some (segmentOf l), some l, none, 2 ^ i.val⟩ }))))

/-- A GIVE_READ read completes: its entry becomes READY with the words delivered, a word that reads UNCORRECTABLE marked void
with data 0. With none lost, the repair list stays as it is. -/
def Obligations.GiveReadFillsItsEntry : Prop :=
  ∀ (s : State) (l : Line) (before after : List GiveEntry) (e : GiveEntry), s.sp.running = some ⟨.giveRead, .read l⟩ →
    s.gives = before ++ e :: after → e.state = .reading → e.line = l →
    (∀ x ∈ before, x.state ≠ .reading) → (∀ x ∈ after, x.state ≠ .reading) →
    ∃ u t, exec .giveReadCompletion s = .next t ∧ Settled u t ∧
      (∃ void data, u.gives = before ++ { e with state := .ready, void := void, data := data } :: after ∧
        ∀ i : WordIx, (void.has i = true ↔ ((s.delivered l)[i]).health = .uncorrectable) ∧
          data[i] = if ((s.delivered l)[i]).health = .uncorrectable then 0 else ((s.delivered l)[i]).data) ∧
      u.store = (s.completeRead .giveRead l).store ∧ u.sp = { s.sp with running := none } ∧ u.pending = s.pending ∧
      u.commit = s.commit ∧ u.group = s.group ∧ u.bus = s.bus ∧ u.view = s.view ∧ u.join = s.join ∧
      ((∀ i : WordIx, ((s.delivered l)[i]).health ≠ .uncorrectable) →
        u.repair = s.repair ∧ u.rep = (s.completeRead .giveRead l).rep ∧ u.walker = s.walker ∧ u.port = s.port ∧ u.out = s.out ∧
        u.catchup = s.catchup)

/-- A fill copy completes: each word of the spare whose mask bit is clear and whose original reads CLEAN or CORRECTABLE is
written plain and its bit set, the entry becomes ACTIVE when its mask is full, the CORRECTABLE words are counted, and the
copy-done mark is set. -/
def Obligations.FillCopyCompletes : Prop :=
  ∀ (s : State) (k : SpareIx) (l : Line), s.sp.running = some ⟨.spareCopy, .fillCopy k l⟩ → s.store.tableLost = false →
    s.store.table[k].state = .filling →
    ∃ u t, exec .fillCopyCompletion s = .next t ∧ Settled u t ∧
      (∀ i : WordIx,
        (s.store.table[k].mask.has i = false → (s.store.cell (arrayWord l i)).health ≠ .uncorrectable →
          u.store.cell (.spare k i) = ⟨(s.store.cell (arrayWord l i)).data, .clean⟩ ∧ u.store.table[k].mask.has i = true) ∧
        (s.store.table[k].mask.has i = true ∨ (s.store.cell (arrayWord l i)).health = .uncorrectable →
          u.store.cell (.spare k i) = s.store.cell (.spare k i) ∧
          u.store.table[k].mask.has i = s.store.table[k].mask.has i)) ∧
      (∀ w, (∀ i, w ≠ .spare k i) → u.store.cell w = s.store.cell w) ∧
      (∀ j : SpareIx, j ≠ k → u.store.table[j] = s.store.table[j]) ∧ u.store.table[k].line = s.store.table[k].line ∧
      (u.store.table[k].state = .active ↔ u.store.table[k].mask = 15) ∧
      u.health = { s.health with
        corrected := min (s.health.corrected +
          (wordIxs.filter fun i => (s.store.cell (arrayWord l i)).health == .correctable).length) 65535
        copyDone := s.health.copyDone.set k true } ∧
      u = { s with store := u.store, health := u.health, sp := { s.sp with running := none } }

/-- A return copy completes: the array takes the spare's words, plain, or poisoned where the spare has lost them; the entry is
RETIRED and its mark cleared; and the line is promoted again to the lowest FREE entry, with SPARED logged, where one remains. -/
def Obligations.ReturnCopyCompletes : Prop :=
  ∀ (s : State) (k : SpareIx) (l : Line) (o : Origin), s.sp.running = some ⟨.spareCopy, .returnCopy k l⟩ →
    s.store.tableLost = false → s.store.table[k].state = .active → s.health.retire[k] = some o →
    ∃ u t, exec .returnCopyCompletion s = .next t ∧ Settled u t ∧
      (∀ i : WordIx, u.store.cell (arrayWord l i) = ⟨(s.store.cell (.spare k i)).data,
        if (s.store.cell (.spare k i)).health = .uncorrectable then .uncorrectable else .clean⟩) ∧
      (∀ w, (∀ i, w ≠ arrayWord l i) → u.store.cell w = s.store.cell w) ∧
      u.store.table[k] = { s.store.table[k] with state := .retired } ∧
      (∀ j : SpareIx, s.store.table[j].state = .free → (∀ i < j, s.store.table[i].state ≠ .free) →
        u.store.table[j] = ⟨.filling, some l, 0⟩ ∧ (∀ i : SpareIx, i ≠ j → i ≠ k → u.store.table[i] = s.store.table[i]) ∧
        u.rep = s.rep.raise ⟨.spared, o, some (segmentOf l), some l, none, j.val⟩) ∧
      ((∀ j : SpareIx, s.store.table[j].state ≠ .free) → (∀ j : SpareIx, j ≠ k → u.store.table[j] = s.store.table[j]) ∧
        l ∈ u.health.exhausted) ∧
      u.health.retire[k] = none ∧ (∀ e ∈ u.health.suspects, e.line ≠ l) ∧
      u = { s with store := u.store, health := u.health, rep := u.rep, sp := { s.sp with running := none } }

/-- A SERVE read completes with no word lost: the job's read is cleared and the line added after its last, to the copy buffer
while it holds fewer than 6 lines, otherwise to the read-ahead. -/
def Obligations.ServeReadAddsTheLine : Prop :=
  ∀ (s : State) (k : JobIx) (j : Job) (o : Nat), s.sp.running = some ⟨.serve, .read (lineAt j.segment o)⟩ →
    s.catchup.reader = some k → s.catchup.jobs[k] = some j → j.reading = some o →
    (∀ i : WordIx, ((s.delivered (lineAt j.segment o))[i]).health ≠ .uncorrectable) →
    ∃ u t, exec .serveReadCompletion s = .next t ∧ Settled u t ∧
      (∃ data : Vector Word 4, (∀ i : WordIx, data[i] = ((s.delivered (lineAt j.segment o))[i]).data) ∧
        u.catchup.jobs[k] = some (if j.buffer.length < 6 then { j with reading := none, buffer := j.buffer ++ [⟨o, data, 0⟩] }
          else { j with reading := none, ahead := j.ahead ++ [⟨o, data, 0⟩] })) ∧
      (∀ x : JobIx, x ≠ k → u.catchup.jobs[x] = s.catchup.jobs[x]) ∧
      u.catchup = { s.catchup with jobs := u.catchup.jobs } ∧
      u.store = (s.completeRead .serve (lineAt j.segment o)).store ∧ u.sp = { s.sp with running := none } ∧
      u.health = (s.completeRead .serve (lineAt j.segment o)).health ∧
      u.rep = (s.completeRead .serve (lineAt j.segment o)).rep ∧ u.walker = s.walker ∧
      u.pending = s.pending ∧ u.port = s.port ∧ u.out = s.out ∧ u.commit = s.commit ∧ u.group = s.group ∧ u.bus = s.bus ∧
      u.view = s.view ∧ u.join = s.join ∧ u.repair = s.repair ∧ u.gives = s.gives

/-- A walker step completes with no word lost: the cursor passes the line, the walker times the next step, and the interval
stays FAST in the first pass; after it, it is FAST for a finding that is not clean, and otherwise rises by STEP up to SLOW. -/
def Obligations.ScrubStepSetsThePace : Prop :=
  ∀ (s : State) (l : Line), s.sp.running = some ⟨.scrub, .read l⟩ → s.walker.state = .stepping → s.walker.chosen = some l →
    (∀ i : WordIx, ((s.store.readLine l)[i]).health ≠ .uncorrectable) →
    ∃ u t, exec .scrubStepCompletion s = .next t ∧ Settled u t ∧
      u.walker = { s.walker with
        state := .timing, cursor := l.val + 1, chosen := none, findings := none, toHand := 0
        interval :=
          if s.walker.firstPass = true ∨ ∃ i : WordIx, ((s.store.readLine l)[i]).health ≠ .clean then s.scrubFast
          else min s.scrubSlow (s.walker.interval + s.scrubStep) } ∧
      u.store = (s.completeRead .scrub l).store ∧ u.health = (s.completeRead .scrub l).health ∧
      u.rep = (s.completeRead .scrub l).rep ∧ u.sp = { s.sp with running := none } ∧ u.pending = s.pending ∧ u.port = s.port ∧
      u.out = s.out ∧ u.commit = s.commit ∧ u.group = s.group ∧ u.bus = s.bus ∧ u.view = s.view ∧ u.join = s.join ∧
      u.catchup = s.catchup ∧ u.repair = s.repair ∧ u.gives = s.gives

/-- A fill write completes: the zeros of the line are written, and the fill goes to the next line; at the last line of a segment
it has ENDED, a request held for it is judged again, and with no segment left to fill the marker is VALID and the station
LISTENS. -/
def Obligations.FillWriteAdvancesTheFill : Prop :=
  ∀ (s : State) (w : LineWrite) (g : Segment), w = ⟨lineAt g s.sp.fillNext, 15, Vector.replicate 4 0, 0⟩ →
    s.sp.running = some ⟨.fill, .write w⟩ → s.sp.fill[g] = .filling →
    (∀ h : Segment, h ≠ g → s.sp.fill[h] ≠ .filling) →
    (s.sp.fillNext + 1 < 2048 → ∃ t, exec .fillWriteCompletion s = .next t ∧
      Settled { s with store := s.store.write w, sp := { s.sp with running := none, fillNext := s.sp.fillNext + 1 } } t) ∧
    (s.sp.fillNext + 1 = 2048 → (∀ r, s.port.request = some r → r.stage ≠ .fillWait) →
      (∃ h : Segment, s.sp.fill[h] = .waiting) → ∃ t, exec .fillWriteCompletion s = .next t ∧
        Settled { s with
          store := s.store.write w
          sp := { s.sp with running := none, fill := s.sp.fill.set g .ended, fillNext := 0 } } t) ∧
    (s.sp.fillNext + 1 = 2048 → (∀ r, s.port.request = some r → r.stage ≠ .fillWait) → s.join.station = .filling →
      (∀ h : Segment, s.sp.fill[h] ≠ .waiting) → ∃ u t, exec .fillWriteCompletion s = .next t ∧ Settled u t ∧
        u = { s with
          store := { s.store.write w with marker := .valid }
          sp := { s.sp with running := none, fill := s.sp.fill.set g .ended, fillNext := 0 }
          join := { s.join with station := .listening }
          walker := u.walker }) ∧
    (s.sp.fillNext + 1 = 2048 → ∀ r, s.port.request = some r → r.stage = .fillWait → segmentOf (lineOfAddress r.address) = g →
      s.join.station = .filling → ∃ t, exec .fillWriteCompletion s = .next t ∧ RequestJudged s r t.port)

/-! ### Timer expiries -/

/-- The scrub interval expires: the walker chooses the first eligible line from its cursor on; if there is none, the first one
below the cursor, which ends a pass; and if no line is eligible, the timer starts again. Eligible are the lines of a segment
configured MIRRORED or LOCAL with scrub mode ACTIVE, but for those at or above this station's own cursor there. -/
def Obligations.ScrubExpiryChoosesALine : Prop :=
  (∀ (s : State) (l : Line), s.eligible l = true ↔
    s.scrub (segmentOf l) = .active ∧ ∀ c, s.ownCursor (segmentOf l) = some c → offsetOf l < c) ∧
  ∀ s : State, s.walker.state = .timing →
    (∀ l : Line, s.walker.cursor ≤ l.val → s.eligible l = true →
      (∀ k : Line, s.walker.cursor ≤ k.val → k < l → s.eligible k = false) →
      ∃ t, exec .scrubIntervalExpiry s = .next t ∧
        Settled { s with walker := { s.walker with state := .waiting, chosen := some l } } t) ∧
    (∀ l : Line, l.val < s.walker.cursor → s.eligible l = true → (∀ k : Line, s.walker.cursor ≤ k.val → s.eligible k = false) →
      (∀ k : Line, k < l → s.eligible k = false) →
      ∃ t, exec .scrubIntervalExpiry s = .next t ∧
        Settled { s with
          walker := { s.walker with state := .waiting, chosen := some l, firstPass := false }
          rep := { s.rep with flags := s.rep.flags ||| StatusFlag.scrubPass.mask } } t) ∧
    ((∀ k : Line, s.eligible k = false) → ∃ t, exec .scrubIntervalExpiry s = .next t ∧
      Settled { s with walker := { s.walker with chosen := none } } t)

/-- The quiet timer expires in JOINED: EMPTY becomes pending. The roster timer expires with attempts left: JOIN becomes pending
again; with the attempts spent, JOIN_FAILED is logged with the JOINs judged accepted, and the station is OFFLINE with that cause,
holding no view, queue, job, give or repair entry. A progress window expires: a STALL item naming the pair's server becomes
pending where the count is at or below the floor and none is pending, and a fresh window starts. -/
def Obligations.QuietRosterAndProgressExpiries : Prop :=
  (∀ s : State,
    (s.join.station = .joined → s.bus.quiet = .counting → exec .quietTimerExpiry s = .next
      { s with bus := { s.bus with quiet := .stopped, emptyPending := true } }) ∧
    (s.join.station = .rosterWait → s.join.rosterTimer = true → s.join.attempts < 3 → exec .rosterTimerExpiry s = .next
      { s with join := { s.join with joinPending := true, rosterTimer := false } }) ∧
    ∀ g : Segment, s.catchup.monitors[g].running = true → ∃ t, exec (.progressWindowExpiry g) s = .next t ∧
      t = { s with catchup := { s.catchup with monitors := t.catchup.monitors } } ∧
      (∀ h : Segment, h ≠ g → t.catchup.monitors[h] = s.catchup.monitors[h]) ∧
      t.catchup.monitors[g].running = true ∧ t.catchup.monitors[g].count = 0 ∧
      (∀ i, s.catchup.monitors[g].stall = some i → t.catchup.monitors[g].stall = some i) ∧
      (s.catchup.monitors[g].stall = none → s.rep.field 16 < s.catchup.monitors[g].count → t.catchup.monitors[g].stall = none) ∧
      (s.catchup.monitors[g].stall = none → s.catchup.monitors[g].count ≤ s.rep.field 16 → ∀ v p, s.heldView = some v →
        v.server s.me g = some p → t.catchup.monitors[g].stall = some ⟨p, 0⟩)) ∧
  ∀ s : State, s.join.station = .rosterWait → s.join.rosterTimer = true → 3 ≤ s.join.attempts → s.out = [] →
    s.commit.state.pending = false → s.walker.state ≠ .held →
    (∀ r, s.port.request = some r → r.stage ≠ .repairWait ∧ r.stage ≠ .slotWait ∧ r.stage ≠ .queueWait) →
    ∃ u t, exec .rosterTimerExpiry s = .next t ∧ Settled u t ∧
      u.join.station = .offline ∧ u.join.cause = some .joinFailed ∧ u.join.rosterTimer = false ∧ u.join.joinPending = false ∧
      u.view = none ∧ u.out = [] ∧ u.gives = [] ∧ u.repair = [] ∧ (∀ k : JobIx, u.catchup.jobs[k] = none) ∧
      u.catchup.ring = [] ∧ u.catchup.token = none ∧ u.bus.quiet = .stopped ∧ u.bus.claim = none ∧
      u.rep = ((s.rep.raise ⟨.joinFailed, .bus, none, none, some s.me, s.join.accepted⟩).setFlag .offline) ∧
      u.store = s.store ∧ u.health = s.health ∧ u.walker = s.walker ∧ u.port = s.port ∧ u.pending = s.pending ∧ u.sp = s.sp ∧
      u.commit = s.commit

/-- The repair timer of an entry expires: with fewer than three asks it is to be asked again; at three it is FAILED,
REPAIR_FAILED is logged with the asked-of station and the bad mask, and a read held on a word of its mask is answered CORRUPT. -/
def Obligations.RepairTimerExpiry : Prop :=
  ∀ (s : State) (before after : List RepairEntry) (e : RepairEntry) (asks rejections : Nat) (of : Option Station),
    s.repair = before ++ e :: after → (∀ x ∈ before, x.line ≠ e.line) → (∀ x ∈ after, x.line ≠ e.line) →
    e.state = .asking .timing asks rejections of →
    (asks < 3 → exec (.repairTimerExpiry e.line) s = .next
      { s with repair := before ++ { e with state := .asking .toAsk asks rejections of } :: after }) ∧
    (3 ≤ asks → s.walker.state ≠ .held → (∀ r, s.port.request = some r → r.stage ≠ .slotWait) →
      ∃ u t, exec (.repairTimerExpiry e.line) s = .next t ∧ Settled u t ∧
        u.repair = before ++ { e with state := .failed } :: after ∧
        u.rep = s.rep.raise ⟨.repairFailed, e.origin, some (segmentOf e.line), some e.line, of, e.bad.toNat⟩ ∧
        (∀ r, s.port.request = some r → r.stage = .repairWait → lineOfAddress r.address = e.line →
          e.bad.has (wordOfAddress r.address) = true → u.port = answered .corrupt r.rawData) ∧
        u.store = s.store ∧ u.health = s.health ∧ u.walker = s.walker ∧ u.sp = s.sp ∧ u.pending = s.pending ∧
        u.commit = s.commit ∧ u.group = s.group ∧ u.bus = s.bus ∧ u.view = s.view ∧ u.join = s.join ∧ u.gives = s.gives)

/-! ### The bus between frames -/

/-- The transmit selector: in JOINING and ROSTER_WAIT the JOIN, when pending; in JOINED and LEAVING the first item offered, in
the order of the classes and within them; in the other states nothing. With it, when each item is offered. -/
def Obligations.SelectorOffersInOrder : Prop :=
  ∀ s : State,
    (s.join.station = .joining ∨ s.join.station = .rosterWait → s.chosenItem = if s.join.joinPending then some .join else none) ∧
    (s.join.station ∈ [StationState.config, .clocking, .filling, .listening, .offline] → s.chosenItem = none) ∧
    (s.join.station = .joined ∨ s.join.station = .leaving → s.chosenItem =
      [s.rosterDue.map .roster, s.stallDue.map .stall, if s.leaveDue then some .leave else none,
       if s.giveDue then some .give else none, s.askDue.map .ask, if s.out.isEmpty then none else some .outbound,
       if s.copyReady then some .copy else none,
       if s.join.station = .joined ∧ s.bus.emptyPending = true then some .empty else none].findSome? id) ∧
    (∀ v, s.heldView = some v → ∀ x, s.rosterDue = some x ↔ s.Owes v x ∧ ∀ y < x, ¬s.Owes v y) ∧
    (∀ g : Segment, s.stallDue = some g ↔
      s.catchup.monitors[g].stall ≠ none ∧ ∀ h : Segment, h < g → s.catchup.monitors[h].stall = none) ∧
    (s.leaveDue = true ↔ s.join.station = .leaving ∧ s.out = [] ∧ s.commit.state.pending = false) ∧
    (s.giveDue = true ↔ ∃ e rest, s.gives = e :: rest ∧ e.state = .ready) ∧
    (∀ l, s.askDue = some l ↔ ∃ before e after, s.repair = before ++ e :: after ∧ (∀ x ∈ before, x.toAsk = false) ∧
      e.toAsk = true ∧ e.line = l) ∧
    (s.copyReady = true ↔ ∃ k j, s.catchup.token = some k ∧ s.catchup.jobs[k] = some j ∧ j.ready (s.jobCursor j) = true)

/-- The release of held requests. START_WAIT at the entry to FILLING: held again where the segment is to be filled, otherwise
judged. QUEUE_WAIT at this station's accepted UPDATE: the write enters the queue. REPAIR_WAIT at an accepted UPDATE that covers
the bad words of its line: the entry is gone and the read judged. SLOT_WAIT where the third ask of an entry has passed unanswered:
judged. -/
def Obligations.HeldRequestsAreReleased : Prop :=
  ∀ (s : State) (r : Request), s.port.request = some r →
    (s.join.station = .clocking → s.rep.clock = .switching → r.stage = .startWait →
      ∃ t, exec .busClockSwitchDone s = .next t ∧
        (s.store.marker = .invalid ∨ s.fillFlag (segmentOf (lineOfAddress r.address)) = true →
          t.port.request = some { r with stage := .fillWait }) ∧
        (s.store.marker = .valid → s.fillFlag (segmentOf (lineOfAddress r.address)) = false → RequestJudged s r t.port)) ∧
    (s.sp.fill[segmentOf (lineOfAddress r.address)] ≠ .waiting → s.sp.fill[segmentOf (lineOfAddress r.address)] ≠ .filling →
      (∀ v i c slots g l m d mark st n rest data, OwnFrame s v i c slots → i.frame.kind? = some .update → i.item = .outbound →
        s.out = ⟨.update g l m d mark, st, n⟩ :: rest → rest.length < 32 → (∀ e ∈ rest, e.attempts < frameRetryLimit) →
        s.join.station = .joined → r.stage = .queueWait → r.direction = .write data →
        (s.localState (segmentOf (lineOfAddress r.address)) = .current ∨
          s.localState (segmentOf (lineOfAddress r.address)) = .catching) →
        NeedsNewEntry { s with out := rest } (lineOfAddress r.address) →
        ∃ u t, (∀ k h, exec (FrameKind.row k h slots) s = .next t) ∧ Settled u t ∧ u.port = answered .done 0 ∧
          u.out = rest ++ [⟨.update (segmentOf (lineOfAddress r.address)) (lineOfAddress r.address)
            (WordMask.single (wordOfAddress r.address)) ((Vector.replicate 4 0).set (wordOfAddress r.address) data) true,
            .waiting, 0⟩]) ∧
      (∀ v h f owner c slots e, readFrame h = some f → f.kind? = some .update → GoodFrame s v f owner c slots →
        f.header.gpos = gposNone → v.isMember s.me f.segment = true → s.repair = [e] → e.line = f.line →
        e.bad &&& ~~~f.updateMask = 0 → r.stage = .repairWait → lineOfAddress r.address = e.line → s.walker.state ≠ .held →
        (∀ x ∈ s.out, x.attempts < frameRetryLimit) →
        ∃ t, exec (.update h slots) s = .next t ∧ t.repair = [] ∧ RequestJudged s r t.port) ∧
      ∀ before after e asks rejections of, s.repair = before ++ e :: after → (∀ x ∈ before ++ after, x.line ≠ e.line) →
        e.state = .asking .timing asks rejections of → 3 ≤ asks → s.walker.state ≠ .held → r.stage = .slotWait →
        s.started = true → ∃ t, exec (.repairTimerExpiry e.line) s = .next t ∧ RequestJudged s r t.port)

/-- CLAIM_WINDOW_OPENING: the window opens, the items are judged, and the claim is the selector's choice. A station without a view
has nothing to judge; one that holds a view drops the STALL items whose server has changed, the READY heads of the give queue
whose asker or responder has gone, and a waiting group with an unwritable record, and moves the token to a READY job. -/
def Obligations.OpeningChoosesTheClaim : Prop :=
  ∀ s : State, s.bus.unit = .following → s.NoQueueWait →
    ((s.bus.phase = some .claiming ∧ s.bus.window = .due) ∨ (s.bus.phase = some .continuing ∧ s.bus.next = none) ∨
      (s.bus.phase = some .breaking ∧ s.bus.next = none ∧ s.bus.breakIn = false)) →
    ∃ u t, exec .claimWindowOpening s = .next t ∧ Settled u t ∧
      u.bus = { s.bus with
        phase := some .claiming, window := .quiet, positions := 0, owner := none, cls := none, run := .none, next := none
        copyRun := none, breakIn := false, claim := u.chosenItem } ∧
      (s.heldView = none → u = { s with bus := u.bus }) ∧
      (∀ v, s.heldView = some v →
        u = { s with
          bus := u.bus, out := u.out, commit := { s.commit with state := u.commit.state }, gives := u.gives, catchup := u.catchup,
          rep := { s.rep with flags := u.rep.flags } } ∧
        (∀ g : Segment, u.catchup.monitors[g] = { s.catchup.monitors[g] with
          stall := s.catchup.monitors[g].stall.filter fun i => v.server s.me g == some i.server }) ∧
        (∃ dropped, s.gives = dropped ++ u.gives ∧
          ∀ e ∈ dropped, e.state = .ready ∧ (v.present e.asker = false ∨ v.repairResponder e.asker e.segment ≠ some s.me)) ∧
        (∀ e rest, u.gives = e :: rest → e.state = .ready →
          v.present e.asker = true ∧ v.repairResponder e.asker e.segment = some s.me) ∧
        (∀ hd n a rest, s.out = ⟨.group hd n, .waiting, a⟩ :: rest → ∀ before r after,
          chainFrom s.commit.staging n hd = before ++ r :: after →
          (∀ q ∈ before, s.writable (segmentOf s.commit.staging[q].line) = true) →
          s.writable (segmentOf s.commit.staging[r].line) = false →
          u.out = rest ∧ u.commit.state = .failed .chainAborted r ∧ u.rep.flags = s.rep.flags ||| StatusFlag.chainFailed.mask) ∧
        ((∀ hd n a rest, s.out = ⟨.group hd n, .waiting, a⟩ :: rest →
            ∀ r ∈ chainFrom s.commit.staging n hd, s.writable (segmentOf s.commit.staging[r].line) = true) →
          u.out = s.out ∧ u.commit = s.commit ∧ u.rep = s.rep) ∧
        u.catchup.jobs = s.catchup.jobs ∧ u.catchup.ring = s.catchup.ring ∧
        u.catchup.token = s.catchup.token.map fun k => ((s.catchup.ringFrom k).find? s.jobReady).getD k)

/-- CLAIM_RESOLVED at position p of a window whose mark has been taken: a frame begins whose class is p div 16 and whose owner
stands at rotation distance p mod 16 from the last winner, and the count stands at p. A station that claimed at that position
composes its item; one that claimed later has lost; and one that claimed earlier resolved the window itself, so that the event cannot come (log 6). With it,
what each item composes; that a job no longer READY still sends its COPY is the model's choice (log 53). -/
def Obligations.ClaimResolvedBeginsTheFrame : Prop :=
  ∀ (s : State) (p : Fin 64) (owner : Station) (c : Fin 4), s.bus.unit = .following → s.bus.phase = some .claiming →
    s.bus.window = .counting →
    owner.val = (s.lastWinner.val + 1 + p.val % 16) % 16 → c.val = p.val / 16 →
    (∀ (b : BusUnit) own run, (b.countTo p.val).beginFrame owner c run own = { b with
      positions := p.val
      phase := some .inFrame, window := .due, owner := some owner, cls := some c, run := run, claim := none, inFlight := own
      next := none, breakIn := false, slot := none, quiet := if b.quiet = .counting then .held else b.quiet }) ∧
    ((∀ i, s.bus.claim = some i → p.val < 16 * i.cls.val + (s.me.val + 31 - s.lastWinner.val) % 16) →
      exec (.claimResolved p) s = .next
        { s with bus := (s.bus.countTo p.val).beginFrame owner c (if c = 2 then .copy owner else .none) none }) ∧
    (∀ i, s.bus.claim = some i → 16 * i.cls.val + (s.me.val + 31 - s.lastWinner.val) % 16 < p.val →
      exec (.claimResolved p) s = .next s) ∧
    (∀ i, s.bus.claim = some i → 16 * i.cls.val + (s.me.val + 31 - s.lastWinner.val) % 16 = p.val →
      ∀ f u, s.compose i = some (f, u) → exec (.claimResolved p) s = .next
        { u with bus := (u.bus.countTo p.val).beginFrame owner c (if c = 2 then .copy owner else .none) (some ⟨i, f⟩) }) ∧
    s.compose .join = some (composeJoin s.me s.declarations, s) ∧ s.compose .leave = some (composeLeave s.me, s) ∧
    s.compose .empty = some (composeEmpty s.me, s) ∧
    (∀ x v, s.heldView = some v → s.compose (.roster x) = some (composeRoster s.me x v, s)) ∧
    (∀ (g : Segment) i, s.catchup.monitors[g].stall = some i → s.compose (.stall g) = some (composeStall s.me g i.server, s)) ∧
    (∀ e rest, s.gives = e :: rest → s.compose .give = some (composeGive s.me e,
      { s with gives := { e with state := .inFlight } :: rest })) ∧
    (∀ before e after asks rejections of, s.repair = before ++ e :: after → (∀ x ∈ before, x.line ≠ e.line) →
      (∀ x ∈ after, x.line ≠ e.line) → e.state = .asking .toAsk asks rejections of →
      s.compose (.ask e.line) = some (composeAsk s.me e,
        { s with repair := before ++ { e with state := .asking .inFlight asks rejections of } :: after })) ∧
    (∀ g l m d mark st n rest, s.out = ⟨.update g l m d mark, st, n⟩ :: rest →
      s.compose .outbound = some (composeUpdate s.me l m d gposNone 0,
        { s with out := ⟨.update g l m d false, .sending, n⟩ :: rest })) ∧
    (∀ (head : RecordIx) count st n rest, s.out = ⟨.group head count, st, n⟩ :: rest → 1 ≤ count →
      s.compose .outbound = some (
        composeUpdate s.me s.commit.staging[head].line s.commit.staging[head].mask s.commit.staging[head].data
          (if count = 1 then gposSingle else gposFirst) count,
        { s with
          out := ⟨.group head count, .sending, n⟩ :: rest
          commit := { s.commit with state := .sending, sendPos := 0 } })) ∧
    ∀ k j, s.catchup.token = some k → s.catchup.jobs[k] = some j → s.compose .copy = some (
      composeCopy s.me j.station j.segment (s.jobCursor j) j.buffer (if s.runMin ≤ 1 then gposOpen else gposShut),
      { s with bus := { s.bus with copyRun := some ⟨k, 1, none⟩ } })

/-- A SEEKING unit becomes FOLLOWING at the end of the first empty window it counts, its 65th position, and at a driven position
after a recessive run of at least 11, which is a window's mark. A FOLLOWING unit in a quiet stretch takes the first driven position
after at least 11 recessive ones as the mark, and counts from it; once it has the mark, it takes a driven position as a claim, at
the place the run has reached. A window whose mark has been taken is empty at its 64th position, one whose mark was not driven at
the 65th after its quiet stretch; the count stands there, the next window is due, and a LISTENING station's JOIN is pending.
Otherwise neither changes anything. -/
def Obligations.MarksBringTheUnitInStep : Prop :=
  ∀ (s : State) (n : Nat),
    (s.bus.unit = .seeking →
      exec .emptyWindowEnd s = .next
        { s with bus := { s.bus with unit := .following, phase := some .claiming, window := .due, positions := 65 } } ∧
      (11 ≤ n → exec (.windowMark n) s = .next
        { s with bus := { s.bus with unit := .following, phase := some .claiming, window := .counting, positions := 0 } }) ∧
      (n < 11 → exec (.windowMark n) s = .next s)) ∧
    (s.bus.unit = .following → s.bus.phase = some .claiming →
      (s.bus.window = .quiet → 11 ≤ n →
        exec (.windowMark n) s = .next { s with bus := { s.bus with window := .counting, positions := 0 } }) ∧
      (s.bus.window = .quiet → n < 11 → exec (.windowMark n) s = .next s) ∧
      (s.bus.window = .counting → ∀ h : n < 64, exec (.windowMark n) s = exec (.claimResolved ⟨n, h⟩) s) ∧
      (s.bus.window = .counting → 64 ≤ n → exec (.windowMark n) s = .next s) ∧
      (s.bus.window = .due → exec (.windowMark n) s = .next s ∧ exec .emptyWindowEnd s = .next s) ∧
      (∀ m, s.bus.claim = none → (s.bus.window = .quiet ∧ m = 65) ∨ (s.bus.window = .counting ∧ m = 64) →
        (s.join.station ≠ .listening → exec .emptyWindowEnd s = .next
          { s with bus := { s.bus with window := .due, positions := m } }) ∧
        (s.join.station = .listening → exec .emptyWindowEnd s = .next
          { s with
            bus := { s.bus with window := .due, positions := m }
            join := { s.join with station := .joining, attempts := 0, accepted := 0, joinPending := true } })) ∧
      (s.bus.claim ≠ none → exec .emptyWindowEnd s = .next s)) ∧
    (s.bus.unit = .off ∨ (s.bus.unit = .following ∧ s.bus.phase ≠ some .claiming) →
      exec (.windowMark n) s = .next s ∧ exec .emptyWindowEnd s = .next s)

/-- A driven continuation position begins the next frame of the same owner and class: a class-1 run is a GROUP run, this station's
own frame is the one composed, and its run frame count rises by 1. A driven break field ends the run, and a claim window
follows; a run of this station whose next frame was composed has then ended BROKEN. -/
def Obligations.ContinuationsAndBreakFields : Prop :=
  ∀ s : State, s.bus.unit = .following →
    (∀ owner c, s.bus.owner = some owner → s.bus.cls = some c →
      (s.bus.phase = some .continuing ∨ (s.bus.phase = some .breaking ∧ s.bus.breakIn = false)) →
      exec .continuation s = .next
        { s with bus := { s.bus with
            phase := some .inFrame, window := .due, run := if c = 1 then .group owner else s.bus.run, claim := none
            inFlight := s.bus.next.map fun f => ⟨if c = 1 then .outbound else .copy, f⟩
            next := none, breakIn := false, slot := none
            quiet := if s.bus.quiet = .counting then .held else s.bus.quiet
            copyRun := s.bus.copyRun.map fun r => { r with count := r.count + 1 } } }) ∧
    (s.bus.phase = some .breaking →
      (s.bus.copyRun = none → exec .breakField s = .next
        { s with bus := { s.bus with
            phase := some .claiming, window := .due, owner := none, cls := none, run := .none, next := none,
            breakIn := false } }) ∧
      ∀ r j, s.bus.copyRun = some r → s.catchup.jobs[r.job] = some j → exec .breakField s = .next
        { s with
          bus := { s.bus with
            phase := some .claiming, window := .due, owner := none, cls := none, run := .none, next := none, copyRun := none
            breakIn := false }
          catchup := { s.catchup with
            jobs := s.catchup.jobs.set r.job (some { j with e := max (s.rep.field 11) (j.e - 2) }) } })

/-- The effective run length after a run's ending: BROKEN takes the larger of RUN_MIN and E − 2, FULL the smaller of RUN_MAX and
E + 1, DRY leaves it, and COMPLETED and DROPPED change nothing. The token moves to
the next job of the ring after FULL and DRY, and stays otherwise. E stays within RUN_MIN and RUN_MAX. The break mark is OPEN from
RUN_MIN frames on. A run ends FULL when its count reaches E; short of E it ends DRY on an empty buffer; otherwise it ends BROKEN
where it has RUN_MIN frames and the server has an item of class 0 or 1 pending, and goes on where it has not. The items are
counted as the blocks hold them: one that a window opening would drop, as a STALL whose server has changed or a READY give head
whose asker has gone, is pending until that opening (log 23). A station that has such an item, in JOINED or LEAVING, breaks in
after another station's COPY whose mark is OPEN. -/
def Obligations.RunLengthFollowsTheEnding : Prop :=
  (∀ (s : State) (k : JobIx) (j : Job), s.catchup.jobs[k] = some j →
    (s.endRun k .broken).catchup.jobs[k] = some { j with e := max (s.rep.field 11) (j.e - 2) } ∧
    (s.endRun k .full).catchup.jobs[k] = some { j with e := min (s.rep.field 12) (j.e + 1) } ∧
    (s.endRun k .dry).catchup.jobs[k] = some j ∧ s.endRun k .completed = s ∧ s.endRun k .dropped = s ∧
    (∀ before after, s.catchup.ring = before ++ k :: after → k ∉ before → ∀ e,
      (s.endRun k e).catchup.ring = s.catchup.ring ∧
      (e = .full ∨ e = .dry → (s.endRun k e).catchup.token = (after ++ before ++ [k]).head?) ∧
      (e ≠ .full → e ≠ .dry → (s.endRun k e).catchup.token = s.catchup.token)) ∧
    (∀ e j', s.rep.field 11 ≤ j.e → j.e ≤ s.rep.field 12 → (s.endRun k e).catchup.jobs[k] = some j' →
      s.rep.field 11 ≤ j'.e ∧ j'.e ≤ s.rep.field 12) ∧
    (∀ n, (s.copyFrame j n).header.gpos = if s.rep.field 11 ≤ n then gposOpen else gposShut) ∧
    ∀ run : CopyRun, run.job = k → (∀ e, run.gone = some e → s.runEnding run = some e) ∧
      (run.gone = none →
        (j.e ≤ run.count → s.runEnding run = some .full) ∧
        (run.count < j.e → j.buffer = [] → s.runEnding run = some .dry) ∧
        (run.count < j.e → j.buffer ≠ [] → s.runEnding run =
          if s.rep.field 11 ≤ run.count ∧ s.urgentPending = true then some .broken else none))) ∧
  (∀ s : State, s.urgentPending = true ↔ (s.join.station = .joined ∨ s.join.station = .leaving) ∧
    ((∃ x, s.rosterDue = some x) ∨ (∃ (g : Segment) (i : StallItem), s.catchup.monitors[g].stall = some i) ∨
      (s.join.station = .leaving ∧ s.out = [] ∧ s.commit.state.pending = false) ∨
      (∃ e rest, s.gives = e :: rest ∧ e.state = .ready) ∨
      (∃ e ∈ s.repair, ∃ asks rejections of, e.state = .asking .toAsk asks rejections of) ∨ s.out ≠ [])) ∧
  ∀ (s : State) (e : Ended) (accepted : Bool), e.own = none → (s.afterFrame e accepted).bus.breakIn =
    (s.urgentPending && match e.frame with
      | some f => e.cls == 2 && f.kind? == some .copy && f.header.gpos == gposOpen
      | none => false)

/-! ### Frame ends -/

/-- The end of another station's frame that passes every check here and that every present station acknowledges: last_winner
takes its owner, every count is 0, and the frame's own effects are taken on the view, the pending APPLY list and the give queue,
as its kind says; a JOIN is judged in each segment it declares, and a STALL that leaves the pair no server clears its passed-over
set; this station has driven its ACK, the quiet timer starts again, and a continuation position, a break field or a
claim window follows. The rows are those of `FrameKind.row`. The void mask and the words of a new give entry are 0 by the model's
choice (log 43). -/
def Obligations.PeerFrameIsTaken : Prop :=
  ∀ (s : State) (v : View) (h : Heard) (f : Frame) (k : FrameKind) (owner : Station) (c : Fin 4) (slots : Slots),
    readFrame h = some f → f.kind? = some k → GoodFrame s v f owner c slots →
    ∃ u t w, exec (k.row h slots) s = .next t ∧ Settled u t ∧ u.view = some w ∧ w.lastWinner = owner ∧
      (∀ x m, w.member x = some m → m.miss = 0 ∧ m.reject = 0) ∧ (∀ x, x ≠ owner → w.present x = v.present x) ∧
      w.present owner = (match k with | .leave => false | .join => true | _ => v.present owner) ∧
      (k = .join → w.awaiting owner = true ∧ (∀ g, w.declared owner g = f.declarations.lookup g) ∧
        StatusFlag.peerChange.isIn u.rep.flags = true) ∧
      (k = .roster → ∀ rc, f.rosterContent = some rc → v.present rc.joiner = true → w.settled rc.joiner = true) ∧
      (k = .copy → ∀ cursor passed, v.state f.copyStation f.segment = .catching cursor passed →
        w.state f.copyStation f.segment =
          if f.copyLast then .current else .catching (f.header.offset.toNat + f.header.count.toNat) passed) ∧
      (k = .stall → ∀ cursor passed, v.state owner f.segment = .catching cursor passed →
        ((∃ y, y ≠ owner ∧ v.isCurrent y f.segment = true ∧ (passed ||| StationSet.single f.stallServer).has y = false) →
          w.state owner f.segment = .catching cursor (passed ||| StationSet.single f.stallServer)) ∧
        ((∀ y, y ≠ owner → v.isCurrent y f.segment = true → (passed ||| StationSet.single f.stallServer).has y = true) →
          w.state owner f.segment = .catching cursor 0)) ∧
      (k = .join → ∀ g,
        (f.declarations.lookup g = none → w.state owner g = .none) ∧
        (∀ m, f.declarations.lookup g = some m →
          (Clashes v owner g m → w.state owner g = .mismatch) ∧
          (¬Clashes v owner g m → (∃ y, y ≠ owner ∧ v.isCurrent y g = true) → w.state owner g = .catching 0 0) ∧
          (¬Clashes v owner g m → (∀ y, y ≠ owner → v.isCurrent y g = false) → w.state owner g = .current ∧
            ∀ y cursor passed, y ≠ owner → v.state y g = .catching cursor passed → w.state y g = .catching 0 0)) ∧
        ∀ y, y ≠ owner → ((∀ cursor passed, v.state y g ≠ .catching cursor passed) → w.state y g = v.state y g) ∧
          (v.present owner = false → (f.declarations.lookup g = none ∨ ∃ x, x ≠ owner ∧ v.isCurrent x g = true) →
            w.state y g = v.state y g)) ∧
      (k ∈ [FrameKind.update, .ask, .give, .empty] → ∀ x, w.settled x = v.settled x ∧
        ∀ g, w.state x g = v.state x g ∧ w.declared x g = v.declared x g) ∧
      (k = .update → f.header.gpos = gposNone →
        u.sp.applyList = s.sp.applyList ++ (if v.isMember s.me f.segment then [f.updateWrite] else [])) ∧
      (k = .give → f.giveAsker = s.me → v.isMember s.me f.segment = true → (∃ e ∈ s.repair, e.line = f.line) →
        f.giveVoid ≠ 15 →
        u.sp.applyList = s.sp.applyList ++ [f.giveWrite]) ∧
      (k = .give → f.giveAsker = s.me → v.isMember s.me f.segment = true → s.walker.state ≠ .held →
        ∀ e, s.repair = [e] → e.line = f.line →
        e.bad &&& f.giveVoid = 0 → u.repair = []) ∧
      (k = .copy → f.copyStation = s.me → u.sp.applyList = s.sp.applyList ++ f.copyWrites) ∧
      (k ∈ [FrameKind.join, .roster, .stall, .leave, .ask, .empty] ∨
        (k = .give ∧ (f.giveAsker ≠ s.me ∨ v.isMember s.me f.segment = false)) ∨
        (k = .copy ∧ f.copyStation ≠ s.me) → u.sp.applyList = s.sp.applyList) ∧
      (k = .ask → v.repairResponder owner f.segment = some s.me → s.gives.length < 4 →
        (∀ e ∈ s.gives, e.asker ≠ owner ∨ e.line ≠ f.line) →
        u.gives = s.gives ++ [⟨owner, f.segment, f.line, .toRead, 0, Vector.replicate 4 0, 0⟩]) ∧
      (k ≠ .update → u.group = none) ∧
      u.bus.slot = some .ack ∧ u.bus.inFlight = none ∧ u.bus.emptyPending = false ∧
      u.bus.quiet = (if s.join.station = .joined then .counting else .stopped) ∧
      u.bus.phase = some (if c = 1 then .continuing else if c = 2 then .breaking else .claiming) ∧
      u.sp = { s.sp with applyList := u.sp.applyList } ∧ u.store = s.store ∧ u.health = s.health ∧ u.pending = s.pending ∧
      u.join.station = s.join.station ∧ u.rep.config = s.rep.config

/-- A group is collected whole: FIRST opens the buffer, MIDDLE adds its record, LAST of the right count applies every record in
order, SINGLE applies its own, and a frame that does not continue the group, or that is no group frame, discards it. -/
def Obligations.GroupsAreCollectedWhole : Prop :=
  ∀ (s : State) (v : View) (f : Frame) (record : List LineWrite),
    record = (if v.isMember s.me f.segment then [f.updateWrite] else []) →
    (f.header.gpos = gposNone →
      (s.takeUpdate v f).group = none ∧ (s.takeUpdate v f).sp.applyList = s.sp.applyList ++ record) ∧
    (f.header.gpos = gposFirst →
      (s.takeUpdate v f).group = some ⟨f.sender, f.groupLength, 1, record⟩ ∧
      (s.takeUpdate v f).sp.applyList = s.sp.applyList) ∧
    (f.header.gpos = gposSingle →
      (s.takeUpdate v f).group = none ∧ (s.takeUpdate v f).sp.applyList = s.sp.applyList ++ record) ∧
    (∀ b, s.group = some b → b.sender = f.sender → b.length = f.groupLength →
      (f.header.gpos = gposMiddle → b.taken + 1 < b.length →
        (s.takeUpdate v f).group = some { b with taken := b.taken + 1, lines := b.lines ++ record } ∧
        (s.takeUpdate v f).sp.applyList = s.sp.applyList) ∧
      (f.header.gpos = gposLast → b.taken + 1 = b.length →
        (s.takeUpdate v f).group = none ∧ (s.takeUpdate v f).sp.applyList = s.sp.applyList ++ (b.lines ++ record)) ∧
      ((f.header.gpos = gposMiddle ∧ b.length ≤ b.taken + 1) ∨ (f.header.gpos = gposLast ∧ b.taken + 1 ≠ b.length) →
        (s.takeUpdate v f).group = none ∧ (s.takeUpdate v f).sp.applyList = s.sp.applyList)) ∧
    ((f.header.gpos = gposMiddle ∨ f.header.gpos = gposLast) →
      (∀ b, s.group = some b → b.sender ≠ f.sender ∨ b.length ≠ f.groupLength) →
      (s.takeUpdate v f).group = none ∧ (s.takeUpdate v f).sp.applyList = s.sp.applyList)

/-- The writes that a frame end enters on the pending APPLY list reach the other blocks in list order: the lines that jobs hold
and the READY give entries take their words and lose the void bits; and the words written plain leave the bad mask of their line's
repair entry, which goes when its mask is empty. The writes are those of an accepted UPDATE of a segment in which this station is
a member, and of a COPY to this station. -/
def Obligations.AcceptedWritesReachTheBlocks : Prop :=
  (∀ (s u : State) (w : LineWrite), u = s.enterWrites [w] →
    u = { s with
      sp := { s.sp with applyList := s.sp.applyList ++ [w] }, catchup := { s.catchup with jobs := u.catchup.jobs }
      gives := u.gives, repair := u.repair } ∧
    (∀ k : JobIx, s.catchup.jobs[k] = none → u.catchup.jobs[k] = none) ∧
    (∀ (k : JobIx) j, s.catchup.jobs[k] = some j → ∃ buffer ahead,
      u.catchup.jobs[k] = some { j with buffer := buffer, ahead := ahead } ∧
      List.Forall₂ (LineTakes w j.segment) j.buffer buffer ∧ List.Forall₂ (LineTakes w j.segment) j.ahead ahead) ∧
    List.Forall₂ (GiveTakes w) s.gives u.gives ∧
    ((∀ e ∈ s.repair, e.bad ≠ 0) → u.repair = s.repair.filterMap fun e =>
      if e.line = w.line then
        if e.bad &&& ~~~(w.mask &&& ~~~w.poison) = 0 then none
        else some { e with bad := e.bad &&& ~~~(w.mask &&& ~~~w.poison) }
      else some e)) ∧
  (∀ s : State, s.enterWrites [] = s) ∧
  (∀ (s : State) (w : LineWrite) (ws : List LineWrite), s.enterWrites (w :: ws) = (s.enterWrites [w]).enterWrites ws) ∧
  ∀ (s : State) (v : View) (h : Heard) (f : Frame) (k : FrameKind) (owner : Station) (c : Fin 4) (slots : Slots)
    (ws : List LineWrite), readFrame h = some f → f.kind? = some k → GoodFrame s v f owner c slots → s.walker.state ≠ .held →
    ((k = .update ∧ f.header.gpos = gposNone ∧ ws = if v.isMember s.me f.segment then [f.updateWrite] else []) ∨
      (k = .copy ∧ f.copyStation = s.me ∧ ws = f.copyWrites)) →
    ∃ u t, exec (k.row h slots) s = .next t ∧ Settled u t ∧ u.sp = (s.enterWrites ws).sp ∧ u.gives = (s.enterWrites ws).gives ∧
      (∀ e ∈ u.repair, ∃ e' ∈ (s.enterWrites ws).repair, e'.line = e.line ∧ e'.bad = e.bad) ∧
      (k = .update → ∀ (x : JobIx) j, (s.enterWrites ws).catchup.jobs[x] = some j → v.serves s.me j.station j.segment = true →
        ∃ j', u.catchup.jobs[x] = some j' ∧ j'.buffer = j.buffer ∧ j'.ahead = j.ahead)

/-- The limits. A station whose miss count reaches 3 is marked absent with MISSED, one whose reject count reaches 4 with EXPELLED
where another acknowledged and SELF_FAULT where none did. Marked stations leave the view and every passed-over set, and a pair
left without a server while another present station is CURRENT has its set cleared. An accepted frame raises the miss count of
those that drove no ACK, and a frame that did not arrive whole moves the reject counts; at a limit each marking is logged in
ascending order, PEER_CHANGE is set, a group of a marked sender is discarded, and a station that marks itself goes OFFLINE with
the cause. That the markings come before the entries of the blocks' reactions is the model's order (log 24), but for the
teardown's, which R120 puts after them. -/
def Obligations.LimitsMarkAbsent : Prop :=
  (∀ (w v : View) (owner : Station) (slots : Slots), (w.limits v owner slots).Pairwise (fun a b => a.1 < b.1) ∧
    ∀ x cause, (x, cause) ∈ w.limits v owner slots ↔ ∃ m, w.member x = some m ∧
      ((3 ≤ m.miss ∧ cause = .missed) ∨ (m.miss < 3 ∧ 4 ≤ m.reject ∧
        (((∃ a, Acknowledged v owner slots a) ∧ cause = .expelled) ∨
          ((∀ a, ¬Acknowledged v owner slots a) ∧ cause = .selfFault))))) ∧
  (∀ (v w : View) (xs : List Station), w = v.markAbsent xs → w.lastWinner = v.lastWinner ∧ ∀ x,
    (x ∈ xs ∨ v.member x = none → w.member x = none) ∧
    ∀ m, x ∉ xs → v.member x = some m → ∃ m', w.member x = some m' ∧ m' = { m with states := m'.states } ∧ ∀ g : Segment,
      ((∀ c p, m.states[g] ≠ .catching c p) → m'.states[g] = m.states[g]) ∧
      ∀ c p, m.states[g] = .catching c p → ∃ q, m'.states[g] = .catching c q ∧ (SpentWithout v xs x g p → q = 0) ∧
        (¬SpentWithout v xs x g p → ∀ y, q.has y = (p.has y && !xs.contains y))) ∧
  (∀ (v w : View) (owner : Station) (slots : Slots), w = v.countAccepted v owner slots → w.lastWinner = owner ∧
    (∀ x, v.member x = none → w.member x = none) ∧ ∀ x m, v.member x = some m → w.member x = some
      (if x = owner ∨ (ackSlot slots x = true ∧ rejectSlot slots x = false) then { m with miss := 0, reject := 0 }
        else { m with miss := m.miss + 1 })) ∧
  ∀ (s : State) (v w : View) (owner : Station) (c : Fin 4) (slots : Slots) (ms : List Marking), InFrame s owner c →
    s.heldView = some v → v.present s.me = true → s.bus.inFlight = none → s.join.leaveAttempts < frameRetryLimit →
    ms = w.limits v owner slots →
    (∀ (h : Heard) (f : Frame) (k : FrameKind), k ∈ [FrameKind.update, .ask, .empty] → readFrame h = some f → f.kind? = some k →
      (s.judgeFrame (some f) owner c).marks = false → (∀ x, v.present x = true → rejectSlot slots x = false) →
      w = v.countAccepted v owner slots →
      ∃ u t, exec (k.row h slots) s = .next t ∧ Settled u t ∧ MarkingsTaken s u w ms owner) ∧
    ((∃ x, v.present x = true ∧ rejectSlot slots x = true) → w = v.countRejected v owner slots →
      ∃ u t, exec (.damagedFrame slots) s = .next t ∧ Settled u t ∧ MarkingsTaken s u w ms owner)

/-- The blocks after a changed view. The jobs of pairs no longer served are dropped; each served pair without one takes the
lowest-numbered free entry, at the end of the ring, in ascending order of segment and station while entries last; and the token
leaves a job dropped for the next in the ring. A monitor runs exactly while its segment is CATCHING, with a fresh window at its
start and when the pair's server changes; that the line count of a stopped one is 0 is the model's choice (log 54). A segment
that changes its local state sets SEGMENT_CHANGE, and one that leaves CURRENT and CATCHING loses its UPDATE entries, with one
OUTBOUND_DISCARD. A head at the eighth rejection falls before all this, with FRAME_DISCARDED, unless its own segment leaves, which counts it in that segment's discard. -/
def Obligations.BlocksFollowTheView : Prop :=
  (∀ (v : View) (me x : Station) (g : Segment), v.serves me x g = true ↔ v.server x g = some me ∧ v.settled x = true) ∧
  (∀ (c d : CatchUp) (v : View) (me : Station) (runMax : Nat), d = c.review v me runMax →
    (∀ (k : JobIx) j, d.jobs[k] = some j → v.serves me j.station j.segment = true) ∧
    (∀ (k : JobIx) j, c.jobs[k] = some j → v.serves me j.station j.segment = true → d.jobs[k] = some j) ∧
    (∀ (k : JobIx) j, d.jobs[k] = some j → c.jobs[k] = some j ∨ j = ⟨j.station, j.segment, runMax, [], [], none, none, 0⟩) ∧
    (∀ x g, v.serves me x g = true → (∃ (k : JobIx) (j : Job), d.jobs[k] = some j ∧ j.station = x ∧ j.segment = g) ∨
      ∀ k : JobIx, d.jobs[k] ≠ none) ∧
    ∀ x g y h, v.serves me x g = true → v.serves me y h = true → g < h ∨ (g = h ∧ x < y) →
      (∃ (k : JobIx) (j : Job), d.jobs[k] = some j ∧ j.station = y ∧ j.segment = h) →
      (∃ (k : JobIx) (j : Job), c.jobs[k] = some j ∧ j.station = y ∧ j.segment = h) ∨
        ∃ (k : JobIx) (j : Job), d.jobs[k] = some j ∧ j.station = x ∧ j.segment = g) ∧
  (∀ (c : CatchUp) (k : JobIx) (j : Job), c.jobs[k] = none → (∀ i < k, c.jobs[i] ≠ none) → c.createJob j =
    { c with jobs := c.jobs.set k (some j), ring := c.ring ++ [k], token := some (c.token.getD k) }) ∧
  (∀ (c : CatchUp) (k : JobIx) before after, c.ring = before ++ k :: after → k ∉ before ++ after →
    (c.removeJob k).jobs = c.jobs.set k none ∧ (c.removeJob k).ring = before ++ after ∧
    (c.token = some k → (c.removeJob k).token = (after ++ before).head?) ∧
    (c.token ≠ some k → before ++ after ≠ [] → (c.removeJob k).token = c.token)) ∧
  (∀ (s : State) (before : Option Station) (g : Segment) (m : Monitor),
    (s.localState g ≠ .catching → s.reviewMonitor before g m = ⟨false, 0, none⟩) ∧
    (s.localState g = .catching → s.reviewMonitor before g m =
      if m.running = false then ⟨true, 0, none⟩ else if before ≠ s.ownServer g then ⟨true, 0, m.stall⟩ else m)) ∧
  (∀ before s t : State, t = State.reviewSegments before s → ∀ g : Segment,
      (∀ h : Segment, h ≠ g → before.localState h = s.localState h) →
    (before.localState g = s.localState g → t = s) ∧
    (before.localState g ≠ s.localState g → StatusFlag.segmentChange.isIn t.rep.flags = true ∧
      ((before.localState g ≠ .current ∧ before.localState g ≠ .catching) ∨ s.localState g = .current ∨
          s.localState g = .catching →
        t.out = s.out) ∧
      (before.localState g = .current ∨ before.localState g = .catching → s.localState g ≠ .current →
        s.localState g ≠ .catching → t.out = s.out.filter (fun e => !e.updateOf g) ∧
          ∀ n, n = (s.out.filter fun e => e.updateOf g).length → 0 < n →
            t.rep = (s.rep.setFlag .segmentChange).raise ⟨.outboundDiscard, .port, some g, none, none, n⟩))) ∧
  (∀ (before s : State) (v : View) (g : Segment) (l : Line) (m : WordMask) (d : Vector Word 4) (mark : Bool) (st : OutState)
      (n : Nat) (rest : List OutEntry), s.out = ⟨.update g l m d mark, st, n⟩ :: rest → 8 ≤ n →
    (∀ e ∈ rest, e.attempts < 8) →
    (¬((before.localState g = .current ∨ before.localState g = .catching) ∧ s.localState g ≠ .current ∧
        s.localState g ≠ .catching) →
      State.reviewBlocks before s v = State.reviewBlocks before
        (({ s with out := rest } : State).raise ⟨.frameDiscarded, .bus, some (segmentOf l), some l, none, m.toNat⟩) v) ∧
    (before.localState g = .current ∨ before.localState g = .catching → s.localState g ≠ .current →
      s.localState g ≠ .catching → State.reviewHead before s = s)) ∧
  ∀ (s : State) (v : View) (h : Heard) (f : Frame) (k : FrameKind) (owner : Station) (c : Fin 4) (slots : Slots),
    readFrame h = some f → f.kind? = some k → GoodFrame s v f owner c slots →
    ∃ u t w, exec (k.row h slots) s = .next t ∧ Settled u t ∧ u.view = some w ∧
      (∀ (x : JobIx) j, u.catchup.jobs[x] = some j → w.serves s.me j.station j.segment = true) ∧
      (∀ x g, w.serves s.me x g = true → (∃ (n : JobIx) (j : Job), u.catchup.jobs[n] = some j ∧ j.station = x ∧ j.segment = g) ∨
        ∀ n : JobIx, u.catchup.jobs[n] ≠ none) ∧
      (∀ g : Segment, (u.localState g ≠ .catching → u.catchup.monitors[g] = ⟨false, 0, none⟩) ∧
        (u.localState g = .catching → u.catchup.monitors[g].running = true ∧
          (s.catchup.monitors[g].running = false → u.catchup.monitors[g] = ⟨true, 0, none⟩))) ∧
      ((∃ g, u.localState g ≠ s.localState g) → StatusFlag.segmentChange.isIn u.rep.flags = true) ∧
      ∀ g, s.localState g = .current ∨ s.localState g = .catching → u.localState g ≠ .current → u.localState g ≠ .catching →
        ∀ e ∈ u.out, e.updateOf g = false

/-- The end of another station's frame that some check marks: this station drives REJECT. Rejected, the frame has no effect of its
own, and it moves the reject counts: of the rejecting stations where a present station other than the owner acknowledged,
otherwise of the owner. Accepted all the same, with this station's REJECT lost: a frame that did not arrive whole, or fails its
check, or is malformed takes the station OFFLINE with cause MISSED; one that is inconsistent or a duplicate alone takes its
effects, as an UPDATE shows; but of a COPY that names this station where it is no member, as where it is MISMATCH, it applies
nothing. A duplicate is logged, before what other rules raise at that frame end (log 24). -/
def Obligations.DamagedFrameMovesCounts : Prop :=
  ∀ (s : State) (v w : View) (heard : Option Heard) (owner : Station) (c : Fin 4) (slots : Slots), InFrame s owner c →
    s.heldView = some v → v.present s.me = true → s.bus.inFlight = none → s.join.leaveAttempts < frameRetryLimit →
    (s.judgeFrame (heard.bind readFrame) owner c).marks = true →
    ∃ t, (heard = none → exec (.damagedFrame slots) s = .next t) ∧
      (∀ h k, heard = some h → exec (FrameKind.row k h slots) s = .next t) ∧ ∃ u, Settled u t ∧
      u.bus.slot = some .reject ∧ u.store = s.store ∧ u.health = s.health ∧ u.pending = s.pending ∧
      ((∃ x, v.present x = true ∧ rejectSlot slots x = true) → w = v.countRejected v owner slots → w.BelowLimits →
        u.view = some w ∧ u.sp = s.sp ∧ u.group = s.group ∧ u.gives = s.gives ∧ u.join.station = s.join.station ∧
        w.lastWinner = v.lastWinner ∧ (∀ x, w.present x = v.present x) ∧
        ∀ x m, v.member x = some m → ∃ n, w.member x = some { m with reject := n } ∧
          ((∃ a, Acknowledged v owner slots a) →
            n = if rejectSlot slots x then m.reject + 1 else if x ≠ owner ∧ ackSlot slots x then 0 else m.reject) ∧
          ((∀ a, ¬Acknowledged v owner slots a) → n = if x = owner then m.reject + 1 else m.reject)) ∧
      ((∀ x, v.present x = true → rejectSlot slots x = false) → v.BelowLimits →
        (s.judgeFrame (heard.bind readFrame) owner c).unreadable = true →
        u.sp = s.sp ∧ u.join.station = .offline ∧ u.join.cause = some .missed ∧ u.view = none ∧ u.group = none ∧ u.gives = [] ∧
        u.repair = [] ∧ u.out = [] ∧ u.bus.tracked = owner ∧ u.bus.quiet = .stopped) ∧
      ∀ f, heard.bind readFrame = some f → f.malformed owner c = false →
        (f.sender = s.me → Logged s u [⟨.duplicateNumber, .bus, none, none, some s.me, c.val⟩]) ∧
        (AllAcknowledge v owner slots → f.kind? = some .update → f.header.gpos = gposNone →
          u.sp = { s.sp with applyList :=
            s.sp.applyList ++ (if v.isMember s.me f.segment then [f.updateWrite] else []) } ∧
          u.join.station = s.join.station ∧ ∃ w', u.view = some w' ∧ w'.lastWinner = owner ∧
            ∀ x m, w'.member x = some m → m.miss = 0 ∧ m.reject = 0) ∧
        (AllAcknowledge v owner slots → f.kind? = some .copy → f.copyStation = s.me → v.isMember s.me f.segment = false →
          u.sp = s.sp)

/-- The end of this station's own frame, all others acknowledging: last_winner takes this station and every count is 0; an UPDATE
leaves the head of the queue and is applied here, a group goes on to its next record or completes its chain, an ASK starts its
timer, a GIVE leaves its queue, a STALL item and an owed ROSTER are done, and a COPY's lines leave its job. The row is whichever
names the frame's kind. An own LEAVE takes the station OFFLINE with cause LEFT. -/
def Obligations.OwnFrameIsTaken : Prop :=
  ∀ (s : State) (v : View) (i : InFlight) (c : Fin 4) (slots : Slots), OwnFrame s v i c slots →
    ∃ u t, (∀ k h, exec (FrameKind.row k h slots) s = .next t) ∧ Settled u t ∧
      u.store = s.store ∧ u.health = s.health ∧ u.pending = s.pending ∧ u.bus.inFlight = none ∧ u.bus.emptyPending = false ∧
      (i.frame.kind? ≠ some .update → u.sp = s.sp) ∧ (i.item = .empty → i.frame = composeEmpty s.me → u.gives = s.gives) ∧
      (i.frame.kind? ≠ some .leave → i.frame.kind? ≠ some .join →
        ∃ w, u.view = some w ∧ w.lastWinner = s.me ∧ (∀ x m, w.member x = some m → m.miss = 0 ∧ m.reject = 0) ∧
          (∀ x, w.present x = v.present x) ∧ u.join.station = s.join.station ∧
          u.bus.quiet = if s.join.station = .joined then .counting else .stopped) ∧
      (i.frame.kind? = some .leave → i.frame.sender = s.me →
        u.join.station = .offline ∧ u.join.cause = some .left ∧ u.view = none ∧ u.out = [] ∧ u.gives = [] ∧ u.repair = [] ∧
        u.bus.quiet = .stopped ∧ u.bus.tracked = s.me) ∧
      (i.frame.kind? = some .update → i.item = .outbound →
        (∀ g l m d mark st n rest, s.out = ⟨.update g l m d mark, st, n⟩ :: rest →
          u.sp.applyList = s.sp.applyList ++ (if v.isMember s.me i.frame.segment then [i.frame.updateWrite] else []) ∧
          (s.NoQueueWait → (∀ e ∈ rest, e.attempts < frameRetryLimit) → u.out = rest)) ∧
        (∀ head count st n rest, s.out = ⟨.group head count, st, n⟩ :: rest → s.NoQueueWait →
          (s.commit.sendPos + 1 < count → st = .sending →
            u.out = ⟨.group head count, .sending, 0⟩ :: rest ∧ u.sp.applyList = s.sp.applyList ∧
            u.commit = { s.commit with sendPos := s.commit.sendPos + 1 } ∧
            u.bus.next = if c = 1 ∨ c = 2 then some (s.groupFrame head count (s.commit.sendPos + 1)) else none) ∧
          (count ≤ s.commit.sendPos + 1 → (∀ e ∈ rest, e.attempts < frameRetryLimit ∧ e.state = .waiting) →
            u.out = rest ∧ u.sp.applyList = s.sp.applyList ++ s.commit.chainWrites head count ∧
            StatusFlag.chainDone.isIn u.rep.flags = true ∧
            ∀ before last, chainFrom s.commit.staging count head = before ++ [last] → u.commit = { s.commit with
              state := .done, head := s.commit.staging[last].link, doneNotify := s.commit.notify }))) ∧
      (i.frame.kind? = some .give → ∀ e rest, s.gives = e :: rest → u.gives = rest) ∧
      (i.frame.kind? = some .ask → ∀ e asks rejections of y, s.repair = [e] → e.line = i.frame.line →
        e.segment = i.frame.segment → e.state = .asking .inFlight asks rejections of → s.repairable e.line = true →
        v.repairResponder s.me e.segment = some y →
        u.repair = [{ e with state := .asking .timing (asks + 1) 0 (some y) }]) ∧
      (i.frame.kind? = some .stall → u.catchup.monitors[i.frame.segment].stall = none) ∧
      (i.frame.kind? = some .roster → ∀ rc, i.frame.rosterContent = some rc → u.join.rosters[rc.joiner] = none) ∧
      (i.frame.kind? = some .copy → i.item = .copy → i.frame.copyLast = false → ∀ run j, s.bus.copyRun = some run →
        s.catchup.jobs[run.job] = some j → v.serves s.me j.station j.segment = true → i.frame.copyStation = j.station →
        i.frame.segment = j.segment →
        ∃ j', u.catchup.jobs[run.job] = some j' ∧ j'.station = j.station ∧ j'.segment = j.segment ∧ j'.attempts = 0 ∧
          j'.buffer = j.buffer.drop i.frame.header.count.toNat ++
            j.ahead.take (bufferCapacity - (j.buffer.drop i.frame.header.count.toNat).length) ∧
          j'.ahead = j.ahead.drop (bufferCapacity - (j.buffer.drop i.frame.header.count.toNat).length))

/-- The end of this station's own frame, rejected, with nobody brought to a limit: the view keeps last_winner and moves the reject
counts; an UPDATE entry returns to WAITING with its attempts raised, and is discarded with FRAME_DISCARDED at the eighth; a
group's record is sent again, and the group is abandoned at the eighth; a GIVE, an ASK, a STALL, a ROSTER and a COPY are tried
again, up to eight rejections, the eighth logged with FRAME_DISCARDED; and a LEAVE is tried again, its eighth rejection logged in
the same way and taking the station OFFLINE with cause LEFT. That FRAME_DISCARDED comes before the entries of other rules at that frame end is the model's
order (log 24). -/
def Obligations.OwnRejectionIsRetried : Prop :=
  ∀ (s : State) (v w : View) (i : InFlight) (c : Fin 4) (slots : Slots), InFrame s s.me c → s.heldView = some v →
    v.present s.me = true → s.bus.inFlight = some i → (∃ x, v.present x = true ∧ rejectSlot slots x = true) →
    w = v.countRejected v s.me slots → w.BelowLimits → s.NoQueueWait →
    ∃ u t, (∀ k h, exec (FrameKind.row k h slots) s = .next t) ∧ Settled u t ∧
      u.store = s.store ∧ u.health = s.health ∧ u.pending = s.pending ∧ u.sp = s.sp ∧ u.bus.inFlight = none ∧
      (s.join.leaveAttempts < 7 → u.view = some w ∧ w.lastWinner = v.lastWinner ∧ u.join.station = s.join.station) ∧
      (i.item = .outbound → s.join.leaveAttempts < 8 →
        (∀ g l m d mark st n rest, s.out = ⟨.update g l m d mark, st, n⟩ :: rest →
          (n < 7 → u.out = ⟨.update g l m d mark, .waiting, n + 1⟩ :: rest) ∧
          (7 ≤ n → u.out = rest ∧ (s.repair = [] →
            u.rep = s.rep.raise ⟨.frameDiscarded, .bus, some (segmentOf l), some l, none, m.toNat⟩))) ∧
        (∀ head count n rest, s.out = ⟨.group head count, .sending, n⟩ :: rest →
          (n < 7 → u.out = ⟨.group head count, .sending, n + 1⟩ :: rest ∧ u.commit = s.commit ∧
            u.bus.next = if c = 1 ∨ c = 2 then some (s.groupFrame head count s.commit.sendPos) else none) ∧
          (7 ≤ n → (∀ e ∈ rest, e.attempts < frameRetryLimit ∧ e.state = .waiting) → u.out = rest ∧
            u.commit.state = .failed .abandoned ((chainFrom s.commit.staging count head).getD s.commit.sendPos head) ∧
            u.commit.head = s.commit.head ∧ StatusFlag.chainFailed.isIn u.rep.flags = true ∧
            ∀ x, x = s.commit.staging[(chainFrom s.commit.staging count head).getD s.commit.sendPos head] →
              Logged s u [⟨.frameDiscarded, .bus, some (segmentOf x.line), some x.line, none, x.mask.toNat⟩]))) ∧
      (i.item = .give → s.join.leaveAttempts < 8 → ∀ e rest, s.gives = e :: rest →
        u.gives = if e.rejections < 7 then { e with state := .ready, rejections := e.rejections + 1 } :: rest else rest) ∧
      (i.item = .give → ∀ e rest, s.gives = e :: rest → 7 ≤ e.rejections →
        Logged s u [⟨.frameDiscarded, .bus, some e.segment, some e.line, some e.asker, e.void.toNat⟩]) ∧
      (∀ e asks rejections of y, i.item = .ask e.line → s.join.leaveAttempts < 8 → s.repair = [e] →
        e.state = .asking .inFlight asks rejections of → s.repairable e.line = true →
        v.repairResponder s.me e.segment = some y → s.walker.state ≠ .held →
        u.repair = [{ e with
          state := if rejections < 7 then .asking .toAsk asks (rejections + 1) of else .failed }] ∧
        (7 ≤ rejections → Logged s u [⟨.frameDiscarded, .bus, some e.segment, some e.line, none, e.bad.toNat⟩])) ∧
      (∀ x n dropped, i.item = .roster x → s.join.leaveAttempts < 8 → s.join.rosters[x] = some ⟨n, dropped⟩ →
        v.awaiting x = true → v.joinResponder x = some s.me →
        u.join.rosters[x] = some ⟨n + 1, dropped || decide (7 ≤ n)⟩ ∧
        (7 ≤ n → Logged s u [⟨.frameDiscarded, .bus, none, none, some x, 0⟩])) ∧
      (∀ (g : Segment) p n, i.item = .stall g → s.join.leaveAttempts < 8 → s.catchup.monitors[g].stall = some ⟨p, n⟩ →
        s.catchup.monitors[g].running = true → s.localState g = .catching →
        u.catchup.monitors[g] = { s.catchup.monitors[g] with stall := if n < 7 then some ⟨p, n + 1⟩ else none } ∧
        (7 ≤ n → Logged s u [⟨.frameDiscarded, .bus, some g, none, some p, 0⟩])) ∧
      (∀ run j, i.item = .copy → s.join.leaveAttempts < 8 → s.bus.copyRun = some run → s.catchup.jobs[run.job] = some j →
        v.serves s.me j.station j.segment = true → ∃ j', u.catchup.jobs[run.job] = some j' ∧
          j'.station = j.station ∧ j'.segment = j.segment ∧
          (j.attempts < 7 → j'.attempts = j.attempts + 1 ∧ j'.buffer = j.buffer ∧ j'.ahead = j.ahead) ∧
          (7 ≤ j.attempts → j'.attempts = 0 ∧ j'.buffer = [] ∧ j'.ahead = [] ∧ Logged s u [⟨.frameDiscarded, .bus,
            some i.frame.segment, some i.frame.line, some i.frame.copyStation, i.frame.header.count.toNat⟩])) ∧
      (i.item = .leave → s.join.station = .leaving →
        (s.join.leaveAttempts < 7 → u.join.leaveAttempts = s.join.leaveAttempts + 1) ∧
        (s.join.leaveAttempts = 7 → u.join.station = .offline ∧ u.join.cause = some .left ∧ u.view = none ∧ u.out = [] ∧
          u.gives = [] ∧ u.repair = [] ∧ Logged s u [⟨.frameDiscarded, .bus, none, none, some s.me, 0⟩]))

/-- A frame end at a station without a view: its tracked winner takes the owner where no REJECT slot was driven. In LISTENING the
JOIN becomes pending. The end of its own JOIN: rejected, it is tried again up to three times; accepted with an ACK, the roster
timer starts in ROSTER_WAIT; with no slot driven the station is JOINED alone, CURRENT in each segment it declares. The ROSTER
addressed to it in ROSTER_WAIT makes it JOINED, with the view of the image, itself SETTLED there. -/
def Obligations.StationsWithoutAView : Prop :=
  ∀ (s : State) (owner : Station) (c : Fin 4) (heard : Option Heard) (slots : Slots), InFrame s owner c → s.inGroup = false →
    ∃ t, (heard = none → exec (.damagedFrame slots) s = .next t) ∧
      (∀ h k, heard = some h → exec (FrameKind.row k h slots) s = .next t) ∧ ∃ u, Settled u t ∧
      u.bus.tracked = (if (∀ x, rejectSlot slots x = false) then owner else s.bus.tracked) ∧
      u.store = s.store ∧ u.health = s.health ∧ u.pending = s.pending ∧ u.sp = s.sp ∧
      (s.join.station = .listening → s.bus.inFlight = none →
        u.join = { s.join with station := .joining, attempts := 0, accepted := 0, joinPending := true } ∧
        u = { s with bus := u.bus, join := u.join }) ∧
      (∀ i, s.bus.inFlight = some i → (s.join.station = .joining ∨ s.join.station = .rosterWait) →
        ((∃ x, rejectSlot slots x = true) → s.join.attempts + 1 < 3 →
          u.join = { s.join with attempts := s.join.attempts + 1, joinPending := true } ∧ u.view = s.view) ∧
        ((∃ x, rejectSlot slots x = true) → s.join.attempts = 2 →
          u.join.station = .offline ∧ u.join.cause = some .joinFailed ∧ u.view = none) ∧
        ((∀ x, rejectSlot slots x = false) → (∃ x, x ≠ owner ∧ ackSlot slots x = true) →
          u.join = { s.join with
            station := .rosterWait, attempts := s.join.attempts + 1, accepted := s.join.accepted + 1, joinPending := false
            rosterTimer := true } ∧ u.view = s.view) ∧
        ((∀ x, rejectSlot slots x = false) → (∀ x, x ≠ owner → ackSlot slots x = false) →
          u.join.station = .joined ∧ u.join.joinPending = false ∧ u.join.rosterTimer = false ∧ u.bus.quiet = .counting ∧
          ∃ w, u.view = some w ∧ w.lastWinner = s.me ∧ (∀ x, w.present x = true ↔ x = s.me) ∧ w.settled s.me = true ∧
            ∀ g, (s.mode g = .mirrored → w.declared s.me g = some (s.mirrorSet g) ∧ w.state s.me g = .current) ∧
              (s.mode g ≠ .mirrored → w.declared s.me g = none ∧ w.state s.me g = .none))) ∧
      (∀ f rc, heard.bind readFrame = some f → s.bus.inFlight = none → s.join.station = .rosterWait →
        (s.judgeFrame (some f) owner c).marks = false → f.kind? = some .roster → f.rosterContent = some rc → rc.joiner = s.me →
        (∀ x, rejectSlot slots x = false) → AllAcknowledge rc.view owner slots →
        u.bus.slot = some .ack ∧ u.join.station = .joined ∧ u.join.joinPending = false ∧ u.join.rosterTimer = false ∧
        u.bus.quiet = .counting ∧ StatusFlag.joined.isIn u.rep.flags = true ∧ StatusFlag.peerChange.isIn u.rep.flags = true ∧
        ∃ w, u.view = some w ∧ w.lastWinner = owner ∧ (∀ x, w.present x = rc.view.present x) ∧ w.settled s.me = true ∧
          ∀ x g, w.state x g = rc.view.state x g ∧ w.declared x g = rc.view.declared x g)

/-- A frame whose length field is that of its payload is read back whole by a receiver; and what the composer of an UPDATE, an
ASK, a STALL and a GIVE put in the payload, at any value a frame can carry, is what the receiver reads there. -/
def Obligations.FramesReadBack : Prop :=
  (∀ f : Frame, f.payload.length = f.header.length.toNat → readFrame f.heard = some f) ∧
  (∀ (x : Station) (l : Line) (m : WordMask) (d : Vector Word 4) (p : BitVec 3) (n : Nat), n < 32 →
    let f := composeUpdate x l m d p n
    readFrame f.heard = some f ∧ f.kind? = some .update ∧ f.sender = x ∧ f.line = l ∧ f.header.gpos = p ∧ f.updateMask = m ∧
      f.groupLength = n ∧
      f.updateMalformed = (m == 0 || (if p = 0 then n != 0 else if p = 4 then n != 1 else decide (n < 2 ∨ 16 < n))) ∧
      f.updateWrite.line = l ∧ f.updateWrite.mask = m ∧ ∀ i, m.has i = true → f.updateWrite.data[i] = d[i]) ∧
  (∀ (x : Station) (e : RepairEntry), e.segment = segmentOf e.line →
    let f := composeAsk x e
    readFrame f.heard = some f ∧ f.kind? = some .ask ∧ f.sender = x ∧ f.line = e.line ∧ f.askMask = e.bad) ∧
  (∀ (x p : Station) (g : Segment),
    let f := composeStall x g p
    readFrame f.heard = some f ∧ f.kind? = some .stall ∧ f.sender = x ∧ f.segment = g ∧ f.stallServer = p) ∧
  ∀ (x : Station) (e : GiveEntry), e.segment = segmentOf e.line →
    let f := composeGive x e
    readFrame f.heard = some f ∧ f.kind? = some .give ∧ f.sender = x ∧ f.line = e.line ∧ f.giveAsker = e.asker ∧
      f.giveVoid = e.void ∧ ∀ i : WordIx, f.giveWrite.data[i] = if e.void.has i then 0 else e.data[i]
end

