-- ==== Sys2Proof/Laws/First.lean ====
section
/-! SUPPORT. The first of a list of indices that meets a condition, and other small facts about lists. -/

namespace Sys2Proof.Machine

/-- The first index that meets a condition. -/
theorem find_finRange {n : Nat} {p : Fin n → Bool} (k : Fin n) (h : p k = true) (h' : ∀ j < k, p j = false) :
    (List.finRange n).find? p = some k := by
  have hs : (List.finRange n).Pairwise (· < ·) := List.pairwise_lt_finRange n
  obtain ⟨as, bs, hab⟩ := List.append_of_mem (List.mem_finRange k)
  rw [hab] at hs ⊢
  rw [List.find?_append, List.find?_eq_none.mpr]
  · simp [h]
  · intro x hx
    rw [List.pairwise_append] at hs
    rw [h' x (hs.2.2 x hx k List.mem_cons_self)]; simp

/-- The first index with a value. -/
theorem findSome_finRange {n : Nat} {α} {f : Fin n → Option α} (k : Fin n) (a : α) (h : f k = some a) (h' : ∀ j < k, f j = none) :
    (List.finRange n).findSome? f = some a := by
  have hs : (List.finRange n).Pairwise (· < ·) := List.pairwise_lt_finRange n
  obtain ⟨as, bs, hab⟩ := List.append_of_mem (List.mem_finRange k)
  rw [hab] at hs ⊢
  rw [List.findSome?_append, List.findSome?_eq_none_iff.mpr]
  · simp [h]
  · intro x hx
    rw [List.pairwise_append] at hs
    exact h' x (hs.2.2 x hx k List.mem_cons_self)

theorem findSome_finRange_none {n : Nat} {α} {f : Fin n → Option α} (h : ∀ j, f j = none) : (List.finRange n).findSome? f =
    none := by
  rw [List.findSome?_eq_none_iff]; intro x _; exact h x

theorem modify_length {α} (b : List α) (e : α) (a : List α) (f : α → α) : (b ++ e :: a).modify b.length f = b ++ f e :: a := by
  induction b with
  | nil => rfl
  | cons x xs ih => simp [List.modify_succ_cons, ih]

theorem forall₂_map {α β} {R : α → β → Prop} (f : α → β) (h : ∀ a, R a (f a)) (xs : List α) : List.Forall₂ R xs (xs.map f) := by
  induction xs with
  | nil => exact .nil
  | cons x xs ih => exact .cons (h x) ih

end Sys2Proof.Machine
end

