-- ==== Sys2Proof/Laws/State.lean ====
section
/-! SUPPORT. What the small updates of State leave in each field, by rfl. -/

namespace Sys2Proof.Machine

/-! ### State.setFlag changes `rep` alone -/

@[simp] theorem State.setFlag_pending (s : State) (f : StatusFlag) : (s.setFlag f).pending = s.pending := rfl
@[simp] theorem State.setFlag_store (s : State) (f : StatusFlag) : (s.setFlag f).store = s.store := rfl
@[simp] theorem State.setFlag_sp (s : State) (f : StatusFlag) : (s.setFlag f).sp = s.sp := rfl
@[simp] theorem State.setFlag_health (s : State) (f : StatusFlag) : (s.setFlag f).health = s.health := rfl
@[simp] theorem State.setFlag_walker (s : State) (f : StatusFlag) : (s.setFlag f).walker = s.walker := rfl
@[simp] theorem State.setFlag_port (s : State) (f : StatusFlag) : (s.setFlag f).port = s.port := rfl
@[simp] theorem State.setFlag_out (s : State) (f : StatusFlag) : (s.setFlag f).out = s.out := rfl
@[simp] theorem State.setFlag_commit (s : State) (f : StatusFlag) : (s.setFlag f).commit = s.commit := rfl
@[simp] theorem State.setFlag_group (s : State) (f : StatusFlag) : (s.setFlag f).group = s.group := rfl
@[simp] theorem State.setFlag_bus (s : State) (f : StatusFlag) : (s.setFlag f).bus = s.bus := rfl
@[simp] theorem State.setFlag_view (s : State) (f : StatusFlag) : (s.setFlag f).view = s.view := rfl
@[simp] theorem State.setFlag_join (s : State) (f : StatusFlag) : (s.setFlag f).join = s.join := rfl
@[simp] theorem State.setFlag_catchup (s : State) (f : StatusFlag) : (s.setFlag f).catchup = s.catchup := rfl
@[simp] theorem State.setFlag_repair (s : State) (f : StatusFlag) : (s.setFlag f).repair = s.repair := rfl
@[simp] theorem State.setFlag_gives (s : State) (f : StatusFlag) : (s.setFlag f).gives = s.gives := rfl

/-! ### State.raise changes `rep` alone -/

@[simp] theorem State.raise_pending (s : State) (e : LogEntry) : (s.raise e).pending = s.pending := rfl
@[simp] theorem State.raise_store (s : State) (e : LogEntry) : (s.raise e).store = s.store := rfl
@[simp] theorem State.raise_sp (s : State) (e : LogEntry) : (s.raise e).sp = s.sp := rfl
@[simp] theorem State.raise_health (s : State) (e : LogEntry) : (s.raise e).health = s.health := rfl
@[simp] theorem State.raise_walker (s : State) (e : LogEntry) : (s.raise e).walker = s.walker := rfl
@[simp] theorem State.raise_port (s : State) (e : LogEntry) : (s.raise e).port = s.port := rfl
@[simp] theorem State.raise_out (s : State) (e : LogEntry) : (s.raise e).out = s.out := rfl
@[simp] theorem State.raise_commit (s : State) (e : LogEntry) : (s.raise e).commit = s.commit := rfl
@[simp] theorem State.raise_group (s : State) (e : LogEntry) : (s.raise e).group = s.group := rfl
@[simp] theorem State.raise_bus (s : State) (e : LogEntry) : (s.raise e).bus = s.bus := rfl
@[simp] theorem State.raise_view (s : State) (e : LogEntry) : (s.raise e).view = s.view := rfl
@[simp] theorem State.raise_join (s : State) (e : LogEntry) : (s.raise e).join = s.join := rfl
@[simp] theorem State.raise_catchup (s : State) (e : LogEntry) : (s.raise e).catchup = s.catchup := rfl
@[simp] theorem State.raise_repair (s : State) (e : LogEntry) : (s.raise e).repair = s.repair := rfl
@[simp] theorem State.raise_gives (s : State) (e : LogEntry) : (s.raise e).gives = s.gives := rfl

/-! ### State.setResult changes `rep` alone -/

@[simp] theorem State.setResult_pending (s : State) (c : ResultCode) (n : Nat) : (s.setResult c n).pending = s.pending := rfl
@[simp] theorem State.setResult_store (s : State) (c : ResultCode) (n : Nat) : (s.setResult c n).store = s.store := rfl
@[simp] theorem State.setResult_sp (s : State) (c : ResultCode) (n : Nat) : (s.setResult c n).sp = s.sp := rfl
@[simp] theorem State.setResult_health (s : State) (c : ResultCode) (n : Nat) : (s.setResult c n).health = s.health := rfl
@[simp] theorem State.setResult_walker (s : State) (c : ResultCode) (n : Nat) : (s.setResult c n).walker = s.walker := rfl
@[simp] theorem State.setResult_port (s : State) (c : ResultCode) (n : Nat) : (s.setResult c n).port = s.port := rfl
@[simp] theorem State.setResult_out (s : State) (c : ResultCode) (n : Nat) : (s.setResult c n).out = s.out := rfl
@[simp] theorem State.setResult_commit (s : State) (c : ResultCode) (n : Nat) : (s.setResult c n).commit = s.commit := rfl
@[simp] theorem State.setResult_group (s : State) (c : ResultCode) (n : Nat) : (s.setResult c n).group = s.group := rfl
@[simp] theorem State.setResult_bus (s : State) (c : ResultCode) (n : Nat) : (s.setResult c n).bus = s.bus := rfl
@[simp] theorem State.setResult_view (s : State) (c : ResultCode) (n : Nat) : (s.setResult c n).view = s.view := rfl
@[simp] theorem State.setResult_join (s : State) (c : ResultCode) (n : Nat) : (s.setResult c n).join = s.join := rfl
@[simp] theorem State.setResult_catchup (s : State) (c : ResultCode) (n : Nat) : (s.setResult c n).catchup = s.catchup := rfl
@[simp] theorem State.setResult_repair (s : State) (c : ResultCode) (n : Nat) : (s.setResult c n).repair = s.repair := rfl
@[simp] theorem State.setResult_gives (s : State) (c : ResultCode) (n : Nat) : (s.setResult c n).gives = s.gives := rfl

/-! ### State.answer changes `port` alone -/

@[simp] theorem State.answer_pending (s : State) (a : Status) (d : Word) : (s.answer a d).pending = s.pending := rfl
@[simp] theorem State.answer_store (s : State) (a : Status) (d : Word) : (s.answer a d).store = s.store := rfl
@[simp] theorem State.answer_sp (s : State) (a : Status) (d : Word) : (s.answer a d).sp = s.sp := rfl
@[simp] theorem State.answer_health (s : State) (a : Status) (d : Word) : (s.answer a d).health = s.health := rfl
@[simp] theorem State.answer_walker (s : State) (a : Status) (d : Word) : (s.answer a d).walker = s.walker := rfl
@[simp] theorem State.answer_out (s : State) (a : Status) (d : Word) : (s.answer a d).out = s.out := rfl
@[simp] theorem State.answer_commit (s : State) (a : Status) (d : Word) : (s.answer a d).commit = s.commit := rfl
@[simp] theorem State.answer_group (s : State) (a : Status) (d : Word) : (s.answer a d).group = s.group := rfl
@[simp] theorem State.answer_bus (s : State) (a : Status) (d : Word) : (s.answer a d).bus = s.bus := rfl
@[simp] theorem State.answer_view (s : State) (a : Status) (d : Word) : (s.answer a d).view = s.view := rfl
@[simp] theorem State.answer_join (s : State) (a : Status) (d : Word) : (s.answer a d).join = s.join := rfl
@[simp] theorem State.answer_catchup (s : State) (a : Status) (d : Word) : (s.answer a d).catchup = s.catchup := rfl
@[simp] theorem State.answer_repair (s : State) (a : Status) (d : Word) : (s.answer a d).repair = s.repair := rfl
@[simp] theorem State.answer_gives (s : State) (a : Status) (d : Word) : (s.answer a d).gives = s.gives := rfl
@[simp] theorem State.answer_rep (s : State) (a : Status) (d : Word) : (s.answer a d).rep = s.rep := rfl

/-! ### State.holdRequest changes `port` alone -/

@[simp] theorem State.holdRequest_pending (s : State) (r : Request) (a : Stage) : (s.holdRequest r a).pending = s.pending := rfl
@[simp] theorem State.holdRequest_store (s : State) (r : Request) (a : Stage) : (s.holdRequest r a).store = s.store := rfl
@[simp] theorem State.holdRequest_sp (s : State) (r : Request) (a : Stage) : (s.holdRequest r a).sp = s.sp := rfl
@[simp] theorem State.holdRequest_health (s : State) (r : Request) (a : Stage) : (s.holdRequest r a).health = s.health := rfl
@[simp] theorem State.holdRequest_walker (s : State) (r : Request) (a : Stage) : (s.holdRequest r a).walker = s.walker := rfl
@[simp] theorem State.holdRequest_out (s : State) (r : Request) (a : Stage) : (s.holdRequest r a).out = s.out := rfl
@[simp] theorem State.holdRequest_commit (s : State) (r : Request) (a : Stage) : (s.holdRequest r a).commit = s.commit := rfl
@[simp] theorem State.holdRequest_group (s : State) (r : Request) (a : Stage) : (s.holdRequest r a).group = s.group := rfl
@[simp] theorem State.holdRequest_bus (s : State) (r : Request) (a : Stage) : (s.holdRequest r a).bus = s.bus := rfl
@[simp] theorem State.holdRequest_view (s : State) (r : Request) (a : Stage) : (s.holdRequest r a).view = s.view := rfl
@[simp] theorem State.holdRequest_join (s : State) (r : Request) (a : Stage) : (s.holdRequest r a).join = s.join := rfl
@[simp] theorem State.holdRequest_catchup (s : State) (r : Request) (a : Stage) : (s.holdRequest r a).catchup = s.catchup := rfl
@[simp] theorem State.holdRequest_repair (s : State) (r : Request) (a : Stage) : (s.holdRequest r a).repair = s.repair := rfl
@[simp] theorem State.holdRequest_gives (s : State) (r : Request) (a : Stage) : (s.holdRequest r a).gives = s.gives := rfl
@[simp] theorem State.holdRequest_rep (s : State) (r : Request) (a : Stage) : (s.holdRequest r a).rep = s.rep := rfl

/-! ### State.idlePort changes `sp` alone -/

@[simp] theorem State.idlePort_pending (s : State) : (s.idlePort).pending = s.pending := rfl
@[simp] theorem State.idlePort_store (s : State) : (s.idlePort).store = s.store := rfl
@[simp] theorem State.idlePort_health (s : State) : (s.idlePort).health = s.health := rfl
@[simp] theorem State.idlePort_walker (s : State) : (s.idlePort).walker = s.walker := rfl
@[simp] theorem State.idlePort_port (s : State) : (s.idlePort).port = s.port := rfl
@[simp] theorem State.idlePort_out (s : State) : (s.idlePort).out = s.out := rfl
@[simp] theorem State.idlePort_commit (s : State) : (s.idlePort).commit = s.commit := rfl
@[simp] theorem State.idlePort_group (s : State) : (s.idlePort).group = s.group := rfl
@[simp] theorem State.idlePort_bus (s : State) : (s.idlePort).bus = s.bus := rfl
@[simp] theorem State.idlePort_view (s : State) : (s.idlePort).view = s.view := rfl
@[simp] theorem State.idlePort_join (s : State) : (s.idlePort).join = s.join := rfl
@[simp] theorem State.idlePort_catchup (s : State) : (s.idlePort).catchup = s.catchup := rfl
@[simp] theorem State.idlePort_repair (s : State) : (s.idlePort).repair = s.repair := rfl
@[simp] theorem State.idlePort_gives (s : State) : (s.idlePort).gives = s.gives := rfl
@[simp] theorem State.idlePort_rep (s : State) : (s.idlePort).rep = s.rep := rfl

/-! ### State.setFlagIf changes `rep` alone -/

@[simp] theorem State.setFlagIf_pending (s : State) (c : Bool) (f : StatusFlag) : (s.setFlagIf c f).pending = s.pending := by
  cases c <;> rfl
@[simp] theorem State.setFlagIf_store (s : State) (c : Bool) (f : StatusFlag) : (s.setFlagIf c f).store = s.store := by
  cases c <;> rfl
@[simp] theorem State.setFlagIf_sp (s : State) (c : Bool) (f : StatusFlag) : (s.setFlagIf c f).sp = s.sp := by
  cases c <;> rfl
@[simp] theorem State.setFlagIf_health (s : State) (c : Bool) (f : StatusFlag) : (s.setFlagIf c f).health = s.health := by
  cases c <;> rfl
@[simp] theorem State.setFlagIf_walker (s : State) (c : Bool) (f : StatusFlag) : (s.setFlagIf c f).walker = s.walker := by
  cases c <;> rfl
@[simp] theorem State.setFlagIf_port (s : State) (c : Bool) (f : StatusFlag) : (s.setFlagIf c f).port = s.port := by
  cases c <;> rfl
@[simp] theorem State.setFlagIf_out (s : State) (c : Bool) (f : StatusFlag) : (s.setFlagIf c f).out = s.out := by
  cases c <;> rfl
@[simp] theorem State.setFlagIf_commit (s : State) (c : Bool) (f : StatusFlag) : (s.setFlagIf c f).commit = s.commit := by
  cases c <;> rfl
@[simp] theorem State.setFlagIf_group (s : State) (c : Bool) (f : StatusFlag) : (s.setFlagIf c f).group = s.group := by
  cases c <;> rfl
@[simp] theorem State.setFlagIf_bus (s : State) (c : Bool) (f : StatusFlag) : (s.setFlagIf c f).bus = s.bus := by
  cases c <;> rfl
@[simp] theorem State.setFlagIf_view (s : State) (c : Bool) (f : StatusFlag) : (s.setFlagIf c f).view = s.view := by
  cases c <;> rfl
@[simp] theorem State.setFlagIf_join (s : State) (c : Bool) (f : StatusFlag) : (s.setFlagIf c f).join = s.join := by
  cases c <;> rfl
@[simp] theorem State.setFlagIf_catchup (s : State) (c : Bool) (f : StatusFlag) : (s.setFlagIf c f).catchup = s.catchup := by
  cases c <;> rfl
@[simp] theorem State.setFlagIf_repair (s : State) (c : Bool) (f : StatusFlag) : (s.setFlagIf c f).repair = s.repair := by
  cases c <;> rfl
@[simp] theorem State.setFlagIf_gives (s : State) (c : Bool) (f : StatusFlag) : (s.setFlagIf c f).gives = s.gives := by
  cases c <;> rfl

/-! ### The values the updates write -/

@[simp] theorem State.answer_port (s : State) (a : Status) (d : Word) : (s.answer a d).port = ⟨none, some ⟨a, d⟩⟩ := rfl
@[simp] theorem State.holdRequest_port (s : State) (r : Request) (a : Stage) :
    (s.holdRequest r a).port = { s.port with request := some { r with stage := a } } := rfl
@[simp] theorem State.idlePort_sp (s : State) : s.idlePort.sp = { s.sp with running := none } := rfl
@[simp] theorem State.setFlag_rep (s : State) (f : StatusFlag) : (s.setFlag f).rep = s.rep.setFlag f := rfl
@[simp] theorem State.raise_rep (s : State) (e : LogEntry) : (s.raise e).rep = s.rep.raise e := rfl
@[simp] theorem State.setResult_rep (s : State) (c : ResultCode) (n : Nat) : (s.setResult c n).rep = s.rep.setResult c n := rfl
@[simp] theorem Reporting.setFlag_config (r : Reporting) (f : StatusFlag) : (r.setFlag f).config = r.config := rfl
@[simp] theorem Reporting.setFlag_result (r : Reporting) (f : StatusFlag) : (r.setFlag f).result = r.result := rfl
@[simp] theorem Reporting.setFlag_enables (r : Reporting) (f : StatusFlag) : (r.setFlag f).enables = r.enables := rfl
@[simp] theorem Reporting.setFlag_log (r : Reporting) (f : StatusFlag) : (r.setFlag f).log = r.log := rfl
@[simp] theorem Reporting.setFlag_overflow (r : Reporting) (f : StatusFlag) : (r.setFlag f).overflow = r.overflow := rfl
@[simp] theorem Reporting.setFlag_stab (r : Reporting) (f : StatusFlag) : (r.setFlag f).stab = r.stab := rfl
@[simp] theorem Reporting.setFlag_crystal (r : Reporting) (f : StatusFlag) : (r.setFlag f).crystal = r.crystal := rfl
@[simp] theorem Reporting.setFlag_clock (r : Reporting) (f : StatusFlag) : (r.setFlag f).clock = r.clock := rfl
@[simp] theorem Reporting.setResult_config (r : Reporting) (c : ResultCode) (n : Nat) : (r.setResult c n).config = r.config := rfl
@[simp] theorem Reporting.setResult_flags (r : Reporting) (c : ResultCode) (n : Nat) : (r.setResult c n).flags = r.flags := rfl
@[simp] theorem Reporting.setResult_enables (r : Reporting) (c : ResultCode) (n : Nat) : (r.setResult c n).enables = r.enables :=
    rfl
@[simp] theorem Reporting.setResult_log (r : Reporting) (c : ResultCode) (n : Nat) : (r.setResult c n).log = r.log := rfl
@[simp] theorem Reporting.setResult_overflow (r : Reporting) (c : ResultCode) (n : Nat) : (r.setResult c n).overflow =
    r.overflow := rfl
@[simp] theorem Reporting.setResult_stab (r : Reporting) (c : ResultCode) (n : Nat) : (r.setResult c n).stab = r.stab := rfl
@[simp] theorem Reporting.setResult_crystal (r : Reporting) (c : ResultCode) (n : Nat) : (r.setResult c n).crystal = r.crystal :=
    rfl
@[simp] theorem Reporting.setResult_clock (r : Reporting) (c : ResultCode) (n : Nat) : (r.setResult c n).clock = r.clock := rfl
@[simp] theorem Reporting.raise_config (r : Reporting) (e : LogEntry) : (r.raise e).config = r.config := by
  unfold Reporting.raise; split <;> rfl
@[simp] theorem Reporting.raise_result (r : Reporting) (e : LogEntry) : (r.raise e).result = r.result := by
  unfold Reporting.raise; split <;> rfl
@[simp] theorem Reporting.raise_enables (r : Reporting) (e : LogEntry) : (r.raise e).enables = r.enables := by
  unfold Reporting.raise; split <;> rfl
@[simp] theorem Reporting.raise_stab (r : Reporting) (e : LogEntry) : (r.raise e).stab = r.stab := by
  unfold Reporting.raise; split <;> rfl
@[simp] theorem Reporting.raise_crystal (r : Reporting) (e : LogEntry) : (r.raise e).crystal = r.crystal := by
  unfold Reporting.raise; split <;> rfl
@[simp] theorem Reporting.raise_clock (r : Reporting) (e : LogEntry) : (r.raise e).clock = r.clock := by
  unfold Reporting.raise; split <;> rfl

end Sys2Proof.Machine
end

