-- ==== Sys2Proof/Laws/Quiet.lean ====
section
/-! SUPPORT. The relation of an operation that touches neither the queue of commands, the store, the configuration, the station
state, the OFFLINE cause, the view nor the line health unit, clears no flag, removes no log entry, and keeps the capacities:
everything such an operation can do to those, said once. -/

namespace Sys2Proof.Machine

/-- What a mild operation leaves as it is. -/
structure Mild (s t : State) : Prop where
  pending : t.pending = s.pending
  store   : t.store = s.store
  config  : t.rep.config = s.rep.config
  station : t.join.station = s.join.station
  cause   : t.join.cause = s.join.cause
  view    : t.view = s.view
  health  : t.health = s.health
  flags   : ∀ f : StatusFlag, f.isIn s.rep.flags = true → f.isIn t.rep.flags = true
  log     : s.rep.log <+: t.rep.log
  bounded : Bounded s → Bounded t

theorem Mild.refl (s : State) : Mild s s := ⟨rfl, rfl, rfl, rfl, rfl, rfl, rfl, fun _ => id, List.prefix_rfl, id⟩

theorem Mild.trans {a b c : State} (h : Mild a b) (k : Mild b c) : Mild a c :=
  ⟨k.pending.trans h.pending, k.store.trans h.store, k.config.trans h.config, k.station.trans h.station,
   k.cause.trans h.cause, k.view.trans h.view, k.health.trans h.health,
   fun f x => k.flags f (h.flags f x), h.log.trans k.log, fun x => k.bounded (h.bounded x)⟩

/-- A mild operation takes a sound state to a sound one. -/
theorem Mild.sound {s t : State} (h : Mild s t) (k : Sound s) : Sound t where
  store := by rw [h.store]; exact k.store
  bounded := h.bounded k.bounded
  cause := by rw [h.cause, h.station]; exact k.cause
  view := by rw [h.view, State.inGroup, h.station]; exact k.view

theorem Mild.inGroup {s t : State} (h : Mild s t) : t.inGroup = s.inGroup := by rw [State.inGroup, State.inGroup, h.station]

/-- The view held, and what is read off the configuration, stand. -/
theorem Mild.heldView {s t : State} (h : Mild s t) : t.heldView = s.heldView := by
  rw [State.heldView, State.heldView, h.inGroup, h.view]

theorem Mild.me {s t : State} (h : Mild s t) : t.me = s.me := by
  unfold State.me Reporting.field; rw [h.config]

theorem Mild.mode {s t : State} (h : Mild s t) (g : Segment) : t.mode g = s.mode g := by
  unfold State.mode Reporting.descriptor; rw [h.config]

theorem Mild.localState {s t : State} (h : Mild s t) (g : Segment) : t.localState g = s.localState g := by
  unfold State.localState; rw [h.mode, h.heldView, h.me]

/-- A change of the lists that are counted, within their capacities. -/
theorem Mild.ofParts {s t : State} (hp : t.pending = s.pending) (hs : t.store = s.store)
    (hc : t.rep.config = s.rep.config) (hj : t.join.station = s.join.station) (hk : t.join.cause = s.join.cause)
    (hv : t.view = s.view)
    (hl : s.rep.log.length ≤ logCapacity → t.rep.log.length ≤ logCapacity)
    (ho : s.rep.overflow ≤ overflowMax → t.rep.overflow ≤ overflowMax)
    (hq : s.out.length ≤ outboundCapacity → t.out.length ≤ outboundCapacity)
    (hr : s.repair.length ≤ repairCapacity → t.repair.length ≤ repairCapacity)
    (hg : s.gives.length ≤ giveCapacity → t.gives.length ≤ giveCapacity)
    (hh : t.health = s.health)
    (hf : ∀ f : StatusFlag, f.isIn s.rep.flags = true → f.isIn t.rep.flags = true := by exact fun _ h => h)
    (hx : s.rep.log <+: t.rep.log := by exact List.prefix_rfl) : Mild s t :=
  ⟨hp, hs, hc, hj, hk, hv, hh, hf, hx, fun b =>
    ⟨hl b.log, ho b.overflow, hq b.out, hr b.repair, hg b.gives, by rw [hh]; exact b.suspects, by rw [hh]; exact b.corrected⟩⟩

/-- A quiet operation: mild, and it leaves the store port, the group buffer, the give queue and the slot driven. -/
structure Quiet (s t : State) : Prop where
  mild  : Mild s t
  sp    : t.sp = s.sp
  group : t.group = s.group
  gives : t.gives = s.gives
  slot  : t.bus.slot = s.bus.slot

theorem Quiet.refl (s : State) : Quiet s s := ⟨Mild.refl s, rfl, rfl, rfl, rfl⟩

theorem Quiet.trans {a b c : State} (h : Quiet a b) (k : Quiet b c) : Quiet a c :=
  ⟨h.mild.trans k.mild, k.sp.trans h.sp, k.group.trans h.group, k.gives.trans h.gives, k.slot.trans h.slot⟩

/-- A change of the lists that are counted, within their capacities, the give queue apart. -/
theorem Quiet.ofParts {s t : State} (hp : t.pending = s.pending) (hs : t.store = s.store)
    (hc : t.rep.config = s.rep.config) (hj : t.join.station = s.join.station) (hk : t.join.cause = s.join.cause)
    (hv : t.view = s.view) (ha : t.sp = s.sp) (hb : t.group = s.group) (hg : t.gives = s.gives)
    (hl : s.rep.log.length ≤ logCapacity → t.rep.log.length ≤ logCapacity)
    (ho : s.rep.overflow ≤ overflowMax → t.rep.overflow ≤ overflowMax)
    (hq : s.out.length ≤ outboundCapacity → t.out.length ≤ outboundCapacity)
    (hr : s.repair.length ≤ repairCapacity → t.repair.length ≤ repairCapacity)
    (hh : t.health = s.health)
    (hf : ∀ f : StatusFlag, f.isIn s.rep.flags = true → f.isIn t.rep.flags = true := by exact fun _ h => h)
    (ht : t.bus.slot = s.bus.slot := by rfl) (hx : s.rep.log <+: t.rep.log := by exact List.prefix_rfl) : Quiet s t :=
  ⟨Mild.ofParts hp hs hc hj hk hv hl ho hq hr (fun h => by rw [hg]; exact h) hh hf hx, ha, hb, hg, ht⟩

/-! ### Flags and the log -/

theorem Reporting.raise_log (r : Reporting) (e : LogEntry) (h : r.log.length ≤ logCapacity) :
    (r.raise e).log.length ≤ logCapacity := by
  unfold Reporting.raise; split
  · simp only [List.length_append, List.length_cons, List.length_nil]; omega
  · exact h

theorem Reporting.raise_overflow (r : Reporting) (e : LogEntry) (h : r.overflow ≤ overflowMax) :
    (r.raise e).overflow ≤ overflowMax := by
  unfold Reporting.raise; split
  · exact h
  · exact Nat.min_le_right _ _

theorem StatusFlag.isIn_or (f : StatusFlag) (a b : BitVec 11) (h : f.isIn a = true) : f.isIn (a ||| b) = true := by
  unfold StatusFlag.isIn at h ⊢; rw [BitVec.getLsbD_or, h]; rfl

theorem Reporting.raise_flags (r : Reporting) (e : LogEntry) (f : StatusFlag) (h : f.isIn r.flags = true) :
    f.isIn (r.raise e).flags = true := by
  unfold Reporting.raise; split <;> exact f.isIn_or _ _ h

/-- A raised entry stands at the log's end, or is refused: none already held is removed. -/
theorem Reporting.raise_keeps (r : Reporting) (e : LogEntry) : r.log <+: (r.raise e).log := by
  unfold Reporting.raise; split
  · exact List.prefix_append _ _
  · exact List.prefix_rfl

theorem State.setFlag_quiet (s : State) (f : StatusFlag) : Quiet s (s.setFlag f) :=
  Quiet.ofParts rfl rfl rfl rfl rfl rfl rfl rfl rfl id id id id rfl fun x h => x.isIn_or _ _ h

theorem State.setFlagIf_quiet (s : State) (c : Bool) (f : StatusFlag) : Quiet s (s.setFlagIf c f) := by
  cases c
  · exact Quiet.refl s
  · exact s.setFlag_quiet f

theorem State.setResult_quiet (s : State) (c : ResultCode) (n : Nat) : Quiet s (s.setResult c n) :=
  Quiet.ofParts rfl rfl rfl rfl rfl rfl rfl rfl rfl id id id id rfl

theorem State.raise_quiet (s : State) (e : LogEntry) : Quiet s (s.raise e) :=
  Quiet.ofParts rfl rfl (Reporting.raise_config _ _) rfl rfl rfl rfl rfl rfl (s.rep.raise_log e)
      (s.rep.raise_overflow e) id id rfl
    (s.rep.raise_flags e) rfl (s.rep.raise_keeps e)

theorem State.raiseAll_quiet (es : List LogEntry) (s : State) : Quiet s (es.foldl State.raise s) := by
  induction es generalizing s with
  | nil => exact Quiet.refl s
  | cons e es ih => exact (s.raise_quiet e).trans (ih _)

/-! ### The port -/

theorem State.answer_quiet (s : State) (a : Status) (d : Word) : Quiet s (s.answer a d) :=
  Quiet.ofParts rfl rfl rfl rfl rfl rfl rfl rfl rfl id id id id rfl

theorem State.holdRequest_quiet (s : State) (r : Request) (a : Stage) : Quiet s (s.holdRequest r a) :=
  Quiet.ofParts rfl rfl rfl rfl rfl rfl rfl rfl rfl id id id id rfl

/-! ### The outbound queue -/

theorem combineFirst_length (refs : OutEntry → Bool) (i : WordIx) (d : Word) :
    ∀ (q r : List OutEntry), combineFirst refs i d q = some r → r.length = q.length
  | [], r, h => by simp [combineFirst] at h
  | e :: es, r, h => by
    unfold combineFirst at h
    split at h
    · simp only [Option.map_eq_some_iff] at h
      obtain ⟨x, _, rfl⟩ := h; rfl
    · simp only [Option.map_eq_some_iff] at h
      obtain ⟨x, hx, rfl⟩ := h
      simp [combineFirst_length refs i d es x hx]

/-- A write the queue takes leaves at most 32 entries. -/
theorem queueTake_length (st : Vector Record 16) (q r : List OutEntry) (l : Line) (i : WordIx) (d : Word)
    (h : queueTake st q l i d = some r) (hq : q.length ≤ outboundCapacity) : r.length ≤ outboundCapacity := by
  unfold queueTake at h
  split at h
  · rename_i x hx
    obtain rfl := Option.some.inj h
    have := combineFirst_length _ _ _ _ _ hx
    simp only [List.length_reverse] at this ⊢; omega
  · split at h
    · obtain rfl := Option.some.inj h
      simp only [List.length_append, List.length_cons, List.length_nil]; omega
    · exact absurd h (by simp)

theorem State.offerWrite_quiet (s : State) (r : Request) (d : Word) : Quiet s (s.offerWrite r d) := by
  unfold State.offerWrite; split
  · rename_i q h
    exact Quiet.ofParts rfl rfl rfl rfl rfl rfl rfl rfl rfl id id (queueTake_length _ _ _ _ _ _ h) id rfl
  · exact s.holdRequest_quiet _ _

theorem State.judgeWrite_quiet (s : State) (r : Request) (d : Word) : Quiet s (s.judgeWrite r d) := by
  unfold State.judgeWrite
  split <;> (try split) <;>
    first | exact s.answer_quiet _ _ | exact s.holdRequest_quiet _ _ | exact s.offerWrite_quiet _ _

theorem State.judgeRead_quiet (s : State) (r : Request) : Quiet s (s.judgeRead r) := by
  unfold State.judgeRead State.judgeMemberRead State.judgeStaleRead State.sendRead
  repeat' split
  all_goals first | exact s.answer_quiet _ _ | exact s.holdRequest_quiet _ _

theorem State.judge_quiet (s : State) (r : Request) : Quiet s (s.judge r) := by
  unfold State.judge State.judgeSegment
  repeat' split
  all_goals first
    | exact s.answer_quiet _ _ | exact s.holdRequest_quiet _ _ | exact s.judgeRead_quiet _ | exact s.judgeWrite_quiet _ _

theorem State.retake_quiet (s : State) (a : Stage) : Quiet s (s.retake a) := by
  unfold State.retake; repeat' split
  all_goals first | exact s.judge_quiet _ | exact Quiet.refl s

theorem State.takeRequest_quiet (s : State) (d : Direction) (a : BitVec 16) : Quiet s (s.takeRequest d a) := by
  unfold State.takeRequest; split
  · exact Quiet.refl s
  · exact s.judge_quiet _

/-! ### The repair list -/

theorem repairMap_length (xs : List RepairEntry) (l : Line) (f : RepairEntry → RepairEntry) :
    (repairMap xs l f).length = xs.length := by simp [repairMap]

theorem repairInsert_length (xs ys : List RepairEntry) (e : RepairEntry) (h : repairInsert xs e = some ys)
    (hx : xs.length ≤ repairCapacity) : ys.length ≤ repairCapacity := by
  unfold repairInsert at h
  split at h
  · obtain rfl := Option.some.inj h
    simp only [List.length_append, List.length_cons, List.length_nil]; omega
  · split at h
    · exact absurd h (by simp)
    · rename_i hn
      obtain rfl := Option.some.inj h
      have : ∃ x ∈ xs, (!x.asking) = true := by simpa using hn
      obtain ⟨x, hx1, hx2⟩ := this
      have h1 := List.length_eraseP_of_mem (p := fun x : RepairEntry => !x.asking) hx1 hx2
      have : 0 < xs.length := List.length_pos_of_mem hx1
      simp only [List.length_append, List.length_cons, List.length_nil, h1]; omega

theorem State.handWord_quiet (s : State) (o : Origin) (l : Line) (i : WordIx) : Quiet s (s.handWord o l i).2 := by
  unfold State.handWord
  dsimp only
  repeat' split
  all_goals first
    | exact s.raise_quiet _
    | exact Quiet.refl s
    | exact Quiet.ofParts rfl rfl rfl rfl rfl rfl rfl rfl rfl id id id (fun h => by rw [repairMap_length]; exact h) rfl
    | (rename_i h
       exact Quiet.ofParts rfl rfl rfl rfl rfl rfl rfl rfl rfl id id id (repairInsert_length _ _ _ h) rfl)
    | (rename_i xs h
       refine Quiet.trans (b := { s with repair := xs }) ?_ (State.raise_quiet _ _)
       exact Quiet.ofParts rfl rfl rfl rfl rfl rfl rfl rfl rfl id id id (repairInsert_length _ _ _ h) rfl)

theorem State.answerCorrupt_quiet (s : State) (r : Request) : Quiet s (s.answerCorrupt r) :=
  (s.handWord_quiet _ _ _).trans (State.answer_quiet _ _ _)

theorem State.handRead_quiet (s : State) (r : Request) : Quiet s (s.handRead r) := by
  unfold State.handRead
  have h := s.handWord_quiet .localRead r.line r.word
  split <;> rename_i s' e <;> rw [e] at h
  · exact h.trans (State.holdRequest_quiet _ _ _)
  · exact h.trans (State.answer_quiet _ _ _)
  · exact h.trans (State.holdRequest_quiet _ _ _)

theorem State.endRead_quiet (s : State) (r : Request) (c : Cell) : Quiet s (s.endRead r c) := by
  unfold State.endRead State.judgeCompletedRead State.answerMember State.answerRead
  dsimp only
  repeat' split
  all_goals first
    | exact s.answerCorrupt_quiet _ | exact s.handRead_quiet _ | exact s.answer_quiet _ _

theorem State.releaseRead_quiet (s : State) : Quiet s s.releaseRead := by
  unfold State.releaseRead
  repeat' split
  all_goals first | exact s.judge_quiet _ | exact s.answer_quiet _ _ | exact Quiet.refl s

theorem State.corruptHeldRead_quiet (s : State) : Quiet s s.corruptHeldRead := by
  unfold State.corruptHeldRead
  repeat' split
  all_goals first | exact s.answer_quiet _ _ | exact Quiet.refl s

/-! ### The walker -/

theorem State.walker_quiet (s : State) (w : Walker) : Quiet s { s with walker := w } :=
  Quiet.ofParts rfl rfl rfl rfl rfl rfl rfl rfl rfl id id id id rfl

theorem State.chooseLine_quiet (s : State) : Quiet s s.chooseLine := by
  unfold State.chooseLine State.presentStep
  repeat' split
  · exact s.walker_quiet _
  · exact ((s.walker_quiet _).trans (State.setFlag_quiet _ _)).trans (State.walker_quiet _ _)
  · exact s.walker_quiet _

theorem State.endStep_quiet (s : State) : Quiet s s.endStep := s.walker_quiet _

theorem State.handStep_quiet (l : Line) : ∀ (is : List WordIx) (s : State), Quiet s (State.handStep l is s)
  | [], s => s.endStep_quiet
  | i :: is, s => by
    unfold State.handStep
    have h := s.handWord_quiet .scrub l i
    split <;> rename_i s' e <;> rw [e] at h
    · exact h.trans (State.walker_quiet _ _)
    · exact (h.trans (State.walker_quiet _ _)).trans (State.handStep_quiet l is _)

theorem State.handOn_quiet (s : State) : Quiet s s.handOn := by
  unfold State.handOn; split
  · exact State.handStep_quiet _ _ s
  · exact s.endStep_quiet

theorem State.finishStep_quiet (s : State) (l : Line) (cs : Vector Cell 4) : Quiet s (s.finishStep l cs) :=
  (s.walker_quiet _).trans (State.handOn_quiet _)

theorem State.wakeWalker_quiet (s : State) : Quiet s s.wakeWalker := by
  unfold State.wakeWalker; split
  · exact s.handOn_quiet
  · exact Quiet.refl s

theorem State.reviewWalker_quiet (s : State) : Quiet s s.reviewWalker := by
  unfold State.reviewWalker
  repeat' split
  all_goals first | exact s.chooseLine_quiet | exact Quiet.refl s

/-! ### Catch-up -/

theorem State.catchup_quiet (s : State) (c : CatchUp) : Quiet s { s with catchup := c } :=
  Quiet.ofParts rfl rfl rfl rfl rfl rfl rfl rfl rfl id id id id rfl

theorem State.moveToken_quiet (s : State) : Quiet s s.moveToken := by
  unfold State.moveToken; repeat' split
  all_goals exact s.catchup_quiet _

theorem State.presentServe_quiet (s : State) : Quiet s s.presentServe := by
  unfold State.presentServe; repeat' split
  all_goals exact s.catchup_quiet _

theorem State.handPrefetch_quiet (l : Line) : ∀ (is : List WordIx) (s : State), Quiet s (State.handPrefetch l is s).2
  | [], s => Quiet.refl s
  | i :: is, s => by
    unfold State.handPrefetch
    have h := s.handWord_quiet .prefetch l i
    split <;> rename_i s' e <;> rw [e] at h
    · exact h
    · exact h
    · exact h.trans (State.handPrefetch_quiet l is _)

theorem State.endServe_quiet (s : State) (k : JobIx) (g : Segment) (o : Nat) (cs : Vector Cell 4) :
    Quiet s (s.endServe k g o cs) := by
  unfold State.endServe
  dsimp only
  have h := State.handPrefetch_quiet (lineAt g o) (WordMask.words (uncorrectableMask cs)) s
  split <;> rename_i s' e <;> rw [e] at h <;> exact h.trans (State.catchup_quiet _ _)

theorem State.releaseJobs_quiet (s : State) (room : Bool) : Quiet s (s.releaseJobs room) := s.catchup_quiet _

theorem State.endRun_quiet (s : State) (k : JobIx) (e : Ending) : Quiet s (s.endRun k e) := by
  cases e <;> exact s.catchup_quiet _

theorem State.reviewMonitors_quiet (s : State) (b : Segment → Option Station) : Quiet s (s.reviewMonitors b) := s.catchup_quiet _

theorem State.judgeStalls_quiet (s : State) : Quiet s s.judgeStalls := s.catchup_quiet _

theorem State.expireWindow_quiet (s : State) (g : Segment) : Quiet s (s.expireWindow g) := by
  unfold State.expireWindow; dsimp only; split <;> exact s.catchup_quiet _

/-! ### The store port -/

theorem State.sp_mild (s : State) (p : StorePort) : Mild s { s with sp := p } :=
  Mild.ofParts rfl rfl rfl rfl rfl rfl id id id id id rfl

theorem State.idlePort_mild (s : State) : Mild s s.idlePort := s.sp_mild _

theorem State.releaseHeld_quiet (s : State) (room : Bool) : Quiet s (s.releaseHeld room) := by
  unfold State.releaseHeld; dsimp only; split
  · exact ((s.releaseRead_quiet.trans (State.releaseJobs_quiet _ _)).trans (State.wakeWalker_quiet _)).trans
      (State.retake_quiet _ _)
  · exact s.releaseRead_quiet.trans (State.releaseJobs_quiet _ _)

theorem State.releaseSince_quiet (s : State) (b : List RepairEntry) : Quiet s (s.releaseSince b) := by
  unfold State.releaseSince; split
  · exact Quiet.refl s
  · exact s.releaseHeld_quiet _

theorem State.presentGive_mild (s : State) : Mild s s.presentGive := by
  unfold State.presentGive; repeat' split
  all_goals first
    | exact Mild.refl s
    | exact Mild.ofParts rfl rfl rfl rfl rfl rfl id id id id (fun h => by simpa using h) rfl

theorem State.presentFill_mild (s : State) : Mild s s.presentFill := by
  unfold State.presentFill; repeat' split
  all_goals exact s.sp_mild _

theorem State.begin_mild (s : State) (r : Running) : Mild s (s.begin r) :=
  Mild.ofParts rfl rfl rfl rfl rfl rfl id id id id id rfl

theorem State.grant_mild (s : State) : Mild s s.grant := by
  unfold State.grant; repeat' split
  all_goals first | exact s.begin_mild _ | exact Mild.refl s

theorem State.settle_mild (s : State) : Mild s s.settle := by
  unfold State.settle; split
  · exact (((((s.reviewWalker_quiet.mild.trans (State.presentGive_mild _)).trans (State.sp_mild _ _)).trans
      (State.presentServe_quiet _).mild).trans (State.presentFill_mild _)).trans (State.grant_mild _))
  · exact Mild.refl s

theorem State.handGive_quiet (s : State) (l : Line) (m : WordMask) : Quiet s (s.handGive l m) := by
  unfold State.handGive
  generalize WordMask.words m = ws
  induction ws generalizing s with
  | nil => exact Quiet.refl s
  | cons i is ih => exact (s.handWord_quiet .bus l i).trans (ih _)

end Sys2Proof.Machine
end

