-- ==== Sys2Proof/Laws/Settle.lean ====
section
/-! SUPPORT. Everything the presenting of operations and the grant can do: `State.settle` leaves a state `Settled`. -/

namespace Sys2Proof.Machine

/-- The grant of an operation changes what its own claimant presents, and no other's. -/
theorem State.begin_presented (s : State) (r : Running) (c : Claimant) (h : c ≠ r.claimant) :
    (s.begin r).presented c = s.presented c := by
  have h1 : (s.begin r).sp.spareCopy = if r.claimant = .spareCopy then none else s.sp.spareCopy := rfl
  have h2 : (s.begin r).walker = if r.claimant = .scrub then { s.walker with state := .stepping } else s.walker := rfl
  cases c
  · rfl
  · rfl
  · rfl
  · show (s.begin r).sp.spareCopy = _
    rw [h1, if_neg fun e => h e.symm]; rfl
  · rfl
  · show (if (s.begin r).walker.state = .waiting then _ else _) = _
    have h3 : (s.begin r).walker = s.walker := by rw [h2, if_neg (fun e : r.claimant = .scrub => h e.symm)]
    rw [h3]; rfl
  · rfl

/-- The first claimant of a list that presents. -/
theorem findSome_first (f : Claimant → Option Running) (hf : ∀ c r, f c = some r → r.claimant = c) :
    ∀ (cs : List Claimant) (r : Running), cs.findSome? f = some r → ∀ c, cs.idxOf c < cs.idxOf r.claimant → f c = none
  | [], r, h, c, hc => by simp at h
  | a :: as, r, h, c, hc => by
    by_cases ha : a = c
    · subst ha
      rw [List.findSome?_cons] at h
      cases e : f a with
      | none => rfl
      | some x =>
        rw [e] at h
        obtain rfl := Option.some.inj h
        rw [hf _ _ e] at hc
        exact absurd hc (lt_irrefl _)
    · rw [List.findSome?_cons] at h
      cases e : f a with
      | none =>
        rw [e] at h
        have h2 := findSome_first f hf as r h c
        rw [List.idxOf_cons_ne as ha] at hc
        by_cases hr : a = r.claimant
        · subst hr; rw [List.idxOf_cons_self] at hc; omega
        · rw [List.idxOf_cons_ne as hr] at hc; exact h2 (by omega)
      | some x =>
        rw [e] at h
        obtain rfl := Option.some.inj h
        rw [hf _ _ e, List.idxOf_cons_self] at hc; omega

theorem State.nextGrant_none (s : State) (h : s.nextGrant = none) (c : Claimant) : s.presented c = none := by
  unfold State.nextGrant at h
  rw [List.findSome?_eq_none_iff] at h
  have := h c (by cases c <;> decide)
  simpa using this

theorem State.nextGrant_first (s : State) (r : Running) (h : s.nextGrant = some r) (c : Claimant)
    (hc : claimants.idxOf c < claimants.idxOf r.claimant) : s.presented c = none := by
  have := findSome_first (fun c => (s.presented c).map fun op => (⟨c, op⟩ : Running))
    (fun c r e => by simp only [Option.map_eq_some_iff] at e; obtain ⟨_, _, rfl⟩ := e; rfl) claimants r h c hc
  simpa using this

/-- The state before the grant, as the grant finds it. -/
theorem State.grant_cases (s : State) :
    (∃ r, s.sp.running = some r ∧ s.grant = s) ∨ (s.sp.running = none ∧ s.nextGrant = none ∧ s.grant = s) ∨
      ∃ r, s.sp.running = none ∧ s.nextGrant = some r ∧ s.grant = s.begin r := by
  unfold State.grant
  cases h : s.sp.running with
  | some r => exact .inl ⟨r, rfl, rfl⟩
  | none =>
    cases g : s.nextGrant with
    | none => exact .inr (.inl ⟨rfl, rfl, rfl⟩)
    | some r => exact .inr (.inr ⟨r, rfl, rfl, rfl⟩)

theorem State.grant_idle (s : State) (h : s.grant.sp.running = none) (c : Claimant) : s.grant.presented c = none := by
  rcases s.grant_cases with ⟨r, h1, h2⟩ | ⟨_, h1, h2⟩ | ⟨r, _, _, h2⟩
  · rw [h2, h1] at h; exact absurd h (by simp)
  · rw [h2]; exact s.nextGrant_none h1 c
  · rw [h2] at h; exact absurd h (by simp [State.begin])

theorem State.grant_priority (s : State) (hs : s.sp.running = none) (r : Running) (h : s.grant.sp.running = some r) (c : Claimant)
    (hc : claimants.idxOf c < claimants.idxOf r.claimant) : s.grant.presented c = none := by
  rcases s.grant_cases with ⟨r', h1, h2⟩ | ⟨_, h1, h2⟩ | ⟨r', _, h1, h2⟩
  · rw [h1] at hs; exact absurd hs (by simp)
  · rw [h2, hs] at h; exact absurd h (by simp)
  · rw [h2] at h ⊢
    obtain rfl : r' = r := by simpa [State.begin] using h
    rw [State.begin_presented _ _ _ (fun e => by subst e; exact lt_irrefl _ hc)]
    exact s.nextGrant_first r' h1 c hc

/-- What GIVE_READ presents depends on the operation in progress and the give queue. -/
theorem State.presentGive_congr (s t : State) (h : t.sp.running = s.sp.running) (g : t.gives = s.gives) :
    t.presentGive.gives = s.presentGive.gives := by
  have hr : t.runningFor .giveRead = s.runningFor .giveRead := by unfold State.runningFor; rw [h]
  unfold State.presentGive
  rw [hr, g]
  repeat' split
  all_goals first | rfl | exact g

/-- What SERVE presents depends on the operation in progress, the job table and the view held. -/
theorem State.presentServe_congr (s t : State) (h : t.sp.running = s.sp.running) (c : t.catchup = s.catchup)
    (v : t.heldView = s.heldView) : t.presentServe.catchup = s.presentServe.catchup := by
  have hn : t.jobNeedsRead = s.jobNeedsRead := by
    funext k; unfold State.jobNeedsRead State.jobCursor; rw [c, v]
  have hc : t.jobCursor = s.jobCursor := by funext j; unfold State.jobCursor; rw [v]
  unfold State.presentServe State.serving
  rw [h, c, hn, hc]
  repeat' split
  all_goals first | rfl | exact c

/-- What SPARE_COPY presents depends on the store, the store port, the marks and the configuration. -/
theorem State.presentSpareCopy_congr (s t : State) (hs : t.store = s.store) (hp : t.sp = s.sp) (hh : t.health = s.health)
    (hc : t.rep.config = s.rep.config) : t.presentSpareCopy.sp.spareCopy = s.presentSpareCopy.sp.spareCopy := by
  have hw : t.copyWanted = s.copyWanted := by
    funext op; cases op <;> simp only [State.copyWanted, hs, hh]
  have hd : t.copyDue = s.copyDue := by
    have h1 : t.returnDue = s.returnDue := by funext k; unfold State.returnDue; rw [hs, hh]
    have h2 : t.fillDue = s.fillDue := by
      funext k; unfold State.fillDue State.fillPending State.mode Reporting.descriptor; rw [hs, hh, hp, hc]
    unfold State.copyDue; rw [h1, h2]
  unfold State.presentSpareCopy State.runningFor
  rw [hs, hp, hw, hd]

/-- What FILL presents depends on the fill states. -/
theorem State.presentFill_congr (s t : State) (hf : t.sp.fill = s.sp.fill) (hn : t.sp.fillNext = s.sp.fillNext) :
    t.presentFill.sp.fill = s.presentFill.sp.fill ∧ t.presentFill.sp.fillNext = s.presentFill.sp.fillNext := by
  unfold State.presentFill StorePort.fillingSegment StorePort.setFill
  rw [hf]
  repeat' split
  all_goals first | exact ⟨rfl, rfl⟩ | exact ⟨hf, hn⟩

/-- What the presenting of operations and the grant leave alone, and what they may change, field by field. -/
theorem State.settle_settled (s : State) : Settled s s.settle := by
  unfold State.settle
  split
  · rename_i hs
    -- the walker
    have w1 : ∀ t, t = s.reviewWalker → (t.rep = s.rep ∨ (s.walker.state = .waiting ∧ t.rep = s.rep.setFlag .scrubPass)) ∧
        (s.walker.state ≠ .waiting → t.walker = s.walker) ∧ t.walker.cursor = s.walker.cursor ∧
        t.walker.interval = s.walker.interval ∧ t = { s with walker := t.walker, rep := t.rep } := by
      rintro t rfl
      unfold State.reviewWalker
      split
      · rename_i l hw hl
        split
        · exact ⟨.inl rfl, fun _ => rfl, rfl, rfl, rfl⟩
        · unfold State.chooseLine State.presentStep
          repeat' split
          · exact ⟨.inl rfl, fun h => absurd hw h, rfl, rfl, rfl⟩
          · exact ⟨.inr ⟨hw, rfl⟩, fun h => absurd hw h, rfl, rfl, rfl⟩
          · exact ⟨.inl rfl, fun h => absurd hw h, rfl, rfl, rfl⟩
      · exact ⟨.inl rfl, fun _ => rfl, rfl, rfl, rfl⟩
    obtain ⟨hr, hw, hc, hi, ht⟩ := w1 _ rfl
    have hcfg : s.reviewWalker.rep.config = s.rep.config := by rcases hr with h | ⟨_, h⟩ <;> rw [h] <;> rfl
    generalize s.reviewWalker = a at *
    -- GIVE_READ
    have hg : a.presentGive.gives = s.presentGive.gives := State.presentGive_congr _ _ (by rw [ht]) (by rw [ht])
    have ha : a.presentGive = { a with gives := a.presentGive.gives } := by
      unfold State.presentGive
      repeat' split
      all_goals rfl
    generalize a.presentGive = b at *
    -- SPARE_COPY
    have p1 : b.presentSpareCopy = { b with sp := { b.sp with spareCopy := b.presentSpareCopy.sp.spareCopy } } := rfl
    have hsc : b.presentSpareCopy.sp.spareCopy = s.presentSpareCopy.sp.spareCopy :=
      State.presentSpareCopy_congr _ _ (by rw [ha, ht]) (by rw [ha, ht]) (by rw [ha, ht]) (by rw [ha]; exact hcfg)
    generalize b.presentSpareCopy = c at *
    -- SERVE
    have hk : c.presentServe.catchup = s.presentServe.catchup :=
      State.presentServe_congr _ _ (by rw [p1, ha, ht]) (by rw [p1, ha, ht])
        (by unfold State.heldView State.inGroup; rw [p1, ha, ht])
    have hd : c.presentServe = { c with catchup := c.presentServe.catchup } := by
      unfold State.presentServe; repeat' split
      all_goals rfl
    generalize c.presentServe = d at *
    -- FILL
    have f1 : (∀ g : Segment, d.presentFill.sp.fill[g] = d.sp.fill[g] ∨ (d.sp.fill[g] = .waiting ∧ d.presentFill.sp.fill[g] =
        .filling)) ∧
        d.presentFill = { d with sp := { d.sp with fill := d.presentFill.sp.fill, fillNext := d.presentFill.sp.fillNext } } := by
      unfold State.presentFill
      repeat' split
      · exact ⟨fun _ => .inl rfl, rfl⟩
      · rename_i g hg'
        refine ⟨fun x => ?_, rfl⟩
        have hwg := List.find?_some hg'
        by_cases e : g = x
        · subst e; right; refine ⟨by simpa using hwg, ?_⟩
          simp [StorePort.setFill]
        · left
          have : g.val ≠ x.val := fun h => e (Fin.ext h)
          simp [StorePort.setFill, this]
      · exact ⟨fun _ => .inl rfl, rfl⟩
    obtain ⟨hf, he⟩ := f1
    have hfn : d.presentFill.sp.fill = s.presentFill.sp.fill ∧ d.presentFill.sp.fillNext = s.presentFill.sp.fillNext :=
      State.presentFill_congr _ _ (by rw [hd, p1, ha, ht]) (by rw [hd, p1, ha, ht])
    generalize d.presentFill = e at *
    -- the grant
    have hidle := e.grant_idle
    have hprio := e.grant_priority
    have n1 : e.grant = { e with sp := { e.sp with running := e.grant.sp.running, spareCopy := e.grant.sp.spareCopy },
                                 walker := e.grant.walker } ∧
        (∀ r, e.sp.running = some r → e.grant.sp.running = some r) ∧
        (e.walker.state ≠ .waiting → e.grant.walker = e.walker) ∧
        e.grant.walker.cursor = e.walker.cursor ∧ e.grant.walker.interval = e.walker.interval ∧
        (e.grant.sp.spareCopy = e.sp.spareCopy ∨
          (e.grant.sp.spareCopy = none ∧ ∃ op, e.sp.spareCopy = some op ∧ e.grant.sp.running = some ⟨.spareCopy, op⟩)) := by
      rcases e.grant_cases with ⟨r, h1, h2⟩ | ⟨h0, h1, h2⟩ | ⟨r, h0, h1, h2⟩
      · rw [h2]; exact ⟨rfl, fun _ h => h, fun _ => rfl, rfl, rfl, .inl rfl⟩
      · rw [h2]; exact ⟨rfl, fun _ h => h, fun _ => rfl, rfl, rfl, .inl rfl⟩
      · rw [h2]
        have hr : e.presented r.claimant = some r.op := by
          unfold State.nextGrant at h1
          obtain ⟨c, _, hc⟩ := List.exists_of_findSome?_eq_some h1
          simp only [Option.map_eq_some_iff] at hc
          obtain ⟨op, hop, rfl⟩ := hc; exact hop
        refine ⟨rfl, fun r h => by rw [h0] at h; exact absurd h (by simp), ?_, ?_, ?_, ?_⟩
        · intro hn
          have hx : r.claimant ≠ .scrub := by
            intro hx
            rw [hx] at hr
            simp [State.presented, hn] at hr
          simp [State.begin, hx]
        · unfold State.begin; dsimp only; split <;> rfl
        · unfold State.begin; dsimp only; split <;> rfl
        · by_cases hx : r.claimant = .spareCopy
          · right
            rw [hx] at hr
            refine ⟨by simp [State.begin, hx], r.op, hr, ?_⟩
            show some r = _
            rw [← hx]
          · left; simp [State.begin, hx]
    obtain ⟨hn, hb, hwn, hcn, hin, hsn⟩ := n1
    generalize e.grant = t at *
    have hda : d.sp.applyList = s.sp.applyList ∧ d.sp.running = s.sp.running ∧ d.sp.fill = s.sp.fill := by
      rw [hd, p1, ha, ht]; exact ⟨rfl, rfl, rfl⟩
    have hst : e.walker = a.walker := by rw [he, hd, p1, ha]
    have her : e.sp.running = s.sp.running := by rw [he, ← hda.2.1]
    refine
      { pending := by rw [hn, he, hd, p1, ha, ht], store := by rw [hn, he, hd, p1, ha, ht],
        health := by rw [hn, he, hd, p1, ha, ht], port := by rw [hn, he, hd, p1, ha, ht],
        out := by rw [hn, he, hd, p1, ha, ht], commit := by rw [hn, he, hd, p1, ha, ht],
        group := by rw [hn, he, hd, p1, ha, ht], bus := by rw [hn, he, hd, p1, ha, ht],
        view := by rw [hn, he, hd, p1, ha, ht], join := by rw [hn, he, hd, p1, ha, ht],
        repair := by rw [hn, he, hd, p1, ha, ht], rep := ?_, gives := ?_, catchup := ?_, spareCopy := fun _ => ?_,
        fillNow := fun _ => ?_, still := fun h => absurd h (by rw [hs]; simp), walker := ?_, pace := ?_, applyList := ?_, fill :=
            ?_, busy := ?_, idle := fun _ => hidle, priority := fun _ h => hprio (her.trans h) }
    · have : t.rep = a.rep := by rw [hn, he, hd, p1, ha]
      rw [this]; exact hr
    · have : t.gives = b.gives := by rw [hn, he, hd, p1]
      rw [if_pos hs, this]; exact hg
    · have : t.catchup = d.catchup := by rw [hn, he]
      rw [if_pos hs, this]; exact hk
    · have : e.sp.spareCopy = s.presentSpareCopy.sp.spareCopy := by rw [he, hd]; exact hsc
      rw [← this]; exact hsn
    · have h1 : t.sp.fill = e.sp.fill := by rw [hn]
      have h2 : t.sp.fillNext = e.sp.fillNext := by rw [hn]
      rw [h1, h2]; exact hfn
    · intro h
      have h1 := hw h
      rw [hwn (by rw [hst, h1]; exact h), hst, h1]
    · rw [hcn, hin, hst]; exact ⟨hc, hi⟩
    · rw [hn, he]; exact hda.1
    · intro g
      have : t.sp.fill = e.sp.fill := by rw [hn]
      rw [this, ← hda.2.2]; exact hf g
    · intro r h; exact hb r (her.trans h)
  · rename_i hs
    exact { pending := rfl, store := rfl, health := rfl, port := rfl, out := rfl, commit := rfl, group := rfl, bus := rfl,
            view := rfl, join := rfl, repair := rfl, rep := .inl rfl, gives := by rw [if_neg hs],
            catchup := by rw [if_neg hs], spareCopy := fun h => absurd h hs, fillNow := fun h => absurd h hs, still := fun _ =>
                rfl,
            walker := fun _ => rfl, pace := ⟨rfl, rfl⟩, applyList := rfl, fill := fun _ => .inl rfl, busy := fun _ h => h,
            idle := fun h => absurd h hs, priority := fun h => absurd h hs }

end Sys2Proof.Machine
end

