-- ==== Sys2Proof/Laws/Claims.lean ====
section
/-! SUPPORT. What the claimants choose from: the ring from a job on, and a claimant with nothing in progress. -/

namespace Sys2Proof.Machine

theorem State.runningFor_false (s : State) (c) (h : ∀ r, s.sp.running = some r → r.claimant ≠ c) : s.runningFor c = false := by
  unfold State.runningFor
  split
  · rename_i r e; simpa using h r e
  · rfl

theorem CatchUp.ringFrom_split (c : CatchUp) (b a : List JobIx) (k : JobIx) (h : c.ring = b ++ k :: a) (hn : k ∉ b) :
    c.ringFrom k = k :: a ++ b := by
  unfold CatchUp.ringFrom
  rw [h]
  have h1 : ∀ x ∈ b, (x != k) = true := by intro x hx; rw [bne_iff_ne]; rintro rfl; exact hn hx
  rw [List.dropWhile_append_of_pos h1, List.takeWhile_append_of_pos h1]
  simp

end Sys2Proof.Machine
end

