-- ==== Sys2Proof/Laws/Store.lean ====
section
/-! SUPPORT. The retention domain: the canonical form is kept by every operation, what a word reads after a write, and what an
operation leaves of the table and the marker. -/

namespace Sys2Proof

/-- Two words have one key only when they are one word. -/
theorem StoreWord.key_inj {a b : StoreWord} (h : a.key = b.key) : a = b := by
  cases a <;> cases b <;> simp only [StoreWord.key] at h
  · rename_i x y
    exact congrArg _ (BitVec.eq_of_toNat_eq h)
  · rename_i x k w; have := x.isLt; omega
  · rename_i k w x; have := x.isLt; omega
  · rename_i k w k' w'
    have h1 : k = k' := Fin.ext (by have := w.isLt; have := w'.isLt; omega)
    have h2 : w = w' := Fin.ext (by omega)
    rw [h1, h2]

/-- A word index is in the list of a mask exactly when the mask has it. -/
theorem WordMask.mem_words (m : WordMask) (i : WordIx) : i ∈ m.words ↔ WordMask.has m i = true := by
  simp [WordMask.words, wordIxs]

end Sys2Proof

namespace Sys2Proof.Machine

/-! ### The listing -/

theorem cellsRising_cons (a : Nat × Cell) (xs : List (Nat × Cell)) :
    cellsRising (a :: xs) = ((xs.head?.all fun b => decide (a.1 < b.1)) && cellsRising xs) := by
  cases xs <;> simp [cellsRising]

theorem insertCell_head (k : Nat) (c : Cell) (xs : List (Nat × Cell)) (n : Nat) (h : n < k)
    (hx : (xs.head?.all fun b => decide (n < b.1)) = true) :
    ((insertCell k c xs).head?.all fun b => decide (n < b.1)) = true := by
  cases xs with
  | nil => simpa [insertCell] using h
  | cons e es =>
    simp only [insertCell]
    split
    · simpa using h
    · split
      · simpa using h
      · simpa using hx

/-- Putting a cell in a rising listing leaves it rising. -/
theorem cellsRising_insertCell (k : Nat) (c : Cell) (xs : List (Nat × Cell)) (h : cellsRising xs = true) :
    cellsRising (insertCell k c xs) = true := by
  induction xs with
  | nil => rfl
  | cons e es ih =>
    rw [cellsRising_cons, Bool.and_eq_true] at h
    simp only [insertCell]
    split
    · rename_i hk
      rw [cellsRising_cons, cellsRising_cons, h.1, h.2]; simpa using hk
    · split
      · rename_i hk
        rw [cellsRising_cons, h.2, Bool.and_true, hk]; exact h.1
      · rw [cellsRising_cons, ih h.2, Bool.and_true]
        exact insertCell_head k c es e.1 (by omega) h.1

theorem lookup_entry (j : Nat) (e : Nat × Cell) (es : List (Nat × Cell)) :
    (e :: es).lookup j = if j = e.1 then some e.2 else es.lookup j := by
  rw [List.lookup_cons]
  by_cases h : j = e.1
  · simp [h]
  · have : (j == e.1) = false := by simpa using h
    rw [this, if_neg h]

theorem lookup_insertCell (k j : Nat) (c : Cell) (xs : List (Nat × Cell)) :
    (insertCell k c xs).lookup j = if j = k then some c else xs.lookup j := by
  induction xs with
  | nil => exact lookup_entry j (k, c) []
  | cons e es ih =>
    simp only [insertCell]
    split
    · exact lookup_entry j (k, c) (e :: es)
    · split
      · rename_i hk
        rw [lookup_entry j (k, c) es, lookup_entry j e es, hk]
        split <;> rfl
      · rename_i hk
        rw [lookup_entry, lookup_entry, ih]
        by_cases h : j = e.1
        · have : ¬ j = k := fun x => hk (by rw [← x, h])
          rw [if_pos h, if_neg this, if_pos h]
        · rw [if_neg h, if_neg h]

/-! ### One word -/

/-- What a word reads after one word is written. -/
theorem Store.cell_put (st : Store) (w x : StoreWord) (c : Cell) :
    (st.put w c).cell x = if x = w then c else st.cell x := by
  unfold Store.cell Store.put
  simp only [lookup_insertCell]
  by_cases h : x = w
  · simp [h]
  · have : x.key ≠ w.key := fun k => h (StoreWord.key_inj k)
    simp [h, this]

theorem Store.put_wf (st : Store) (w : StoreWord) (c : Cell) (h : st.wf = true) : (st.put w c).wf = true :=
  cellsRising_insertCell _ _ _ h

/-- What an operation on words leaves of the rest of the retention domain. -/
structure SameTable (a b : Store) : Prop where
  table  : b.table = a.table
  lost   : b.tableLost = a.tableLost
  marker : b.marker = a.marker
  losses : b.losses = a.losses
  wf     : a.wf = true → b.wf = true

theorem SameTable.refl (a : Store) : SameTable a a := ⟨rfl, rfl, rfl, rfl, id⟩

theorem SameTable.trans {a b c : Store} (h : SameTable a b) (k : SameTable b c) : SameTable a c :=
  ⟨k.table.trans h.table, k.lost.trans h.lost, k.marker.trans h.marker, k.losses.trans h.losses, fun x => k.wf (h.wf x)⟩

theorem Store.put_same (st : Store) (w : StoreWord) (c : Cell) : SameTable st (st.put w c) :=
  ⟨rfl, rfl, rfl, rfl, st.put_wf w c⟩

/-! ### The words of a mask -/

theorem putWords_same (at' : WordIx → StoreWord) (cell : WordIx → Cell) (is : List WordIx) (st : Store) :
    SameTable st (is.foldl (fun st i => st.put (at' i) (cell i)) st) := by
  induction is generalizing st with
  | nil => exact SameTable.refl st
  | cons i is ih => exact (st.put_same _ _).trans (ih _)

theorem Store.putMask_same (st : Store) (at' : WordIx → StoreWord) (m : WordMask) (cell : WordIx → Cell) :
    SameTable st (st.putMask at' m cell) := putWords_same at' cell m.words st

theorem putWords_other (at' : WordIx → StoreWord) (cell : WordIx → Cell) (x : StoreWord) (is : List WordIx) (st : Store)
    (h : ∀ i ∈ is, at' i ≠ x) : (is.foldl (fun st i => st.put (at' i) (cell i)) st).cell x = st.cell x := by
  induction is generalizing st with
  | nil => rfl
  | cons i is ih =>
    rw [List.foldl_cons, ih _ fun j hj => h j (List.mem_cons_of_mem _ hj), Store.cell_put,
      if_neg fun e => h i List.mem_cons_self e.symm]

/-- A word that no masked index names keeps its cell. -/
theorem Store.putMask_other (st : Store) (at' : WordIx → StoreWord) (m : WordMask) (cell : WordIx → Cell) (x : StoreWord)
    (h : ∀ i, WordMask.has m i = true → at' i ≠ x) : (st.putMask at' m cell).cell x = st.cell x :=
  putWords_other at' cell x m.words st fun i hi => h i ((WordMask.mem_words m i).mp hi)

theorem putWords_written (at' : WordIx → StoreWord) (hat : ∀ i j, at' i = at' j → i = j) (cell : WordIx → Cell) (i : WordIx)
    (is : List WordIx) (st : Store) (h : i ∈ is) :
    (is.foldl (fun st i => st.put (at' i) (cell i)) st).cell (at' i) = cell i := by
  induction is generalizing st with
  | nil => exact absurd h (by simp)
  | cons j is ih =>
    rw [List.foldl_cons]
    by_cases hi : i ∈ is
    · exact ih _ hi
    · have hj : i = j := (List.mem_cons.mp h).resolve_right hi
      subst hj
      rw [putWords_other at' cell (at' i) is _ fun k hk e => hi (hat k i e ▸ hk), Store.cell_put, if_pos rfl]

/-- A masked word takes its cell, where different indices name different words. -/
theorem Store.putMask_written (st : Store) (at' : WordIx → StoreWord) (hat : ∀ i j, at' i = at' j → i = j) (m : WordMask)
    (cell : WordIx → Cell) (i : WordIx) (h : WordMask.has m i = true) : (st.putMask at' m cell).cell (at' i) = cell i :=
  putWords_written at' hat cell i m.words st ((WordMask.mem_words m i).mpr h)

/-- The words of an array line are different words. -/
theorem arrayWord_inj {l l' : Line} {i j : WordIx} (h : arrayWord l i = arrayWord l' j) : l = l' ∧ i = j := by
  have h' := congrArg StoreWord.key h
  simp only [arrayWord, StoreWord.key, BitVec.toNat_ofNat] at h'
  have := l.isLt; have := l'.isLt; have := i.isLt; have := j.isLt
  exact ⟨Fin.ext (by omega), Fin.ext (by omega)⟩

/-! ### The table -/

theorem Store.setEntry_wf (st : Store) (k : SpareIx) (e : SpareEntry) : (st.setEntry k e).wf = st.wf := rfl

theorem Store.setEntry_cell (st : Store) (k : SpareIx) (e : SpareEntry) (x : StoreWord) : (st.setEntry k e).cell x = st.cell x :=
    rfl

theorem Store.markWritten_wf (st : Store) (k : SpareIx) (m : WordMask) : (st.markWritten k m).wf = st.wf := rfl

theorem Store.markWritten_cell (st : Store) (k : SpareIx) (m : WordMask) (x : StoreWord) :
    (st.markWritten k m).cell x = st.cell x := rfl

theorem Store.activate_wf (st : Store) (k : SpareIx) : (st.activate k).wf = st.wf := by
  unfold Store.activate; split <;> rfl

theorem Store.activate_cell (st : Store) (k : SpareIx) (x : StoreWord) : (st.activate k).cell x = st.cell x := by
  unfold Store.activate; split <;> rfl

theorem Store.activateLine_wf (st : Store) (l : Line) : (st.activateLine l).wf = st.wf := by
  unfold Store.activateLine; split
  · rfl
  · exact st.activate_wf _

theorem Store.activateLine_cell (st : Store) (l : Line) (x : StoreWord) : (st.activateLine l).cell x = st.cell x := by
  unfold Store.activateLine; split
  · rfl
  · exact st.activate_cell _ x

/-! ### Every operation keeps the canonical form -/

theorem Store.putMask_wf (st : Store) (at' : WordIx → StoreWord) (m : WordMask) (cell : WordIx → Cell) (h : st.wf = true) :
    (st.putMask at' m cell).wf = true := (st.putMask_same at' m cell).wf h

theorem Store.writeParts_wf (st : Store) (l : Line) (a p : WordMask) (cell : WordIx → Cell) (h : st.wf = true) :
    (st.writeParts l a p cell).wf = true := by
  unfold Store.writeParts; split
  · exact st.putMask_wf _ _ _ h
  · split
    · exact st.putMask_wf _ _ _ h
    · rw [Store.markWritten_wf]; exact Store.putMask_wf _ _ _ _ (st.putMask_wf _ _ _ h)

theorem Store.writeWords_wf (st : Store) (l : Line) (m : WordMask) (cell : WordIx → Cell) (h : st.wf = true) :
    (st.writeWords l m cell).wf = true := by
  unfold Store.writeWords; split
  · exact h
  · rw [Store.activateLine_wf]; exact st.writeParts_wf _ _ _ _ h

theorem Store.write_wf (st : Store) (w : LineWrite) (h : st.wf = true) : (st.write w).wf = true := st.writeWords_wf _ _ _ h

theorem Store.writeBack_wf (st : Store) (l : Line) (cs : Vector Cell 4) (h : st.wf = true) : (st.writeBack l cs).wf = true :=
  st.writeWords_wf _ _ _ h

theorem Store.fillCopyWords_wf (st : Store) (k : SpareIx) (l : Line) (m : WordMask) (h : st.wf = true) :
    (st.fillCopyWords k l m).wf = true := by
  unfold Store.fillCopyWords; rw [Store.markWritten_wf]; exact st.putMask_wf _ _ _ h

theorem Store.fillCopy_wf (st : Store) (k : SpareIx) (l : Line) (h : st.wf = true) : (st.fillCopy k l).wf = true := by
  unfold Store.fillCopy; rw [Store.activate_wf]; exact st.fillCopyWords_wf _ _ _ h

theorem Store.returnCopyWords_wf (st : Store) (k : SpareIx) (l : Line) (m : WordMask) (h : st.wf = true) :
    (st.returnCopyWords k l m).wf = true := st.putMask_wf _ _ _ h

theorem Store.clearTable_wf (st : Store) : st.clearTable.wf = st.wf := rfl

theorem Store.fault_wf (st : Store) (w : StoreWord) (raw : Word) (h : st.wf = true) : (st.fault w raw).wf = true :=
  st.put_wf _ _ h

theorem Store.lose_wf (st : Store) (t : SpareTable) : (st.lose t).wf = true := rfl

theorem Store.cutShort_wf (st : Store) (b : Bool) (op : StoreOp) (a p : WordMask) (h : st.wf = true) :
    (st.cutShort b op a p).wf = true := by
  cases op <;> simp only [Store.cutShort]
  · exact st.writeParts_wf _ _ _ _ h
  · exact st.writeParts_wf _ _ _ _ h
  · split
    · exact h
    · exact st.fillCopyWords_wf _ _ _ h
  · split
    · exact h
    · exact st.returnCopyWords_wf _ _ _ h

theorem State.storeAfterReset_wf (s : State) (a p : WordMask) (h : s.store.wf = true) : (s.storeAfterReset a p).wf = true := by
  unfold State.storeAfterReset; split
  · exact h
  · exact s.store.cutShort_wf _ _ _ _ h

/-! ### What a completed write leaves in the words -/

/-- A word outside the line written, in the array and in its spare, keeps its cell. -/
theorem Store.writeWords_other (st : Store) (l : Line) (m : WordMask) (cell : WordIx → Cell) (x : StoreWord)
    (ha : ∀ i, WordMask.has m i = true → arrayWord l i ≠ x)
    (hs : ∀ k, st.spareFor l = some k → ∀ i, WordMask.has m i = true → StoreWord.spare k i ≠ x) :
    (st.writeWords l m cell).cell x = st.cell x := by
  unfold Store.writeWords; split
  · rfl
  · rw [Store.activateLine_cell]
    unfold Store.writeParts; split
    · exact st.putMask_other _ _ _ _ ha
    · rename_i k hk
      split
      · exact st.putMask_other _ _ _ _ (hs k hk)
      · rw [Store.markWritten_cell, Store.putMask_other _ _ _ _ _ (hs k hk), Store.putMask_other _ _ _ _ _ ha]

/-- Without an entry that redirects the line, each masked word of the array takes its cell. -/
theorem Store.writeWords_array (st : Store) (l : Line) (m : WordMask) (cell : WordIx → Cell) (i : WordIx)
    (hn : st.spareFor l = none) (h : WordMask.has m i = true) : (st.writeWords l m cell).cell (arrayWord l i) = cell i := by
  have hm : (m == 0) = false := by
    cases hm : m == 0
    · rfl
    · rw [eq_of_beq hm] at h; simp [WordMask.has] at h
  unfold Store.writeWords
  rw [hm, if_neg (by simp), Store.activateLine_cell]
  unfold Store.writeParts
  rw [hn]
  exact st.putMask_written _ (fun a b e => (arrayWord_inj e).2) _ _ _ h

/-- With an entry that redirects the line, FILLING or ACTIVE, each masked word of its spare line takes its cell. -/
theorem Store.writeWords_spare (st : Store) (l : Line) (m : WordMask) (cell : WordIx → Cell) (i : WordIx) (k : SpareIx)
    (hk : st.spareFor l = some k) (h : WordMask.has m i = true) : (st.writeWords l m cell).cell (.spare k i) = cell i := by
  have hm : (m == 0) = false := by
    cases hm : m == 0
    · rfl
    · rw [eq_of_beq hm] at h; simp [WordMask.has] at h
  unfold Store.writeWords
  rw [hm, if_neg (by simp), Store.activateLine_cell]
  unfold Store.writeParts
  rw [hk]
  dsimp only
  split
  · exact st.putMask_written _ (fun a b e => by injection e) _ _ _ h
  · rw [Store.markWritten_cell]; exact Store.putMask_written _ _ (fun a b e => by injection e) _ _ _ h

/-! ### What a completed write leaves in the spare table -/

theorem Store.spareFor_congr (a b : Store) (l : Line) (h : a.table = b.table) (h' : a.tableLost = b.tableLost) :
    a.spareFor l = b.spareFor l := by
  unfold Store.spareFor; rw [h, h']

/-- A write to a line that no entry redirects, or that an ACTIVE entry does, leaves the table as it is. -/
theorem Store.writeWords_table (st : Store) (l : Line) (m : WordMask) (cell : WordIx → Cell)
    (h : ∀ k, st.spareFor l = some k → st.table[k].state = .active) : (st.writeWords l m cell).table = st.table := by
  unfold Store.writeWords; split
  · rfl
  · unfold Store.writeParts Store.activateLine
    cases e : st.spareFor l with
    | none =>
      dsimp only
      have hs := st.putMask_same (arrayWord l) m cell
      rw [Store.spareFor_congr _ st l hs.table hs.lost, e]
      exact hs.table
    | some k =>
      have hk := h k e
      dsimp only
      rw [hk, if_pos (by simp)]
      have hs := st.putMask_same (.spare k) m cell
      rw [Store.spareFor_congr _ st l hs.table hs.lost, e]
      dsimp only
      unfold Store.activate
      rw [hs.table, hk]
      simp [hs.table]

/-- A write of at least one word through a FILLING entry sets its mask bits, and the entry becomes ACTIVE when its mask is
full. -/
theorem Store.writeWords_filling (st : Store) (l : Line) (m : WordMask) (cell : WordIx → Cell) (k : SpareIx)
    (hk : st.spareFor l = some k) (hf : st.table[k].state = .filling) (hm : m ≠ 0) :
    (st.writeWords l m cell).table =
      st.table.set k { st.table[k] with state := if st.table[k].mask ||| m = 15#4 then .active else .filling,
                                        mask := st.table[k].mask ||| m } := by
  unfold Store.writeWords
  rw [if_neg (by simpa using hm)]
  unfold Store.writeParts
  rw [hk]
  dsimp only
  rw [hf, if_neg (by simp)]
  have h1 := st.putMask_same (arrayWord l) m cell
  have h2 := h1.trans ((st.putMask (arrayWord l) m cell).putMask_same (.spare k) m cell)
  generalize (st.putMask (arrayWord l) m cell).putMask (.spare k) m cell = a at h2 ⊢
  have hat : (a.markWritten k m).table = st.table.set k { st.table[k] with mask := st.table[k].mask ||| m } := by
    simp only [Store.markWritten, Store.setEntry]; rw [h2.table]
  have hak : (a.markWritten k m).table[k] = { st.table[k] with mask := st.table[k].mask ||| m } := by
    rw [hat]; simp
  have hsp : (a.markWritten k m).spareFor l = some k := by
    unfold Store.spareFor at hk ⊢
    have hl : (a.markWritten k m).tableLost = st.tableLost := h2.lost
    rw [hl]
    split
    · rename_i h; rw [if_pos h] at hk; exact absurd hk (by simp)
    · rename_i h
      rw [if_neg h] at hk
      rw [← hk]
      congr 1
      funext j
      rw [hat]
      by_cases e : k = j
      · subst e; simp [SpareEntry.names]
      · have : k.val ≠ j.val := fun h => e (Fin.ext h)
        simp [this]
  unfold Store.activateLine
  rw [hsp]
  dsimp only
  unfold Store.activate
  rw [hak, hf]
  by_cases hfull : st.table[k].mask ||| m = 15#4
  · rw [if_pos (by simp [-Fin.getElem_fin, hfull]), if_pos hfull]
    simp only [Store.setEntry]; rw [hat]; simp [Vector.set_set]
  · rw [if_neg (by simp [-Fin.getElem_fin, hfull]), if_neg hfull, hat]
    congr 1
    rw [← hf]

/-- A write through a FILLING entry reaches the array too. -/
theorem Store.writeWords_both (st : Store) (l : Line) (m : WordMask) (cell : WordIx → Cell) (i : WordIx) (k : SpareIx)
    (hk : st.spareFor l = some k) (hf : st.table[k].state = .filling) (h : WordMask.has m i = true) :
    (st.writeWords l m cell).cell (arrayWord l i) = cell i := by
  have hm : (m == 0) = false := by
    cases hm : m == 0
    · rfl
    · rw [eq_of_beq hm] at h; simp [WordMask.has] at h
  unfold Store.writeWords
  rw [hm, if_neg (by simp), Store.activateLine_cell]
  unfold Store.writeParts
  rw [hk]
  dsimp only
  rw [hf, if_neg (by simp), Store.markWritten_cell, Store.putMask_other _ _ _ _ _ (fun a _ e => by simp [arrayWord] at e)]
  exact st.putMask_written _ (fun a b e => (arrayWord_inj e).2) _ _ _ h

/-! ### Reads -/

/-- A word of a vector built word by word. -/
theorem words4_get {α : Type} (f : WordIx → α) (i : WordIx) : (words4 f)[i] = f i := by
  simp only [words4, Fin.getElem_fin, Vector.getElem_ofFn]

/-- A word of a line read is the cell where the line's words are read. -/
theorem Store.readLine_get (st : Store) (l : Line) (i : WordIx) : (st.readLine l)[i] = st.cell (st.readAt l i) := words4_get _ i

/-- Where a line is read depends on the table alone. -/
theorem Store.readAt_congr (a b : Store) (l : Line) (i : WordIx) (h : a.table = b.table) (h' : a.tableLost = b.tableLost) :
    a.readAt l i = b.readAt l i := by
  unfold Store.readAt Store.activeSpare Store.spareFor; rw [h, h']

/-- The one entry that names a line is the one that redirects it. -/
theorem Store.spareFor_unique (st : Store) (l : Line) (k : SpareIx) (hl : st.tableLost = false) (hk : st.table[k].names l = true)
    (hu : ∀ j : SpareIx, st.table[j].names l = true → j = k) : st.spareFor l = some k := by
  unfold Store.spareFor
  rw [if_neg (by simp [hl])]
  cases e : spareIxs.find? fun k => st.table[k].names l with
  | none =>
    rw [List.find?_eq_none] at e
    exact absurd hk (e k (List.mem_finRange k))
  | some j =>
    have h1 := List.find?_some e
    rw [hu j h1]

/-- With no entry naming a line, none redirects it. -/
theorem Store.spareFor_none (st : Store) (l : Line) (h : ∀ k : SpareIx, st.table[k].names l = false) : st.spareFor l = none := by
  unfold Store.spareFor
  split
  · rfl
  · rw [List.find?_eq_none]; intro k _ hk; rw [h k] at hk; exact absurd hk (by simp)

end Sys2Proof.Machine
end

