-- ==== Sys2Proof/Laws/Reads.lean ====
section
/-! SUPPORT. Everything a finding can do, and the completion of a line read: the spare table, the suspect list, the marks and
the log change, and beside the write-back and the count nothing else. -/

namespace Sys2Proof.Machine

/-- What acting on a finding leaves alone: every field but the store, the line health unit and the reporting block; every word
of the store; the corrected-word count; and the configuration. -/
structure Found (s t : State) : Prop where
  frame     : t = { s with store := t.store, health := t.health, rep := t.rep }
  cells     : ∀ w, t.store.cell w = s.store.cell w
  corrected : t.health.corrected = s.health.corrected
  config    : t.rep.config = s.rep.config

theorem Found.refl (s : State) : Found s s := ⟨rfl, fun _ => rfl, rfl, rfl⟩

theorem Found.trans {a b c : State} (h : Found a b) (k : Found b c) : Found a c :=
  ⟨by rw [k.frame, h.frame], fun w => (k.cells w).trans (h.cells w), k.corrected.trans h.corrected, k.config.trans h.config⟩

theorem State.promote_found (s : State) (o : Origin) (l : Line) : Found s (s.promote o l) := by
  unfold State.promote
  dsimp only
  split
  · exact ⟨rfl, fun _ => rfl, rfl, rfl⟩
  · split
    · exact ⟨rfl, fun _ => rfl, rfl, Reporting.raise_config _ _⟩
    · split
      · exact ⟨rfl, fun _ => rfl, rfl, rfl⟩
      · exact ⟨rfl, fun _ => rfl, rfl, Reporting.raise_config _ _⟩

theorem State.markRetire_found (s : State) (o : Origin) (l : Line) (k : SpareIx) : Found s (s.markRetire o l k) := by
  unfold State.markRetire
  split
  · exact Found.refl s
  · exact ⟨rfl, fun _ => rfl, rfl, Reporting.raise_config _ _⟩

theorem State.arrayFinding_found (s : State) (o : Origin) (l : Line) (cs : Vector Cell 4) : Found s (s.arrayFinding o l cs) := by
  unfold State.arrayFinding
  dsimp only
  generalize (if correctableMask cs == 0 then (s.health.suspects, false)
    else noteSuspect s.threshold l s.health.suspects) = noted
  have h : Found s { s with health := { s.health with suspects := noted.1 } } := ⟨rfl, fun _ => rfl, rfl, rfl⟩
  split
  · exact h.trans (State.promote_found _ _ _)
  · exact h

theorem State.actOnFinding_found (s : State) (st : Store) (o : Origin) (l : Line) (cs : Vector Cell 4) :
    Found s (s.actOnFinding st o l cs) := by
  unfold State.actOnFinding
  split
  · exact Found.refl s
  · split
    · exact s.arrayFinding_found _ _ _
    · split
      · exact s.markRetire_found _ _ _
      · exact Found.refl s
  · split
    · exact s.arrayFinding_found _ _ _
    · split
      · exact s.markRetire_found _ _ _
      · exact Found.refl s

/-- The store as a completing read writes it back, before its findings are acted on. -/
theorem State.completeRead_found (s : State) (c : Claimant) (l : Line) :
    Found (({ s with store := s.wholeStore (.read l) } : State).countCorrected (s.store.readLine l)) (s.completeRead c l) := by
  unfold State.completeRead State.wholeStore
  dsimp only
  cases h : s.scrub (segmentOf l) <;> dsimp only <;> exact State.actOnFinding_found _ _ _ _ _

/-- A completing read changes the store, the line health unit and the reporting block alone. -/
theorem State.completeRead_frame (s : State) (c : Claimant) (l : Line) :
    s.completeRead c l = { s with
      store := (s.completeRead c l).store, health := (s.completeRead c l).health, rep := (s.completeRead c l).rep } := by
  have h := (s.completeRead_found c l).frame
  rw [h]; rfl

theorem State.completeRead_config (s : State) (c : Claimant) (l : Line) : (s.completeRead c l).rep.config = s.rep.config :=
  (s.completeRead_found c l).config

theorem State.completeRead_view (s : State) (c : Claimant) (l : Line) : (s.completeRead c l).heldView = s.heldView := by
  unfold State.heldView State.inGroup; rw [s.completeRead_frame]

theorem State.completeRead_me (s : State) (c : Claimant) (l : Line) : (s.completeRead c l).me = s.me := by
  unfold State.me Reporting.field; rw [s.completeRead_config]

theorem State.completeRead_mode (s : State) (c : Claimant) (l : Line) (g : Segment) : (s.completeRead c l).mode g = s.mode g := by
  unfold State.mode Reporting.descriptor; rw [s.completeRead_config]

theorem State.completeRead_ownState (s : State) (c : Claimant) (l : Line) (g : Segment) :
    (s.completeRead c l).ownState g = s.ownState g := by
  unfold State.ownState; rw [s.completeRead_view, s.completeRead_me]

theorem State.completeRead_localState (s : State) (c : Claimant) (l : Line) (g : Segment) :
    (s.completeRead c l).localState g = s.localState g := by
  unfold State.localState; rw [s.completeRead_view, s.completeRead_me, s.completeRead_mode]

theorem State.completeRead_belowCursor (s : State) (c : Claimant) (l k : Line) :
    (s.completeRead c l).belowCursor k = s.belowCursor k := by
  unfold State.belowCursor State.ownCursor; rw [s.completeRead_ownState]

theorem State.completeRead_repairable (s : State) (c : Claimant) (l k : Line) :
    (s.completeRead c l).repairable k = s.repairable k := by
  unfold State.repairable; rw [s.completeRead_ownState, s.completeRead_mode]

end Sys2Proof.Machine
end

