-- ==== Sys2Proof/Laws/Finding.lean ====
section
/-! SUPPORT. What a completed read of a scrubbed line does: its masks, its write-back, the suspect list; and the repair list
around one entry. -/

namespace Sys2Proof.Machine

theorem maskOf_has (p : WordIx → Bool) (i : WordIx) : WordMask.has (maskOf p) i = p i := by
  unfold maskOf
  simp only [wordIxs, List.finRange]
  fin_cases i <;> (simp [WordMask.has, WordMask.single]; cases p 0 <;> cases p 1 <;> cases p 2 <;> cases p 3 <;> rfl)

theorem maskOf_size (p : WordIx → Bool) : WordMask.size (maskOf p) = (wordIxs.filter p).length := by
  unfold WordMask.size WordMask.words
  congr 1
  apply List.filter_congr
  intro i _; exact maskOf_has p i

theorem WordMask.eq_zero_iff (m : WordMask) : m = 0 ↔ ∀ i, WordMask.has m i = false := by
  constructor
  · rintro rfl i; simp [WordMask.has]
  · intro h; apply BitVec.eq_of_getLsbD_eq; intro i hi; simpa [WordMask.has] using h ⟨i, hi⟩

theorem maskOf_eq_zero (p : WordIx → Bool) : maskOf p = 0 ↔ ∀ i, p i = false := by
  rw [WordMask.eq_zero_iff]; simp only [maskOf_has]

theorem correctableMask_has (cs : Vector Cell 4) (i) : WordMask.has (correctableMask cs) i = (cs[i].health == .correctable) :=
    maskOf_has _ i

theorem correctableMask_ne (cs : Vector Cell 4) : (correctableMask cs == 0) = false ↔ ∃ i : WordIx, cs[i].health = .correctable :=
    by
  rw [beq_eq_false_iff_ne, ne_eq, correctableMask, maskOf_eq_zero]; simp

theorem uncorrectableMask_ne (cs : Vector Cell 4) : (uncorrectableMask cs != 0) = true ↔ ∃ i : WordIx, cs[i].health =
    .uncorrectable := by
  rw [bne_iff_ne, ne_eq, uncorrectableMask, maskOf_eq_zero]; simp

theorem Store.spareFor_unredirected (st : Store) (l) (h : Unredirected st l) : st.spareFor l = none := by
  rcases h with h | h
  · unfold Store.spareFor; rw [if_pos h]
  · exact st.spareFor_none l h

theorem Store.spareFor_redirects (st : Store) (k l) (h : Redirects st k l) : st.spareFor l = some k :=
    st.spareFor_unique l k h.inUse h.names h.alone

theorem Store.readAt_array (st : Store) (l : Line) (i) (h : st.activeSpare l = none) : st.readAt l i = arrayWord l i := by
  unfold Store.readAt; rw [h]

theorem Store.readAt_spare (st : Store) (l : Line) (k i) (h : st.activeSpare l = some k) : st.readAt l i = .spare k i := by
  unfold Store.readAt; rw [h]

/-- A state after the write-back and the count of a read of a line that is scrubbed. -/
def State.writtenBack (s : State) (l : Line) : State := ({ s with store := s.store.writeBack l (s.store.readLine l) } :
    State).countCorrected (s.store.readLine l)

/-- A completed read of a scrubbed line, by the entry that redirects it (R20, R27, R34). -/
theorem State.completeRead_scrubbed (s : State) (c : Claimant) (l : Line) (h : s.scrub (segmentOf l) ≠ .off) :
    s.completeRead c l = match s.store.spareFor l with
      | none => (State.writtenBack s l).arrayFinding c.origin l (s.store.readLine l)
      | some k => if s.store.table[k].state == .active && uncorrectableMask (s.store.readLine l) != 0 then
          (State.writtenBack s l).markRetire c.origin l k else State.writtenBack s l := by
  unfold State.completeRead
  dsimp only
  cases e : s.scrub (segmentOf l) with
  | off => exact absurd e h
  | passive | active =>
    have : (State.writtenBack s l).scrub (segmentOf l) = s.scrub (segmentOf l) := rfl
    unfold State.actOnFinding
    change (match (State.writtenBack s l).scrub (segmentOf l) with | .off => _ | .passive | .active => _) = _
    rw [this, e]; rfl

theorem State.completeRead_cells (s : State) (c : Claimant) (l) (h : s.scrub (segmentOf l) ≠ .off) (w) :
    (s.completeRead c l).store.cell w = (s.store.writeBack l (s.store.readLine l)).cell w := by
  rw [(s.completeRead_found c l).cells w]; unfold State.wholeStore State.countCorrected; simp [h]

theorem State.markRetire_store (s : State) (o l k) : (s.markRetire o l k).store = s.store := by unfold State.markRetire; split <;>
    rfl

theorem State.writtenBack_table (s : State) (l) (h : s.store.spareFor l = none) : (State.writtenBack s l).store.table =
    s.store.table :=
  Store.writeWords_table _ _ _ _ (fun k hk => by rw [h] at hk; simp at hk)

/-- A line held below the threshold rises by one, in its place. -/
theorem noteSuspect_raise (n : Nat) (l : Line) (b a : List Suspect) (c : Nat) (hx : ∀ e ∈ b ++ a, e.line ≠ l) (h : c + 1 < n) :
    noteSuspect n l (b ++ ⟨l, c⟩ :: a) = (b ++ ⟨l, c + 1⟩ :: a, false) := by
  have hb : ∀ e ∈ b, e.line ≠ l := fun e he => hx e (List.mem_append_left _ he)
  have ha : ∀ e ∈ a, e.line ≠ l := fun e he => hx e (List.mem_append_right _ he)
  have hf : (b ++ ⟨l, c⟩ :: a).find? (fun e => e.line == l) = some ⟨l, c⟩ := by
    rw [List.find?_append, List.find?_eq_none.mpr]
    · simp
    · intro e he; simpa using hb e he
  unfold noteSuspect
  rw [hf]; dsimp only
  rw [if_neg (by omega)]
  have : ∀ xs : List Suspect, (∀ e ∈ xs, e.line ≠ l) → xs.map (fun e => if e.line = l then { e with count := e.count + 1 } else
      e) = xs := by
    intro xs hxs
    conv_rhs => rw [← List.map_id xs]
    apply List.map_congr_left
    intro e he; rw [if_neg (hxs e he)]; rfl
  rw [List.map_append, List.map_cons, this b hb, this a ha, if_pos rfl]

/-- A line not held is entered as the youngest (R26). -/
theorem noteSuspect_new (n : Nat) (l : Line) (xs : List Suspect) (h : ∀ e ∈ xs, e.line ≠ l) :
    noteSuspect n l xs = ((if xs.length < 12 then xs else dropLowest xs) ++ [⟨l, 1⟩], false) := by
  unfold noteSuspect
  rw [List.find?_eq_none.mpr (by intro e he; simpa using h e he)]; rfl

theorem lowestCount_le (xs : List Suspect) : ∀ e ∈ xs, lowestCount xs ≤ Suspect.count e := by
  induction xs with
  | nil => simp
  | cons x xs ih =>
    intro e he
    cases xs with
    | nil => simp at he; subst he; exact Nat.le_refl _
    | cons y ys =>
      show min _ _ ≤ _
      rcases List.mem_cons.mp he with rfl | he
      · omega
      · have := ih e he; omega

theorem lowestCount_mem (xs : List Suspect) (h : xs ≠ []) : ∃ e ∈ xs, lowestCount xs = Suspect.count e := by
  induction xs with
  | nil => exact absurd rfl h
  | cons x xs ih =>
    cases xs with
    | nil => exact ⟨x, by simp, rfl⟩
    | cons y ys =>
      obtain ⟨e, he, hh⟩ := ih (by simp)
      show ∃ e ∈ _, min x.count (lowestCount (y :: ys)) = Suspect.count e
      by_cases hl : x.count ≤ lowestCount (y :: ys)
      · exact ⟨x, by simp, by omega⟩
      · exact ⟨e, List.mem_cons_of_mem _ he, by omega⟩

/-- What is dropped is the oldest entry of lowest count (R26). -/
theorem dropLowest_split (b a : List Suspect) (e : Suspect) (hb : ∀ x ∈ b, e.count < Suspect.count x)
    (ha : ∀ x ∈ a, e.count ≤ Suspect.count x) :
    dropLowest (b ++ e :: a) = b ++ a := by
  have hlow : lowestCount (b ++ e :: a) = e.count := by
    obtain ⟨y, hy, hh⟩ := lowestCount_mem (b ++ e :: a) (by simp)
    have h1 := lowestCount_le (b ++ e :: a) e (by simp)
    rcases List.mem_append.mp hy with hy | hy
    · have := hb y hy; omega
    · rcases List.mem_cons.mp hy with rfl | hy
      · exact hh
      · have := ha y hy; omega
  unfold dropLowest
  rw [hlow, List.eraseP_append_right, List.eraseP_cons_of_pos]
  · simp
  · intro x hx; have := hb x hx; simp; omega

theorem WordMask.single_toNat (i : WordIx) : (WordMask.single i).toNat = 2 ^ i.val := by fin_cases i <;> rfl

theorem RepairEntry.asking_iff (e : RepairEntry) : e.asking = true ↔ e.state ≠ .failed := by
  unfold RepairEntry.asking; cases e.state <;> simp

theorem RepairEntry.asking_false_iff (e : RepairEntry) : e.asking = false ↔ e.state = .failed := by
  unfold RepairEntry.asking; cases e.state <;> simp

theorem repairFor_split (b a : List RepairEntry) (e : RepairEntry) (l : Line) (h : e.line = l) (h' : ∀ x ∈ b ++ a, x.line ≠ l) :
    repairFor (b ++ e :: a) l = some e := by
  unfold repairFor
  rw [List.find?_append, List.find?_eq_none.mpr]
  · simp [h]
  · intro x hx; simpa using h' x (List.mem_append_left _ hx)

theorem repairMap_split (b a : List RepairEntry) (e : RepairEntry) (l : Line) (h : e.line = l) (h' : ∀ x ∈ b ++ a, x.line ≠ l)
    (f) :
    repairMap (b ++ e :: a) l f = b ++ f e :: a := by
  unfold repairMap
  have : ∀ xs : List RepairEntry, (∀ x ∈ xs, x.line ≠ l) → xs.map (fun e => if e.line = l then f e else e) = xs := by
    intro xs hx
    conv_rhs => rw [← List.map_id xs]
    apply List.map_congr_left
    intro x hm; rw [if_neg (hx x hm)]; rfl
  rw [List.map_append, List.map_cons, if_pos h, this b (fun x hx => h' x (List.mem_append_left _ hx)), this a
      (fun x hx => h' x (List.mem_append_right _ hx))]

/-- An entry goes to the end of the list, after room is made by the oldest FAILED one (R162). -/
theorem repairInsert_kept (xs kept : List RepairEntry) (e : RepairEntry)
    (h : (xs.length < 4 ∧ kept = xs) ∨ (4 ≤ xs.length ∧ ∃ b x a, xs = b ++ x :: a ∧ x.state = .failed ∧
        (∀ y ∈ b, y.state ≠ .failed) ∧ kept = b ++ a)) :
    repairInsert xs e = some (kept ++ [e]) := by
  unfold repairInsert
  rcases h with ⟨h, rfl⟩ | ⟨h, b, x, a, rfl, hx, hb, rfl⟩
  · rw [if_pos (show _ < repairCapacity from h)]
  · rw [if_neg (show ¬ _ < repairCapacity by unfold repairCapacity; omega), if_neg]
    · rw [List.eraseP_append_right, List.eraseP_cons_of_pos]
      · simp [(RepairEntry.asking_false_iff x).mpr hx]
      · intro y hy; simp [(RepairEntry.asking_iff y).mpr (hb y hy)]
    · simp [(RepairEntry.asking_false_iff x).mpr hx]

end Sys2Proof.Machine
end

