-- ==== Sys2Proof/Laws/QuietFrames.lean ====
section
/-! SUPPORT. The outbound unit, the transmit selector and the effects of frames are quiet: beside the view they touch neither
the store, the configuration nor the station state, and keep the capacities. -/

namespace Sys2Proof.Machine

/-! ### The outbound queue and the chain -/

theorem State.out_quiet (s : State) (q : List OutEntry) (h : q.length ≤ s.out.length) : Quiet s { s with out := q } :=
  Quiet.ofParts rfl rfl rfl rfl rfl rfl rfl rfl rfl id id (fun k => Nat.le_trans h k) id rfl

theorem State.commit_quiet (s : State) (c : Commit) : Quiet s { s with commit := c } :=
  Quiet.ofParts rfl rfl rfl rfl rfl rfl rfl rfl rfl id id id id rfl

theorem State.failChain_quiet (s : State) (c : FailCode) (r : RecordIx) : Quiet s (s.failChain c r) :=
  (s.commit_quiet _).trans (State.setFlag_quiet _ _)

theorem State.queueChain_quiet (s : State) (n : Nat) (b : Bool) (h : s.out.length < outboundCapacity) :
    Quiet s (s.queueChain n b) :=
  Quiet.ofParts rfl rfl rfl rfl rfl rfl rfl rfl rfl id id
    (fun _ => by simp only [State.queueChain, List.length_append, List.length_map, List.length_cons, List.length_nil]; omega)
    id rfl

theorem State.commitChain_quiet (s : State) (b : Bool) : Quiet s (s.commitChain b) := by
  unfold State.commitChain
  split
  · exact s.setResult_quiet _ _
  · split
    · exact s.setResult_quiet _ _
    · split
      · exact ((s.commit_quiet _).trans (State.setFlag_quiet _ _)).trans (State.setResult_quiet _ _ _)
      · split
        · exact s.setResult_quiet _ _
        · rename_i h
          exact (s.queueChain_quiet _ _ (Nat.lt_of_not_le h)).trans (State.setResult_quiet _ _ _)

theorem State.judgeGroupHead_quiet (s : State) : Quiet s s.judgeGroupHead := by
  unfold State.judgeGroupHead
  split
  · rename_i h
    split
    · exact (s.out_quiet _ (by rw [h]; simp)).trans (State.failChain_quiet _ _ _)
    · exact Quiet.refl s
  · exact Quiet.refl s

theorem State.completeChain_quiet (s : State) (hd : RecordIx) (n : Nat) (rest : List OutEntry) (h : rest.length ≤ s.out.length) :
    Quiet s (s.completeChain hd n rest) :=
  ((s.out_quiet rest h).trans (State.commit_quiet _ _)).trans (State.setFlag_quiet _ _)

theorem State.outboundAccepted_quiet (s : State) : Quiet s s.outboundAccepted := by
  unfold State.outboundAccepted
  split
  · exact Quiet.refl s
  · rename_i e rest h
    have hl : rest.length ≤ s.out.length := by rw [h]; simp
    split
    · exact s.out_quiet _ hl
    · split
      · exact s.out_quiet _ (by rw [h]; simp)
      · exact s.completeChain_quiet _ _ _ hl

theorem State.outboundRejected_quiet (s : State) : Quiet s s.outboundRejected := by
  unfold State.outboundRejected
  split
  · exact Quiet.refl s
  · rename_i e rest h
    have hl : rest.length ≤ s.out.length := by rw [h]; simp
    split
    · exact s.out_quiet _ (by rw [h]; simp)
    · split
      · exact s.out_quiet _ (by rw [h]; simp)
      · exact ((s.out_quiet _ hl).trans (State.failChain_quiet _ _ _)).trans (State.raise_quiet _ _)

theorem State.discardSpentHead_quiet (s : State) : Quiet s s.discardSpentHead := by
  unfold State.discardSpentHead
  split
  · rename_i h
    split
    · exact (s.out_quiet _ (by rw [h]; simp)).trans (State.raise_quiet _ _)
    · exact Quiet.refl s
  · exact Quiet.refl s

theorem State.discardSegment_quiet (s : State) (g : Segment) : Quiet s (s.discardSegment g) := by
  unfold State.discardSegment; dsimp only; split
  · exact Quiet.refl s
  · exact (s.out_quiet _ (List.length_filter_le _ _)).trans (State.raise_quiet _ _)

theorem State.discardQueue_quiet (s : State) : Quiet s s.discardQueue := by
  unfold State.discardQueue; split
  · exact Quiet.refl s
  · exact (s.out_quiet _ (by simp)).trans (State.raise_quiet _ _)

theorem State.abortChain_quiet (s : State) : Quiet s s.abortChain := by
  unfold State.abortChain; split
  · exact s.failChain_quiet _ _
  · exact Quiet.refl s

/-! ### The selector and the beginning of a frame -/

theorem State.bus_mild (s : State) (b : BusUnit) : Mild s { s with bus := b } :=
  Mild.ofParts rfl rfl rfl rfl rfl rfl id id id id id rfl

theorem State.bus_quiet (s : State) (b : BusUnit) (h : b.slot = s.bus.slot) : Quiet s { s with bus := b } :=
  Quiet.ofParts rfl rfl rfl rfl rfl rfl rfl rfl rfl id id id id rfl (fun _ h => h) h

theorem State.gives_mild (s : State) (g : List GiveEntry) (h : g.length ≤ s.gives.length) : Mild s { s with gives := g } :=
  Mild.ofParts rfl rfl rfl rfl rfl rfl id id id id (fun k => Nat.le_trans h k) rfl

theorem State.repair_quiet (s : State) (r : List RepairEntry) (h : r.length ≤ s.repair.length) : Quiet s { s with repair := r } :=
  Quiet.ofParts rfl rfl rfl rfl rfl rfl rfl rfl rfl id id id (fun k => Nat.le_trans h k) rfl

theorem giveJudge_length (v : View) (me : Station) (xs : List GiveEntry) : (giveJudge v me xs).length ≤ xs.length :=
  (List.dropWhile_sublist _).length_le

theorem State.judgeItems_mild (s : State) : Mild s s.judgeItems := by
  unfold State.judgeItems; split
  · exact Mild.refl s
  · exact ((s.judgeStalls_quiet.mild.trans (State.gives_mild _ _ (giveJudge_length _ _ _))).trans
      (State.judgeGroupHead_quiet _).mild).trans (State.moveToken_quiet _).mild

theorem State.sendOutbound_quiet (s : State) (f : Frame) (t : State) (h : s.sendOutbound = some (f, t)) : Quiet s t := by
  unfold State.sendOutbound at h
  split at h
  · exact absurd h (by simp)
  · rename_i e rest ho
    split at h <;> obtain ⟨_, rfl⟩ := Prod.mk.inj (Option.some.inj h)
    · exact s.out_quiet _ (by rw [ho]; simp)
    · exact Quiet.ofParts rfl rfl rfl rfl rfl rfl rfl rfl rfl id id (fun k => Nat.le_trans (by rw [ho]; simp) k) id rfl

theorem State.sendAsk_quiet (s : State) (l : Line) (f : Frame) (t : State) (h : s.sendAsk l = some (f, t)) : Quiet s t := by
  unfold State.sendAsk at h
  cases he : repairFor s.repair l with
  | none => rw [he] at h; exact absurd h (by simp)
  | some e =>
    rw [he] at h
    simp only [Option.bind_some] at h
    split at h
    · obtain ⟨_, rfl⟩ := Prod.mk.inj (Option.some.inj h)
      exact s.repair_quiet _ (by rw [repairMap_length])
    all_goals exact absurd h (by simp)

theorem State.sendGive_mild (s : State) (f : Frame) (t : State) (h : s.sendGive = some (f, t)) : Mild s t := by
  unfold State.sendGive at h
  split at h
  · rename_i e rest hg
    obtain ⟨_, rfl⟩ := Prod.mk.inj (Option.some.inj h)
    exact s.gives_mild _ (by rw [hg]; simp)
  · exact absurd h (by simp)

theorem State.sendCopy_quiet (s : State) (f : Frame) (t : State) (h : s.sendCopy = some (f, t)) : Quiet s t := by
  unfold State.sendCopy at h
  cases hk : s.catchup.token with
  | none => rw [hk] at h; exact absurd h (by simp)
  | some k =>
    rw [hk] at h
    simp only [Option.bind_some, Option.map_eq_some_iff] at h
    obtain ⟨j, _, h⟩ := h
    obtain ⟨_, rfl⟩ := Prod.mk.inj h
    exact s.bus_quiet _ rfl

theorem State.compose_mild (s : State) (i : Item) (f : Frame) (t : State) (h : s.compose i = some (f, t)) : Mild s t := by
  cases i <;> simp only [State.compose] at h
  case give => exact s.sendGive_mild f t h
  case ask l => exact (s.sendAsk_quiet l f t h).mild
  case outbound => exact (s.sendOutbound_quiet f t h).mild
  case copy => exact (s.sendCopy_quiet f t h).mild
  all_goals
    first
      | (obtain ⟨_, rfl⟩ := Prod.mk.inj (Option.some.inj h); exact Mild.refl s)
      | (simp only [Option.map_eq_some_iff] at h
         obtain ⟨_, _, h⟩ := h
         obtain ⟨_, rfl⟩ := Prod.mk.inj h
         exact Mild.refl s)

theorem State.resolveClaim_mild (s : State) (p : Fin 64) : Mild s (s.resolveClaim p) := by
  unfold State.resolveClaim
  dsimp only
  split
  · exact s.bus_mild _
  · split
    · split
      · rename_i f t h
        exact (s.compose_mild _ f t h).trans (State.bus_mild _ _)
      · exact s.bus_mild _
    · exact s.bus_mild _

theorem State.continueRun_mild (s : State) (o : Station) (c : Fin 4) : Mild s (s.continueRun o c) := s.bus_mild _

/-! ### The effects of frames beside the view -/

theorem givePatch_length (xs : List GiveEntry) (w : LineWrite) : (givePatch xs w).length = xs.length := by simp [givePatch]

theorem repairCure_length (xs : List RepairEntry) (w : LineWrite) : (repairCure xs w).length ≤ xs.length := by
  unfold repairCure
  exact Nat.le_trans (List.length_filter_le _ _) (by rw [repairMap_length])

theorem givePatches_length (ws : List LineWrite) (xs : List GiveEntry) : (ws.foldl givePatch xs).length = xs.length := by
  induction ws generalizing xs with
  | nil => rfl
  | cons w ws ih => rw [List.foldl_cons, ih, givePatch_length]

theorem repairCures_length (ws : List LineWrite) (xs : List RepairEntry) : (ws.foldl repairCure xs).length ≤ xs.length := by
  induction ws generalizing xs with
  | nil => exact Nat.le_refl _
  | cons w ws ih => exact Nat.le_trans (ih _) (repairCure_length _ _)

theorem State.enterWrites_mild (s : State) (ws : List LineWrite) : Mild s (s.enterWrites ws) :=
  Mild.ofParts rfl rfl rfl rfl rfl rfl id id id (fun h => Nat.le_trans (repairCures_length _ _) h)
    (fun h => by simpa only [State.enterWrites, givePatches_length] using h) rfl

theorem State.group_mild (s : State) (b : Option GroupBuffer) : Mild s { s with group := b } :=
  Mild.ofParts rfl rfl rfl rfl rfl rfl id id id id id rfl

theorem State.takeUpdate_mild (s : State) (v : View) (f : Frame) : Mild s (s.takeUpdate v f) := by
  unfold State.takeUpdate; dsimp only; split
  · exact (s.group_mild none).trans (State.enterWrites_mild _ _)
  · exact (s.group_mild _).trans (State.enterWrites_mild _ _)

theorem State.takeOwnUpdate_mild (s : State) (v : View) (f : Frame) : Mild s (s.takeOwnUpdate v f) :=
  ((s.group_mild none).trans (State.outboundAccepted_quiet _).mild).trans (State.enterWrites_mild _ _)

theorem State.rosters_quiet (s : State) (r : Vector (Option RosterRecord) 16) :
    Quiet s { s with join := { s.join with rosters := r } } :=
  Quiet.ofParts rfl rfl rfl rfl rfl rfl rfl rfl rfl id id id id rfl

theorem State.forgetStation_mild (s : State) (x : Station) : Mild s (s.forgetStation x) :=
  Mild.ofParts rfl rfl rfl rfl rfl rfl id id id id (fun k => Nat.le_trans (List.length_filter_le _ _) k) rfl

theorem State.takeOwnStall_quiet (s : State) (v : View) (f : Frame) : Quiet s (s.takeOwnStall v f) :=
  (s.catchup_quiet _).trans (State.raise_quiet _ _)

theorem State.takeOwnAsk_quiet (s : State) (v : View) (f : Frame) : Quiet s (s.takeOwnAsk v f) :=
  s.repair_quiet _ (by rw [repairMap_length])

theorem giveTake_length (xs : List GiveEntry) (a : Station) (g : Segment) (l : Line) (h : xs.length ≤ giveCapacity) :
    (giveTake xs a g l).length ≤ giveCapacity := by
  unfold giveTake; split
  · exact h
  · split
    · simp only [List.length_append, List.length_cons, List.length_nil]; omega
    · exact h

theorem State.takeAsk_mild (s : State) (v : View) (f : Frame) : Mild s (s.takeAsk v f) := by
  unfold State.takeAsk; split
  · exact Mild.ofParts rfl rfl rfl rfl rfl rfl id id id id (giveTake_length _ _ _ _) rfl
  · exact Mild.refl s

theorem repairCovered_length (xs : List RepairEntry) (w : LineWrite) : (repairCovered xs w).length ≤ xs.length := by
  unfold repairCovered; rw [List.length_map]; exact repairCure_length xs w

theorem State.takeGive_mild (s : State) (v : View) (f : Frame) : Mild s (s.takeGive v f) := by
  unfold State.takeGive
  split
  · split
    · exact Mild.refl s
    · dsimp only
      have h := s.repair_quiet _ (repairCovered_length s.repair f.giveWrite)
      split
      · exact (h.trans (State.raise_quiet _ _)).mild.trans (State.enterWrites_mild _ _)
      · exact h.mild.trans (State.enterWrites_mild _ _)
  · exact Mild.refl s

theorem State.takeCopy_mild (s : State) (v : View) (f : Frame) : Mild s (s.takeCopy v f) := by
  unfold State.takeCopy; split
  · exact (s.enterWrites_mild _).trans ((State.catchup_quiet _ _).trans (State.setFlagIf_quiet _ _ _)).mild
  · exact Mild.refl s

theorem State.takeOwnCopy_quiet (s : State) (f : Frame) : Quiet s (s.takeOwnCopy f) := by
  unfold State.takeOwnCopy; split
  · exact Quiet.refl s
  · split
    · exact Quiet.ofParts rfl rfl rfl rfl rfl rfl rfl rfl rfl id id id id rfl
    · exact s.catchup_quiet _

theorem State.takePeerFrame_mild (s : State) (v : View) (f : Frame) : Mild s (s.takePeerFrame v f) := by
  unfold State.takePeerFrame
  have h := s.group_mild none
  split
  · exact s.takeUpdate_mild v f
  · split
    · exact h.trans (State.forgetStation_mild _ _)
    · exact h
  · exact h.trans (State.takeAsk_mild _ _ _)
  · exact h.trans (State.takeGive_mild _ _ _)
  · exact h.trans (State.takeCopy_mild _ _ _)
  all_goals exact h

theorem State.takeOwnFrame_mild (s : State) (v : View) (f : Frame) : Mild s (s.takeOwnFrame v f) := by
  unfold State.takeOwnFrame
  have h := s.group_mild none
  split
  · exact s.takeOwnUpdate_mild v f
  · exact h.trans (State.takeOwnStall_quiet _ _ _).mild
  · exact h.trans (State.takeOwnAsk_quiet _ _ _).mild
  · exact h.trans (State.gives_mild _ _ (by simp))
  · exact h.trans (State.takeOwnCopy_quiet _ _).mild
  all_goals exact h

theorem State.ownRejected_mild (s : State) (i : InFlight) : Mild s (s.ownRejected i) := by
  unfold State.ownRejected
  split
  · refine Quiet.mild ?_
    unfold State.rejectRoster; split
    · exact Quiet.refl s
    · dsimp only; split
      · exact (s.rosters_quiet _).trans (State.raise_quiet _ _)
      · exact s.rosters_quiet _
  · refine Quiet.mild ?_
    unfold State.rejectStall; split
    · exact Quiet.refl s
    · split
      · exact s.catchup_quiet _
      · exact (s.catchup_quiet _).trans (State.raise_quiet _ _)
  · exact Mild.ofParts rfl rfl rfl rfl rfl rfl id id id id id rfl
  · unfold State.rejectGive; split
    · exact Mild.refl s
    · rename_i hg
      split
      · exact s.gives_mild _ (by rw [hg]; simp)
      · exact (s.gives_mild _ (by rw [hg]; simp)).trans (State.raise_quiet _ _).mild
  · refine Quiet.mild ?_
    unfold State.rejectAsk; split
    · exact Quiet.refl s
    · split
      · split
        · exact s.repair_quiet _ (by rw [repairMap_length])
        · exact (s.repair_quiet _ (by rw [repairMap_length])).trans (State.raise_quiet _ _)
      all_goals exact Quiet.refl s
  · exact s.outboundRejected_quiet.mild
  · refine Quiet.mild ?_
    unfold State.rejectCopy; split
    · exact Quiet.refl s
    · split
      · exact Quiet.refl s
      · split
        · exact s.catchup_quiet _
        · exact (s.catchup_quiet _).trans (State.raise_quiet _ _)
  all_goals exact Mild.refl s

/-! ### The blocks after the view's changes -/

theorem State.reviewSegment_quiet (b s : State) (g : Segment) : Quiet s (State.reviewSegment b s g) := by
  unfold State.reviewSegment; dsimp only; split
  · exact (s.setFlagIf_quiet _ _).trans (State.discardSegment_quiet _ _)
  · exact s.setFlagIf_quiet _ _

theorem State.reviewSegments_quiet (b s : State) : Quiet s (State.reviewSegments b s) := by
  unfold State.reviewSegments
  generalize segments = gs
  induction gs generalizing s with
  | nil => exact Quiet.refl s
  | cons g gs ih => exact (State.reviewSegment_quiet b s g).trans (ih _)

theorem State.reviewHead_quiet (b s : State) : Quiet s (State.reviewHead b s) := by
  unfold State.reviewHead; split
  · exact Quiet.refl s
  · exact s.discardSpentHead_quiet

theorem State.reviewRun_quiet (s : State) (v : View) : Quiet s (s.reviewRun v) := by
  unfold State.reviewRun; split
  · exact Quiet.refl s
  · split
    · exact Quiet.refl s
    · split
      · exact Quiet.refl s
      · exact s.bus_quiet _ rfl

theorem State.reviewRepair_quiet (s : State) (v : View) : Quiet s (s.reviewRepair v) := by
  unfold State.reviewRepair; dsimp only
  refine (s.repair_quiet _ ?_).trans (State.raiseAll_quiet _ _)
  exact Nat.le_trans (List.length_filterMap_le _ _) (by simp)

theorem State.reviewPort_quiet (b s : State) : Quiet s (State.reviewPort b s) := by
  unfold State.reviewPort; dsimp only; split
  · exact s.retake_quiet _
  · split
    · exact s.retake_quiet _
    · exact (s.retake_quiet _).trans (State.retake_quiet _ _)

theorem State.reviewBlocks_quiet (b s : State) (v : View) : Quiet s (State.reviewBlocks b s v) :=
  ((((((s.rosters_quiet _).trans (State.reviewHead_quiet b _)).trans (State.reviewSegments_quiet b _)).trans
    (State.reviewRun_quiet _ v)).trans (State.catchup_quiet _ _)).trans (State.reviewMonitors_quiet _ _)).trans
    (State.reviewRepair_quiet _ v)

theorem State.reactBlocks_quiet (b s : State) (v : View) : Quiet s (State.reactBlocks b s v) :=
  ((State.reviewBlocks_quiet b s v).trans (State.releaseSince_quiet _ _)).trans (State.reviewPort_quiet b _)

theorem State.continueGroup_quiet (s : State) (a : Bool) : Quiet s (s.continueGroup a) := by
  unfold State.continueGroup; split
  · exact Quiet.ofParts rfl rfl rfl rfl rfl rfl rfl rfl rfl id id id id rfl
  · exact Quiet.refl s

theorem State.continueCopy_quiet (s : State) : Quiet s s.continueCopy := by
  unfold State.continueCopy; split
  · exact Quiet.refl s
  · split
    · exact (s.endRun_quiet _ _).trans (State.bus_quiet _ _ rfl)
    · split
      · exact s.bus_quiet _ rfl
      · exact Quiet.refl s

theorem State.afterFrame_quiet (s : State) (e : Ended) (a : Bool) : Quiet s (s.afterFrame e a) := by
  unfold State.afterFrame; split
  · exact s.continueGroup_quiet _
  · exact s.continueCopy_quiet
  · exact Quiet.refl s
  · exact s.bus_quiet _ rfl

theorem State.logMarkings_quiet (s : State) (o : Station) (ms : List Marking) : Quiet s (s.logMarkings o ms) := by
  unfold State.logMarkings
  induction ms generalizing s with
  | nil => exact Quiet.refl s
  | cons m ms ih => exact (s.raise_quiet _).trans (ih _)

theorem State.driveSlot_mild (s : State) (e : Ended) : Mild s (s.driveSlot e) := by
  unfold State.driveSlot; dsimp only; split
  · split
    · exact (s.bus_mild _).trans (State.raise_quiet _ _).mild
    · exact s.bus_mild _
  · exact Mild.refl s

theorem State.logJoin_quiet (s : State) (v : View) : Quiet s (s.logJoin v) := State.raiseAll_quiet _ s

end Sys2Proof.Machine
end

