-- ==== Sys2Proof/Laws/View.lean ====
section
/-! SUPPORT. The roster view field by field: what each change of members does to one member, who is present after a frame's own
effects, and what the end field of an accepted frame leaves of the counts. -/

namespace Sys2Proof.Machine

@[simp] theorem View.member_setMember (v : View) (x y : Station) (m : Option Member) :
    (v.setMember x m).member y = if y = x then m else v.member y := by
  simp [View.setMember, View.member]

@[simp] theorem View.member_mapMembers (v : View) (f : Station → Member → Member) (y : Station) :
    (v.mapMembers f).member y = (v.member y).map (f y) := by
  simp [View.mapMembers, View.member]

@[simp] theorem View.member_modifyMember (v : View) (x y : Station) (f : Member → Member) :
    (v.modifyMember x f).member y = if y = x then (v.member y).map f else v.member y := by
  unfold View.modifyMember
  rw [View.member_mapMembers]
  split <;> simp_all

@[simp] theorem View.lastWinner_setMember (v : View) (x : Station) (m : Option Member) :
    (v.setMember x m).lastWinner = v.lastWinner := rfl

@[simp] theorem View.lastWinner_mapMembers (v : View) (f : Station → Member → Member) : (v.mapMembers f).lastWinner =
    v.lastWinner :=
  rfl

@[simp] theorem View.present_mapMembers (v : View) (f : Station → Member → Member) (y : Station) :
    (v.mapMembers f).present y = v.present y := by
  simp [View.present]

@[simp] theorem View.present_modifyMember (v : View) (x y : Station) (f : Member → Member) :
    (v.modifyMember x f).present y = v.present y := by
  unfold View.modifyMember; simp

@[simp] theorem View.present_setState (v : View) (x y : Station) (g : Segment) (st : MemberState) :
    (v.setState x g st).present y = v.present y := by
  unfold View.setState; simp

theorem View.present_setMember (v : View) (x y : Station) (m : Option Member) :
    (v.setMember x m).present y = if y = x then m.isSome else v.present y := by
  simp only [View.present, View.member_setMember]; split <;> rfl

theorem View.present_without (v : View) (x y : Station) : (v.without x).present y = (y != x && v.present y) := by
  unfold View.without
  rw [View.present_mapMembers, View.present_setMember]
  by_cases h : y = x <;> simp [h]

@[simp] theorem View.present_clearSpent (v : View) (y : Station) : v.clearSpent.present y = v.present y := by
  unfold View.clearSpent; simp

theorem View.present_markAbsent (v : View) (xs : List Station) (y : Station) :
    (v.markAbsent xs).present y = (!xs.contains y && v.present y) := by
  unfold View.markAbsent
  rw [View.present_clearSpent]
  induction xs generalizing v with
  | nil => simp
  | cons x xs ih =>
    rw [List.foldl_cons, ih, View.present_without]
    by_cases h : y = x
    · simp [h]
    · have : (y == x) = false := by simp [h]
      simp [h, bne, this]

@[simp] theorem View.present_judgeSegment (v : View) (x y : Station) (d : Segment × StationSet) :
    (v.judgeSegment x d).present y = v.present y := by
  unfold View.judgeSegment View.restartPairs; repeat' split
  all_goals simp

theorem View.present_join (v : View) (x y : Station) (st : Standing) (ds : Declarations) :
    (v.join x st ds).present y = (y == x || v.present y) := by
  have fold : ∀ (ds : Declarations) (w : View), (ds.foldl (fun v d => v.judgeSegment x d) w).present y = w.present y := by
    intro ds
    induction ds with
    | nil => intro w; rfl
    | cons d ds ih => intro w; rw [List.foldl_cons, ih, View.present_judgeSegment]
  unfold View.join
  dsimp only
  rw [fold, View.present_setMember]
  by_cases h : y = x
  · simp [h]
  · rw [if_neg h]
    split
    · simp [h, View.present_markAbsent]
    · simp [h]

@[simp] theorem View.present_settle (v : View) (x y : Station) : (v.settle x).present y = v.present y := by
  unfold View.settle; simp

@[simp] theorem View.present_copied (v : View) (x y : Station) (g : Segment) (a n : Nat) (l : Bool) :
    (v.copied x g a n l).present y = v.present y := by
  unfold View.copied; split <;> simp

@[simp] theorem View.present_passOver (v : View) (x y : Station) (g : Segment) (p : Station) :
    (v.passOver x g p).present y = v.present y := by
  unfold View.passOver; dsimp only; repeat' split
  all_goals simp

/-- Who is present after a frame's own effects: a JOIN adds its sender, a LEAVE removes it. -/
theorem Frame.present_viewEffect (f : Frame) (v : View) (y : Station) :
    (f.viewEffect v).present y =
      (match f.kind? with
       | some .join => y == f.sender || v.present y
       | some .leave => y != f.sender && v.present y
       | _ => v.present y) := by
  unfold Frame.viewEffect
  split <;> rename_i h <;> simp only [h, View.present_join, View.present_markAbsent, View.present_copied, View.present_passOver]
  · split
    · exact View.present_settle _ _ _
    · rfl
  · by_cases h : y = f.sender <;> simp [h, bne]

/-! ### Member states -/

theorem View.state_setState (v : View) (x y : Station) (g h : Segment) (st : MemberState) :
    (v.setState x g st).state y h = if y = x ∧ h = g ∧ v.present x = true then st else v.state y h := by
  unfold View.setState View.state
  rw [View.member_modifyMember]
  by_cases hy : y = x
  · subst hy
    cases hm : v.member y with
    | none => simp [View.present, hm]
    | some m =>
      simp only [if_true, Option.map_some, View.present, hm, Option.isSome_some, and_true, true_and]
      unfold Member.setState
      simp [-Fin.getElem_fin]
      split <;> simp_all
  · simp [hy]

theorem View.present_of_state {v : View} {x : Station} {g : Segment} (h : v.state x g ≠ .none) : v.present x = true := by
  unfold View.state at h
  unfold View.present
  cases hm : v.member x with
  | none => rw [hm] at h; exact absurd rfl h
  | some m => rfl

/-! ### The counts -/

theorem View.member_countAccepted (v d : View) (o x : Station) (sl : Slots) :
    (v.countAccepted d o sl).member x =
      (v.member x).map fun m => if d.present x then m.countAccepted (x == o) (droveAck sl x) else m := by
  have h : (v.countAccepted d o sl).member x = (v.mapMembers fun x m =>
    if d.present x then m.countAccepted (x == o) (droveAck sl x) else m).member x := rfl
  rw [h, View.member_mapMembers]

@[simp] theorem View.present_countAccepted (v d : View) (o x : Station) (sl : Slots) :
    (v.countAccepted d o sl).present x = v.present x := by
  simp [View.present, View.member_countAccepted]

/-- The counts apart, an accepted frame leaves a member as it is. -/
theorem Member.countAccepted_eq (m : Member) (a b : Bool) :
    m.countAccepted a b = { m with miss := (m.countAccepted a b).miss, reject := (m.countAccepted a b).reject } := by
  unfold Member.countAccepted; split <;> rfl

theorem View.state_countAccepted (v d : View) (o x : Station) (sl : Slots) (g : Segment) :
    (v.countAccepted d o sl).state x g = v.state x g := by
  unfold View.state
  rw [View.member_countAccepted]
  cases v.member x with
  | none => rfl
  | some m =>
    simp only [Option.map_some]
    split
    · rw [m.countAccepted_eq]
    · rfl

theorem View.declared_countAccepted (v d : View) (o x : Station) (sl : Slots) (g : Segment) :
    (v.countAccepted d o sl).declared x g = v.declared x g := by
  unfold View.declared
  rw [View.member_countAccepted]
  cases v.member x with
  | none => rfl
  | some m =>
    simp only [Option.map_some, Option.bind_some]
    split
    · rw [m.countAccepted_eq]
    · rfl

theorem View.settled_countAccepted (v d : View) (o x : Station) (sl : Slots) :
    (v.countAccepted d o sl).settled x = v.settled x ∧ (v.countAccepted d o sl).awaiting x = v.awaiting x := by
  unfold View.settled View.awaiting
  rw [View.member_countAccepted]
  cases v.member x with
  | none => exact ⟨rfl, rfl⟩
  | some m =>
    simp only [Option.map_some]
    split
    · rw [m.countAccepted_eq]; exact ⟨rfl, rfl⟩
    · exact ⟨rfl, rfl⟩

/-- With nobody at a limit, nobody is marked. -/
theorem View.limits_nil (v d : View) (o : Station) (sl : Slots) (h : v.BelowLimits) : v.limits d o sl = [] := by
  unfold View.limits
  rw [List.filterMap_eq_nil_iff]
  intro x _
  cases hm : v.member x with
  | none => rfl
  | some m =>
    have := h x m hm
    dsimp only
    rw [if_neg (by omega), if_neg (by omega)]

/-- Everybody acknowledging, and a view no member of which is new but with counts of 0: every count is 0 after the end field. -/
theorem View.counts_zero (w v : View) (o : Station) (sl : Slots) (ha : AllAcknowledge v o sl)
    (hn : ∀ x m, w.member x = some m → v.present x = false → m.miss = 0 ∧ m.reject = 0) (x : Station) (m : Member)
    (h : (w.countAccepted v o sl).member x = some m) : m.miss = 0 ∧ m.reject = 0 := by
  rw [View.member_countAccepted, Option.map_eq_some_iff] at h
  obtain ⟨k, hk, rfl⟩ := h
  cases hp : v.present x with
  | false => rw [if_neg (by simp)]; exact hn x k hk hp
  | true =>
    rw [if_pos rfl]
    have hd : (x == o || droveAck sl x) = true := by
      by_cases hx : x = o
      · simp [hx]
      · have := ha x hp
        simp [droveAck, this.1, this.2 hx]
    unfold Member.countAccepted
    rw [if_pos hd]
    exact ⟨rfl, rfl⟩

theorem View.accepts_iff (v : View) (sl : Slots) : v.accepts sl = true ↔ ∀ x, v.present x = true → rejectSlot sl x = false := by
  simp only [View.accepts, View.presentList, stations, List.all_eq_true, List.mem_filter, List.mem_finRange, true_and,
    Bool.not_eq_true']

/-- The server of a pair depends on the present set and the member states alone. -/
theorem View.server_congr (v w : View) (hp : ∀ x, w.present x = v.present x) (hs : ∀ x g, w.state x g = v.state x g)
    (j : Station) (g : Segment) : w.server j g = v.server j g := by
  have hl : w.presentList = v.presentList := List.filter_congr fun x _ => hp x
  unfold View.server View.isCurrent
  simp only [hs, hl]

theorem View.server_countAccepted (v d : View) (o : Station) (sl : Slots) (j : Station) (g : Segment) :
    (v.countAccepted d o sl).server j g = v.server j g :=
  View.server_congr _ _ (fun x => v.present_countAccepted d o x sl) (fun x h => v.state_countAccepted d o x sl h) j g

theorem View.serves_countAccepted (v d : View) (o : Station) (sl : Slots) (me j : Station) (g : Segment) :
    (v.countAccepted d o sl).serves me j g = v.serves me j g := by
  unfold View.serves
  rw [View.server_countAccepted, (View.settled_countAccepted _ _ _ _ _).1]

end Sys2Proof.Machine
end

