-- ==== Sys2Proof/Laws/FrameEnds.lean ====
section
/-! SUPPORT. Everything a frame end can do at a station that holds a view and stays in the group: its own effects, then a quiet
reaction of the blocks to the changed view, then the bus unit's end of the frame. -/

namespace Sys2Proof.Machine

/-- The row of a kind is the one frame end. -/
theorem FrameKind.row_exec (k : FrameKind) (h : Heard) (sl : Slots) (s : State) :
    exec (k.row h sl) s = .next (s.frameEnd (some h) sl) := by cases k <;> rfl

/-- A station that nobody marks, and that does not give up its LEAVE, holds the counted view, and its blocks react quietly. -/
theorem State.conclude_quiet (before s : State) (e : Ended) (taken during : View) (accepted : Bool)
    (hb : (e.counted taken during accepted).BelowLimits) (hp : (e.counted taken during accepted).present s.me = true)
    (hl : s.join.leaveAttempts < frameRetryLimit) :
    Quiet { s with view := some (e.counted taken during accepted) } (State.conclude before s e taken during accepted false) ∧
    (e.joins accepted false = true →
      StatusFlag.peerChange.isIn (State.conclude before s e taken during accepted false).rep.flags = true) := by
  have hm : e.marks s.me (e.counted taken during accepted) during false = [] := by
    unfold Ended.marks withLostReject
    rw [View.limits_nil _ _ _ _ hb]; rfl
  unfold State.conclude
  dsimp only
  rw [hm]
  have hv : (e.counted taken during accepted).marked [] = e.counted taken during accepted := rfl
  rw [hv]
  generalize e.counted taken during accepted = w at hp ⊢
  unfold State.afterView
  have hme : (s.takeView e w during [] (e.joins accepted false)).me = s.me := by
    unfold State.takeView State.logMarkings State.setFlagIf; split <;> rfl
  have hj : (s.takeView e w during [] (e.joins accepted false)).join = s.join := by
    unfold State.takeView State.logMarkings State.setFlagIf; split <;> rfl
  rw [hme, hp, hj, if_neg (by simp), if_neg (by omega)]
  have base : { s with view := some w, group := s.group.filter fun b => !(([] : List Marking).map Prod.fst).contains b.sender } =
      { s with view := some w } := by
    cases s.group <;> simp
  have q1 : Quiet { s with view := some w } (s.takeView e w during [] (e.joins accepted false)) := by
    unfold State.takeView State.logMarkings
    rw [base]
    exact State.setFlagIf_quiet _ _ _
  have q2 : Quiet (s.takeView e w during [] (e.joins accepted false))
      ((State.reactBlocks before (s.takeView e w during [] (e.joins accepted false)) w).afterFrame e accepted) :=
    (State.reactBlocks_quiet _ _ _).trans (State.afterFrame_quiet _ _ _)
  refine ⟨q1.trans q2, fun hjn => q2.mild.flags _ ?_⟩
  unfold State.takeView State.setFlagIf State.setFlag Reporting.setFlag
  rw [hjn]
  simp only [Bool.true_or, if_true]
  unfold StatusFlag.isIn StatusFlag.mask
  rw [BitVec.getLsbD_or]
  simp [StatusFlag.bit]

/-! ### The own effects of another station's frame -/

@[simp] theorem State.enterWrites_bus (s : State) (ws : List LineWrite) : (s.enterWrites ws).bus = s.bus := rfl
@[simp] theorem State.enterWrites_group (s : State) (ws : List LineWrite) : (s.enterWrites ws).group = s.group := rfl
@[simp] theorem State.enterWrites_sp (s : State) (ws : List LineWrite) :
    (s.enterWrites ws).sp = { s.sp with applyList := s.sp.applyList ++ ws } := rfl
@[simp] theorem State.enterWrites_join (s : State) (ws : List LineWrite) : (s.enterWrites ws).join = s.join := rfl
@[simp] theorem State.enterWrites_nil_gives (s : State) : (s.enterWrites []).gives = s.gives := rfl

/-- The own effects of a peer's frame leave the bus unit, the leave attempts and the rest of the store port. -/
theorem State.takePeerFrame_frame (s : State) (v : View) (f : Frame) :
    (s.takePeerFrame v f).bus = s.bus ∧ (s.takePeerFrame v f).join.leaveAttempts = s.join.leaveAttempts ∧
    (s.takePeerFrame v f).walker = s.walker ∧ ∃ ws, (s.takePeerFrame v f).sp = { s.sp with applyList := s.sp.applyList ++ ws } :=
        by
  unfold State.takePeerFrame
  have nil : s.sp = { s.sp with applyList := s.sp.applyList ++ [] } := by simp
  split
  · unfold State.takeUpdate; dsimp only; split <;> exact ⟨rfl, rfl, rfl, _, rfl⟩
  · split <;> exact ⟨rfl, rfl, rfl, [], nil⟩
  · unfold State.takeAsk; split <;> exact ⟨rfl, rfl, rfl, [], nil⟩
  · unfold State.takeGive; dsimp only; repeat' split
    all_goals first | exact ⟨rfl, rfl, rfl, _, rfl⟩ | exact ⟨rfl, rfl, rfl, [], nil⟩
  · unfold State.takeCopy State.setFlagIf; dsimp only; repeat' split
    all_goals first | exact ⟨rfl, rfl, rfl, _, rfl⟩ | exact ⟨rfl, rfl, rfl, [], nil⟩
  all_goals exact ⟨rfl, rfl, rfl, [], nil⟩

/-- A COPY consistent with a view names a member of its segment (R100). -/
theorem Frame.copy_member {f : Frame} {v : View} (h : f.inconsistent v = false) (hk : f.kind? = some .copy) :
    v.isMember f.copyStation f.segment = true := by
  unfold Frame.inconsistent Frame.copyInconsistent View.cursor at h
  rw [hk] at h
  unfold View.isMember
  cases hs : v.state f.copyStation f.segment <;> simp_all

/-- A held view means a view held. -/
theorem State.view_of_heldView {s : State} {v : View} (h : s.heldView = some v) : s.view = some v ∧ s.inGroup = true := by
  unfold State.heldView at h
  split at h
  · exact ⟨h, by assumption⟩
  · exact absurd h (by simp)

/-- The judgement of a frame in a state that differs in nothing the checks look at. -/
theorem Judgement.parts {j : Judgement} (h : j.marks = false) :
    j.failed = false ∧ j.malformed = false ∧ j.duplicate = false ∧ j.inconsistent = false := by
  unfold Judgement.marks at h
  simpa [and_assoc] using h

/-- A frame whose kind is named and that is not malformed comes from its owner. -/
theorem Frame.sender_of_sound {f : Frame} {o : Station} {c : Fin 4} (h : f.malformed o c = false) : f.sender = o := by
  unfold Frame.malformed at h
  split at h
  · exact absurd h (by simp)
  · simp only [Bool.or_eq_false_iff, bne_eq_false_iff_eq] at h
    exact h.1.1.1.1.1.2

/-- The counts a JOIN starts with, and everybody else's as they were. -/
theorem View.member_judgeSegment_counts (v : View) (x y : Station) (d : Segment × StationSet) (m : Member)
    (h : (v.judgeSegment x d).member y = some m) : ∃ k, v.member y = some k ∧ m.miss = k.miss ∧ m.reject = k.reject ∧
      m.declared = k.declared ∧ m.standing = k.standing := by
  have key : ∀ (w : View) (g : Segment) (st : MemberState) (k : Member), (w.setState x g st).member y = some k →
      ∃ k', w.member y = some k' ∧ k.miss = k'.miss ∧ k.reject = k'.reject ∧ k.declared = k'.declared ∧
        k.standing = k'.standing := by
    intro w g st k hk
    unfold View.setState at hk
    rw [View.member_modifyMember] at hk
    split at hk
    · obtain ⟨a, ha, rfl⟩ := Option.map_eq_some_iff.mp hk
      exact ⟨a, ha, rfl, rfl, rfl, rfl⟩
    · exact ⟨k, hk, rfl, rfl, rfl, rfl⟩
  unfold View.judgeSegment at h
  split at h
  · exact key _ _ _ _ h
  · split at h
    · exact key _ _ _ _ h
    · obtain ⟨a, ha, h1, h2, h3, h4⟩ := key _ _ _ _ h
      unfold View.restartPairs at ha
      rw [View.member_mapMembers] at ha
      obtain ⟨b, hb, rfl⟩ := Option.map_eq_some_iff.mp ha
      exact ⟨b, hb, h1, h2, h3, h4⟩

/-- The joiner's member after its JOIN: AWAITING or SETTLED as given, its declarations recorded, and its counts 0. -/
theorem View.member_join (v : View) (x : Station) (st : Standing) (ds : Declarations) (m : Member)
    (h : (v.join x st ds).member x = some m) : m.miss = 0 ∧ m.reject = 0 ∧ m.standing = st ∧
      m.declared = Vector.ofFn fun g : Segment => ds.lookup g := by
  have fold : ∀ (es : Declarations) (w : View) (m : Member), (es.foldl (fun v d => v.judgeSegment x d) w).member x = some m →
      ∃ k, w.member x = some k ∧ m.miss = k.miss ∧ m.reject = k.reject ∧ m.declared = k.declared ∧ m.standing = k.standing := by
    intro es
    induction es with
    | nil => intro w m hm; exact ⟨m, hm, rfl, rfl, rfl, rfl⟩
    | cons d es ih =>
      intro w m hm
      obtain ⟨k, hk, a1, a2, a3, a4⟩ := ih _ m hm
      obtain ⟨j, hj, b1, b2, b3, b4⟩ := View.member_judgeSegment_counts w x x d k hk
      exact ⟨j, hj, a1.trans b1, a2.trans b2, a3.trans b3, a4.trans b4⟩
  unfold View.join at h
  obtain ⟨k, hk, a1, a2, a3, a4⟩ := fold _ _ m h
  rw [View.member_setMember, if_pos rfl] at hk
  obtain rfl := Option.some.inj hk
  exact ⟨a1, a2, a4, a3⟩

/-- A member that a frame's own effects have made present starts with counts of 0. -/
theorem Frame.viewEffect_newcomers (f : Frame) (v : View) (x : Station) (m : Member) (h : (f.viewEffect v).member x = some m)
    (hp : v.present x = false) : m.miss = 0 ∧ m.reject = 0 := by
  have pres : (f.viewEffect v).present x = true := by simp [View.present, h]
  rw [Frame.present_viewEffect] at pres
  split at pres
  · rename_i hk
    rw [hp, Bool.or_false, beq_iff_eq] at pres
    unfold Frame.viewEffect at h
    rw [hk] at h
    subst pres
    obtain ⟨h1, h2, _⟩ := View.member_join v _ _ _ m h
    exact ⟨h1, h2⟩
  · rw [hp, Bool.and_false] at pres; exact absurd pres (by simp)
  · rw [hp] at pres; exact absurd pres (by simp)

/-! ### The repair list, empty -/

theorem State.judge_repair (s : State) (r : Request) : (s.judge r).repair = s.repair ∧ (s.judge r).walker = s.walker := by
  unfold State.judge State.judgeSegment State.judgeRead State.judgeWrite State.judgeMemberRead State.judgeStaleRead State.offerWrite
    State.sendRead State.holdRequest State.answer
  repeat' split
  all_goals exact ⟨rfl, rfl⟩

theorem State.retake_repair (s : State) (a : Stage) : (s.retake a).repair = s.repair ∧ (s.retake a).walker = s.walker := by
  unfold State.retake; repeat' split
  all_goals first | exact s.judge_repair _ | exact ⟨rfl, rfl⟩

theorem State.releaseRead_repair (s : State) : s.releaseRead.repair = s.repair ∧ s.releaseRead.walker = s.walker := by
  unfold State.releaseRead; repeat' split
  all_goals first | exact s.judge_repair _ | exact ⟨rfl, rfl⟩

theorem State.raiseAll_repair (es : List LogEntry) (s : State) :
    (es.foldl State.raise s).repair = s.repair ∧ (es.foldl State.raise s).walker = s.walker := by
  induction es generalizing s with
  | nil => exact ⟨rfl, rfl⟩
  | cons e es ih => exact ih _

theorem State.reviewSegments_repair (b s : State) :
    (State.reviewSegments b s).repair = s.repair ∧ (State.reviewSegments b s).walker = s.walker := by
  unfold State.reviewSegments
  generalize segments = gs
  induction gs generalizing s with
  | nil => exact ⟨rfl, rfl⟩
  | cons g gs ih =>
    rw [List.foldl_cons]
    have : (State.reviewSegment b s g).repair = s.repair ∧ (State.reviewSegment b s g).walker = s.walker := by
      unfold State.reviewSegment State.setFlagIf State.discardSegment; dsimp only; repeat' split
      all_goals exact ⟨rfl, rfl⟩
    rw [(ih _).1, (ih _).2]; exact this

theorem State.discardSpentHead_repair (s : State) :
    s.discardSpentHead.repair = s.repair ∧ s.discardSpentHead.walker = s.walker := by
  unfold State.discardSpentHead; repeat' split
  all_goals exact ⟨rfl, rfl⟩

theorem State.reviewHead_repair (b s : State) :
    (State.reviewHead b s).repair = s.repair ∧ (State.reviewHead b s).walker = s.walker := by
  unfold State.reviewHead; split
  · exact ⟨rfl, rfl⟩
  · exact s.discardSpentHead_repair

theorem State.reviewRosters_repair (s : State) (v : View) :
    (s.reviewRosters v).repair = s.repair ∧ (s.reviewRosters v).walker = s.walker := ⟨rfl, rfl⟩

theorem State.reviewJobs_repair (s : State) (v : View) : (s.reviewJobs v).repair = s.repair ∧ (s.reviewJobs v).walker =
    s.walker :=
  ⟨rfl, rfl⟩

theorem State.reviewMonitors_repair (s : State) (b : Segment → Option Station) :
    (s.reviewMonitors b).repair = s.repair ∧ (s.reviewMonitors b).walker = s.walker := ⟨rfl, rfl⟩

theorem State.reactBlocks_repair (b s : State) (v : View) (h : s.repair = []) (hw : s.walker.state ≠ .held) :
    (State.reactBlocks b s v).repair = [] := by
  unfold State.reactBlocks State.reviewBlocks
  dsimp only
  have hp : ∀ x : State, (State.reviewPort b x).repair = x.repair := by
    intro x; unfold State.reviewPort; dsimp only; repeat' split
    all_goals simp only [(State.retake_repair _ _).1]
  rw [hp]
  have h1 : (State.reviewSegments b (State.reviewHead b (s.reviewRosters v))).repair = [] ∧
      (State.reviewSegments b (State.reviewHead b (s.reviewRosters v))).walker = s.walker := by
    rw [(State.reviewSegments_repair _ _).1, (State.reviewSegments_repair _ _).2, (State.reviewHead_repair _ _).1,
      (State.reviewHead_repair _ _).2, (State.reviewRosters_repair _ _).1, (State.reviewRosters_repair _ _).2]
    exact ⟨h, rfl⟩
  generalize State.reviewSegments b (State.reviewHead b (s.reviewRosters v)) = x at h1 ⊢
  have h2 : (((x.reviewRun v).reviewJobs v).reviewMonitors b.ownServer).repair = [] ∧
      (((x.reviewRun v).reviewJobs v).reviewMonitors b.ownServer).walker = s.walker := by
    have : (x.reviewRun v).repair = x.repair ∧ (x.reviewRun v).walker = x.walker := by
      unfold State.reviewRun; repeat' split
      all_goals exact ⟨rfl, rfl⟩
    rw [(State.reviewMonitors_repair _ _).1, (State.reviewMonitors_repair _ _).2, (State.reviewJobs_repair _ _).1,
      (State.reviewJobs_repair _ _).2, this.1, this.2]
    exact h1
  generalize ((x.reviewRun v).reviewJobs v).reviewMonitors b.ownServer = y at h2 ⊢
  have h3 : (y.reviewRepair v).repair = [] ∧ (y.reviewRepair v).walker = s.walker := by
    unfold State.reviewRepair
    dsimp only
    rw [(State.raiseAll_repair _ _).1, (State.raiseAll_repair _ _).2]
    exact ⟨by simp [h2.1], h2.2⟩
  generalize y.reviewRepair v = z at h3 ⊢
  unfold State.releaseSince
  split
  · exact h3.1
  · unfold State.releaseHeld
    dsimp only
    have h4 : (z.releaseRead.releaseJobs (madeRoom b.repair z.repair)).repair = [] ∧
       (z.releaseRead.releaseJobs (madeRoom b.repair z.repair)).walker = s.walker :=
      ⟨z.releaseRead_repair.1.trans h3.1, z.releaseRead_repair.2.trans h3.2⟩
    split
    · rw [(State.retake_repair _ _).1]
      unfold State.wakeWalker
      rw [h4.2, if_neg hw]; exact h4.1
    · exact h4.1

/-- A repair list left empty by a peer's frame stays empty, while no walker step waits for a place in it. -/
theorem State.conclude_repair (before s : State) (e : Ended) (taken during : View) (accepted : Bool) (ho : e.own = none)
    (hb : (e.counted taken during accepted).BelowLimits) (hp : (e.counted taken during accepted).present s.me = true)
    (hl : s.join.leaveAttempts < frameRetryLimit) (hr : s.repair = []) (hw : s.walker.state ≠ .held) :
    (State.conclude before s e taken during accepted false).repair = [] := by
  have hm : e.marks s.me (e.counted taken during accepted) during false = [] := by
    unfold Ended.marks withLostReject
    rw [View.limits_nil _ _ _ _ hb]; rfl
  unfold State.conclude
  dsimp only
  rw [hm]
  have hv : (e.counted taken during accepted).marked [] = e.counted taken during accepted := rfl
  rw [hv]
  generalize e.counted taken during accepted = w at hp ⊢
  unfold State.afterView
  have hme : (s.takeView e w during [] (e.joins accepted false)).me = s.me := by
    unfold State.takeView State.logMarkings State.setFlagIf; split <;> rfl
  have hj : (s.takeView e w during [] (e.joins accepted false)).join = s.join := by
    unfold State.takeView State.logMarkings State.setFlagIf; split <;> rfl
  have hk : (s.takeView e w during [] (e.joins accepted false)).repair = [] ∧
      (s.takeView e w during [] (e.joins accepted false)).walker = s.walker := by
    unfold State.takeView State.logMarkings State.setFlagIf; split <;> exact ⟨hr, rfl⟩
  rw [hme, hp, hj, if_neg (by simp), if_neg (by omega)]
  have := State.reactBlocks_repair before _ w hk.1 (by rw [hk.2]; exact hw)
  unfold State.afterFrame
  rw [ho]
  exact this

/-- The end of a peer's good frame: what it leaves before the claimants present again. -/
theorem State.peerFrameEnd (s : State) (v : View) (h : Heard) (f : Frame) (owner : Station) (c : Fin 4) (slots : Slots)
    (hr : readFrame h = some f) (g : GoodFrame s v f owner c slots) :
    ∃ u : State, s.frameEnd (some h) slots = u.settle ∧
      u.view = some ((f.viewEffect v).countAccepted v owner slots) ∧
      (∀ x m, ((f.viewEffect v).countAccepted v owner slots).member x = some m → m.miss = 0 ∧ m.reject = 0) ∧
      (let p := State.takePeerFrame { s with bus := { s.bus with slot := some .ack } } v f
       u.sp = p.sp ∧ u.group = p.group ∧ u.gives = p.gives ∧ u.store = s.store ∧ u.health = s.health ∧ u.pending = s.pending ∧
       u.join.station = s.join.station ∧ u.join.cause = s.join.cause ∧ u.rep.config = s.rep.config ∧
       (p.repair = [] → s.walker.state ≠ .held → u.repair = [])) ∧
      (f.kind? = some .join → StatusFlag.peerChange.isIn u.rep.flags = true) ∧
      u.bus.slot = some .ack ∧ u.bus.inFlight = none ∧ u.bus.emptyPending = false ∧
      u.bus.quiet = (if s.join.station = .joined then .counting else .stopped) ∧
      u.bus.phase = some (if c = 1 then .continuing else if c = 2 then .breaking else .claiming) := by
  obtain ⟨⟨hu, hph, ho, hc⟩, hv, hself, hpeer, hchk, hack, hlv⟩ := g
  obtain ⟨hview, hin⟩ := State.view_of_heldView hv
  have hvalid : s.validates = true := by unfold State.validates; rw [hin]; rfl
  have hfe : s.frameEnd (some h) slots = s.endFrame ⟨owner, c, some f, none, s.judgeFrame (some f) owner c, slots⟩ := by
    unfold State.frameEnd State.ended
    rw [hu, hph, ho, hc, hpeer]
    simp only [Option.bind_some, hr]
  obtain ⟨j1, j2, j3, j4⟩ := Judgement.parts hchk
  generalize hj : s.judgeFrame (some f) owner c = j at *
  have hsound : f.sender = owner := by
    have : f.malformed owner c = false := by rw [← hj] at j2; exact j2
    exact Frame.sender_of_sound this
  have hne : f.sender ≠ s.me := by
    have : (f.sender == s.me) = false := by rw [← hj] at j3; exact j3
    simpa using this
  rw [hfe]
  unfold State.endFrame
  dsimp only
  have hds : s.driveSlot ⟨owner, c, some f, none, j, slots⟩ = { s with bus := { s.bus with slot := some .ack } } := by
    unfold State.driveSlot
    simp only [Option.isNone_none, hvalid, Bool.and_self, if_true, hchk, j3, Bool.false_eq_true, if_false]
  rw [hds]
  have hv1 : State.heldView { s with bus := { s.bus with slot := some .ack } } = some v := hv
  rw [hv1]
  dsimp only
  have hacc : v.accepts slots = true := by
    rw [View.accepts_iff]; intro x hx; exact (hack x hx).1
  have hew : State.endWithView { s with bus := { s.bus with slot := some .ack } } v ⟨owner, c, some f, none, j, slots⟩ =
      State.conclude { s with bus := { s.bus with slot := some .ack } }
        (State.takePeerFrame { s with bus := { s.bus with slot := some .ack } } v f) ⟨owner, c, some f, none, j, slots⟩
        (f.viewEffect v) v true false := by
    unfold State.endWithView Judgement.unreadable
    simp only [hacc, Option.isNone_none, j1, j2, Bool.or_false, Bool.and_false, Bool.not_false, Bool.and_self]
    rfl
  rw [hew]
  have hzero := View.counts_zero (f.viewEffect v) v owner slots hack (fun x m hm hp => Frame.viewEffect_newcomers f v x m hm hp)
  have hcnt : Ended.counted ⟨owner, c, some f, none, j, slots⟩ (f.viewEffect v) v true =
      (f.viewEffect v).countAccepted v owner slots := rfl
  have hmild := State.takePeerFrame_mild { s with bus := { s.bus with slot := some .ack } } v f
  obtain ⟨fr1, fr2, fr3, _⟩ := State.takePeerFrame_frame { s with bus := { s.bus with slot := some .ack } } v f
  have hbl : (Ended.counted ⟨owner, c, some f, none, j, slots⟩ (f.viewEffect v) v true).BelowLimits := by
    rw [hcnt]; intro x m hm
    obtain ⟨a, b⟩ := hzero x m hm
    rw [a, b]; exact ⟨by decide, by decide⟩
  have hpm : (Ended.counted ⟨owner, c, some f, none, j, slots⟩ (f.viewEffect v) v true).present
      (State.takePeerFrame { s with bus := { s.bus with slot := some .ack } } v f).me = true := by
    rw [hcnt, View.present_countAccepted, Frame.present_viewEffect, hmild.me]
    have : State.me { s with bus := { s.bus with slot := some .ack } } = s.me := rfl
    rw [this]
    split
    · rw [hself]; simp
    · rw [hself, Bool.and_true]; simpa using fun h => hne h.symm
    · exact hself
  have hla : (State.takePeerFrame { s with bus := { s.bus with slot := some .ack } } v f).join.leaveAttempts < frameRetryLimit :=
      by
    rw [fr2]; exact hlv
  obtain ⟨q, hpc⟩ := State.conclude_quiet { s with bus := { s.bus with slot := some .ack } } _
    ⟨owner, c, some f, none, j, slots⟩ (f.viewEffect v) v true hbl hpm hla
  have hrep := State.conclude_repair { s with bus := { s.bus with slot := some .ack } } _
    ⟨owner, c, some f, none, j, slots⟩ (f.viewEffect v) v true rfl hbl hpm hla
  rw [fr3] at hrep
  rw [hcnt] at q
  generalize hw : State.conclude { s with bus := { s.bus with slot := some .ack } }
    (State.takePeerFrame { s with bus := { s.bus with slot := some .ack } } v f) ⟨owner, c, some f, none, j, slots⟩
    (f.viewEffect v) v true false = w at q hpc hrep ⊢
  have hst : w.join.station = s.join.station := q.mild.station.trans hmild.station
  refine ⟨_, rfl, ?_, hzero, ⟨q.sp, q.group, q.gives, q.mild.store.trans hmild.store, q.mild.health.trans hmild.health,
    q.mild.pending.trans hmild.pending, hst, q.mild.cause.trans hmild.cause, q.mild.config.trans hmild.config, hrep⟩, ?_, ?_⟩
  · exact q.mild.view
  · intro hk
    apply hpc
    unfold Ended.joins
    simp [hk]
  · have hslot : w.bus.slot = some .ack := by
      have := q.slot
      rw [this]; show (State.takePeerFrame _ v f).bus.slot = _
      rw [fr1]
    unfold BusUnit.endFrame
    dsimp only
    split
    · rename_i hc1; subst hc1; exact ⟨hslot, rfl, rfl, by rw [hst]; simp, rfl⟩
    · split
      · rename_i hc2; subst hc2; exact ⟨hslot, rfl, rfl, by rw [hst]; simp, rfl⟩
      · rename_i hc1 hc2
        exact ⟨hslot, rfl, rfl, by show (if _ then _ else _) = _; rw [hst]; simp, rfl⟩

end Sys2Proof.Machine
end

