-- ==== Sys2Proof/Laws/Frames.lean ====
section
/-! SUPPORT. The layouts read back: a header, a whole frame, the words of a payload, and the masked words of an UPDATE. -/

namespace Sys2Proof.Machine

/-- A header is read back as it was sent. -/
theorem Header.decode_encode (h : Header) : Header.decode h.encode = some h := by
  obtain ⟨a, b, c, d, e, f, g, i⟩ := h
  unfold Header.encode Header.decode
  dsimp only
  congr 2 <;> (apply BitVec.eq_of_getLsbD_eq; intro k hk; simp only [BitVec.getLsbD_append, BitVec.getLsbD_extractLsb'])
  all_goals (interval_cases k <;> simp only [Nat.reduceAdd, Nat.reduceLT, Nat.reduceSub, decide_true, decide_false,
    Bool.true_and, if_true, if_false])

/-- A frame whose length field is that of its payload is read back whole. -/
theorem readFrame_heard (f : Frame) (h : f.payload.length = f.header.length.toNat) : readFrame f.heard = some f := by
  have e : f.header.encode.length = 6 := rfl
  unfold readFrame Frame.heard Frame.bytes
  dsimp only
  rw [List.take_left' e, Header.decode_encode]
  dsimp only
  rw [List.drop_left' e, List.length_append, e, h]
  simp

theorem bytesWords_wordBytes (w : Word) (ws : List Byte) : bytesWords (wordBytes w ++ ws) = w :: bytesWords ws := by
  unfold wordBytes
  simp only [List.cons_append, List.nil_append, bytesWords]
  congr 1
  apply BitVec.eq_of_getLsbD_eq; intro k hk
  simp only [BitVec.getLsbD_append, BitVec.getLsbD_extractLsb']
  interval_cases k <;> simp only [Nat.reduceAdd, Nat.reduceLT, Nat.reduceSub, decide_true, decide_false,
    Bool.true_and, if_true, if_false]

/-- Words sent are the words read. -/
theorem bytesWords_flatMap (ws : List Word) : bytesWords (ws.flatMap wordBytes) = ws := by
  induction ws with
  | nil => rfl
  | cons w ws ih => rw [List.flatMap_cons, bytesWords_wordBytes, ih]

theorem flatMap_wordBytes_length (ws : List Word) : (ws.flatMap wordBytes).length = 4 * ws.length := by
  induction ws with
  | nil => rfl
  | cons w ws ih => rw [List.flatMap_cons, List.length_append, ih]; simp [wordBytes]; omega

theorem maskRank_get : ∀ (m : WordMask) (i : WordIx), m.has i = true → (m.words)[maskRank m i]? = some i := by decide

/-- A masked word is found at its rank among the words gathered. -/
theorem gatherWords_get (m : WordMask) (d : Vector Word 4) (i : WordIx) (h : m.has i = true) :
    (gatherWords m d).getD (maskRank m i) 0 = d[i] := by
  unfold gatherWords
  rw [List.getD_eq_getElem?_getD, List.getElem?_map, maskRank_get m i h]; rfl

theorem WordMask.length_words : ∀ m : WordMask, m.words.length = m.size := by decide
theorem WordMask.length_words_le : ∀ m : WordMask, m.words.length ≤ 4 := by decide

/-- What a receiver reads of a frame composed of words. -/
theorem composeFrame_reads (x : Station) (k : FrameKind) (g : Segment) (p : BitVec 3) (o n : Nat) (ws : List Word)
    (h : ws.length ≤ 130) :
    let f := composeFrame x k g p o n (ws.flatMap wordBytes)
    readFrame f.heard = some f ∧ f.kind? = some k ∧ f.sender = x ∧ f.segment = g ∧ f.header.gpos = p ∧ f.words = ws ∧
      f.header.offset.toNat = o % 2048 ∧ f.header.count.toNat = n % 16 := by
  refine ⟨readFrame_heard _ ?_, ?_, ?_, ?_, rfl, bytesWords_flatMap ws, ?_, ?_⟩
  · unfold composeFrame; dsimp only; rw [BitVec.toNat_ofNat, flatMap_wordBytes_length]; omega
  · unfold composeFrame Frame.kind?; cases k <;> rfl
  · unfold composeFrame Frame.sender stationOfBits stationBits; ext; simp
  · unfold composeFrame Frame.segment segmentOfBits segmentBits; ext; simp
  · unfold composeFrame; simp
  · unfold composeFrame; simp

theorem lineAt_segment_offset (l : Line) : lineAt (segmentOf l) ((offsetOf l) % 2048) = l := by
  unfold lineAt segmentOf offsetOf; ext; simp; omega

end Sys2Proof.Machine
end

