-- ==== Sys2Proof/Laws/Jobs.lean ====
section
/-! SUPPORT. The serve job table: what leaves it and what enters it at a frame end. -/

namespace Sys2Proof.Machine

/-- The jobs after one leaves. -/
theorem CatchUp.removeJob_jobs (c : CatchUp) (k x : JobIx) : (c.removeJob k).jobs[x] = if x = k then none else c.jobs[x] := by
  unfold CatchUp.removeJob CatchUp.setJob
  by_cases h : x = k
  · subst h; simp
  · have : ¬ k.val = x.val := fun e => h (Fin.ext e.symm)
    simp [h, this]

/-- The jobs that satisfy the test are gone, and the others stay. -/
theorem CatchUp.dropWhere_jobs (p : Job → Bool) (c : CatchUp) (k : JobIx) : (c.dropWhere p).jobs[k] = (c.jobs[k]).filter fun j =>
    !p j := by
  have fold : ∀ (ks : List JobIx) (c : CatchUp), ks.Nodup → (ks.foldl (fun c k =>
      match c.jobs[k] with
      | some j => if p j then c.removeJob k else c
      | none => c) c).jobs[k] = if k ∈ ks then (c.jobs[k]).filter fun j => !p j else c.jobs[k] := by
    intro ks
    induction ks with
    | nil => intro c _; simp
    | cons x ks ih =>
      intro c hn
      rw [List.foldl_cons, ih _ (List.nodup_cons.mp hn).2]
      have hx := (List.nodup_cons.mp hn).1
      have hstep : (match c.jobs[x] with
        | some j => if p j then c.removeJob x else c
        | none => c).jobs[k] = if k = x then (c.jobs[k]).filter fun j => !p j else c.jobs[k] := by
        cases h : c.jobs[x] with
        | none =>
          dsimp only
          split
          · rename_i e; subst e; rw [h]; rfl
          · rfl
        | some j =>
          dsimp only
          by_cases hp : p j = true
          · rw [if_pos hp, CatchUp.removeJob_jobs]
            split
            · rename_i e; subst e; rw [h]; simp [Option.filter, hp]
            · rfl
          · rw [if_neg hp]
            split
            · rename_i e; subst e; rw [h]; simp [Option.filter, hp]
            · rfl
      rw [hstep]
      by_cases e : k = x
      · subst e; simp [hx]
      · simp [e]
  unfold CatchUp.dropWhere
  exact (fold jobIxs c (List.nodup_finRange 8)).trans (if_pos (List.mem_finRange k))

/-- A job created moves none. -/
theorem CatchUp.createJob_keeps (c : CatchUp) (j : Job) (k : JobIx) (i : Job) (h : c.jobs[k] = some i) : (c.createJob j).jobs[k] =
    some i := by
  unfold CatchUp.createJob
  split
  · exact h
  · rename_i x hx
    have := List.find?_some hx
    have hne : x ≠ k := by rintro rfl; rw [h] at this; simp at this
    have : ¬ x.val = k.val := fun e => hne (Fin.ext e)
    unfold CatchUp.setJob
    simp [this]; exact h

/-- A job of a pair still served stays at a frame end. -/
theorem CatchUp.review_keeps (c : CatchUp) (v : View) (me : Station) (n : Nat) (k : JobIx) (j : Job) (h : c.jobs[k] = some j)
    (hs : v.serves me j.station j.segment = true) : (c.review v me n).jobs[k] = some j := by
  unfold CatchUp.review
  have h1 : (c.dropWhere fun j => !v.serves me j.station j.segment).jobs[k] = some j := by
    rw [CatchUp.dropWhere_jobs, h]; simp [Option.filter, hs]
  generalize c.dropWhere _ = d at h1 ⊢
  generalize v.servedPairs me = ps
  induction ps generalizing d with
  | nil => exact h1
  | cons p ps ih =>
    rw [List.foldl_cons]
    apply ih
    split
    · exact h1
    · exact CatchUp.createJob_keeps _ _ _ _ h1

/-- The judgement of the jobs leaves the monitors. -/
theorem CatchUp.review_monitors (c : CatchUp) (v : View) (me : Station) (n : Nat) : (c.review v me n).monitors = c.monitors := by
  unfold CatchUp.review
  have h1 : ∀ p, (c.dropWhere p).monitors = c.monitors := by
    intro p
    unfold CatchUp.dropWhere
    generalize jobIxs = ks
    induction ks generalizing c with
    | nil => rfl
    | cons x ks ih =>
      rw [List.foldl_cons, ih]
      repeat' split
      all_goals rfl
  have h2 : ∀ (ps : List (Station × Segment)) (d : CatchUp), (ps.foldl (fun c p => if c.hasJob p.1 p.2 then c else c.createJob
      (newJob p.1 p.2 n)) d).monitors = d.monitors := by
    intro ps
    induction ps with
    | nil => intro d; rfl
    | cons p ps ih =>
      intro d
      rw [List.foldl_cons, ih]
      split
      · rfl
      · unfold CatchUp.createJob; split <;> rfl
  rw [h2, h1]


/-- A job is created in the lowest free entry, at the end of the ring. -/
theorem CatchUp.createJob_free (c : CatchUp) (k : JobIx) (j : Job) (h : c.jobs[k] = none) (hlow : ∀ i < k, c.jobs[i] ≠ none) :
    c.createJob j = { c with jobs := c.jobs.set k (some j), ring := c.ring ++ [k], token := some (c.token.getD k) } := by
  have hf : (jobIxs.find? fun k => (c.jobs[k]).isNone) = some k := by
    have hs : (List.finRange 8).Pairwise (· < ·) := List.pairwise_lt_finRange 8
    obtain ⟨as, bs, hab⟩ := List.append_of_mem (List.mem_finRange k)
    unfold jobIxs
    rw [hab] at hs ⊢
    rw [List.find?_append, List.find?_eq_none.mpr]
    · rw [Option.none_or, List.find?_cons_of_pos (by rw [h]; rfl)]
    · intro x hx
      rw [List.pairwise_append] at hs
      have := hlow x (hs.2.2 x hx k List.mem_cons_self)
      simpa [Option.isNone_iff_eq_none] using this
  unfold CatchUp.createJob
  rw [hf]
  dsimp only [CatchUp.setJob]
  cases c.token <;> rfl

/-- With no free entry none is created. -/
theorem CatchUp.createJob_full (c : CatchUp) (j : Job) (h : ∀ k : JobIx, c.jobs[k] ≠ none) : c.createJob j = c := by
  have hf : (jobIxs.find? fun k => (c.jobs[k]).isNone) = none := by
    rw [List.find?_eq_none]; intro k _; simpa [Option.isNone_iff_eq_none] using h k
  unfold CatchUp.createJob; rw [hf]

/-- The entry a job is created in. -/
theorem CatchUp.createJob_cases (c : CatchUp) (j : Job) :
    ((∀ k : JobIx, c.jobs[k] ≠ none) ∧ c.createJob j = c) ∨
      ∃ k : JobIx, c.jobs[k] = none ∧ (c.createJob j).jobs[k] = some j ∧
        ∀ x : JobIx, x ≠ k → (c.createJob j).jobs[x] = c.jobs[x] := by
  by_cases h : ∀ k : JobIx, c.jobs[k] ≠ none
  · exact Or.inl ⟨h, c.createJob_full j h⟩
  · right
    unfold CatchUp.createJob
    cases hf : jobIxs.find? fun k => (c.jobs[k]).isNone with
    | none =>
      rw [List.find?_eq_none] at hf
      exact absurd (fun k => by simpa [Option.isNone_iff_eq_none] using hf k (List.mem_finRange k)) h
    | some k =>
      have hk := List.find?_some hf
      refine ⟨k, by simpa [Option.isNone_iff_eq_none] using hk, ?_, fun x hx => ?_⟩
      · simp [CatchUp.setJob]
      · have : ¬ k.val = x.val := fun e => hx (Fin.ext e.symm)
        simp [CatchUp.setJob, this]

/-- The table holds a job for a pair: in words. -/
theorem CatchUp.hasJob_iff (c : CatchUp) (x : Station) (g : Segment) :
    c.hasJob x g = true ↔ ∃ (k : JobIx) (j : Job), c.jobs[k] = some j ∧ j.station = x ∧ j.segment = g := by
  unfold CatchUp.hasJob
  rw [List.any_eq_true]
  constructor
  · rintro ⟨k, _, h⟩
    cases hj : c.jobs[k] with
    | none => rw [hj] at h; simp at h
    | some j => rw [hj] at h; simp only [Bool.and_eq_true, beq_iff_eq] at h; exact ⟨k, j, hj, h.1, h.2⟩
  · rintro ⟨k, j, hj, h1, h2⟩
    exact ⟨k, List.mem_finRange k, by rw [hj]; simp [h1, h2]⟩

/-- One pair given a job, if it has none and an entry is free. -/
def CatchUp.give (c : CatchUp) (n : Nat) (p : Station × Segment) : CatchUp :=
  if c.hasJob p.1 p.2 then c else c.createJob (newJob p.1 p.2 n)

/-- What giving one pair a job does: it moves none, adds at most that job, and leaves the pair with one unless the table is full.
-/
theorem CatchUp.give_spec (c : CatchUp) (n : Nat) (p : Station × Segment) :
    (∀ (k : JobIx) j, c.jobs[k] = some j → (c.give n p).jobs[k] = some j) ∧
    (∀ (k : JobIx) j, (c.give n p).jobs[k] = some j → c.jobs[k] = some j ∨ j = newJob p.1 p.2 n) ∧
    ((c.give n p).hasJob p.1 p.2 = true ∨ ∀ k : JobIx, (c.give n p).jobs[k] ≠ none) ∧
    ((∀ k : JobIx, c.jobs[k] ≠ none) → c.give n p = c) := by
  unfold CatchUp.give
  by_cases h : c.hasJob p.1 p.2 = true
  · rw [if_pos h]; exact ⟨fun _ _ => id, fun _ _ => Or.inl, Or.inl h, fun _ => rfl⟩
  · rw [if_neg h]
    rcases c.createJob_cases (newJob p.1 p.2 n) with ⟨hf, he⟩ | ⟨k, hk, hj, ho⟩
    · rw [he]; exact ⟨fun _ _ => id, fun _ _ => Or.inl, Or.inr hf, fun _ => rfl⟩
    · refine ⟨fun x j => CatchUp.createJob_keeps _ _ _ _, fun x j hx => ?_, ?_, fun hf => absurd hk (hf k)⟩
      · by_cases e : x = k
        · subst e; rw [hj] at hx; exact Or.inr (Option.some.inj hx).symm
        · rw [ho x e] at hx; exact Or.inl hx
      · left; rw [CatchUp.hasJob_iff]; exact ⟨k, _, hj, rfl, rfl⟩

/-- What giving a list of pairs their jobs does. -/
theorem CatchUp.gives_spec (n : Nat) (ps : List (Station × Segment)) (c : CatchUp) :
    (∀ (k : JobIx) j, c.jobs[k] = some j → (ps.foldl (fun c p => c.give n p) c).jobs[k] = some j) ∧
    (∀ (k : JobIx) j, (ps.foldl (fun c p => c.give n p) c).jobs[k] = some j → c.jobs[k] = some j ∨ ∃ p ∈ ps, j =
        newJob p.1 p.2 n) ∧
    (∀ p ∈ ps, (ps.foldl (fun c p => c.give n p) c).hasJob p.1 p.2 = true ∨
      ∀ k : JobIx, (ps.foldl (fun c p => c.give n p) c).jobs[k] ≠ none) := by
  induction ps generalizing c with
  | nil => exact ⟨fun _ _ => id, fun _ _ => Or.inl, fun _ h => absurd h (by simp)⟩
  | cons q ps ih =>
    obtain ⟨h1, h2, h3, _⟩ := c.give_spec n q
    obtain ⟨k1, k2, k3⟩ := ih (c.give n q)
    refine ⟨fun k j h => k1 k j (h1 k j h), fun k j h => ?_, fun p hp => ?_⟩
    · rcases k2 k j h with h | ⟨p, hp, e⟩
      · rcases h2 k j h with h | e
        · exact Or.inl h
        · exact Or.inr ⟨q, List.mem_cons_self, e⟩
      · exact Or.inr ⟨p, List.mem_cons_of_mem _ hp, e⟩
    · rcases List.mem_cons.mp hp with rfl | hp
      · rcases h3 with h3 | h3
        · left
          rw [CatchUp.hasJob_iff] at h3
          obtain ⟨k, j, hj, e1, e2⟩ := h3
          exact (CatchUp.hasJob_iff _ _ _).mpr ⟨k, j, k1 k j hj, e1, e2⟩
        · right
          intro k
          cases hj : (c.give n p).jobs[k] with
          | none => exact absurd hj (h3 k)
          | some j =>
            have := k1 k j hj
            rw [List.foldl_cons, this]; simp
      · exact k3 p hp

/-- The pairs this station serves. -/
theorem View.mem_servedPairs (v : View) (me : Station) (x : Station) (g : Segment) :
    (x, g) ∈ v.servedPairs me ↔ v.serves me x g = true := by
  simp [View.servedPairs, segments, stations]

/-- What the judgement of the jobs leaves (R142). -/
theorem CatchUp.review_spec (c : CatchUp) (v : View) (me : Station) (n : Nat) :
    (∀ (k : JobIx) j, (c.review v me n).jobs[k] = some j → v.serves me j.station j.segment = true) ∧
    (∀ (k : JobIx) j, (c.review v me n).jobs[k] = some j → c.jobs[k] = some j ∨ j = newJob j.station j.segment n) ∧
    (∀ x g, v.serves me x g = true → (c.review v me n).hasJob x g = true ∨ ∀ k : JobIx, (c.review v me n).jobs[k] ≠ none) := by
  obtain ⟨_, h2, h3⟩ := CatchUp.gives_spec n (v.servedPairs me) (c.dropWhere fun j => !v.serves me j.station j.segment)
  refine ⟨fun k j h => ?_, fun k j h => ?_, fun x g h => ?_⟩
  · rcases h2 k j h with h | ⟨p, hp, rfl⟩
    · rw [CatchUp.dropWhere_jobs, Option.filter_eq_some_iff] at h
      simpa using h.2
    · exact (v.mem_servedPairs me p.1 p.2).mp hp
  · rcases h2 k j h with h | ⟨p, hp, rfl⟩
    · rw [CatchUp.dropWhere_jobs, Option.filter_eq_some_iff] at h
      exact Or.inl h.1
    · exact Or.inr rfl
  · exact h3 (x, g) ((v.mem_servedPairs me x g).mpr h)

end Sys2Proof.Machine
end

