-- ==== Sys2Proof/Laws/Kept.lean ====
section
/-! SUPPORT. The shared operations that touch the store, the station state or the view leave the queue of commands as it is and
keep a sound state sound. -/

namespace Sys2Proof.Machine

/-- An operation that leaves the queue of commands and keeps soundness. -/
structure Kept (s t : State) : Prop where
  pending : t.pending = s.pending
  sound   : Sound s → Sound t

theorem Kept.refl (s : State) : Kept s s := ⟨rfl, id⟩

theorem Kept.trans {a b c : State} (h : Kept a b) (k : Kept b c) : Kept a c :=
  ⟨k.pending.trans h.pending, fun x => k.sound (h.sound x)⟩

theorem Mild.kept {s t : State} (h : Mild s t) : Kept s t := ⟨h.pending, h.sound⟩

theorem Quiet.kept {s t : State} (h : Quiet s t) : Kept s t := h.mild.kept

/-- The same station, cause and view; the store in form and the capacities kept. -/
theorem Kept.ofParts {s t : State} (hp : t.pending = s.pending) (hs : s.store.wf = true → t.store.wf = true)
    (hj : t.join.station = s.join.station) (hk : t.join.cause = s.join.cause) (hv : t.view = s.view)
    (hb : Bounded s → Bounded t) : Kept s t :=
  ⟨hp, fun x =>
    { store := hs x.store, bounded := hb x.bounded, cause := by rw [hk, hj]; exact x.cause,
      view := by rw [hv, State.inGroup, hj]; exact x.view }⟩

/-- A changed store, still in form. -/
theorem State.store_kept (s : State) (st : Store) (h : s.store.wf = true → st.wf = true) : Kept s { s with store := st } :=
  Kept.ofParts rfl h rfl rfl rfl fun b => ⟨b.log, b.overflow, b.out, b.repair, b.gives, b.suspects, b.corrected⟩

/-- A change of the store port. -/
theorem State.sp_kept (s : State) (p : StorePort) : Kept s { s with sp := p } :=
  Mild.kept (Mild.ofParts rfl rfl rfl rfl rfl rfl id id id id id rfl)

/-! ### Line health -/

theorem dropLowest_length (xs : List Suspect) (h : xs.length ≤ suspectCapacity) (hx : suspectCapacity ≤ xs.length) :
    (dropLowest xs).length < suspectCapacity := by
  have hlow : ∀ ys : List Suspect, ys ≠ [] → ∃ e ∈ ys, e.count = lowestCount ys := by
    intro ys
    induction ys with
    | nil => intro h; exact absurd rfl h
    | cons e es ih =>
      intro _
      cases es with
      | nil => exact ⟨e, List.mem_cons_self, rfl⟩
      | cons e' es' =>
        obtain ⟨x, hx, hc⟩ := ih (by simp)
        simp only [lowestCount] at hc ⊢
        rcases Nat.le_total e.count (lowestCount (e' :: es')) with h | h
        · exact ⟨e, List.mem_cons_self, by rw [Nat.min_eq_left h]⟩
        · exact ⟨x, List.mem_cons_of_mem _ hx, by rw [Nat.min_eq_right h]; exact hc⟩
  have hne : xs ≠ [] := by intro e; rw [e] at hx; simp [suspectCapacity] at hx
  obtain ⟨e, he, hc⟩ := hlow xs hne
  unfold dropLowest
  rw [List.length_eraseP_of_mem he (by simpa using hc)]
  simp only [suspectCapacity] at *; omega

theorem noteSuspect_length (n : Nat) (l : Line) (xs : List Suspect) (h : xs.length ≤ suspectCapacity) :
    (noteSuspect n l xs).1.length ≤ suspectCapacity := by
  unfold noteSuspect; split
  · split
    · exact Nat.le_trans (List.length_filter_le _ _) h
    · simpa using h
  · dsimp only
    rw [List.length_append, List.length_cons, List.length_nil]
    split
    · omega
    · rename_i hx; have := dropLowest_length xs h (Nat.le_of_not_lt hx); omega

theorem State.promote_kept (s : State) (o : Origin) (l : Line) : Kept s (s.promote o l) := by
  have hd : (s.health.dropSuspect l).suspects.length ≤ s.health.suspects.length := List.length_filter_le _ _
  unfold State.promote; dsimp only; split
  · exact Kept.ofParts rfl id rfl rfl rfl fun b =>
      ⟨b.log, b.overflow, b.out, b.repair, b.gives, Nat.le_trans hd b.suspects, b.corrected⟩
  · split
    · exact Kept.ofParts rfl id rfl rfl rfl fun b =>
        ⟨Reporting.raise_log _ _ b.log, Reporting.raise_overflow _ _ b.overflow, b.out, b.repair, b.gives,
          Nat.le_trans hd b.suspects, b.corrected⟩
    · split
      · exact Kept.ofParts rfl id rfl rfl rfl fun b =>
          ⟨b.log, b.overflow, b.out, b.repair, b.gives, Nat.le_trans hd b.suspects, b.corrected⟩
      · exact Kept.ofParts rfl id rfl rfl rfl fun b =>
          ⟨Reporting.raise_log _ _ b.log, Reporting.raise_overflow _ _ b.overflow, b.out, b.repair, b.gives,
            Nat.le_trans hd b.suspects, b.corrected⟩

theorem State.markRetire_kept (s : State) (o : Origin) (l : Line) (k : SpareIx) : Kept s (s.markRetire o l k) := by
  unfold State.markRetire; split
  · exact Kept.refl s
  · exact Kept.ofParts rfl id rfl rfl rfl fun b =>
      ⟨Reporting.raise_log _ _ b.log, Reporting.raise_overflow _ _ b.overflow, b.out, b.repair, b.gives, b.suspects, b.corrected⟩

theorem State.countCorrected_kept (s : State) (cs : Vector Cell 4) : Kept s (s.countCorrected cs) :=
  Kept.ofParts rfl id rfl rfl rfl fun b =>
    ⟨b.log, b.overflow, b.out, b.repair, b.gives, b.suspects, Nat.min_le_right _ _⟩

theorem State.arrayFinding_kept (s : State) (o : Origin) (l : Line) (cs : Vector Cell 4) : Kept s (s.arrayFinding o l cs) := by
  have h1 : ∀ p : List Suspect × Bool,
      p = (if correctableMask cs == 0 then (s.health.suspects, false) else noteSuspect s.threshold l s.health.suspects) →
      Kept s { s with health := { s.health with suspects := p.1 } } := by
    intro p hp
    refine Kept.ofParts rfl id rfl rfl rfl fun b =>
      ⟨b.log, b.overflow, b.out, b.repair, b.gives, ?_, b.corrected⟩
    rw [hp]; dsimp only; split
    · exact b.suspects
    · exact noteSuspect_length _ _ _ b.suspects
  unfold State.arrayFinding; dsimp only
  generalize (if correctableMask cs == 0 then (s.health.suspects, false) else noteSuspect s.threshold l s.health.suspects) =
      p at h1
  split
  · exact (h1 p rfl).trans (State.promote_kept _ _ _)
  · exact h1 p rfl

theorem State.actOnFinding_kept (s : State) (st : Store) (o : Origin) (l : Line) (cs : Vector Cell 4) :
    Kept s (s.actOnFinding st o l cs) := by
  have h : Kept s (match st.spareFor l with
      | none => s.arrayFinding o l cs
      | some k => if st.table[k].state == .active && uncorrectableMask cs != 0 then s.markRetire o l k else s) := by
    split
    · exact s.arrayFinding_kept _ _ _
    · split
      · exact s.markRetire_kept _ _ _
      · exact Kept.refl s
  unfold State.actOnFinding; split
  · exact Kept.refl s
  · exact h
  · exact h

theorem State.completeRead_kept (s : State) (c : Claimant) (l : Line) : Kept s (s.completeRead c l) := by
  unfold State.completeRead; dsimp only
  refine ((s.store_kept _ ?_).trans (State.countCorrected_kept _ _)).trans (State.actOnFinding_kept _ _ _ _ _)
  intro h; split
  · exact h
  · exact s.store.writeBack_wf _ _ h
  · exact s.store.writeBack_wf _ _ h

/-! ### The completions -/

theorem State.completeApply_kept (s : State) (w : LineWrite) : Kept s (s.completeApply w) :=
  (s.store_kept _ (s.store.write_wf w)).trans (State.sp_kept _ _)

theorem State.completeLocalRead_kept (s : State) (l : Line) : Kept s (s.completeLocalRead l) := by
  have h := s.completeRead_kept .localPort l
  unfold State.completeLocalRead; dsimp only; split
  · split
    · exact h.trans (State.endRead_quiet _ _ _).kept
    · exact h
  · exact h

theorem State.completeLocalWrite_kept (s : State) (w : LineWrite) : Kept s (s.completeLocalWrite w) :=
  (s.store_kept _ (s.store.write_wf w)).trans (State.answer_quiet _ _ _).kept

theorem giveRead_length (xs : List GiveEntry) (cs : Vector Cell 4) : (giveRead xs cs).length = xs.length := by simp [giveRead]

theorem State.completeGiveRead_kept (s : State) (l : Line) : Kept s (s.completeGiveRead l) := by
  have h := s.completeRead_kept .giveRead l
  unfold State.completeGiveRead; dsimp only; split
  · exact (h.trans (State.gives_mild _ _ (Nat.le_of_eq (giveRead_length _ _))).kept).trans (State.handGive_quiet _ _ _).kept
  · exact h

theorem State.completeServe_kept (s : State) (l : Line) : Kept s (s.completeServe l) := by
  have h := s.completeRead_kept .serve l
  unfold State.completeServe; dsimp only; split
  · exact h
  · split
    · exact h
    · split
      · exact h
      · split
        · exact h.trans (State.endServe_quiet _ _ _ _ _).kept
        · exact h

theorem State.completeScrub_kept (s : State) (l : Line) : Kept s (s.completeScrub l) := by
  have h := s.completeRead_kept .scrub l
  unfold State.completeScrub; dsimp only; split
  · exact h.trans (State.finishStep_quiet _ _ _).kept
  · exact h

/-- A change of marks, the count and the suspects apart. -/
theorem State.health_kept (s : State) (h : LineHealth) (h1 : h.corrected = s.health.corrected)
    (h2 : h.suspects = s.health.suspects) : Kept s { s with health := h } :=
  Kept.ofParts rfl id rfl rfl rfl fun b =>
    ⟨b.log, b.overflow, b.out, b.repair, b.gives, by rw [h2]; exact b.suspects, by rw [h1]; exact b.corrected⟩

theorem State.retireEntry_kept (s : State) (k : SpareIx) : Kept s (s.retireEntry k) :=
  Kept.ofParts rfl id rfl rfl rfl fun b => ⟨b.log, b.overflow, b.out, b.repair, b.gives, b.suspects, b.corrected⟩

theorem State.completeFillCopy_kept (s : State) (k : SpareIx) (l : Line) : Kept s (s.completeFillCopy k l) := by
  unfold State.completeFillCopy; dsimp only
  refine ((s.store_kept _ ?_).trans (State.countCorrected_kept _ _)).trans (State.health_kept _ _ rfl rfl)
  intro h; split
  · exact h
  · exact s.store.fillCopy_wf k l h

theorem State.completeReturnCopy_kept (s : State) (k : SpareIx) (l : Line) : Kept s (s.completeReturnCopy k l) := by
  unfold State.completeReturnCopy; dsimp only; split
  · exact s.countCorrected_kept _
  · exact (((s.countCorrected_kept _).trans (State.store_kept _ _ (s.store.returnCopyWords_wf k l 15))).trans
      (State.retireEntry_kept _ k)).trans (State.promote_kept _ _ _)

/-! ### The station state -/

/-- A move between two states that are neither in the group nor OFFLINE. -/
theorem Kept.move {s t : State} (hp : t.pending = s.pending) (hs : s.store.wf = true → t.store.wf = true)
    (h1 : s.inGroup = false) (h2 : t.inGroup = false) (h3 : s.join.station ≠ .offline) (h4 : t.join.station ≠ .offline)
    (hk : t.join.cause = s.join.cause) (hv : t.view = s.view) (hb : Bounded s → Bounded t) : Kept s t :=
  ⟨hp, fun x =>
    { store := hs x.store, bounded := hb x.bounded,
      cause := by
        rw [hk]
        constructor
        · intro h; exact absurd (x.cause.mp h) h3
        · intro h; exact absurd h h4
      view := by rw [hv, h2, ← h1]; exact x.view }⟩

theorem State.startWalker_quiet (s : State) : Quiet s s.startWalker := by
  unfold State.startWalker; split
  · exact s.walker_quiet _
  · exact Quiet.refl s

theorem State.leaveFilling_kept (s : State) : Kept s s.leaveFilling := by
  unfold State.leaveFilling; split
  · rename_i h
    have hs := h.1
    refine Kept.trans ?_ (State.startWalker_quiet _).kept
    exact Kept.move rfl id (by simp [State.inGroup, hs]) (by simp [State.inGroup]) (by simp [hs]) (by simp) rfl rfl
      fun b => ⟨b.log, b.overflow, b.out, b.repair, b.gives, b.suspects, b.corrected⟩
  · exact Kept.refl s

theorem State.enterFilling_kept (s : State) (h : s.join.station = .clocking) : Kept s s.enterFilling := by
  unfold State.enterFilling; dsimp only
  refine Kept.trans (Kept.trans ?_ (State.retake_quiet _ _).kept) (State.leaveFilling_kept _)
  refine Kept.move rfl ?_ (by simp [State.inGroup, h]) (by simp [State.inGroup]) (by simp [h]) (by simp) rfl rfl
    fun b => ⟨b.log, b.overflow, b.out, b.repair, b.gives, b.suspects, b.corrected⟩
  intro x; dsimp only; split
  · exact x
  · exact x

theorem State.completeFill_kept (s : State) (w : LineWrite) : Kept s (s.completeFill w) := by
  have h := s.store_kept _ (s.store.write_wf w)
  unfold State.completeFill; dsimp only; split
  · exact h
  · split
    · exact h.trans (State.sp_kept _ _)
    · exact ((h.trans (State.sp_kept _ _)).trans (State.leaveFilling_kept _)).trans (State.retake_quiet _ _).kept

theorem State.teardown_kept (s : State) (c : OfflineCause) : Kept s (s.teardown c) :=
  ⟨rfl, fun x =>
    { store := x.store, cause := by simp [State.teardown], view := by simp [State.teardown, State.inGroup],
      bounded := ⟨x.bounded.log, x.bounded.overflow, x.bounded.out, Nat.zero_le _, Nat.zero_le _, x.bounded.suspects,
        x.bounded.corrected⟩ }⟩

theorem State.goOffline_kept (b s : State) (c : OfflineCause) : Kept s (State.goOffline b s c) := by
  unfold State.goOffline; dsimp only
  have h := ((((s.releaseSince_quiet b.repair).trans (State.discardSpentHead_quiet _)).trans (State.abortChain_quiet _)).trans
    (State.discardQueue_quiet _)).kept.trans (State.teardown_kept _ c)
  refine h.trans (Quiet.kept ?_)
  exact (((((State.setFlag_quiet _ _).trans (State.setFlagIf_quiet _ _ _)).trans (State.setFlagIf_quiet _ _ _)).trans
      (State.wakeWalker_quiet _)).trans (State.corruptHeldRead_quiet _)).trans (State.retake_quiet _ _)

/-! ### The frame end -/

theorem State.setView_kept (s : State) (v : View) (h : s.inGroup = true) : Kept s { s with view := some v } :=
  ⟨rfl, fun x =>
    { store := x.store, cause := x.cause, view := h.symm,
      bounded := ⟨x.bounded.log, x.bounded.overflow, x.bounded.out, x.bounded.repair, x.bounded.gives, x.bounded.suspects,
        x.bounded.corrected⟩ }⟩

theorem State.takeView_kept (s : State) (e : Ended) (v d : View) (ms : List Marking) (j : Bool) (h : s.inGroup = true) :
    Kept s (s.takeView e v d ms j) :=
  ((s.setView_kept v h).trans (State.group_mild _ _).kept).trans
    ((State.logMarkings_quiet _ _ _).trans (State.setFlagIf_quiet _ _ _)).kept

theorem State.afterView_kept (b s : State) (e : Ended) (v : View) (ms : List Marking) (a : Bool) :
    Kept s (State.afterView b s e v ms a) := by
  unfold State.afterView; split
  · exact State.goOffline_kept _ _ _
  · split
    · exact (s.raise_quiet _).kept.trans (State.goOffline_kept _ _ _)
    · exact ((State.reactBlocks_quiet _ _ _).trans (State.afterFrame_quiet _ _ _)).kept

theorem State.conclude_kept (b s : State) (e : Ended) (t d : View) (a l : Bool) (h : s.inGroup = true) :
    Kept s (State.conclude b s e t d a l) := (s.takeView_kept _ _ _ _ _ h).trans (State.afterView_kept _ _ _ _ _ _)

theorem State.endWithView_kept (s : State) (v : View) (e : Ended) (h : s.inGroup = true) : Kept s (s.endWithView v e) := by
  unfold State.endWithView; dsimp only
  split
  · rename_i f _ _
    have q : Mild s (if e.own.isSome then s.takeOwnFrame v f else s.takePeerFrame v f) := by
      split
      · exact s.takeOwnFrame_mild v f
      · exact s.takePeerFrame_mild v f
    exact q.kept.trans (State.conclude_kept _ _ _ _ _ _ _ (by rw [q.inGroup]; exact h))
  · have q : Mild s (match e.own with
        | some i => if v.accepts e.slots then s else s.ownRejected i
        | none => s) := by
      split
      · split
        · exact Mild.refl s
        · exact s.ownRejected_mild _
      · exact Mild.refl s
    exact q.kept.trans (State.conclude_kept _ _ _ _ _ _ _ (by rw [q.inGroup]; exact h))

theorem State.failJoin_kept (s : State) : Kept s s.failJoin :=
  (s.raise_quiet _).kept.trans (State.goOffline_kept _ _ _)

theorem State.enterJoined_kept (s : State) (v : View) (h : s.join.station ≠ .offline) : Kept s (s.enterJoined v) := by
  unfold State.enterJoined
  refine Kept.trans ?_ ((State.setFlag_quiet _ _).trans (State.setFlag_quiet _ _)).kept
  exact ⟨rfl, fun x =>
    { store := x.store, view := rfl,
      cause := ⟨fun k => absurd (x.cause.mp k) h, fun k => absurd k (by simp)⟩,
      bounded := ⟨x.bounded.log, x.bounded.overflow, x.bounded.out, x.bounded.repair, x.bounded.gives, x.bounded.suspects,
        x.bounded.corrected⟩ }⟩

theorem State.enterJoined_inGroup (s : State) (v : View) : (s.enterJoined v).inGroup = true := rfl

theorem State.joinAlone_kept (s : State) (h : s.join.station ≠ .offline) : Kept s s.joinAlone :=
  ((s.enterJoined_kept _ h).trans (State.logJoin_quiet _ _).kept).trans (State.reactBlocks_quiet _ _ _).kept

/-- A change of the join controller that leaves the station state and the cause. -/
theorem State.join_quiet (s : State) (j : JoinControl) (h1 : j.station = s.join.station) (h2 : j.cause = s.join.cause) :
    Quiet s { s with join := j } := Quiet.ofParts rfl rfl rfl h1 h2 rfl rfl rfl rfl id id id id rfl

theorem State.endOwnJoin_kept (s : State) (e : Ended) (h : s.join.station = .joining ∨ s.join.station = .rosterWait) :
    Kept s (s.endOwnJoin e) := by
  have ho : s.join.station ≠ .offline := by rcases h with h | h <;> rw [h] <;> simp
  have hg : s.inGroup = false := by rcases h with h | h <;> simp [State.inGroup, h]
  have hj : ∀ j : JoinControl, j.station = s.join.station → j.cause = s.join.cause → Kept s { s with join := j } :=
    fun j h1 h2 => (s.join_quiet j h1 h2).kept
  unfold State.endOwnJoin; dsimp only; split
  · split
    · exact hj { s.join with attempts := s.join.attempts + 1, joinPending := decide (s.join.attempts + 1 < joinLimit) } rfl rfl
    · exact (hj { s.join with attempts := s.join.attempts + 1, joinPending := decide (s.join.attempts + 1 < joinLimit) } rfl
        rfl).trans (State.failJoin_kept _)
  · split
    · exact Kept.move rfl id hg (by simp [State.inGroup]) ho (by simp) rfl rfl
        fun b => ⟨b.log, b.overflow, b.out, b.repair, b.gives, b.suspects, b.corrected⟩
    · exact (hj { s.join with attempts := s.join.attempts + 1, accepted := s.join.accepted + 1 } rfl rfl).trans
        (State.joinAlone_kept _ ho)

theorem State.beginJoining_kept (s : State) (h : s.join.station = .listening) : Kept s s.beginJoining :=
  Kept.move rfl id (by simp [State.inGroup, h]) (by simp [State.inGroup, State.beginJoining]) (by simp [h])
    (by simp [State.beginJoining]) rfl rfl fun b => ⟨b.log, b.overflow, b.out, b.repair, b.gives, b.suspects, b.corrected⟩

theorem State.takeRoster_kept (s : State) (e : Ended) (c : RosterContent) (h : s.join.station ≠ .offline) :
    Kept s (s.takeRoster e c) := by
  have q := (s.enterJoined c.view).logJoin_quiet c.view
  exact ((s.enterJoined_kept _ h).trans q.kept).trans
    (State.conclude_kept _ _ _ _ _ _ _ (by rw [q.mild.inGroup]; exact State.enterJoined_inGroup _ _))

theorem State.endWithoutView_kept (s : State) (e : Ended) : Kept s (s.endWithoutView e) := by
  unfold State.endWithoutView; dsimp only
  have q : Quiet s (if noReject e.slots then { s with bus := { s.bus with tracked := e.owner } } else s) := by
    split
    · exact s.bus_quiet _ rfl
    · exact Quiet.refl s
  generalize (if noReject e.slots then { s with bus := { s.bus with tracked := e.owner } } else s) = s1 at q
  split
  · split
    · rename_i h; exact q.kept.trans (State.endOwnJoin_kept _ _ (Or.inl h))
    · rename_i h; exact q.kept.trans (State.endOwnJoin_kept _ _ (Or.inr h))
    all_goals exact q.kept
  · split
    · rename_i h; exact q.kept.trans (State.beginJoining_kept _ h)
    · rename_i h
      split
      · split
        · exact q.kept.trans (State.takeRoster_kept _ _ _ (by rw [h]; simp))
        · exact q.kept
      · exact q.kept
    all_goals exact q.kept

/-- A held view means a station in the group. -/
theorem State.inGroup_of_heldView {s : State} {v : View} (h : s.heldView = some v) : s.inGroup = true := by
  unfold State.heldView at h
  split at h
  · assumption
  · exact absurd h (by simp)

theorem State.endFrame_kept (s : State) (e : Ended) : Kept s (s.endFrame e) := by
  unfold State.endFrame; dsimp only
  refine Kept.trans ?_ (State.settle_mild _).kept
  refine Kept.trans ?_ (State.bus_mild _ _).kept
  refine (s.driveSlot_mild e).kept.trans ?_
  split
  · rename_i v h; exact State.endWithView_kept _ _ _ (State.inGroup_of_heldView h)
  · exact State.endWithoutView_kept _ _

theorem State.frameEnd_kept (s : State) (h : Option Heard) (x : Slots) : Kept s (s.frameEnd h x) := by
  unfold State.frameEnd; split
  · exact s.endFrame_kept _
  · exact Kept.refl s

end Sys2Proof.Machine
end

