-- ==== Sys2Proof/Laws/Pairs.lean ====
section
/-! SUPPORT. The pairs of the roster view: what marking stations absent and judging a JOIN leave of each member state. -/

namespace Sys2Proof.Machine

/-- One member state as a change of every pair leaves it. -/
def MemberState.mapPair (st : MemberState) (f : Nat → StationSet → MemberState) : MemberState :=
  match st with
  | .catching c p => f c p
  | .none => .none
  | .current => .current
  | .mismatch => .mismatch

@[simp] theorem MemberState.mapPair_id (st : MemberState) : (st.mapPair fun c p => .catching c p) = st := by cases st <;> rfl

theorem Member.states_mapPairs (m : Member) (f : Segment → Nat → StationSet → MemberState) (g : Segment) :
    (m.mapPairs f).states[g] = m.states[g].mapPair (f g) := by
  simp only [Member.mapPairs, Fin.getElem_fin, Vector.getElem_ofFn]
  cases m.states[g.val] <;> rfl

theorem Member.mapPairs_eq (m : Member) (f : Segment → Nat → StationSet → MemberState) :
    m.mapPairs f = { m with states := (m.mapPairs f).states } := rfl

/-- A set without the stations of a list. -/
theorem StationSet.has_withoutAll (p : StationSet) (xs : List Station) (y : Station) :
    (xs.foldl StationSet.without p).has y = (p.has y && !xs.contains y) := by
  have one : ∀ (q : StationSet) (x : Station), (StationSet.without q x).has y = (q.has y && y != x) := by
    intro q x
    unfold StationSet.without StationSet.has StationSet.single
    rw [BitVec.getLsbD_and, BitVec.getLsbD_not]
    congr 1
    revert x y; decide
  induction xs generalizing p with
  | nil => simp
  | cons x xs ih =>
    rw [List.foldl_cons, ih, one]
    by_cases h : y = x
    · simp [h]
    · have : (y == x) = false := by simp [h]
      simp [h, bne, this]

theorem View.member_without (v : View) (x y : Station) :
    (v.without x).member y = if y = x then none else (v.member y).map fun m => m.mapPairs fun _ c p => .catching c
        (StationSet.without p x) := by
  unfold View.without
  rw [View.member_mapMembers, View.member_setMember]
  split <;> rfl

theorem View.member_withoutAll (v : View) (xs : List Station) (y : Station) :
    (xs.foldl View.without v).member y = if y ∈ xs then none
      else (v.member y).map fun m => m.mapPairs fun _ c p => .catching c (xs.foldl StationSet.without p) := by
  induction xs generalizing v with
  | nil =>
    simp only [List.foldl_nil, List.not_mem_nil, if_false]
    cases v.member y with
    | none => rfl
    | some m =>
      simp only [Option.map_some, Option.some.injEq]
      unfold Member.mapPairs
      cases m
      simp only [Member.mk.injEq, true_and, and_true]
      ext i hi
      simp only [Vector.getElem_ofFn]
      rw [Fin.getElem_fin]
      cases ‹Vector MemberState 8›[i] <;> rfl
  | cons x xs ih =>
    rw [List.foldl_cons, ih, View.member_without]
    by_cases h1 : y ∈ xs
    · simp [h1]
    · by_cases h2 : y = x
      · simp [h2]
      · simp only [h1, h2, if_false, List.mem_cons, or_self]
        cases v.member y with
        | none => rfl
        | some m =>
          simp only [Option.map_some, Option.some.injEq]
          rw [Member.mapPairs_eq, Member.mapPairs_eq m fun _ c p => .catching c ((x :: xs).foldl StationSet.without p)]
          congr 1
          ext i hi
          have e1 := Member.states_mapPairs (m.mapPairs fun _ c p => .catching c (StationSet.without p x))
              (fun _ c p => .catching c (xs.foldl StationSet.without p)) ⟨i, hi⟩
          have e2 := Member.states_mapPairs m (fun _ c p => .catching c ((x :: xs).foldl StationSet.without p)) ⟨i, hi⟩
          have e3 := Member.states_mapPairs m (fun _ c p => .catching c (StationSet.without p x)) ⟨i, hi⟩
          simp only [Fin.getElem_fin] at e1 e2 e3
          rw [e1, e2, e3]
          cases m.states[i] <;> rfl

theorem View.isCurrent_withoutAll (v : View) (xs : List Station) (y : Station) (g : Segment) :
    (xs.foldl View.without v).isCurrent y g = (v.isCurrent y g && !xs.contains y) := by
  unfold View.isCurrent View.state
  rw [View.member_withoutAll]
  by_cases h : y ∈ xs
  · simp [h]
  · simp only [h, if_false]
    have : xs.contains y = false := by simpa using h
    rw [this]
    cases v.member y with
    | none => rfl
    | some m =>
      simp only [Option.map_some, Bool.not_false, Bool.and_true]
      rw [Member.states_mapPairs]
      cases m.states[g] <;> rfl

theorem View.mem_presentList (v : View) (x : Station) : x ∈ v.presentList ↔ v.present x = true := by
  simp [View.presentList, stations]

theorem View.present_of_isCurrent {v : View} {x : Station} {g : Segment} (h : v.isCurrent x g = true) : v.present x = true := by
  apply View.present_of_state (g := g)
  intro h'; unfold View.isCurrent at h; rw [h'] at h; exact absurd h (by decide)

/-- A pair has no server while another present station is CURRENT: in words. -/
theorem View.spent_iff (v : View) (j : Station) (g : Segment) (c : Nat) (p : StationSet) (h : v.state j g = .catching c p) :
    v.spent j g = true ↔ (∃ y, y ≠ j ∧ v.isCurrent y g = true) ∧ ∀ y, y ≠ j → v.isCurrent y g = true → p.has y = true := by
  unfold View.spent View.server View.otherCurrent
  rw [h]
  simp only [Option.isNone_iff_eq_none, Bool.and_eq_true, List.find?_eq_none, View.mem_presentList, List.any_eq_true, bne_iff_ne,
    Bool.not_eq_true', not_and, Bool.not_eq_false]
  constructor
  · rintro ⟨h1, y, hy, h2⟩
    exact ⟨⟨y, h2⟩, fun y hy hc => h1 y (View.present_of_isCurrent hc) ⟨hy, hc⟩⟩
  · rintro ⟨⟨y, h2, h3⟩, h1⟩
    exact ⟨fun y _ hh => h1 y hh.1 hh.2, y, View.present_of_isCurrent h3, h2, h3⟩

/-- The member states after stations are marked absent together (R118). -/
theorem View.state_markAbsent (v : View) (xs : List Station) (x : Station) (m : Member) (hx : x ∉ xs) (hm : v.member x = some m) :
    ∃ m', (v.markAbsent xs).member x = some m' ∧ m' = { m with states := m'.states } ∧ ∀ g : Segment,
      ((∀ c p, m.states[g] ≠ .catching c p) → m'.states[g] = m.states[g]) ∧
      ∀ c p, m.states[g] = .catching c p → ∃ q, m'.states[g] = .catching c q ∧ (SpentWithout v xs x g p → q = 0) ∧
        (¬SpentWithout v xs x g p → ∀ y, q.has y = (p.has y && !xs.contains y)) := by
  have h1 : (xs.foldl View.without v).member x = some (m.mapPairs fun _ c p => .catching c (xs.foldl StationSet.without p)) := by
    rw [View.member_withoutAll, if_neg hx, hm]; rfl
  refine ⟨_, by unfold View.markAbsent View.clearSpent; rw [View.member_mapMembers, h1]; rfl, rfl, fun g => ?_⟩
  rw [Member.states_mapPairs, Member.states_mapPairs]
  refine ⟨fun h => ?_, fun c p h => ?_⟩
  · cases hs : m.states[g] with
    | catching c p => exact absurd hs (h c p)
    | none => rfl
    | current => rfl
    | mismatch => rfl
  · have hst : (xs.foldl View.without v).state x g = .catching c (xs.foldl StationSet.without p) := by
      unfold View.state; rw [h1]; dsimp only; rw [Member.states_mapPairs, h]; rfl
    have hsp : (xs.foldl View.without v).spent x g = true ↔ SpentWithout v xs x g p := by
      rw [View.spent_iff _ _ _ _ _ hst]
      simp only [View.isCurrent_withoutAll, StationSet.has_withoutAll, Bool.and_eq_true, Bool.not_eq_true', List.contains_eq_mem,
        decide_eq_false_iff_not]
      unfold SpentWithout
      constructor
      · rintro ⟨⟨y, a, b, c⟩, h⟩
        exact ⟨⟨y, c, a, b⟩, fun y h1 h2 h3 => (h y h2 ⟨h3, h1⟩).1⟩
      · rintro ⟨⟨y, c, a, b⟩, h⟩
        exact ⟨⟨y, a, b, c⟩, fun y h2 h3 => ⟨h y h3.2 h2 h3.1, h3.2⟩⟩
    refine ⟨_, by rw [h]; rfl, fun hs => ?_, fun hs => ?_⟩
    · rw [if_pos (hsp.mpr hs)]
    · rw [if_neg (fun hh => hs (hsp.mp hh))]
      exact fun y => StationSet.has_withoutAll _ _ _

theorem View.member_markAbsent_none (v : View) (xs : List Station) (x : Station) (h : x ∈ xs ∨ v.member x = none) :
    (v.markAbsent xs).member x = none := by
  unfold View.markAbsent View.clearSpent
  rw [View.member_mapMembers, View.member_withoutAll]
  rcases h with h | h
  · rw [if_pos h]; rfl
  · rw [h]; split <;> rfl

@[simp] theorem View.lastWinner_markAbsent (v : View) (xs : List Station) : (v.markAbsent xs).lastWinner = v.lastWinner := by
  have : ∀ (xs : List Station) (v : View), (xs.foldl View.without v).lastWinner = v.lastWinner := by
    intro xs
    induction xs with
    | nil => intro v; rfl
    | cons x xs ih => intro v; rw [List.foldl_cons, ih]; rfl
  exact this xs v

/-! ### Joining (R127, R128) -/

theorem View.declared_mapPairs (v : View) (f : Station → Segment → Nat → StationSet → MemberState) (y : Station) (g : Segment) :
    (v.mapMembers fun z m => m.mapPairs (f z)).declared y g = v.declared y g := by
  unfold View.declared
  rw [View.member_mapMembers]
  cases v.member y <;> rfl

theorem View.state_mapPairs (v : View) (f : Station → Segment → Nat → StationSet → MemberState) (y : Station) (g : Segment) :
    (v.mapMembers fun z m => m.mapPairs (f z)).state y g = (v.state y g).mapPair (f y g) := by
  unfold View.state
  rw [View.member_mapMembers]
  cases v.member y with
  | none => rfl
  | some m => exact Member.states_mapPairs m (f y) g

theorem View.declared_setState (v : View) (x y : Station) (g h : Segment) (st : MemberState) :
    (v.setState x g st).declared y h = v.declared y h := by
  unfold View.setState View.declared
  rw [View.member_modifyMember]
  split
  · cases v.member y <;> rfl
  · rfl

theorem View.declared_judgeSegment (v : View) (x y : Station) (d : Segment × StationSet) (g : Segment) :
    (v.judgeSegment x d).declared y g = v.declared y g := by
  unfold View.judgeSegment View.restartPairs
  repeat' split
  all_goals rw [View.declared_setState]
  exact View.declared_mapPairs v _ y g

theorem View.state_judgeSegment (v : View) (x y : Station) (d : Segment × StationSet) (g : Segment) (hx : v.present x = true) :
    (v.judgeSegment x d).state y g =
      if g ≠ d.1 then v.state y g
      else if y = x then
        (if (v.conflicts x d.1 d.2).isEmpty = false then .mismatch else if v.otherCurrent x d.1 then .catching 0 0 else .current)
      else if (v.conflicts x d.1 d.2).isEmpty = true ∧ v.otherCurrent x d.1 = false then
        (v.state y g).mapPair fun _ _ => .catching 0 0
      else v.state y g := by
  unfold View.judgeSegment
  cases hc : (v.conflicts x d.1 d.2).isEmpty <;> cases ho : v.otherCurrent x d.1
  · simp only [Bool.not_false, if_true]
    rw [View.state_setState]
    by_cases h1 : g = d.1 <;> by_cases h2 : y = x <;> simp [h1, h2, hx]
  · simp only [Bool.not_false, if_true]
    rw [View.state_setState]
    by_cases h1 : g = d.1 <;> by_cases h2 : y = x <;> simp [h1, h2, hx]
  · simp only [Bool.not_true, Bool.false_eq_true, if_false]
    rw [View.state_setState]
    have hp : (v.restartPairs d.1).present x = true := by unfold View.restartPairs; rw [View.present_mapMembers]; exact hx
    rw [hp]
    have hs : (v.restartPairs d.1).state y g = (v.state y g).mapPair fun c p => if g = d.1 then .catching 0 0 else
        .catching c p := by
      unfold View.restartPairs
      exact View.state_mapPairs v (fun _ h c p => if h = d.1 then .catching 0 0 else .catching c p) y g
    rw [hs]
    by_cases h1 : g = d.1 <;> by_cases h2 : y = x <;> simp [h1, h2]
  · simp only [Bool.not_true, Bool.false_eq_true, if_false, if_true]
    rw [View.state_setState]
    by_cases h1 : g = d.1 <;> by_cases h2 : y = x <;> simp [h1, h2, hx]

/-- The judgement of a segment reads the present set, the declared sets and the states of that segment. -/
theorem View.judge_congr (v w : View) (x : Station) (d : Segment × StationSet) (hp : ∀ y, w.present y = v.present y)
    (hd : ∀ y, y ≠ x → w.declared y d.1 = v.declared y d.1) (hs : ∀ y, y ≠ x → w.isCurrent y d.1 = v.isCurrent y d.1) :
    w.conflicts x d.1 d.2 = v.conflicts x d.1 d.2 ∧ w.otherCurrent x d.1 = v.otherCurrent x d.1 := by
  have hl : w.presentList = v.presentList := by unfold View.presentList; congr 1; funext y; exact hp y
  constructor
  · unfold View.conflicts
    rw [hl]
    apply List.filter_congr
    intro y _
    by_cases h : y = x
    · simp [h]
    · rw [hd y h]
  · unfold View.otherCurrent
    rw [hl]
    congr 1
    funext y
    by_cases h : y = x
    · simp [h]
    · rw [hs y h]

theorem View.state_foldJudge (x : Station) (ds : Declarations) (hn : (ds.map Prod.fst).Nodup) (w : View)
    (hx : w.present x = true) (y : Station) (g : Segment) :
    (ds.foldl (fun v d => v.judgeSegment x d) w).state y g =
      match ds.lookup g with
      | none => w.state y g
      | some m => (w.judgeSegment x (g, m)).state y g := by
  induction ds generalizing w with
  | nil => rfl
  | cons d ds ih =>
    obtain ⟨hd, hn⟩ := List.nodup_cons.mp hn
    rw [List.foldl_cons, ih hn _ (by rw [View.present_judgeSegment]; exact hx)]
    by_cases h : g = d.1
    · subst h
      have : ds.lookup d.1 = none := by
        rw [List.lookup_eq_none_iff]
        intro e he
        refine bne_iff_ne.mpr fun hh => hd (List.mem_map.mpr ⟨e, he, hh.symm⟩)
      rw [this]
      simp [List.lookup]
    · have hb : (g == d.1) = false := by simpa using h
      have hl : List.lookup g (d :: ds) = ds.lookup g := by
        obtain ⟨a, b⟩ := d; simp only [List.lookup]; rw [hb]
      rw [hl]
      cases hm : ds.lookup g with
      | none =>
        dsimp only
        rw [View.state_judgeSegment _ _ _ _ _ hx, if_pos h]
      | some m =>
        dsimp only
        have hx' : (w.judgeSegment x d).present x = true := by rw [View.present_judgeSegment]; exact hx
        have hst : ∀ z, (w.judgeSegment x d).state z g = w.state z g := fun z => by
          rw [View.state_judgeSegment _ _ _ _ _ hx, if_pos h]
        obtain ⟨e1, e2⟩ := View.judge_congr w (w.judgeSegment x d) x (g, m) (fun z => View.present_judgeSegment _ _ _ _)
          (fun z _ => View.declared_judgeSegment _ _ _ _ _) (fun z _ => by unfold View.isCurrent; rw [hst z])
        rw [View.state_judgeSegment _ _ _ _ _ hx', hst y, e1, e2, View.state_judgeSegment _ _ _ _ _ hx]

theorem View.conflicts_iff (v : View) (x : Station) (g : Segment) (m : StationSet) :
    (v.conflicts x g m).isEmpty = false ↔ Clashes v x g m := by
  unfold View.conflicts Clashes
  rw [List.isEmpty_eq_false_iff_exists_mem]
  apply exists_congr
  intro y
  rw [List.mem_filter, View.mem_presentList]
  simp only [Bool.and_eq_true, Bool.or_eq_true, bne_iff_ne, ne_eq]
  constructor
  · rintro ⟨h1, h2, h3 | h3⟩
    · exact ⟨h2, h1, .inl h3⟩
    · refine ⟨h2, h1, .inr ?_⟩
      cases hd : v.declared y g with
      | none => rw [hd] at h3; exact absurd h3 (by simp)
      | some d => rw [hd] at h3; exact ⟨d, rfl, by simpa using h3⟩
  · rintro ⟨h2, h1, h3 | ⟨d, hd, h3⟩⟩
    · exact ⟨h1, h2, .inl h3⟩
    · exact ⟨h1, h2, .inr (by rw [hd]; simpa using h3)⟩

/-- The view a JOIN of a station is judged in: the station present anew, everybody else as they were but for the pairs'
passed-over sets. -/
theorem View.joinBase (v : View) (x : Station) (st : Standing) (ds : Declarations) :
    ∃ w : View, v.join x st ds = ds.foldl (fun v d => v.judgeSegment x d) w ∧ w.present x = true ∧
      (∀ g, w.state x g = .none) ∧ (∀ y, y ≠ x → w.present y = v.present y) ∧
      (∀ y, y ≠ x → ∀ g, w.declared y g = v.declared y g ∧ w.isCurrent y g = v.isCurrent y g ∧
        ((∀ c p, v.state y g ≠ .catching c p) → w.state y g = v.state y g) ∧
        (∀ c p, v.state y g = .catching c p → ∃ q, w.state y g = .catching c q) ∧
        (v.present x = false → w.state y g = v.state y g)) := by
  refine ⟨(if v.present x then v.markAbsent [x] else v).setMember x (some (joinedMember st ds)), rfl, ?_, ?_, ?_, ?_⟩
  · rw [View.present_setMember, if_pos rfl]; rfl
  · intro g; unfold View.state; rw [View.member_setMember, if_pos rfl]
    simp [joinedMember]
  · intro y hy
    rw [View.present_setMember, if_neg hy]
    split
    · rw [View.present_markAbsent]; simp [hy]
    · rfl
  · intro y hy g
    have hst : ∀ u : View, (u.setMember x (some (joinedMember st ds))).state y g = u.state y g := by
      intro u; unfold View.state; rw [View.member_setMember, if_neg hy]
    have hdc : ∀ u : View, (u.setMember x (some (joinedMember st ds))).declared y g = u.declared y g := by
      intro u; unfold View.declared; rw [View.member_setMember, if_neg hy]
    have hcu : ∀ u : View, (u.setMember x (some (joinedMember st ds))).isCurrent y g = u.isCurrent y g := by
      intro u; unfold View.isCurrent; rw [hst]
    rw [hst, hdc, hcu]
    cases hp : v.present x with
    | false => rw [if_neg (by simp)]; exact ⟨rfl, rfl, fun _ => rfl, fun c p h => ⟨p, h⟩, fun _ => rfl⟩
    | true =>
      simp only [if_true]
      cases hm : v.member y with
      | none =>
        have h0 := View.member_markAbsent_none v [x] y (.inr hm)
        unfold View.declared View.isCurrent View.state
        rw [h0, hm]
        exact ⟨rfl, rfl, fun _ => rfl, fun c p h => MemberState.noConfusion h, fun h => Bool.noConfusion h⟩
      | some m =>
        obtain ⟨m', h1, h2, h3⟩ := View.state_markAbsent v [x] y m (by simpa using hy) hm
        have hd' : m'.declared = m.declared := by rw [h2]
        unfold View.declared View.isCurrent View.state
        rw [h1, hm]
        simp only [Option.bind_some]
        obtain ⟨h4, h5⟩ := h3 g
        refine ⟨by rw [hd'], ?_, h4, fun c p h => (h5 c p h).imp fun q hq => hq.1, fun h => Bool.noConfusion h⟩
        cases hs : m.states[g] with
        | catching c p => obtain ⟨q, hq, _⟩ := h5 c p hs; rw [hq]; rfl
        | none => rw [h4 (by rw [hs]; simp), hs]
        | current => rw [h4 (by rw [hs]; simp), hs]
        | mismatch => rw [h4 (by rw [hs]; simp), hs]

/-- A member state after a JOIN (R128). -/
theorem View.state_join (v : View) (x : Station) (st : Standing) (ds : Declarations) (hn : (ds.map Prod.fst).Nodup)
    (g : Segment) :
    (ds.lookup g = none → (v.join x st ds).state x g = .none) ∧
    (∀ m, ds.lookup g = some m →
      (Clashes v x g m → (v.join x st ds).state x g = .mismatch) ∧
      (¬Clashes v x g m → (∃ y, y ≠ x ∧ v.isCurrent y g = true) → (v.join x st ds).state x g = .catching 0 0) ∧
      (¬Clashes v x g m → (∀ y, y ≠ x → v.isCurrent y g = false) → (v.join x st ds).state x g = .current ∧
        ∀ y cursor passed, y ≠ x → v.state y g = .catching cursor passed → (v.join x st ds).state y g = .catching 0 0)) ∧
    ∀ y, y ≠ x → ((∀ cursor passed, v.state y g ≠ .catching cursor passed) → (v.join x st ds).state y g = v.state y g) ∧
      (v.present x = false → (ds.lookup g = none ∨ ∃ z, z ≠ x ∧ v.isCurrent z g = true) →
        (v.join x st ds).state y g = v.state y g) := by
  obtain ⟨w, hw, hx, h0, hp, hy⟩ := View.joinBase v x st ds
  have hj := fun z => View.state_foldJudge x ds hn w hx z g
  rw [← hw] at hj
  have hcur : w.otherCurrent x g = true ↔ ∃ y, y ≠ x ∧ v.isCurrent y g = true := by
    unfold View.otherCurrent
    simp only [List.any_eq_true, View.mem_presentList, Bool.and_eq_true, bne_iff_ne]
    constructor
    · rintro ⟨y, _, h1, h2⟩; exact ⟨y, h1, by rw [← (hy y h1 g).2.1]; exact h2⟩
    · rintro ⟨y, h1, h2⟩
      rw [← (hy y h1 g).2.1] at h2
      exact ⟨y, View.present_of_isCurrent h2, h1, h2⟩
  have hcl : ∀ m, (w.conflicts x g m).isEmpty = false ↔ Clashes v x g m := by
    intro m
    rw [View.conflicts_iff]
    unfold Clashes
    apply exists_congr; intro y
    constructor
    · rintro ⟨h, h1, h2⟩; rw [hp y h, (hy y h g).1] at *; exact ⟨h, h1, h2⟩
    · rintro ⟨h, h1, h2⟩; rw [hp y h, (hy y h g).1]; exact ⟨h, h1, h2⟩
  have hcf : ∀ m, ¬Clashes v x g m → (w.conflicts x g m).isEmpty = true := by
    intro m hc
    cases hq : (w.conflicts x g m).isEmpty with
    | true => rfl
    | false => exact absurd ((hcl m).mp hq) hc
  have hoc : (∀ y, y ≠ x → v.isCurrent y g = false) → w.otherCurrent x g = false := by
    intro ho
    cases hq : w.otherCurrent x g with
    | false => rfl
    | true => obtain ⟨z, hz, hz2⟩ := hcur.mp hq; rw [ho z hz] at hz2; exact absurd hz2 (by simp)
  refine ⟨fun hl => ?_, fun m hl => ⟨fun hc => ?_, fun hc ho => ?_, fun hc ho => ⟨?_, fun y c p hne hs => ?_⟩⟩, fun y hne =>
      ⟨fun hs => ?_, fun hpx hh => ?_⟩⟩
  · rw [hj x, hl]; exact h0 g
  · rw [hj x, hl]; dsimp only
    rw [View.state_judgeSegment _ _ _ _ _ hx]
    simp [(hcl m).mpr hc]
  · rw [hj x, hl]; dsimp only
    rw [View.state_judgeSegment _ _ _ _ _ hx]
    simp [hcf m hc, hcur.mpr ho]
  · rw [hj x, hl]; dsimp only
    rw [View.state_judgeSegment _ _ _ _ _ hx]
    simp [hcf m hc, hoc ho]
  · obtain ⟨q, hq⟩ := (hy y hne g).2.2.2.1 c p hs
    rw [hj y, hl]; dsimp only
    rw [View.state_judgeSegment _ _ _ _ _ hx]
    simp [hcf m hc, hoc ho, hne, hq, MemberState.mapPair]
  · have hws := (hy y hne g).2.2.1 hs
    rw [hj y]
    cases hl : ds.lookup g with
    | none => exact hws
    | some m =>
      dsimp only
      rw [View.state_judgeSegment _ _ _ _ _ hx]
      rw [if_neg (by simp), if_neg hne, hws]
      split
      · cases hv : v.state y g with
        | catching c p => exact absurd hv (hs c p)
        | none => rfl
        | current => rfl
        | mismatch => rfl
      · rfl
  · have hws := (hy y hne g).2.2.2.2 hpx
    rw [hj y]
    cases hl : ds.lookup g with
    | none => exact hws
    | some m =>
      dsimp only
      rw [View.state_judgeSegment _ _ _ _ _ hx]
      have : w.otherCurrent x g = true := hcur.mpr (hh.resolve_left (by rw [hl]; simp))
      rw [if_neg (by simp), if_neg hne, if_neg (by simp [this])]
      exact hws

/-- A STALL's effect on the pair of its sender (R159). -/
theorem View.state_passOver (v : View) (j : Station) (g : Segment) (p : Station) (c : Nat) (passed : StationSet)
    (h : v.state j g = .catching c passed) : (v.passOver j g p).state j g = .catching c
      (if (v.setState j g (.catching c (passed ||| StationSet.single p))).spent j g then 0 else passed ||| StationSet.single p) ∧
    ((v.setState j g (.catching c (passed ||| StationSet.single p))).spent j g = true ↔
      (∃ y, y ≠ j ∧ v.isCurrent y g = true) ∧
        ∀ y, y ≠ j → v.isCurrent y g = true → (passed ||| StationSet.single p).has y = true) := by
  have hp : v.present j = true := View.present_of_state (g := g) (by rw [h]; simp)
  have hs : (v.setState j g (.catching c (passed ||| StationSet.single p))).state j g = .catching c
      (passed ||| StationSet.single p) := by
    rw [View.state_setState, if_pos ⟨rfl, rfl, hp⟩]
  have hcur : ∀ y, y ≠ j → (v.setState j g (.catching c (passed ||| StationSet.single p))).isCurrent y g = v.isCurrent y g := by
    intro y hy; unfold View.isCurrent; rw [View.state_setState, if_neg (fun hh => hy hh.1)]
  refine ⟨?_, ?_⟩
  · unfold View.passOver; rw [h]; dsimp only
    split
    · rw [View.state_setState, if_pos ⟨rfl, rfl, hp⟩]
    · exact hs
  · rw [View.spent_iff _ _ _ _ _ hs]
    constructor
    · rintro ⟨⟨y, h1, h2⟩, h3⟩
      exact ⟨⟨y, h1, by rw [← hcur y h1]; exact h2⟩, fun y h4 h5 => h3 y h4 (by rw [hcur y h4]; exact h5)⟩
    · rintro ⟨⟨y, h1, h2⟩, h3⟩
      exact ⟨⟨y, h1, by rw [hcur y h1]; exact h2⟩, fun y h4 h5 => h3 y h4 (by rw [← hcur y h4]; exact h5)⟩

/-- Declarations in ascending order name each segment once (R124). -/
theorem ascendingSegments_nodup (ds : Declarations) (h : ascendingSegments ds = true) : (ds.map Prod.fst).Nodup := by
  have key : ∀ (ds : Declarations), ascendingSegments ds = true → ds.Pairwise fun a b => a.1 < b.1 := by
    intro ds
    induction ds with
    | nil => intro _; exact .nil
    | cons a es ih =>
      intro h
      cases es with
      | nil => simp
      | cons b rest =>
        simp only [ascendingSegments, Bool.and_eq_true, decide_eq_true_eq] at h
        have hp := ih h.2
        refine List.pairwise_cons.mpr ⟨fun c hc => ?_, hp⟩
        rcases List.mem_cons.mp hc with rfl | hc
        · exact h.1
        · exact lt_trans h.1 ((List.pairwise_cons.mp hp).1 c hc)
  rw [List.nodup_iff_pairwise_ne, List.pairwise_map]
  exact (key ds h).imp fun h => ne_of_lt h

end Sys2Proof.Machine
end

