-- ==== Sys2Proof/Laws/React.lean ====
section
/-! SUPPORT. Everything the blocks' reaction to a changed view can do, in two parts: the judgements (the queue, the roster
records, the jobs, the monitors and the repair list), and the release of held requesters after them. -/

namespace Sys2Proof.Machine

/-! ### The judgements -/

/-- The fields that the blocks' judgements may change. -/
structure Reviewed (s t : State) : Prop where
  frame : t = { s with
    out := t.out, rep := t.rep, join := { s.join with rosters := t.join.rosters },
    bus := { s.bus with copyRun := t.bus.copyRun }, catchup := t.catchup, repair := t.repair }
  config : t.rep.config = s.rep.config

theorem Reviewed.refl (s : State) : Reviewed s s := ⟨rfl, rfl⟩

theorem Reviewed.trans {a b c : State} (h : Reviewed a b) (k : Reviewed b c) : Reviewed a c :=
  ⟨by rw [k.frame, h.frame], k.config.trans h.config⟩

theorem Reviewed.heldView {s t : State} (h : Reviewed s t) : t.heldView = s.heldView := by
  unfold State.heldView State.inGroup; rw [h.frame]

theorem Reviewed.me {s t : State} (h : Reviewed s t) : t.me = s.me := by unfold State.me Reporting.field; rw [h.config]

theorem Reviewed.mode {s t : State} (h : Reviewed s t) (g : Segment) : t.mode g = s.mode g := by
  unfold State.mode Reporting.descriptor; rw [h.config]

theorem Reviewed.localState {s t : State} (h : Reviewed s t) (g : Segment) : t.localState g = s.localState g := by
  unfold State.localState; rw [h.heldView, h.me, h.mode]

theorem Reviewed.ownState {s t : State} (h : Reviewed s t) (g : Segment) : t.ownState g = s.ownState g := by
  unfold State.ownState; rw [h.heldView, h.me]

theorem Reviewed.ownServer {s t : State} (h : Reviewed s t) (g : Segment) : t.ownServer g = s.ownServer g := by
  unfold State.ownServer; rw [h.heldView, h.me]

theorem Reviewed.repairable {s t : State} (h : Reviewed s t) (l : Line) : t.repairable l = s.repairable l := by
  unfold State.repairable; rw [h.mode, h.ownState]

theorem State.reviewRosters_reviewed (s : State) (v : View) : Reviewed s (s.reviewRosters v) := ⟨rfl, rfl⟩

theorem State.reviewSegment_reviewed (b s : State) (g : Segment) : Reviewed s (State.reviewSegment b s g) := by
  unfold State.reviewSegment State.discardSegment State.setFlagIf
  dsimp only
  repeat' split
  all_goals exact ⟨rfl, by simp⟩

theorem State.reviewSegments_reviewed (b s : State) : Reviewed s (State.reviewSegments b s) := by
  unfold State.reviewSegments
  generalize segments = gs
  induction gs generalizing s with
  | nil => exact Reviewed.refl s
  | cons g gs ih => exact (State.reviewSegment_reviewed b s g).trans (ih _)

theorem State.discardSpentHead_reviewed (s : State) : Reviewed s s.discardSpentHead := by
  unfold State.discardSpentHead
  repeat' split
  all_goals exact ⟨rfl, by simp⟩

theorem State.reviewHead_reviewed (b s : State) : Reviewed s (State.reviewHead b s) := by
  unfold State.reviewHead
  split
  · exact Reviewed.refl s
  · exact s.discardSpentHead_reviewed

theorem State.reviewRun_reviewed (s : State) (v : View) : Reviewed s (s.reviewRun v) := by
  unfold State.reviewRun
  repeat' split
  all_goals exact ⟨rfl, rfl⟩

theorem State.reviewRepair_reviewed (s : State) (v : View) : Reviewed s (s.reviewRepair v) := by
  have fold : ∀ (es : List LogEntry) (x : State), Reviewed x (es.foldl State.raise x) := by
    intro es
    induction es with
    | nil => exact Reviewed.refl
    | cons e es ih => exact fun x => (⟨rfl, by simp⟩ : Reviewed x (x.raise e)).trans (ih _)
  have step : ∀ xs : List RepairEntry, Reviewed s { s with repair := xs } := fun _ => ⟨rfl, rfl⟩
  unfold State.reviewRepair
  exact (step _).trans (fold _ _)

theorem State.reviewJobs_reviewed (s : State) (v : View) : Reviewed s (s.reviewJobs v) := ⟨rfl, rfl⟩

theorem State.reviewMonitors_reviewed (s : State) (b : Segment → Option Station) : Reviewed s (s.reviewMonitors b) := ⟨rfl, rfl⟩

theorem State.reviewBlocks_reviewed (b s : State) (v : View) : Reviewed s (State.reviewBlocks b s v) :=
  ((((((s.reviewRosters_reviewed v).trans (State.reviewHead_reviewed b _)).trans (State.reviewSegments_reviewed b _)).trans
    (State.reviewRun_reviewed _ v)).trans (State.reviewJobs_reviewed _ v)).trans (State.reviewMonitors_reviewed _ _)).trans
    (State.reviewRepair_reviewed _ v)

/-- The monitor of a segment is judged on what no judgement changes. -/
theorem Reviewed.reviewMonitor {s t : State} (h : Reviewed s t) (x : Option Station) (g : Segment) (m : Monitor) :
    t.reviewMonitor x g m = s.reviewMonitor x g m := by
  unfold State.reviewMonitor; rw [h.localState, h.ownServer]

/-- The operations before the jobs' judgement leave the table. -/
theorem State.reviewSegments_catchup (b s : State) : (State.reviewSegments b s).catchup = s.catchup := by
  unfold State.reviewSegments
  generalize segments = gs
  induction gs generalizing s with
  | nil => rfl
  | cons g gs ih =>
    rw [List.foldl_cons, ih]
    unfold State.reviewSegment State.discardSegment
    dsimp only
    repeat' split
    all_goals simp

theorem State.discardSpentHead_catchup (s : State) : s.discardSpentHead.catchup = s.catchup := by
  unfold State.discardSpentHead; repeat' split
  all_goals rfl

theorem State.reviewHead_catchup (b s : State) : (State.reviewHead b s).catchup = s.catchup := by
  unfold State.reviewHead
  split
  · rfl
  · exact s.discardSpentHead_catchup

theorem State.reviewRun_catchup (s : State) (v : View) : (s.reviewRun v).catchup = s.catchup := by
  unfold State.reviewRun; repeat' split
  all_goals rfl

theorem State.raiseAll_catchup (es : List LogEntry) (s : State) : (es.foldl State.raise s).catchup = s.catchup := by
  induction es generalizing s with
  | nil => rfl
  | cons e es ih => exact ih _

/-- What the judgements leave in the catch-up unit (R142, R156). -/
theorem State.reviewBlocks_catchup (b s : State) (v : View) : (State.reviewBlocks b s v).catchup =
    (s.catchup.review v s.me s.runMax).mapMonitors fun g m => s.reviewMonitor (b.ownServer g) g m := by
  have h : Reviewed s ((State.reviewSegments b (State.reviewHead b (s.reviewRosters v))).reviewRun v) :=
    (((s.reviewRosters_reviewed v).trans (State.reviewHead_reviewed b _)).trans (State.reviewSegments_reviewed b _)).trans
      (State.reviewRun_reviewed _ v)
  have hc : ((State.reviewSegments b (State.reviewHead b (s.reviewRosters v))).reviewRun v).catchup = s.catchup := by
    rw [State.reviewRun_catchup, State.reviewSegments_catchup, State.reviewHead_catchup]; rfl
  unfold State.reviewBlocks State.reviewRepair
  dsimp only
  rw [State.raiseAll_catchup]
  generalize (State.reviewSegments b (State.reviewHead b (s.reviewRosters v))).reviewRun v = x at h hc ⊢
  have hm : x.runMax = s.runMax := by unfold State.runMax Reporting.field; rw [h.config]
  have hj : Reviewed s (x.reviewJobs v) := h.trans ⟨rfl, rfl⟩
  show ((x.reviewJobs v).catchup.mapMonitors fun g m => (x.reviewJobs v).reviewMonitor (b.ownServer g) g m) = _
  simp only [hj.reviewMonitor]
  show (x.catchup.review v x.me x.runMax).mapMonitors _ = _
  rw [hc, h.me, hm]

/-- What the judgements leave in the repair list (R166). -/
theorem State.reviewBlocks_repair (b s : State) (v : View) :
    (State.reviewBlocks b s v).repair = (s.repair.map (s.judgeEntry v)).filterMap (·.1) := by
  have h : Reviewed s ((((State.reviewSegments b (State.reviewHead b (s.reviewRosters v))).reviewRun v).reviewJobs v).reviewMonitors
      b.ownServer) :=
    (((s.reviewRosters_reviewed v).trans (State.reviewHead_reviewed b _)).trans (State.reviewSegments_reviewed b _)).trans
      ((State.reviewRun_reviewed _ v).trans ⟨rfl, rfl⟩)
  have hr : ((((State.reviewSegments b (State.reviewHead b (s.reviewRosters v))).reviewRun v).reviewJobs v).reviewMonitors
      b.ownServer).repair = s.repair := by
    rw [(State.reviewMonitors_repair _ _).1, (State.reviewJobs_repair _ _).1]
    have : ∀ x : State, (x.reviewRun v).repair = x.repair := by
      intro x; unfold State.reviewRun; repeat' split
      all_goals rfl
    rw [this, (State.reviewSegments_repair _ _).1, (State.reviewHead_repair _ _).1]; rfl
  unfold State.reviewBlocks State.reviewRepair
  dsimp only
  rw [(State.raiseAll_repair _ _).1, hr]
  have : ∀ e, State.judgeEntry ((((State.reviewSegments b (State.reviewHead b (s.reviewRosters v))).reviewRun v).reviewJobs
      v).reviewMonitors b.ownServer) v e = s.judgeEntry v e := by
    intro e; unfold State.judgeEntry; rw [h.me]; simp only [h.repairable]
  simp only [funext this]

/-- A frame end that changes no segment's local state flags none and discards none. -/
theorem State.reviewSegments_same (b s : State) (h : ∀ g, b.localState g = s.localState g) : State.reviewSegments b s = s := by
  unfold State.reviewSegments
  generalize segments = gs
  induction gs with
  | nil => rfl
  | cons g gs ih =>
    rw [List.foldl_cons]
    have : State.reviewSegment b s g = s := by
      unfold State.reviewSegment State.leaves State.setFlagIf
      simp [h g]
    rw [this, ih]

/-- A head below the retry limit stays. -/
theorem State.discardSpentHead_same (s : State) (h : ∀ e ∈ s.out, e.attempts < frameRetryLimit) : s.discardSpentHead = s := by
  unfold State.discardSpentHead
  split
  · rename_i g l m d c st n rest ho
    have : n < frameRetryLimit := h _ (by rw [ho]; exact List.mem_cons_self)
    rw [if_neg (by omega)]
  · rfl

theorem State.reviewHead_same (b s : State) (h : ∀ e ∈ s.out, e.attempts < frameRetryLimit) : State.reviewHead b s = s := by
  unfold State.reviewHead
  split
  · rfl
  · exact s.discardSpentHead_same h

/-! ### The release -/

/-- The fields that the release of held requesters may change. -/
structure Released (s t : State) : Prop where
  frame : t = { s with
    port := t.port, out := t.out, walker := t.walker, repair := t.repair, rep := t.rep,
    catchup := { s.catchup with jobs := t.catchup.jobs } }
  free  : ∀ k : JobIx, s.catchup.jobs[k] = none → t.catchup.jobs[k] = none
  jobs  : ∀ (k : JobIx) j, s.catchup.jobs[k] = some j → ∃ w, t.catchup.jobs[k] = some { j with waiting := w }
  list  : s.walker.state ≠ .held → t.walker = s.walker ∧ t.repair = s.repair

theorem Released.refl (s : State) : Released s s := ⟨rfl, fun _ => id, fun _ j h => ⟨j.waiting, h⟩, fun _ => ⟨rfl, rfl⟩⟩

theorem Released.trans {a b c : State} (h : Released a b) (k : Released b c) : Released a c where
  frame := by rw [k.frame, h.frame]
  free x e := k.free x (h.free x e)
  jobs x j e := by
    obtain ⟨w, hw⟩ := h.jobs x j e
    obtain ⟨w', hw'⟩ := k.jobs x _ hw
    exact ⟨w', hw'⟩
  list e := by
    obtain ⟨h1, h2⟩ := h.list e
    obtain ⟨k1, k2⟩ := k.list (by rw [h1]; exact e)
    exact ⟨k1.trans h1, k2.trans h2⟩

theorem Released.ofPort (s : State) (p : LocalPort) (o : List OutEntry) : Released s { s with port := p, out := o } :=
  ⟨rfl, fun _ => id, fun _ j h => ⟨j.waiting, h⟩, fun _ => ⟨rfl, rfl⟩⟩

theorem State.judge_released (s : State) (r : Request) : Released s (s.judge r) := by
  unfold State.judge State.judgeSegment State.judgeRead State.judgeWrite State.judgeMemberRead State.judgeStaleRead State.offerWrite
    State.sendRead State.holdRequest State.answer
  repeat' split
  all_goals exact Released.ofPort s _ _

theorem State.retake_released (s : State) (a : Stage) : Released s (s.retake a) := by
  unfold State.retake; repeat' split
  all_goals first | exact s.judge_released _ | exact Released.refl s

theorem State.releaseRead_released (s : State) : Released s s.releaseRead := by
  unfold State.releaseRead; repeat' split
  all_goals first | exact s.judge_released _ | exact Released.refl s | exact Released.ofPort s _ _

theorem State.releaseJobs_released (s : State) (room : Bool) : Released s (s.releaseJobs room) := by
  refine ⟨rfl, fun k h => ?_, fun k j h => ?_, fun _ => ⟨rfl, rfl⟩⟩
  · unfold State.releaseJobs CatchUp.mapJobs
    simp only [Fin.getElem_fin, Vector.getElem_ofFn] at h ⊢
    rw [h]; rfl
  · unfold State.releaseJobs CatchUp.mapJobs
    simp only [Fin.getElem_fin, Vector.getElem_ofFn] at h ⊢
    rw [h, Option.map_some]
    repeat' split
    all_goals exact ⟨_, rfl⟩

/-- A word handed changes the repair list and the reporting block alone. -/
theorem State.handWord_frame (s : State) (o : Origin) (l : Line) (i : WordIx) :
    ∃ xs r, (s.handWord o l i).2 = { s with repair := xs, rep := r } := by
  unfold State.handWord
  dsimp only
  repeat' split
  all_goals exact ⟨_, _, rfl⟩

theorem State.handStep_frame (l : Line) (is : List WordIx) (s : State) :
    ∃ w xs r, State.handStep l is s = { s with walker := w, repair := xs, rep := r } := by
  induction is generalizing s with
  | nil => exact ⟨_, _, _, rfl⟩
  | cons i is ih =>
    obtain ⟨xs, r, h⟩ := s.handWord_frame .scrub l i
    unfold State.handStep
    split
    · rename_i s' e
      obtain rfl : s' = { s with repair := xs, rep := r } := by rw [← h, e]
      exact ⟨_, _, _, rfl⟩
    · rename_i a s' _ e
      obtain rfl : s' = { s with repair := xs, rep := r } := by rw [← h, e]
      obtain ⟨w, ys, q, k⟩ := ih { s with
        repair := xs, rep := r, walker := { s.walker with toHand := s.walker.toHand &&& ~~~WordMask.single i } }
      exact ⟨w, ys, q, k⟩

/-- A HELD walker that hands its word again changes its own fields, the repair list and the reporting block alone. -/
theorem State.wakeWalker_frame (s : State) : ∃ w xs r, s.wakeWalker = { s with walker := w, repair := xs, rep := r } := by
  unfold State.wakeWalker State.handOn
  repeat' split
  · exact State.handStep_frame _ _ _
  · exact ⟨_, _, _, rfl⟩
  · exact ⟨_, _, _, rfl⟩

theorem State.wakeWalker_released (s : State) : Released s s.wakeWalker := by
  obtain ⟨w, xs, r, h⟩ := s.wakeWalker_frame
  refine ⟨by rw [h], fun k e => by rw [h]; exact e, fun k j e => ⟨j.waiting, by rw [h]; exact e⟩, fun h => ?_⟩
  · unfold State.wakeWalker; rw [if_neg h]; exact ⟨rfl, rfl⟩

theorem State.releaseSince_released (s : State) (before : List RepairEntry) : Released s (s.releaseSince before) := by
  unfold State.releaseSince State.releaseHeld
  dsimp only
  have h := (s.releaseRead_released).trans (State.releaseJobs_released _ (madeRoom before s.repair))
  repeat' split
  · exact Released.refl s
  · exact (h.trans (State.wakeWalker_released _)).trans (State.retake_released _ _)
  · exact h

theorem State.reviewPort_released (b s : State) : Released s (State.reviewPort b s) := by
  unfold State.reviewPort
  dsimp only
  repeat' split
  all_goals first | exact s.retake_released _ | exact (s.retake_released _).trans (State.retake_released _ _)

/-- The blocks' reaction is their judgements, then a release. -/
theorem State.reactBlocks_released (b s : State) (v : View) : Released (State.reviewBlocks b s v) (State.reactBlocks b s v) :=
  (State.releaseSince_released _ _).trans (State.reviewPort_released b _)

/-! ### Going OFFLINE, and the markings -/

/-- What going OFFLINE does: a quiet release and discard, the teardown, the flags, and a quiet answer to the held requesters. -/
theorem State.goOffline_parts (b s : State) (c : OfflineCause) : ∃ x, Quiet s x ∧
    Quiet ((((x.teardown c).setFlag .offline).setFlagIf s.heldView.isSome .peerChange).setFlagIf
      (State.segmentsChanged b (x.teardown c)) .segmentChange) (State.goOffline b s c) :=
  ⟨_, (((s.releaseSince_quiet b.repair).trans (State.discardSpentHead_quiet _)).trans (State.abortChain_quiet _)).trans
    (State.discardQueue_quiet _),
   ((State.wakeWalker_quiet _).trans (State.corruptHeldRead_quiet _)).trans (State.retake_quiet _ _)⟩

/-- A flag set is in the flag word. -/
theorem StatusFlag.isIn_mask (f : StatusFlag) (w : BitVec 11) : f.isIn (w ||| f.mask) = true := by
  unfold StatusFlag.isIn StatusFlag.mask
  rw [BitVec.getLsbD_or]
  cases f <;> simp [StatusFlag.bit]

theorem State.setFlagIf_isIn (s : State) (c : Bool) (f : StatusFlag) (h : c = true) : f.isIn (s.setFlagIf c f).rep.flags = true :=
    by
  subst h; exact f.isIn_mask _

/-- The entries of the markings stand at the log's end where it has room for them. -/
theorem State.logMarkings_log (s : State) (o : Station) (ms : List Marking) (h : s.rep.log.length + ms.length ≤ 4) :
    (s.logMarkings o ms).rep.log = s.rep.log ++ ms.map (markingEntry o) := by
  unfold State.logMarkings
  induction ms generalizing s with
  | nil => simp
  | cons m ms ih =>
    have hl : (s.raise (busEntry m.2.logKind none none (some m.1) o.val)).rep.log = s.rep.log ++ [markingEntry o m] := by
      unfold State.raise Reporting.raise
      rw [if_pos (show _ < logCapacity by simp only [List.length_cons] at h; unfold logCapacity; omega)]
      obtain ⟨x, c⟩ := m
      cases c <;> rfl
    rw [List.foldl_cons, ih]
    · rw [hl]; simp
    · rw [hl]; simp only [List.length_append, List.length_cons, List.length_nil] at h ⊢; omega

theorem View.has_presentSet (v : View) (x : Station) : v.presentSet.has x = v.present x := by
  have fold : ∀ (xs : List Station) (m : StationSet),
      (xs.foldl (fun m x => m ||| StationSet.single x) m).has x = (m.has x || xs.contains x) := by
    intro xs
    induction xs with
    | nil => simp
    | cons y ys ih =>
      intro m
      rw [List.foldl_cons, ih]
      have : (m ||| StationSet.single y).has x = (m.has x || x == y) := by
        unfold StationSet.has StationSet.single
        rw [BitVec.getLsbD_or]
        congr 1
        clear ih; revert x y; decide
      rw [this, List.contains_cons, Bool.or_assoc]
  unfold View.presentSet
  rw [fold]
  have : (0 : StationSet).has x = false := by simp [StationSet.has]
  rw [this, Bool.false_or, Bool.eq_iff_iff, List.contains_iff_mem, View.mem_presentList]

/-! ### A frame end at which nobody is marked -/

/-- With no count at a limit the view is taken as counted, and the blocks react to it. -/
theorem State.conclude_stays (before s : State) (e : Ended) (taken during w : View) (accepted : Bool)
    (hw : w = e.counted taken during accepted) (hb : w.BelowLimits) (hp : w.present s.me = true)
    (hl : s.join.leaveAttempts < frameRetryLimit) : ∃ c : Bool, State.conclude before s e taken during accepted false =
      (State.reactBlocks before (({ s with view := some w } : State).setFlagIf c .peerChange) w).afterFrame e accepted := by
  subst hw
  have hm : e.marks s.me (e.counted taken during accepted) during false = [] := by
    unfold Ended.marks withLostReject
    rw [View.limits_nil _ _ _ _ hb]; rfl
  unfold State.conclude
  dsimp only
  rw [hm]
  have hv : (e.counted taken during accepted).marked [] = e.counted taken during accepted := rfl
  rw [hv]
  generalize e.counted taken during accepted = w at hp ⊢
  have ht : s.takeView e w during [] (e.joins accepted false) = ({ s with view := some w } : State).setFlagIf
      (e.joins accepted false || w.presentSet != during.presentSet) .peerChange := by
    have hg : (s.group.filter fun b => !(([] : List Marking).map Prod.fst).contains b.sender) = s.group := by
      cases s.group <;> rfl
    unfold State.takeView
    rw [hg]; rfl
  have hme : (s.takeView e w during [] (e.joins accepted false)).me = s.me := by
    rw [ht]; exact (State.setFlagIf_quiet _ _ _).mild.me
  have hj : (s.takeView e w during [] (e.joins accepted false)).join = s.join := by rw [ht]; simp
  unfold State.afterView
  rw [hme, hp, hj, if_neg (by simp), if_neg (by omega), ht]
  exact ⟨_, rfl⟩

/-- The end of a peer's good frame: the frame's own effects, the counted view, and the blocks' reaction to it. -/
theorem State.goodFrameEnd (s : State) (v : View) (h : Heard) (f : Frame) (owner : Station) (c : Fin 4) (slots : Slots)
    (hr : readFrame h = some f) (g : GoodFrame s v f owner c slots) : ∃ (e : Ended) (flag : Bool) (before t x : State) (w : View),
      before = { s with bus := { s.bus with slot := some .ack } } ∧ e.own = none ∧
      w = (f.viewEffect v).countAccepted v owner slots ∧
      t = ({ before.takePeerFrame v f with view := some w } : State).setFlagIf flag .peerChange ∧
      x = (State.reactBlocks before t w).afterFrame e true ∧
      s.frameEnd (some h) slots = State.settle { x with bus := x.bus.endFrame c (x.join.station == .joined) } := by
  obtain ⟨⟨hu, hph, ho, hc⟩, hv, hself, hpeer, hchk, hack, hlv⟩ := g
  obtain ⟨hview, hin⟩ := State.view_of_heldView hv
  have hvalid : s.validates = true := by unfold State.validates; rw [hin]; rfl
  have hfe : s.frameEnd (some h) slots = s.endFrame ⟨owner, c, some f, none, s.judgeFrame (some f) owner c, slots⟩ := by
    unfold State.frameEnd State.ended
    rw [hu, hph, ho, hc, hpeer]
    simp only [Option.bind_some, hr]
  obtain ⟨j1, j2, j3, j4⟩ := Judgement.parts hchk
  have hsound : f.sender = owner := Frame.sender_of_sound (j2 : f.malformed owner c = false)
  have hne : f.sender ≠ s.me := by
    have : (f.sender == s.me) = false := j3
    simpa using this
  have hds : s.driveSlot ⟨owner, c, some f, none, s.judgeFrame (some f) owner c, slots⟩ =
      { s with bus := { s.bus with slot := some .ack } } := by
    unfold State.driveSlot
    simp only [Option.isNone_none, hvalid, Bool.and_self, if_true, hchk, j3, Bool.false_eq_true, if_false]
  have hv1 : State.heldView { s with bus := { s.bus with slot := some .ack } } = some v := hv
  have hacc : v.accepts slots = true := by
    rw [View.accepts_iff]; intro x hx; exact (hack x hx).1
  have hew : State.endWithView { s with bus := { s.bus with slot := some .ack } } v
      ⟨owner, c, some f, none, s.judgeFrame (some f) owner c, slots⟩ =
      State.conclude { s with bus := { s.bus with slot := some .ack } }
        (State.takePeerFrame { s with bus := { s.bus with slot := some .ack } } v f)
        ⟨owner, c, some f, none, s.judgeFrame (some f) owner c, slots⟩ (f.viewEffect v) v true false := by
    unfold State.endWithView Judgement.unreadable
    simp only [hacc, Option.isNone_none, j1, j2, Bool.or_false, Bool.and_false, Bool.not_false, Bool.and_self]
    rfl
  have hzero := View.counts_zero (f.viewEffect v) v owner slots hack (fun x m hm hp => Frame.viewEffect_newcomers f v x m hm hp)
  have hmild := State.takePeerFrame_mild { s with bus := { s.bus with slot := some .ack } } v f
  obtain ⟨_, fr2, _, _⟩ := State.takePeerFrame_frame { s with bus := { s.bus with slot := some .ack } } v f
  obtain ⟨flag, hcl⟩ := State.conclude_stays { s with bus := { s.bus with slot := some .ack } }
    (State.takePeerFrame { s with bus := { s.bus with slot := some .ack } } v f)
    ⟨owner, c, some f, none, s.judgeFrame (some f) owner c, slots⟩ (f.viewEffect v) v
    ((f.viewEffect v).countAccepted v owner slots) true rfl
    (by intro x m hm; obtain ⟨a, b⟩ := hzero x m hm; rw [a, b]; exact ⟨by decide, by decide⟩)
    (by
      rw [View.present_countAccepted, Frame.present_viewEffect, hmild.me]
      have : State.me { s with bus := { s.bus with slot := some .ack } } = s.me := rfl
      rw [this]
      split
      · rw [hself]; simp
      · rw [hself, Bool.and_true]; simpa using fun h => hne h.symm
      · exact hself)
    (by rw [fr2]; exact hlv)
  refine ⟨⟨owner, c, some f, none, s.judgeFrame (some f) owner c, slots⟩, flag, _, _, _, _, rfl, rfl, rfl, rfl, rfl, ?_⟩
  rw [hfe]
  unfold State.endFrame
  rw [hds]
  dsimp only
  rw [hv1]
  dsimp only
  rw [hew, hcl]

/-- The end of this station's own frame, all acknowledging, unless it is its LEAVE: the frame's own effects, the counted view, and
the blocks' reaction to it. -/
theorem State.ownFrameEnd (s : State) (v : View) (i : InFlight) (c : Fin 4) (slots : Slots) (heard : Option Heard)
    (g : OwnFrame s v i c slots) (hn : i.frame.kind? = some .leave → i.frame.sender ≠ s.me)
    (hl : (s.takeOwnFrame v i.frame).join.leaveAttempts < frameRetryLimit) : ∃ (flag : Bool) (t : State) (w : View),
      w = (i.frame.viewEffect v).countAccepted v s.me slots ∧
      t = ({ s.takeOwnFrame v i.frame with view := some w } : State).setFlagIf flag .peerChange ∧
      ∃ (e : Ended) (x : State), e.own = some i ∧ x = (State.reactBlocks s t w).afterFrame e true ∧
        s.frameEnd heard slots = State.settle { x with bus := x.bus.endFrame c (x.join.station == .joined) } := by
  obtain ⟨⟨hu, hph, ho, hc⟩, hv, hself, hown, hack, _⟩ := g
  have hfe : s.frameEnd heard slots = s.endFrame ⟨s.me, c, some i.frame, some i, Judgement.sound, slots⟩ := by
    unfold State.frameEnd State.ended
    rw [hu, hph, ho, hc, hown]
  have hds : s.driveSlot ⟨s.me, c, some i.frame, some i, Judgement.sound, slots⟩ = s := by
    unfold State.driveSlot; simp
  have hacc : v.accepts slots = true := by
    rw [View.accepts_iff]; intro x hx; exact (hack x hx).1
  have hew : State.endWithView s v ⟨s.me, c, some i.frame, some i, Judgement.sound, slots⟩ =
      State.conclude s (s.takeOwnFrame v i.frame) ⟨s.me, c, some i.frame, some i, Judgement.sound, slots⟩ (i.frame.viewEffect v) v
        true false := by
    unfold State.endWithView
    simp only [hacc, Option.isNone_some, Bool.and_false, Bool.false_and, Bool.not_false, Bool.and_self, Option.isSome_some,
        if_true]
  have hzero := View.counts_zero (i.frame.viewEffect v) v s.me slots hack
    (fun x m hm hp => Frame.viewEffect_newcomers i.frame v x m hm hp)
  have hmild := State.takeOwnFrame_mild s v i.frame
  obtain ⟨flag, hcl⟩ := State.conclude_stays s (s.takeOwnFrame v i.frame)
    ⟨s.me, c, some i.frame, some i, Judgement.sound, slots⟩ (i.frame.viewEffect v) v
    ((i.frame.viewEffect v).countAccepted v s.me slots) true rfl
    (by intro x m hm; obtain ⟨a, b⟩ := hzero x m hm; rw [a, b]; exact ⟨by decide, by decide⟩)
    (by
      rw [View.present_countAccepted, Frame.present_viewEffect, hmild.me]
      split
      · rw [hself]; simp
      · rename_i hk
        rw [hself, Bool.and_true]; simpa using fun h => hn hk h.symm
      · exact hself) hl
  refine ⟨flag, _, _, rfl, rfl, ⟨s.me, c, some i.frame, some i, Judgement.sound, slots⟩, _, rfl, rfl, ?_⟩
  rw [hfe]
  unfold State.endFrame
  rw [hds]
  dsimp only
  rw [hv]
  dsimp only
  rw [hew, hcl]

end Sys2Proof.Machine
end

