-- ==== Sys2Proof/Laws/Limits.lean ====
section
/-! SUPPORT. The markings of a frame end: who is at a limit, and what they leave. -/

namespace Sys2Proof.Machine

theorem View.ackers_isEmpty (v : View) (o : Station) (sl : Slots) : (v.ackers o sl).isEmpty = true ↔ ∀ a,
    ¬Acknowledged v o sl a := by
  unfold View.ackers Acknowledged droveAck
  rw [List.isEmpty_iff, List.filter_eq_nil_iff]
  constructor
  · rintro h a ⟨h1, h2, h3, h4⟩; exact h a ((v.mem_presentList a).mpr h1) (by simp [h2, h3, h4])
  · intro h a ha hh; apply h a
    simp only [Bool.and_eq_true, bne_iff_ne, Bool.not_eq_true'] at hh
    exact ⟨(v.mem_presentList a).mp ha, hh.1, hh.2.1, hh.2.2⟩

/-- A station is marked exactly at a limit, with the cause of R112. -/
theorem View.mem_limits (w v : View) (o : Station) (sl : Slots) (x : Station) (cause : OfflineCause) :
    (x, cause) ∈ w.limits v o sl ↔ ∃ m, w.member x = some m ∧
      ((3 ≤ m.miss ∧ cause = .missed) ∨ (m.miss < 3 ∧ 4 ≤ m.reject ∧
        (((∃ a, Acknowledged v o sl a) ∧ cause = .expelled) ∨ ((∀ a, ¬Acknowledged v o sl a) ∧ cause = .selfFault)))) := by
  unfold View.limits
  rw [List.mem_filterMap]
  have he := View.ackers_isEmpty v o sl
  constructor
  · rintro ⟨y, hy, h⟩
    cases hm : w.member y with
    | none => rw [hm] at h; simp at h
    | some m =>
      rw [hm] at h; dsimp only at h
      split at h
      · rename_i h1
        simp only [Option.some.injEq, Prod.mk.injEq] at h
        obtain ⟨rfl, rfl⟩ := h
        exact ⟨m, hm, Or.inl ⟨h1, rfl⟩⟩
      · rename_i h1
        split at h
        · rename_i h2
          simp only [Option.some.injEq, Prod.mk.injEq] at h
          obtain ⟨rfl, h⟩ := h
          refine ⟨m, hm, Or.inr ⟨by unfold missLimit at h1; omega, h2, ?_⟩⟩
          split at h
          · rename_i h3; exact Or.inr ⟨he.mp h3, h.symm⟩
          · rename_i h3
            left
            refine ⟨?_, h.symm⟩
            by_contra hno; exact h3 (he.mpr (fun a ha => hno ⟨a, ha⟩))
        · simp at h
  · rintro ⟨m, hm, h⟩
    refine ⟨x, (w.mem_presentList x).mpr (by simp [View.present, hm]), ?_⟩
    rw [hm]; dsimp only
    rcases h with ⟨h1, rfl⟩ | ⟨h1, h2, h3⟩
    · exact if_pos h1
    · rw [if_neg (by unfold missLimit; omega), if_pos (show rejectLimit ≤ m.reject from h2)]
      rcases h3 with ⟨⟨a, ha⟩, rfl⟩ | ⟨h3, rfl⟩
      · rw [if_neg (fun h => he.mp h a ha)]
      · rw [if_pos (he.mpr h3)]

/-- The markings stand in ascending order. -/
theorem View.limits_pairwise (w v : View) (o : Station) (sl : Slots) : (w.limits v o sl).Pairwise (fun a b => a.1 < b.1) := by
  unfold View.limits
  have hs : w.presentList.Pairwise (· < ·) := (List.pairwise_lt_finRange 16).filter _
  refine List.Pairwise.filterMap _ ?_ hs
  intro a b hab c hc d hd
  have : ∀ (x : Station) (r : Marking), (match w.member x with
    | none => none
    | some m => if missLimit ≤ m.miss then some (x, OfflineCause.missed)
      else if rejectLimit ≤ m.reject then some (x, if (v.ackers o sl).isEmpty then .selfFault else .expelled) else none) =
          some r → r.1 = x := by
    intro x r h
    split at h
    · simp at h
    · repeat' split at h
      all_goals first | (simp only [Option.some.injEq] at h; rw [← h]) | simp at h
  rw [this a c hc, this b d hd]; exact hab

theorem lookup_marking_none (ms : List Marking) (x : Station) : ms.lookup x = none ↔ x ∉ ms.map Prod.fst := by
  rw [List.lookup_eq_none_iff]
  simp only [List.mem_map, not_exists, not_and]
  constructor
  · intro h p hp e; have := h p hp; simp [e] at this
  · intro h p hp; simpa using fun e => h p hp e.symm

theorem View.present_marked (w : View) (ms : List Marking) (x : Station) : (w.marked ms).present x =
    (!(ms.map Prod.fst).contains x && w.present x) := by
  unfold View.marked
  cases ms with
  | nil => simp
  | cons m ms => rw [if_neg (by simp), View.present_markAbsent]

/-- A frame end that moves the counts to a view leaves what the markings of that view leave (R112, R113). -/
theorem State.conclude_markings (before s0 s : State) (e : Ended) (taken during w : View) (accepted : Bool)
    (hw : w = e.counted taken during accepted)
    (hlog : s.rep.log = s0.rep.log) (hst : s.join.station = s0.join.station) (hme : s.me = s0.me) (hg : s.inGroup = true)
    (hl : s.join.leaveAttempts < frameRetryLimit) (hp : w.present s.me = true) (hsub : ∀ x, w.present x = during.present x) :
    MarkingsTaken s0 (State.conclude before s e taken during accepted false) w (w.limits during e.owner e.slots) e.owner := by
  subst hw
  unfold State.conclude
  dsimp only
  have hmarks : e.marks s.me (e.counted taken during accepted) during false =
      (e.counted taken during accepted).limits during e.owner e.slots := by
    unfold Ended.marks withLostReject; simp
  rw [hmarks]
  have hall : ∀ m ∈ (e.counted taken during accepted).limits during e.owner e.slots,
      (e.counted taken during accepted).present m.1 = true := by
    intro m hm
    obtain ⟨k, hk, _⟩ := (View.mem_limits _ _ _ _ m.1 m.2).mp hm
    simp [View.present, hk]
  generalize (e.counted taken during accepted).limits during e.owner e.slots = ms at hall ⊢
  generalize hww : e.counted taken during accepted = w at *
  generalize hv' : w.marked ms = v'
  have hT : ∃ T, T = s.takeView e v' during ms (e.joins accepted false) := ⟨_, rfl⟩
  obtain ⟨T, hT⟩ := hT
  rw [← hT]
  have t1 : T.me = s.me := by
    rw [hT]; unfold State.takeView
    exact ((State.logMarkings_quiet _ _ _).trans (State.setFlagIf_quiet _ _ _)).mild.me
  have q := (State.logMarkings_quiet { s with view := some v', group := s.group.filter fun b => !(ms.map Prod.fst).contains b.sender } e.owner ms).trans
    (State.setFlagIf_quiet _ (e.joins accepted false || v'.presentSet != during.presentSet) .peerChange)
  have t2 : T.view = some v' := by rw [hT]; exact q.mild.view
  have t3 : T.group = s.group.filter fun b => !(ms.map Prod.fst).contains b.sender := by rw [hT]; exact q.group
  have t4 : T.join.station = s.join.station := by rw [hT]; exact q.mild.station
  have t5 : T.join.leaveAttempts = s.join.leaveAttempts := by
    have : ∀ (xs : List Marking) (y : State), (y.logMarkings e.owner xs).join = y.join := by
      intro xs; unfold State.logMarkings
      induction xs with
      | nil => exact fun _ => rfl
      | cons x xs ih => exact fun y => ih _
    rw [hT]; unfold State.takeView; rw [State.setFlagIf_join, this]
  have t6 : ms ≠ [] → StatusFlag.peerChange.isIn T.rep.flags = true := by
    intro hne
    rw [hT]; unfold State.takeView
    apply State.setFlagIf_isIn
    rw [Bool.or_eq_true]; right
    rw [bne_iff_ne]
    intro heq
    obtain ⟨m, hm⟩ := List.exists_mem_of_ne_nil ms hne
    have h1 := v'.has_presentSet m.1
    rw [heq, View.has_presentSet, ← hv', View.present_marked, ← hsub, hall m hm] at h1
    have : (ms.map Prod.fst).contains m.1 = true := by rw [List.contains_iff_mem]; exact List.mem_map_of_mem hm
    rw [this] at h1; simp at h1
  have t7 : Logged s0 T (ms.map (markingEntry e.owner)) := by
    intro hlen
    rw [hT]; unfold State.takeView
    have hq := (State.setFlagIf_quiet (State.logMarkings
        { s with view := some v', group := s.group.filter fun b => !(ms.map Prod.fst).contains b.sender } e.owner ms)
        (e.joins accepted false || v'.presentSet != during.presentSet) .peerChange).mild.log
    refine List.IsPrefix.trans ?_ hq
    rw [State.logMarkings_log _ _ _ (by rw [List.length_map] at hlen; show s.rep.log.length + _ ≤ 4; rw [hlog]; exact hlen)]
    show _ <+: s.rep.log ++ _
    rw [hlog]
  have hin : T.heldView.isSome = true := by
    unfold State.heldView State.inGroup; rw [t2, t4]
    unfold State.inGroup at hg; rw [if_pos hg]; rfl
  unfold State.afterView
  rw [t1, t5, ← hv', View.present_marked, hp, Bool.and_true, Bool.not_not, hv']
  by_cases hc : (ms.map Prod.fst).contains s.me = true
  · rw [if_pos hc]
    have hex : ∃ cause, ms.lookup s.me = some cause := by
      cases h : ms.lookup s.me with
      | some c => exact ⟨c, rfl⟩
      | none => rw [lookup_marking_none] at h; exact absurd (List.contains_iff_mem.mp hc) h
    obtain ⟨cause, hcause⟩ := hex
    rw [hcause, Option.getD_some]
    obtain ⟨x, qx, qo⟩ := State.goOffline_parts before T cause
    have qf : Quiet x (x) := Quiet.refl x
    refine ⟨fun h => ?_, fun c h => ?_, fun hne => ?_, ?_⟩
    · rw [← hme, hcause] at h; simp at h
    · rw [← hme, hcause] at h; obtain rfl := Option.some.inj h
      refine ⟨qo.mild.station.trans ?_, qo.mild.cause.trans ?_, qo.mild.view.trans ?_, qo.group.trans ?_⟩
      all_goals simp [State.teardown]
    · refine qo.mild.flags _ ?_
      refine (State.setFlagIf_quiet _ _ _).mild.flags _ ?_
      exact State.setFlagIf_isIn _ _ _ hin
    · intro hlen
      refine (t7 hlen).trans (qx.mild.log.trans (List.IsPrefix.trans ?_ qo.mild.log))
      refine List.IsPrefix.trans ?_ ((State.setFlagIf_quiet _ _ _).trans (State.setFlagIf_quiet _ _ _)).mild.log
      exact List.prefix_rfl
  · rw [if_neg hc, if_neg (by omega)]
    have qq := (State.reactBlocks_quiet before T v').trans (State.afterFrame_quiet _ e accepted)
    refine ⟨fun h => ⟨?_, ?_, ?_⟩, fun c h => ?_, fun hne => qq.mild.flags _ (t6 hne), fun hlen => (t7 hlen).trans qq.mild.log⟩
    · rw [qq.mild.view, t2, ← hv']
      unfold View.marked
      cases ms <;> simp
    · rw [qq.mild.station, t4, hst]
    · intro b hb
      rw [qq.group, t3] at hb
      have := Option.filter_eq_some_iff.mp hb
      simpa using this.2
    · have h' : ms.lookup s.me = none := by rw [lookup_marking_none]; exact fun h => hc (List.contains_iff_mem.mpr h)
      rw [← hme, h'] at h; simp at h

theorem MarkingsTaken.endFrame (s u : State) (w ms o) (c : Fin 4) (h : MarkingsTaken s u w ms o) :
    MarkingsTaken s { u with bus := u.bus.endFrame c (u.join.station == .joined) } w ms o :=
  ⟨h.others, h.self, h.peers, h.logged⟩

end Sys2Proof.Machine
end

