-- ==== Sys2Proof/Laws/Order.lean ====
section
/-! SUPPORT. The order in which served pairs get jobs, and the monitors at an accepted frame. -/

namespace Sys2Proof.Machine

theorem CatchUp.gives_full (n : Nat) (ps : List (Station × Segment)) (c : CatchUp) (h : ∀ k : JobIx, c.jobs[k] ≠ none) :
    ps.foldl (fun c p => c.give n p) c = c := by
  induction ps with
  | nil => rfl
  | cons p ps ih => rw [List.foldl_cons, (c.give_spec n p).2.2.2 h, ih]

/-- The served pairs stand in ascending order of segment and station (R142). -/
theorem View.servedPairs_split (v : View) (me x y : Station) (g h : Segment) (hx : v.serves me x g = true)
    (_hy : v.serves me y h = true)
    (hlt : g < h ∨ (g = h ∧ x < y)) : ∃ as bs, v.servedPairs me = as ++ (x, g) :: bs ∧ (y, h) ∉ as := by
  obtain ⟨as, bs, hab⟩ := List.append_of_mem ((v.mem_servedPairs me x g).mpr hx)
  refine ⟨as, bs, hab, fun hm => ?_⟩
  have hs : (v.servedPairs me).Pairwise (fun p q => p.2 < q.2 ∨ (p.2 = q.2 ∧ p.1 < q.1)) := by
    unfold View.servedPairs
    rw [List.pairwise_flatMap]
    constructor
    · intro g _
      rw [List.pairwise_map]
      refine List.Pairwise.imp ?_ ((List.pairwise_lt_finRange 16).filter _)
      intro a b hab; exact Or.inr ⟨rfl, hab⟩
    · refine List.Pairwise.imp ?_ (List.pairwise_lt_finRange 8)
      intro a b hab p hp q hq
      rw [List.mem_map] at hp hq
      obtain ⟨_, _, rfl⟩ := hp
      obtain ⟨_, _, rfl⟩ := hq
      exact Or.inl hab
  rw [hab, List.pairwise_append] at hs
  have := hs.2.2 _ hm _ List.mem_cons_self
  dsimp only at this
  simp only [Fin.lt_def, Fin.ext_iff] at this hlt
  omega

/-- A pair gets no new job while one before it has none (R142). -/
theorem CatchUp.review_order (c d : CatchUp) (v : View) (me : Station) (n : Nat) (hd : d = c.review v me n) (x y : Station)
    (g h : Segment)
    (hx : v.serves me x g = true) (hy : v.serves me y h = true) (hlt : g < h ∨ (g = h ∧ x < y)) (hj : d.hasJob y h = true) :
    c.hasJob y h = true ∨ d.hasJob x g = true := by
  obtain ⟨as, bs, hab, hno⟩ := View.servedPairs_split v me x y g h hx hy hlt
  have hd : d = (v.servedPairs me).foldl (fun c p => c.give n p) (c.dropWhere fun j => !v.serves me j.station j.segment) := hd
  rw [hab, List.foldl_append, List.foldl_cons] at hd
  generalize hc0 : (c.dropWhere fun j => !v.serves me j.station j.segment) = c0 at hd
  generalize hc1 : as.foldl (fun c p => c.give n p) c0 = c1 at hd
  obtain ⟨_, s2, s3, _⟩ := c1.give_spec n (x, g)
  obtain ⟨k1, _, _⟩ := CatchUp.gives_spec n bs (c1.give n (x, g))
  rcases s3 with s3 | s3
  · right
    rw [CatchUp.hasJob_iff] at s3 ⊢
    obtain ⟨k, j, e, e1, e2⟩ := s3
    exact ⟨k, j, by rw [hd]; exact k1 k j e, e1, e2⟩
  · rw [CatchUp.gives_full _ _ _ s3] at hd
    rw [CatchUp.hasJob_iff] at hj
    obtain ⟨k, j, e, e1, e2⟩ := hj
    rw [hd] at e
    left
    rcases s2 k j e with e | e
    · obtain ⟨_, a2, _⟩ := CatchUp.gives_spec n as c0
      rcases a2 k j (by rw [hc1]; exact e) with e | ⟨p, hp, e⟩
      · rw [← hc0, CatchUp.dropWhere_jobs, Option.filter_eq_some_iff] at e
        exact (CatchUp.hasJob_iff _ _ _).mpr ⟨k, j, e.1, e1, e2⟩
      · subst e
        simp only [newJob] at e1 e2
        exact absurd hp (by rw [show p = (y, h) from Prod.ext e1 e2]; exact hno)
    · subst e
      simp only [newJob] at e1 e2
      subst e1 e2
      simp only [Fin.lt_def] at hlt
      omega

theorem CatchUp.mapMonitors_get (c : CatchUp) (f : Segment → Monitor → Monitor) (g : Segment) : (c.mapMonitors f).monitors[g] =
    f g c.monitors[g] := by
  unfold CatchUp.mapMonitors; simp

theorem State.takePeerFrame_running (s : State) (v f) (g : Segment) : (s.takePeerFrame v f).catchup.monitors[g].running =
    s.catchup.monitors[g].running := by
  unfold State.takePeerFrame
  have hd : ∀ p (c : CatchUp), (c.dropWhere p).monitors = c.monitors := by
    intro p c
    unfold CatchUp.dropWhere
    generalize jobIxs = ks
    induction ks generalizing c with
    | nil => rfl
    | cons x ks ih =>
      rw [List.foldl_cons, ih]
      repeat' split
      all_goals rfl
  split
  · unfold State.takeUpdate; dsimp only; split <;> rfl
  · split
    · have := hd (fun j => j.station == f.sender) s.catchup
      show (CatchUp.dropWhere s.catchup fun j => j.station == f.sender).monitors[g].running = _
      rw [this]
    · rfl
  · unfold State.takeAsk; split <;> rfl
  · unfold State.takeGive; dsimp only; repeat' split
    all_goals rfl
  · unfold State.takeCopy
    split
    · simp only [State.setFlagIf_catchup, CatchUp.modifyMonitor, CatchUp.mapMonitors_get]
      split <;> rfl
    · rfl
  all_goals rfl

end Sys2Proof.Machine
end

