-- ==== Sys2Proof/Laws/Requests.lean ====
section
/-! SUPPORT. The judgement of a held request in a state, and the entries that no judgement puts in the queue. -/

namespace Sys2Proof.Machine

theorem View.localState_countAccepted (v d : View) (o me : Station) (sl) (g : Segment) :
    (v.countAccepted d o sl).localState me g = v.localState me g := by
  unfold View.localState
  rw [View.state_countAccepted, View.server_countAccepted]
  simp only [(View.settled_countAccepted _ _ _ _ _).1]

theorem State.fillPending_false {s : State} {g : Segment} (h1 : s.sp.fill[g] ≠ .waiting) (h2 : s.sp.fill[g] ≠ .filling) :
    s.fillPending g = false := by
  unfold State.fillPending
  split <;> simp_all

/-- A request judged where its fill is not pending is judged as `RequestJudged` says, and no judgement of a read holds it anywhere
but in STORE_WAIT. -/
theorem State.judge_judged (s x : State) (r : Request) (hst : x.started = true) (hf : x.fillPending r.segment = false)
    (hl : ∀ g, x.localState g = s.localState g) (ho : x.out = s.out) (hc : ∀ g, x.ownCursor g = s.ownCursor g) :
    RequestJudged s r (x.judge r).port ∧ ((∀ p, RequestJudged s r p) ∨ ∀ r', (x.judge r).port.request = some r' → r'.stage =
        .storeWait) := by
  have hb : ∀ l, x.belowCursor l = s.belowCursor l := by intro l; unfold State.belowCursor; rw [hc]
  have hj : x.judge r = match r.direction with | .read => x.judgeRead r | .write d => x.judgeWrite r d := by
    have : x.judge r = x.judgeSegment r := by
      unfold State.started at hst
      unfold State.judge; split <;> simp_all
    rw [this]; unfold State.judgeSegment; rw [hf]; rfl
  rw [hj]
  obtain ⟨dir, addr, stage, rule, raw⟩ := r
  unfold RequestJudged
  cases dir with
  | read =>
    dsimp only
    unfold State.judgeRead State.judgeMemberRead State.judgeStaleRead State.sendRead
    rw [hl, ho, hb]
    unfold Request.segment Request.line Request.word
    dsimp only
    cases e : s.localState (segmentOf (lineOfAddress addr)) <;> dsimp only
    all_goals
      cases ef : forwardLookup s.out (lineOfAddress addr) (wordOfAddress addr) <;> try dsimp only
      all_goals
        repeat' split
        all_goals exact ⟨rfl, Or.inr (by intro r' h; simp [State.holdRequest, State.answer] at h; try rw [← h])⟩
  | write d =>
    dsimp only
    unfold State.judgeWrite
    rw [hl]
    unfold Request.segment Request.line
    dsimp only
    cases e : s.localState (segmentOf (lineOfAddress addr)) <;> dsimp only
    all_goals first
      | exact ⟨⟨fun h => absurd h (by decide), fun h => absurd h (by decide)⟩, Or.inl fun p =>
          ⟨fun h => absurd h (by decide), fun h => absurd h (by decide)⟩⟩
      | exact ⟨⟨fun h => absurd h (by decide), fun _ => rfl⟩, Or.inr (by intro r' h; simp [State.answer] at h)⟩
      | exact ⟨⟨fun _ => rfl, fun h => absurd h (by decide)⟩, Or.inr (by intro r' h; simp [State.holdRequest] at h; rw [← h])⟩

theorem State.retake_other (x : State) (st : Stage) (h : ∀ r', x.port.request = some r' → r'.stage ≠ st) : x.retake st = x := by
  unfold State.retake; split
  · rename_i r' e; rw [if_neg (h r' e)]
  · rfl

theorem State.reviewPort_storeWait (b x : State) (h : ∀ r', x.port.request = some r' → r'.stage = .storeWait) :
    State.reviewPort b x = x := by
  have h1 := State.retake_other x .queueWait (fun r' e => by rw [h r' e]; simp)
  have h2 := State.retake_other x .slotWait (fun r' e => by rw [h r' e]; simp)
  unfold State.reviewPort; dsimp only; rw [h1, h2]
  split
  · rfl
  · split <;> rfl

theorem State.ownState_of_state {s t : State} {v w : View} (hs : s.heldView = some v) (ht : t.heldView = some w)
    (hme : t.me = s.me) (h : ∀ g, w.state s.me g = v.state s.me g) (g) : t.ownState g = s.ownState g := by
  unfold State.ownState; rw [hs, ht, hme]; exact h g

theorem State.ownCursor_of_ownState {s t : State} {g} (h : t.ownState g = s.ownState g) : t.ownCursor g = s.ownCursor g := by
    unfold State.ownCursor; rw [h]

theorem combineFirst_none (refs) (i d) : ∀ (q : List OutEntry), (∀ a e b, q = a ++ e :: b → refs e = true →
    (∀ y ∈ a, refs y = false) → e.combine i d = none) → combineFirst refs i d q = none
  | [], _ => rfl
  | e :: es, h => by
    unfold combineFirst
    split
    · rename_i hr; rw [h [] e es rfl hr (by simp)]; rfl
    · rename_i hr
      rw [combineFirst_none refs i d es]; rfl
      intro a x b hq hx hy
      refine h (e :: a) x b (by simp [hq]) hx ?_
      intro y hy'
      rcases List.mem_cons.mp hy' with rfl | h'
      · simpa using hr
      · exact hy y h'

theorem words4_single (i : WordIx) (d : Word) : (words4 fun j => if j = i then d else 0) = (Vector.replicate 4 0).set i d := by
  ext n hn
  simp only [words4, Vector.getElem_ofFn, Vector.getElem_set, Vector.getElem_replicate]
  by_cases e : i.val = n
  · subst e; simp
  · have : (⟨n, hn⟩ : WordIx) ≠ i := fun h => e (by rw [← h])
    simp [e, this]

/-- A write that can combine into no entry makes one at the tail (R54). -/
theorem queueTake_new (st : Vector Record 16) (rest : List OutEntry) (s : State) (l i d) (hs : s.out = rest)
    (hst : s.commit.staging = st) (hn : NeedsNewEntry s l) (hlen : rest.length < 32) :
    queueTake st rest l i d = some (rest ++ [⟨.update (segmentOf l) l (WordMask.single i) ((Vector.replicate 4 0).set i d) true,
        .waiting, 0⟩]) := by
  subst hs hst
  have hc : combineFirst (fun e => e.references s.commit.staging l) i d s.out.reverse = none := by
    apply combineFirst_none
    intro x e y hq hr hy
    have := hn y.reverse e x.reverse (by rw [← List.reverse_reverse s.out, hq]; simp) hr (fun z hz => hy z (by simpa using hz))
    unfold OutEntry.combine
    split
    · rename_i g l m sl hb hw; exact absurd ⟨hw, g, l, m, sl, hb⟩ this
    · rfl
  unfold queueTake
  rw [hc]; dsimp only
  rw [if_pos (show s.out.length < outboundCapacity from hlen)]
  unfold newUpdate; rw [words4_single]

/-- The judgements at a frame end that leaves every local state as it was, and no head spent, keep the queue. -/
theorem State.reviewBlocks_out (b s : State) (v : View) (h : ∀ g, b.localState g = s.localState g)
    (ha : ∀ e ∈ s.out, e.attempts < frameRetryLimit) :
    (State.reviewBlocks b s v).out = s.out := by
  have h1 : ∀ (es : List LogEntry) (x : State), (es.foldl State.raise x).out = x.out := by
    intro es; induction es with
    | nil => exact fun _ => rfl
    | cons a es ih => exact fun x => ih _
  have h2 : ∀ x : State, (x.reviewRun v).out = x.out := by
    intro x; unfold State.reviewRun; repeat' split
    all_goals rfl
  unfold State.reviewBlocks State.reviewRepair
  dsimp only
  rw [h1]
  rw [State.reviewHead_same b (s.reviewRosters v) ha,
    State.reviewSegments_same b _ (fun g => (h g).trans ((State.reviewRosters_reviewed s v).localState g).symm)]
  show (State.reviewRun (s.reviewRosters v) v).out = _
  rw [h2]; rfl

/-- A segment that leaves CURRENT and CATCHING has no UPDATE entry left (R66). -/
theorem State.reviewSegments_discards (before s : State) (g : Segment) (hb : before.localState g = .current ∨
    before.localState g = .catching)
    (h1 : s.localState g ≠ .current) (h2 : s.localState g ≠ .catching) (e : OutEntry)
        (he : e ∈ (State.reviewSegments before s).out) : e.updateOf g = false := by
  have fold : ∀ (gs : List Segment) (x : State), (∀ h, x.localState h = s.localState h) → ∀ e ∈
      (gs.foldl (State.reviewSegment before) x).out, e ∈ x.out ∧ (g ∈ gs → e.updateOf g = false) := by
    intro gs
    induction gs with
    | nil => intro x _ e h; exact ⟨h, fun h => absurd h (by simp)⟩
    | cons a gs ih =>
      intro x hx e h
      rw [List.foldl_cons] at h
      have hrev := State.reviewSegment_reviewed before x a
      obtain ⟨i1, i2⟩ := ih (State.reviewSegment before x a) (fun h => (hrev.localState h).trans (hx h)) e h
      have hout : e ∈ x.out ∧ (a = g → e.updateOf g = false) := by
        unfold State.reviewSegment at i1
        dsimp only at i1
        split at i1
        · unfold State.discardSegment at i1
          dsimp only at i1
          split at i1
          · rename_i h0
            simp only [State.setFlagIf_out] at i1 h0
            refine ⟨i1, fun ha => ?_⟩
            subst ha
            rw [List.length_eq_zero_iff, List.filter_eq_nil_iff] at h0
            simpa using h0 e i1
          · simp only [State.raise_out, State.setFlagIf_out, List.mem_filter] at i1
            exact ⟨i1.1, fun ha => by subst ha; simpa using i1.2⟩
        · rename_i hc
          simp only [State.setFlagIf_out] at i1
          refine ⟨i1, fun ha => ?_⟩
          subst ha
          exfalso; apply hc
          unfold State.leaves
          rw [hx]
          have : (before.localState a).posts = true := by rcases hb with h | h <;> rw [h] <;> rfl
          rw [this]
          cases hl : s.localState a <;> simp_all [LocalState.posts]
      refine ⟨hout.1, fun hm => ?_⟩
      rcases List.mem_cons.mp hm with rfl | hm
      · exact hout.2 rfl
      · exact i2 hm
  exact (fold segments s (fun _ => rfl) e he).2 (List.mem_finRange g)

/-- A change of local state sets SEGMENT_CHANGE (R135). -/
theorem State.reviewSegments_flag (before s : State) (g : Segment) (h : before.localState g ≠ s.localState g) :
    StatusFlag.segmentChange.isIn (State.reviewSegments before s).rep.flags = true := by
  unfold State.reviewSegments
  have fold : ∀ (gs : List Segment) (x : State), (∀ h, x.localState h = s.localState h) → g ∈ gs →
      StatusFlag.segmentChange.isIn (gs.foldl (State.reviewSegment before) x).rep.flags = true := by
    intro gs
    induction gs with
    | nil => intro x _ h; exact absurd h (by simp)
    | cons a gs ih =>
      intro x hx hm
      have hrev := State.reviewSegment_reviewed before x a
      rw [List.foldl_cons]
      by_cases e : g = a
      · subst e
        have h1 : StatusFlag.segmentChange.isIn (State.reviewSegment before x g).rep.flags = true := by
          have hs : StatusFlag.segmentChange.isIn (x.setFlagIf (before.localState g != x.localState g) .segmentChange).rep.flags =
              true :=
            State.setFlagIf_isIn _ _ _ (by rw [hx]; simpa using h)
          unfold State.reviewSegment; dsimp only; split
          · exact (State.discardSegment_quiet _ _).mild.flags _ hs
          · exact hs
        have q : ∀ (gs : List Segment) (y : State), Quiet y (gs.foldl (State.reviewSegment before) y) := by
          intro gs
          induction gs with
          | nil => exact Quiet.refl
          | cons b gs ih => exact fun y => (State.reviewSegment_quiet before y b).trans (ih _)
        exact (q gs _).mild.flags _ h1
      · exact ih _ (fun h => (hrev.localState h).trans (hx h)) ((List.mem_cons.mp hm).resolve_left e)
  exact fold segments s (fun _ => rfl) (List.mem_finRange g)

theorem combineFirst_updateOf (refs : OutEntry → Bool) (i : WordIx) (d : Word) (g : Segment) : ∀ (xs ys : List OutEntry),
    combineFirst refs i d xs = some ys →
    (∀ e ∈ xs, e.updateOf g = false) → ∀ e ∈ ys, e.updateOf g = false := by
  intro xs
  induction xs with
  | nil => intro ys h; simp [combineFirst] at h
  | cons x xs ih =>
    intro ys h hx e he
    simp only [combineFirst] at h
    split at h
    · obtain ⟨x', hx', rfl⟩ := Option.map_eq_some_iff.mp h
      rcases List.mem_cons.mp he with rfl | he
      · have := hx x List.mem_cons_self
        unfold OutEntry.combine at hx'
        repeat' split at hx'
        all_goals simp only [Option.some.injEq, reduceCtorEq] at hx'
        subst hx'
        unfold OutEntry.updateOf at this ⊢
        simp_all
      · exact hx e (List.mem_cons_of_mem _ he)
    · obtain ⟨zs, hz, rfl⟩ := Option.map_eq_some_iff.mp h
      rcases List.mem_cons.mp he with rfl | he
      · exact hx _ List.mem_cons_self
      · exact ih zs hz (fun e h => hx e (List.mem_cons_of_mem _ h)) e he

/-- A state whose queue holds no UPDATE entry of a segment that takes none. -/
def ClearOf (g : Segment) (s : State) : Prop := (∀ e ∈ s.out, e.updateOf g = false) ∧ s.localState g ≠ .current ∧ s.localState g ≠
    .catching

theorem ClearOf.of {g s t} (h : ClearOf g s) (q : Quiet s t) (ho : t.out = s.out) : ClearOf g t :=
  ⟨by rw [ho]; exact h.1, by rw [q.mild.localState]; exact h.2.1, by rw [q.mild.localState]; exact h.2.2⟩

theorem ClearOf.offerWrite (g : Segment) (s : State) (r : Request) (d : Word) (h : ClearOf g s) (hr : r.segment ≠ g) : ClearOf g
    (s.offerWrite r d) := by
  have hl := (s.offerWrite_quiet r d).mild.localState g
  refine ⟨?_, by rw [hl]; exact h.2.1, by rw [hl]; exact h.2.2⟩
  unfold State.offerWrite
  split
  · rename_i q hq
    unfold queueTake at hq
    split at hq
    · rename_i ys hy
      simp only [Option.some.injEq] at hq
      subst hq
      intro e he
      have he : e ∈ ys.reverse := he
      exact combineFirst_updateOf _ _ _ g _ _ hy (fun e he => h.1 e (List.mem_reverse.mp he)) e (List.mem_reverse.mp he)
    · split at hq
      · simp only [Option.some.injEq] at hq
        subst hq
        intro e he
        have he : e ∈ s.out ++ [newUpdate r.line r.word d] := he
        rcases List.mem_append.mp he with he | he
        · exact h.1 e he
        · rw [List.mem_singleton] at he; subst he
          unfold OutEntry.updateOf newUpdate
          exact beq_eq_false_iff_ne.mpr hr
      · simp at hq
  · exact h.1

theorem ClearOf.judgeWrite (g : Segment) (s : State) (r : Request) (d : Word) (h : ClearOf g s) : ClearOf g (s.judgeWrite r d) :=
    by
  unfold State.judgeWrite
  have hoff : s.localState r.segment = .current ∨ s.localState r.segment = .catching → ClearOf g (s.offerWrite r d) := fun hs =>
    ClearOf.offerWrite g s r d h (by rintro rfl; rcases hs with hs | hs; exact h.2.1 hs; exact h.2.2 hs)
  cases e : s.localState r.segment <;> dsimp only
  all_goals first
    | exact h
    | (split
       · exact hoff (by simp [e])
       · exact h)

theorem ClearOf.judge (g : Segment) (s : State) (r : Request) (h : ClearOf g s) : ClearOf g (s.judge r) := by
  have hl := (s.judge_quiet r).mild.localState g
  refine ⟨?_, by rw [hl]; exact h.2.1, by rw [hl]; exact h.2.2⟩
  unfold State.judge State.judgeSegment State.judgeRead State.judgeMemberRead State.judgeStaleRead State.sendRead
  repeat' split
  all_goals first | exact h.1 | exact (ClearOf.judgeWrite g s r _ h).1

theorem ClearOf.retake (g s st) (h : ClearOf g s) : ClearOf g (s.retake st) := by
  unfold State.retake; repeat' split
  all_goals first | exact ClearOf.judge g s _ h | exact h

theorem State.wakeWalker_out (s : State) : s.wakeWalker.out = s.out := by
  obtain ⟨_, _, _, e⟩ := s.wakeWalker_frame
  rw [e]

theorem ClearOf.releaseSince (g s b) (h : ClearOf g s) : ClearOf g (s.releaseSince b) := by
  unfold State.releaseSince State.releaseHeld
  dsimp only
  have h1 : ClearOf g s.releaseRead := by
    unfold State.releaseRead; repeat' split
    all_goals first | exact ClearOf.judge g s _ h | exact h
  have h2 : ClearOf g (s.releaseRead.releaseJobs (madeRoom b s.repair)) := h1.of (State.releaseJobs_quiet _ _) rfl
  repeat' split
  · exact h
  · apply ClearOf.retake
    exact h2.of (State.wakeWalker_quiet _) (State.wakeWalker_out _)
  · exact h2

theorem ClearOf.reviewPort (g b s) (h : ClearOf g s) : ClearOf g (State.reviewPort b s) := by
  unfold State.reviewPort
  dsimp only
  have := ClearOf.retake g s .queueWait h
  repeat' split
  all_goals first | exact this | exact ClearOf.retake _ _ _ this

theorem State.discardSpentHead_mem (s : State) (e) (h : e ∈ s.discardSpentHead.out) : e ∈ s.out := by
  unfold State.discardSpentHead at h
  split at h
  · rename_i hx
    split at h
    · rw [hx]; exact List.mem_cons_of_mem _ h
    · exact h
  · exact h

theorem State.reviewBlocks_mem (b s : State) (v e) (h : e ∈ (State.reviewBlocks b s v).out) : e ∈
    (State.reviewSegments b (State.reviewHead b (s.reviewRosters v))).out := by
  have h1 : ∀ (es : List LogEntry) (x : State), (es.foldl State.raise x).out = x.out := by
    intro es; induction es with
    | nil => exact fun _ => rfl
    | cons a es ih => exact fun x => ih _
  have h2 : ∀ x : State, (x.reviewRun v).out = x.out := by
    intro x; unfold State.reviewRun; repeat' split
    all_goals rfl
  unfold State.reviewBlocks State.reviewRepair at h
  dsimp only at h
  rw [h1] at h
  have h : e ∈ ((State.reviewSegments b (State.reviewHead b (s.reviewRosters v))).reviewRun v).out := h
  rw [h2] at h
  exact h

/-- A judged repair entry keeps its line and mask. -/
theorem State.judgeEntry_mem (s : State) (v : View) (xs : List RepairEntry) (e : RepairEntry)
    (h : e ∈ (xs.map (s.judgeEntry v)).filterMap (·.1)) :
    ∃ e' ∈ xs, e'.line = e.line ∧ e'.bad = e.bad := by
  rw [List.filterMap_map, List.mem_filterMap] at h
  obtain ⟨e', hm, he⟩ := h
  refine ⟨e', hm, ?_⟩
  unfold State.judgeEntry at he
  dsimp only [Function.comp] at he
  repeat' split at he
  all_goals first
    | (simp only [Option.some.injEq] at he; subst he; exact ⟨rfl, rfl⟩)
    | simp at he

theorem patch_wordsTaken (w : LineWrite) (data : Vector Word 4) (void : WordMask) :
    WordsTaken w data (words4 fun i => if w.mask.has i then w.data[i] else data[i]) void (void &&& ~~~w.mask) := by
  intro i
  have hv : WordMask.has (void &&& ~~~w.mask) i = (WordMask.has void i && !WordMask.has w.mask i) := by
    unfold WordMask.has; rw [BitVec.getLsbD_and, BitVec.getLsbD_not]; simp
  refine ⟨fun h => ⟨?_, ?_⟩, fun h => ⟨?_, ?_⟩⟩
  · rw [words4_get, if_pos h]
  · rw [hv, h]; simp
  · rw [words4_get, if_neg (by rw [h]; simp)]
  · rw [hv, h]; simp

end Sys2Proof.Machine
end

