-- ==== Sys2Proof/Laws/Selector.lean ====
section
/-! SUPPORT. When the blocks hold an item of class 0 or 1 for the transmit selector (R91), each item in the fields of State. -/

namespace Sys2Proof.Machine

theorem State.stallDue_isSome (s : State) :
    s.stallDue.isSome = true ↔ ∃ (g : Segment) (i : StallItem), s.catchup.monitors[g].stall = some i := by
  unfold State.stallDue
  rw [List.find?_isSome]
  exact ⟨fun ⟨g, _, h⟩ => ⟨g, Option.isSome_iff_exists.mp h⟩,
    fun ⟨g, h⟩ => ⟨g, List.mem_finRange g, Option.isSome_iff_exists.mpr h⟩⟩

theorem State.leaveDue_iff (s : State) :
    s.leaveDue = true ↔ s.join.station = .leaving ∧ s.out = [] ∧ s.commit.state.pending = false := by
  simp [State.leaveDue, and_assoc]

theorem State.giveDue_iff (s : State) : s.giveDue = true ↔ ∃ e rest, s.gives = e :: rest ∧ e.state = .ready := by
  unfold State.giveDue; cases s.gives <;> simp

theorem RepairEntry.toAsk_iff (e : RepairEntry) :
    e.toAsk = true ↔ ∃ asks rejections of, e.state = .asking .toAsk asks rejections of := by
  unfold RepairEntry.toAsk; split <;> simp_all

theorem State.askDue_isSome (s : State) : s.askDue.isSome = true ↔ ∃ e ∈ s.repair, e.toAsk = true := by
  simp only [State.askDue, Option.isSome_map, List.find?_isSome]

/-- An item of class 0 or 1 is held exactly where one of the blocks holds one. -/
theorem State.urgentItem_isSome (s : State) : s.urgentItem.isSome = true ↔
    s.rosterDue.isSome = true ∨ s.stallDue.isSome = true ∨ s.leaveDue = true ∨ s.giveDue = true ∨ s.askDue.isSome = true ∨
      s.out ≠ [] := by
  unfold State.urgentItem
  cases s.rosterDue <;> cases s.stallDue <;> cases s.leaveDue <;> cases s.giveDue <;> cases s.askDue <;> cases s.out <;> simp

end Sys2Proof.Machine
end

