-- ==== Sys2Proof/Tests/Slice0.lean ====
section
/-! SUPPORT. The model's own tests: the ill-formed command that each check refuses, one small step per command, and for every
statement that has hypotheses a state and operands that meet them. -/

open Sys2Proof Sys2Proof.Machine

namespace Sys2Proof.Tests

set_option Elab.async false

/-! ### Small states -/

/-- What an outcome's next state satisfies. -/
def after (o : Host.Outcome State Fault Refusal) (p : State → Bool) : Bool :=
  match o with
  | .next s => p s
  | .fault _ | .refused _ => false

/-- Station 0: segment 0 MIRRORED with stations 0 and 1, scrub OFF; the others LOCAL, scrub PASSIVE; CLOCK 2^10. -/
def rep : Reporting := { State.reset.rep with config := (State.reset.rep.config.set 1 0x20003#32).set 10 10#32 }

/-- A started station that listens, its store cold started. -/
def base : State :=
  { State.reset with
    store := { State.reset.store with tableLost := false, marker := .valid }
    rep := rep
    join := { State.reset.join with station := .listening }
    bus := { State.reset.bus with unit := .following, phase := some .claiming } }

/-- A SETTLED member with a state in segment 0. -/
def member (st : MemberState) : Member :=
  { standing := .settled, declared := (Vector.replicate 8 none).set 0 (some 3#16),
    states := (Vector.replicate 8 MemberState.none).set 0 st, miss := 0, reject := 0 }

/-- Stations 0 and 1 present, this one in the state given, the other CURRENT. -/
def viewOf (st : MemberState) : View :=
  { members := ((Vector.replicate 16 none).set 0 (some (member st))).set 1 (some (member .current)), lastWinner := 1 }

/-- A JOINED station with that view. -/
def joinedAs (st : MemberState) : State :=
  { base with
    view := some (viewOf st), join := { base.join with station := .joined }, bus := { base.bus with quiet := .counting } }

/-- JOINED and CURRENT in segment 0. -/
def live : State := joinedAs .current

/-- LEAVING. -/
def leaving : State := { live with join := { live.join with station := .leaving } }

/-- A state in a station state. -/
def inState (st : StationState) : State := { base with join := { base.join with station := st } }

/-- A state with an operation in progress. -/
def busy (s : State) (c : Claimant) (op : StoreOp) : State := { s with sp := { s.sp with running := some ⟨c, op⟩ } }

/-- A state whose store lists the four words of a line. -/
def withLine (s : State) (l : Line) (cs : WordIx → Cell) : State := { s with store := s.store.putMask (arrayWord l) 15 cs }

/-- A state with an entry of the spare table. -/
def withEntry (s : State) (k : SpareIx) (e : SpareEntry) : State := { s with store := s.store.setEntry k e }

/-- A CLEAN word. -/
def clean (d : Word) : Cell := ⟨d, .clean⟩
/-- A CORRECTABLE word. -/
def worn (d : Word) : Cell := ⟨d, .correctable⟩
/-- An UNCORRECTABLE word. -/
def lost (d : Word) : Cell := ⟨d, .uncorrectable⟩

/-- A plain write of one word of a line. -/
def oneWord (l : Line) (i : WordIx) (d : Word) : LineWrite := ⟨l, WordMask.single i, Vector.replicate 4 d, 0⟩

/-- A read request at an address, in a stage. -/
def readAt (a : BitVec 16) (st : Stage) (rule : Option ReadRule) : Request := ⟨.read, a, st, rule, none⟩

/-- A state with a request held. -/
def holding (s : State) (r : Request) : State := { s with port := ⟨some r, none⟩ }

/-- A WAITING UPDATE entry of line 0 with its mark set. -/
def entry (d : Word) : OutEntry := ⟨.update 0 0 1 (Vector.replicate 4 d) true, .waiting, 0⟩

/-- Thirty-two entries of line 0 that take no write. -/
def fullQueue : List OutEntry := List.replicate 32 ⟨.update 0 0 1 (Vector.replicate 4 0) false, .waiting, 0⟩

/-- A frame in progress. -/
def inFrame (s : State) (owner : Station) (c : Fin 4) : State :=
  { s with bus := { s.bus with phase := some .inFrame, owner := some owner, cls := some c } }

/-- Only station 0 acknowledges. -/
def ack0 : Slots := 1
/-- Only station 1 acknowledges. -/
def ack1 : Slots := 4
/-- Only station 1 rejects. -/
def rej1 : Slots := 8

/-! ### Well-formedness -/

theorem test_command_word_that_names_a_command_is_ill_formed :
    (Instr.invalidCommand 1).wellFormed = false ∧ (Instr.invalidCommand 0x108).wellFormed = false ∧
      (Instr.invalidCommand 0).wellFormed = true ∧ (Instr.invalidCommand 3).wellFormed = true ∧
      (Instr.invalidCommand 0x101).wellFormed = true := by decide

theorem test_window_write_of_a_word_with_its_own_row_is_ill_formed :
    (Instr.windowWrite 32 (.write 0)).wellFormed = false ∧ (Instr.windowWrite 34 (.write 0)).wellFormed = false ∧
      (Instr.windowWrite 43 .read).wellFormed = false ∧ (Instr.windowWrite 44 .read).wellFormed = false ∧
      (Instr.windowWrite 45 .read).wellFormed = false ∧ (Instr.windowWrite 34 .read).wellFormed = true := by decide

/-- A heard frame of one byte. -/
def nibble (k : BitVec 4) : Heard := ⟨[0#4 ++ k], 0⟩

theorem test_frame_end_of_another_kind_is_ill_formed :
    (Instr.join (nibble 2) 0).wellFormed = false ∧ (Instr.roster (nibble 3) 0).wellFormed = false ∧
      (Instr.stall (nibble 4) 0).wellFormed = false ∧ (Instr.leaveFrame (nibble 5) 0).wellFormed = false ∧
      (Instr.update (nibble 6) 0).wellFormed = false ∧ (Instr.ask (nibble 7) 0).wellFormed = false ∧
      (Instr.give (nibble 8) 0).wellFormed = false ∧ (Instr.copy (nibble 9) 0).wellFormed = false ∧
      (Instr.empty (nibble 1) 0).wellFormed = false ∧ (Instr.empty (nibble 9) 0).wellFormed = true ∧
      (Instr.update (nibble 15) 0).wellFormed = true := by decide

theorem test_recessive_run_of_another_length_is_ill_formed :
    (Instr.windowMark 10).wellFormed = false ∧ (Instr.windowMark 11).wellFormed = true := by decide

theorem test_no_command_has_bits : decodeTableWord 16 0 = none ∧ State.reset.withFetchWord 16 0 = State.reset := by
  decide +kernel

/-! ### The step and its invariant -/

theorem test_StepTakesTheFront :
    State.reset.pending = [] ∧ after (step { base with pending := [.start, .leave] }) (fun s => s.pending == [.leave]) = true :=
        by
  decide +kernel

theorem test_StepKeepsSoundness : Sound live ∧ after (step live) (fun s => s == live) = true := by
  refine ⟨⟨by decide +kernel, ⟨?_, ?_, ?_, ?_, ?_, ?_, ?_⟩, by decide +kernel, by decide +kernel⟩, by decide +kernel⟩ <;>
    decide +kernel

/-! ### The supplies and the array -/

/-- Line 5 redirected to spare line 0, FILLING with word 0 written, and a write of words 0 and 1 in progress. -/
def filling5 : State :=
  busy (withEntry (withLine base 5 fun _ => clean 1) 0 ⟨.filling, some 5, 1⟩) .apply
    (.write ⟨5, 3, Vector.replicate 4 9, 0⟩)

theorem test_CoreResetClearsTheCoreDomain_retention :
    filling5.sp.running.isSome = true ∧ base.sp.running = none ∧ filling5.store.table[(0 : SpareIx)].mask.has 0 = true ∧
      filling5.store.table[(0 : SpareIx)].mask.has 1 = false ∧ filling5.store.table[(0 : SpareIx)].state = .filling ∧
      after (exec (.coreReset 1 2) filling5) (fun s =>
        s.store.cell (.array 20) == clean 9 && s.store.cell (.array 21) == clean 1 && s.store.cell (.spare 0 1) == clean 9 &&
          s.store.table[(0 : SpareIx)].mask == 3) = true := by
  decide +kernel

theorem test_CoreResetClearsTheCoreDomain :
    after (exec (.coreReset 0 0) live) (fun s => s == { State.reset with store := live.store }) = true := by decide +kernel

theorem test_RetentionLossLosesTheDomain :
    after (exec (.retentionLoss (Vector.replicate 24 ⟨.active, some 7, 15⟩)) base) (fun s =>
      s.store.cells.isEmpty && s.store.marker == .invalid && s.store.losses == 1 && s.store.spareFor 7 == none) = true := by
  decide +kernel

/-- Line 0 with a word of each health. -/
def mixed0 : State := withLine base 0 fun i => if i = 0 then clean 5 else if i = 1 then worn 5 else lost 5

theorem test_ArrayFaultWorsensOneWord :
    (mixed0.store.cell (.array 0)).health = .clean ∧ (mixed0.store.cell (.array 1)).health = .correctable ∧
      (mixed0.store.cell (.array 2)).health = .uncorrectable ∧ mixed0.store.readAt 0 0 = .array 0 ∧
      mixed0.store.readAt 0 1 = .array 1 ∧ mixed0.store.readAt 0 2 = .array 2 ∧
      after (exec (.arrayFault (.array 0) 9) mixed0) (fun s => s.store.cell (.array 0) == worn 5) = true ∧
      after (exec (.arrayFault (.array 1) 9) mixed0) (fun s => s.store.cell (.array 1) == lost 9) = true := by
  decide +kernel

/-! ### The store and its port -/

theorem test_TheSpareTableRedirects_writes :
    filling5.store.tableLost = false ∧ filling5.store.table[(0 : SpareIx)].names 5 = true ∧
      (∀ j : SpareIx, filling5.store.table[j].names 5 = true → j = 0) ∧
      (∀ k : SpareIx, filling5.store.table[k].names 6 = false) ∧
      (filling5.store.write ⟨5, 14, Vector.replicate 4 9, 0⟩).table[(0 : SpareIx)] = ⟨.active, some 5, 15⟩ ∧
      (withEntry base 23 ⟨.active, some 16383, 15⟩).store.table[(23 : SpareIx)].names 16383 = true ∧
      ((withEntry base 23 ⟨.active, some 16383, 15⟩).store.write (oneWord 16383 3 8)).cell (.spare 23 3) = clean 8 := by
  decide +kernel

theorem test_TheSpareTableRedirects_reads :
    (withEntry base 23 ⟨.active, some 16383, 15⟩).store.readAt 16383 3 = .spare 23 3 ∧
      (∀ j : SpareIx, (withEntry base 23 ⟨.active, some 16383, 15⟩).store.table[j].names 16383 = true → j = 23) ∧
      filling5.store.readAt 5 3 = .array 23 ∧
      (∀ k : SpareIx, filling5.store.table[k].line = some 5 → filling5.store.table[k].state ≠ .active) := by
  decide +kernel

/-- A fill under way in segment 7, and a read of the local port. -/
def contested : State :=
  { holding base (readAt 8 .storeWait (some .localSegment)) with
    sp := { base.sp with fill := base.sp.fill.set 7 .filling } }

theorem test_GrantsInPriorityOrder :
    contested.sp.running = none ∧ contested.presented .localPort = some (.read 2) ∧ contested.presented .apply = none ∧
      contested.grant.sp.running = some ⟨.localPort, .read 2⟩ ∧
      { contested with port := base.port }.presented .fill = some (.write ⟨14336, 15, Vector.replicate 4 0, 0⟩) ∧
      (∀ d ∈ [Claimant.apply, .localPort, .giveRead, .spareCopy, .serve, .scrub],
        { contested with port := base.port }.presented d = none) ∧
      (∀ d ∈ claimants, base.presented d = none) ∧ base.grant = base ∧ filling5.grant = filling5 := by
  decide +kernel

/-- A LOCAL segment's request, a walker that waits for line 7, two entries to give, spare lines to copy, and segments to fill. -/
def claimed : State :=
  { holding live ⟨.write 9, 0xFFFF, .storeWait, none, none⟩ with
    sp := { live.sp with fill := (live.sp.fill.set 2 .waiting).set 5 .waiting, applyList := [⟨5, 3, Vector.replicate 4 9, 0⟩] }
    walker := { live.walker with state := .waiting, chosen := some 7 }
    gives := [⟨1, 0, 3, .ready, 0, Vector.replicate 4 0, 0⟩, ⟨1, 0, 4, .toRead, 0, Vector.replicate 4 0, 0⟩,
      ⟨1, 0, 5, .toRead, 0, Vector.replicate 4 0, 0⟩]
    store := (live.store.setEntry 3 ⟨.filling, some 2048, 0⟩).setEntry 5 ⟨.active, some 6, 15⟩ }

/-- The same, with spare line 5 to be copied back. -/
def claimedRetire : State :=
  { claimed with health := { claimed.health with retire := claimed.health.retire.set 5 (some .scrub) } }

theorem test_ClaimantsPresentTheirWork :
    claimed.presented .apply = some (.write ⟨5, 3, Vector.replicate 4 9, 0⟩) ∧
      claimed.presented .localPort = some (.write ⟨16383, 8, #v[0, 0, 0, 9], 0⟩) ∧ claimed.presented .scrub = some (.read 7) ∧
      (∀ e ∈ claimed.gives, e.state ≠ .reading) ∧ claimed.sp.running = none ∧
      claimed.presentGive.presented .giveRead = some (.read 4) ∧ claimed.store.tableLost = false ∧
      claimed.presentSpareCopy.sp.spareCopy = some (.fillCopy 3 2048) ∧
      claimedRetire.presentSpareCopy.sp.spareCopy = some (.returnCopy 5 6) ∧
      { claimed with sp := { claimed.sp with fill := claimed.sp.fill.set 1 .waiting } }.presentSpareCopy.sp.spareCopy = none ∧
      { claimed with sp := { claimed.sp with spareCopy := some (.fillCopy 5 6) } }.presentSpareCopy.sp.spareCopy =
        some (.fillCopy 3 2048) ∧
      { claimed with store := { claimed.store with tableLost := true } }.presentSpareCopy.sp.spareCopy = none ∧
      claimed.presentFill.presented .fill = some (.write ⟨4096, 15, Vector.replicate 4 0, 0⟩) ∧ contested.presentFill =
          contested ∧
      live.presentFill = live ∧ live.presented .fill = none := by
  decide +kernel

/-! ### STORE requests -/

theorem test_BusyPortTakesNoRequest :
    (holding live (readAt 0 .storeWait (some .member))).port.request.isSome = true ∧
      after (exec .start (holding live (readAt 0 .storeWait (some .member)))) (fun s =>
        s == holding live (readAt 0 .storeWait (some .member))) = true := by
  decide +kernel

theorem test_StoreRequestsWaitForStartUp :
    (inState .config).port.request = none ∧ (inState .config).join.station = .config ∧
      (inState .clocking).join.station = .clocking ∧ contested.started = true ∧
      { contested with port := base.port }.sp.fill[segmentOf (lineOfAddress 0xFFFF)] = .filling ∧
      { base with sp := { base.sp with fill := base.sp.fill.set 0 .waiting } }.sp.fill[segmentOf (lineOfAddress 0)] = .waiting ∧
      after (exec (.storeRead 0) (inState .config)) (fun s => s.port == ⟨none, some ⟨.refused, 0⟩⟩) = true ∧
      after (exec (.storeRead 0xFFFF) { contested with port := base.port }) (fun s =>
        s.port.request.map (·.stage) == some .fillWait) = true := by
  decide +kernel

/-- A station CATCHING in segment 0, its cursor at 2. -/
def catching : State := joinedAs (.catching 2 0)

/-- A station CATCHING there with its only server passed over. -/
def orphaned : State := joinedAs (.catching 2 3)

/-- A station in MISMATCH in segment 0. -/
def mismatched : State := joinedAs .mismatch

/-- Segment 1 OFF. -/
def offOne : State := { live with rep := { live.rep with config := live.rep.config.set 2 0 } }

theorem test_StoreReadIsJudged_to_the_store :
    live.port.request = none ∧ live.started = true ∧ live.sp.fill[segmentOf (lineOfAddress 0)] = .none ∧
      live.localState (segmentOf (lineOfAddress 0xFFFF)) = .localOnly ∧ base.localState (segmentOf (lineOfAddress 0)) =
          .detached ∧
      mismatched.localState (segmentOf (lineOfAddress 0)) = .mismatch ∧
      live.localState (segmentOf (lineOfAddress 0)) = .current ∧ forwardLookup live.out 0 0 = none ∧
      catching.localState (segmentOf (lineOfAddress 7)) = .catching ∧ catching.belowCursor (lineOfAddress 7) = true ∧
      orphaned.localState (segmentOf (lineOfAddress 7)) = .orphaned ∧ orphaned.belowCursor (lineOfAddress 7) = true ∧
      after (exec (.storeRead 7) catching) (fun s =>
        s.port.request.map (·.rule) == some (some .member) && s.sp.running == some ⟨.localPort, .read 1⟩) = true := by
  decide +kernel

theorem test_StoreReadIsJudged_at_once :
    offOne.localState (segmentOf (lineOfAddress 8192)) = .off ∧
      forwardLookup { live with out := [entry 9] }.out (lineOfAddress 0) (wordOfAddress 0) = some 9 ∧
      catching.belowCursor (lineOfAddress 8) = false ∧ orphaned.belowCursor (lineOfAddress 8) = false ∧
      forwardLookup catching.out (lineOfAddress 8) (wordOfAddress 8) = none ∧
      after (exec (.storeRead 8) catching) (fun s => s.port == ⟨none, some ⟨.stale, 0⟩⟩) = true ∧
      after (exec (.storeRead 0) { live with out := [entry 9] }) (fun s => s.port == ⟨none, some ⟨.done, 9⟩⟩) = true ∧
      after (exec (.storeRead 8192) offOne) (fun s => s.port == ⟨none, some ⟨.refused, 0⟩⟩) = true := by
  decide +kernel

theorem test_ForwardingFindsTheYoungest :
    WordMask.has 1 0 = true ∧ forwardLookup ([entry 3] ++ entry 9 :: []) 0 0 = some 9 ∧ forwardLookup [entry 3] 0 1 = none := by
  decide +kernel

theorem test_StoreWriteAnsweredOrSent :
    live.localState (segmentOf (lineOfAddress 8192)) = .localOnly ∧ leaving.join.station = .leaving ∧
      leaving.localState (segmentOf (lineOfAddress 0)) = .current ∧
      after (exec (.storeWrite 0 5) leaving) (fun s => s.port == ⟨none, some ⟨.refused, 0⟩⟩) = true ∧
      after (exec (.storeWrite 0 5) orphaned) (fun s => s.port == ⟨none, some ⟨.refused, 0⟩⟩) = true ∧
      after (exec (.storeWrite 0 5) mismatched) (fun s => s.port == ⟨none, some ⟨.refused, 0⟩⟩) = true ∧
      after (exec (.storeWrite 0 5) base) (fun s => s.port == ⟨none, some ⟨.refused, 0⟩⟩) = true ∧
      after (exec (.storeWrite 8192 5) offOne) (fun s => s.port == ⟨none, some ⟨.refused, 0⟩⟩) = true ∧
      after (exec (.storeWrite 8192 5) live) (fun s => s.sp.running.map (·.claimant) == some .localPort) = true := by
  decide +kernel

theorem test_StoreWriteEntersTheQueue_combining :
    live.join.station = .joined ∧ { live with out := [entry 3] }.out = [] ++ entry 3 :: [] ∧
      after (exec (.storeWrite 3 5) { live with out := [entry 3] }) (fun s =>
        s.out == [⟨.update 0 0 9 #v[3, 3, 3, 5] true, .waiting, 0⟩]) = true ∧
      after (exec (.storeWrite 3 5) { catching with out := [entry 3] }) (fun s => s.out.length == 1) = true := by
  decide +kernel

/-- A queue of one entry that takes no write, any number of times over. -/
theorem needs_of_unmarked (s : State) (n : Nat) (l : Line)
    (h : s.out = List.replicate n ⟨.update 0 0 1 (Vector.replicate 4 0) false, .waiting, 0⟩) : NeedsNewEntry s l := by
  intro older e younger hs _ _ hc
  have hm : e ∈ s.out := by rw [hs]; simp
  rw [h] at hm
  obtain rfl := (List.mem_replicate.mp hm).2
  obtain ⟨_, g, k, m, slots, hb⟩ := hc
  simp at hb

theorem test_StoreWriteEntersTheQueue_new :
    NeedsNewEntry live 0 ∧ NeedsNewEntry { live with out := fullQueue } 0 ∧ live.out.length = 0 ∧ fullQueue.length = 32 ∧
      after (exec (.storeWrite 3 5) live) (fun s => s.out == [⟨.update 0 0 8 #v[0, 0, 0, 5] true, .waiting, 0⟩]) = true ∧
      after (exec (.storeWrite 3 5) { live with out := fullQueue }) (fun s =>
        s.port.request.map (·.stage) == some .queueWait && s.out.length == 32) = true :=
  ⟨needs_of_unmarked _ 0 _ rfl, needs_of_unmarked _ 32 _ rfl, by decide +kernel⟩

/-! ### The command word -/

theorem test_StartJudgesTheBlock :
    (inState .config).join.station = .config ∧ (∀ i, FieldInRange (inState .config).rep i) ∧
      (¬FieldInRange { rep with config := rep.config.set 0 16 } 0) ∧
      (¬FieldInRange { rep with config := rep.config.set 20 8 } 20 ∧
        ∀ j < 20, FieldInRange { rep with config := rep.config.set 20 8 } j) ∧
      after (exec .start (inState .config)) (fun s =>
        s.join.station == .clocking && s.rep.crystal && s.rep.result == ⟨.ok, 0⟩) = true ∧
      after (exec .start { inState .config with rep := { rep with config := rep.config.set 20 8 } }) (fun s =>
        s.rep.result == ⟨.configInvalid, 20⟩ && s.join.station == .config) = true := by
  refine ⟨by decide +kernel, ?_, ?_, ⟨?_, ?_⟩, by decide +kernel, by decide +kernel⟩
  · intro i; fin_cases i <;> (simp only [FieldInRange]; decide +kernel)
  · show ¬(Reporting.field { rep with config := rep.config.set 0 16 } 0 ≤ 15)
    decide +kernel
  · show ¬(2 ≤ Reporting.field { rep with config := rep.config.set 20 8 } 20 ∧
      Reporting.field { rep with config := rep.config.set 20 8 } 20 ≤ 7)
    decide +kernel
  · intro j hj; fin_cases j <;> first | (simp only [FieldInRange]; decide +kernel) | exact absurd hj (by decide)

theorem test_LeaveAndRejoinInTheirStates :
    live.join.station = .joined ∧ (inState .offline).join.station = .offline ∧ live.join.station ≠ .config ∧
      leaving.join.station ≠ .joined ∧ live.join.station ≠ .offline ∧
      after (exec .leave live) (fun s => s.join.station == .leaving && s.bus.quiet == .stopped) = true ∧
      after (exec .rejoin (inState .offline)) (fun s => s.join.station == .listening) = true ∧
      after (exec .leave leaving) (fun s => s.rep.result == ⟨.refused, 0⟩ && s.join.station == .leaving) = true := by
  decide +kernel

/-- A chain QUEUED. -/
def queued : State :=
  { live with out := [⟨.group 0 1, .waiting, 0⟩], commit := { live.commit with state := .queued } }

theorem test_CommitJudgesTheChain_turned_away :
    leaving.join.station = .leaving ∧ queued.join.station ≠ .leaving ∧ queued.commit.state = .queued ∧
      after (exec (.commit true) leaving) (fun s => s.rep.result == ⟨.refused, 0⟩) = true ∧
      after (exec (.commit true) queued) (fun s => s.rep.result == ⟨.busy, 0⟩ && s.commit == queued.commit) = true := by
  decide +kernel

/-- A state whose staging records are given. -/
def staged (s : State) (f : RecordIx → Record) : State :=
  { s with commit := { s.commit with staging := Vector.ofFn f } }

/-- A record of line 0 that links to the next one. -/
def linked (i : RecordIx) : Record := ⟨0, 1, false, i + 1, Vector.replicate 4 7⟩

/-- Records in a ring without STOP. -/
def endless : State := staged live linked
/-- A chain of two records, the second with STOP. -/
def chained : State := staged live fun i => if i = 1 then { linked i with stop := true } else linked i
/-- A second record that cannot be written. -/
def unwritable : State := staged live fun i => if i = 1 then { linked i with line := 2048 } else linked i

theorem test_CommitJudgesTheChain :
    live.commit.state.pending = false ∧ (live.commit.staging[(0 : RecordIx)]).mask = 0 ∧
      (RecordPasses unwritable 0 ∧ (unwritable.commit.staging[(0 : RecordIx)]).stop = false) ∧
      unwritable.writable (segmentOf unwritable.commit.staging[(1 : RecordIx)].line) = false ∧
      (∀ j : Fin 16, RecordPasses endless ((chainFrom endless.commit.staging 16 endless.commit.head).getD j.val 0) ∧
        (endless.commit.staging[(chainFrom endless.commit.staging 16 endless.commit.head).getD j.val 0]).stop = false) ∧
      after (exec (.commit false) live) (fun s => s.commit.state == .failed .chainEmptyRecord 0) = true ∧
      after (exec (.commit false) unwritable) (fun s => s.commit.state == .failed .chainNotWritable 1) = true ∧
      after (exec (.commit false) endless) (fun s => s.commit.state == .failed .chainTooLong 15) = true := by
  unfold RecordPasses
  decide +kernel

theorem test_CommitQueuesAValidChain :
    (RecordPasses chained 0 ∧ (chained.commit.staging[(0 : RecordIx)]).stop = false) ∧ RecordPasses chained 1 ∧
      (chained.commit.staging[(chainFrom chained.commit.staging 16 chained.commit.head).getD 1 0]).stop = true ∧
      chained.out.length < 32 ∧ 32 ≤ { chained with out := fullQueue }.out.length ∧
      after (exec (.commit true) { chained with out := [entry 3] }) (fun s =>
        s.out == [(entry 3).unmark, ⟨.group 0 2, .waiting, 0⟩] && s.commit.state == .queued && s.commit.notify) = true ∧
      after (exec (.commit true) { chained with out := fullQueue }) (fun s => s.rep.result == ⟨.busy, 0⟩) = true := by
  unfold RecordPasses
  decide +kernel

theorem test_CommandWordNamesOneCommand :
    (([0, 1, 2, 3].filter fun i => (0#32).getLsbD i).length ≠ 1) ∧ (([0, 1, 2, 3].filter fun i => (3#32).getLsbD i).length ≠ 1) ∧
      ((0x101#32).getLsbD 8 = true ∧ (0x101#32).getLsbD 3 = false) ∧
      ((∀ i < 4, (0xFFFFFEF1#32).getLsbD i = (i == 0)) ∧ (∀ i < 4, (0xFFFFFEF2#32).getLsbD i = (i == 1)) ∧
        (∀ i < 4, (0xFFFFFEF4#32).getLsbD i = (i == 2)) ∧ ∀ i < 4, (0xFFFFFFF8#32).getLsbD i = (i == 3)) ∧
      (0xFFFFFEF1#32).getLsbD 8 = false ∧ (0xFFFFFFF8#32).getLsbD 8 = true ∧
      after (exec (.invalidCommand 0x101) live) (fun s => s.rep.result == ⟨.invalidCommand, 0⟩) = true ∧
      after (exec (.invalidCommand 0xFFFFFEF1) (inState .config)) (fun s => s.join.station == .clocking) = true ∧
      after (exec (.invalidCommand 0xFFFFFEF2) live) (fun s => s.join.station == .leaving) = true ∧
      after (exec (.invalidCommand 0xFFFFFEF4) (inState .offline)) (fun s => s.join.station == .listening) = true ∧
      after (exec (.invalidCommand 0xFFFFFFF8) chained) (fun s => s.commit.state == .queued && s.commit.notify) = true := by
  decide +kernel

/-! ### The control window -/

/-- Four entries in the log, and flags set. -/
def logged : State :=
  { live with
    rep := { live.rep with
      log := List.replicate 4 ⟨.missed, .bus, none, none, some 3, 1⟩, overflow := 255, flags := 0x7FF, enables := 0x40 }
    health := { live.health with corrected := 65535 } }

theorem test_FlagsAndLogTakeTheirEvents_flags :
    logged.port.request = none ∧
      after (exec (.statusWordWrite 0xFFFFFFFF) logged) (fun s => s.rep.flags == 0x200) = true ∧
      after (exec (.statusWordWrite 0x200) { logged with rep := { logged.rep with log := [] } }) (fun s =>
        s.rep.flags == 0x5FF) = true := by
  decide +kernel

theorem test_LogIsReadOldestFirst :
    logged.rep.log.length = 4 ∧ live.rep.log = [] ∧ logged.rep.log.head?.isSome = true ∧
      after (exec .logRead logged) (fun s => s.rep.log.length == 3 && s.port == ⟨none, some ⟨.done, 1⟩⟩) = true ∧
      after (exec .overflowCountRead logged) (fun s => s.rep.overflow == 0 && s.port == ⟨none, some ⟨.done, 255⟩⟩) = true ∧
      after (exec .correctedWordCountRead logged) (fun s =>
        s.health.corrected == 0 && s.port == ⟨none, some ⟨.done, 65535⟩⟩) = true := by
  decide +kernel

theorem test_WindowWritesGoToTheirOwners :
    RecordProtected queued 0 ∧ ¬RecordProtected queued 1 ∧ ¬RecordProtected live 0 ∧
      (inState .config).join.station = .config ∧ live.join.station ≠ .config ∧ queued.commit.state.pending = true ∧
      after (exec (.windowWrite 20 (.write 5)) (inState .config)) (fun s => s.rep.field 20 == 5) = true ∧
      ([21, 31, 33, 37, 127, 133, 255, 256, 0xFFFF].all fun a =>
        after (exec (.windowWrite a (.write 5)) live) (fun s => s == { live with port := ⟨none, some ⟨.refused, 0⟩⟩ })) = true ∧
      ([36, 128, 132].all fun a =>
        after (exec (.windowWrite a (.write 5)) queued) (fun s => s == { queued with port := ⟨none, some ⟨.refused, 0⟩⟩ })) =
            true ∧
      after (exec (.windowWrite 137 (.write 5)) queued) (fun s => s.commit.staging[(1 : RecordIx)].data[0] == 5) = true ∧
      after (exec (.windowWrite 252 (.write 5)) live) (fun s => s.commit.staging[(15 : RecordIx)].data[3] == 5) = true := by
  refine ⟨⟨Or.inl rfl, [], 0, 1, .waiting, 0, [], rfl, by simp, by decide +kernel⟩, ?_, fun h => absurd h.1 (by decide +kernel),
    by decide +kernel⟩
  rintro ⟨_, older, head, count, st, n, younger, h, _, hm⟩
  rcases List.append_eq_cons_iff.mp h.symm with ⟨_, h⟩ | ⟨xs, _, h⟩
  · simp only [List.cons.injEq, OutEntry.mk.injEq, OutBody.group.injEq] at h
    obtain ⟨⟨⟨rfl, rfl⟩, _⟩, _⟩ := h
    exact absurd hm (by decide +kernel)
  · simp at h

theorem test_WindowReadsTheWord :
    plainWindowAccess 255 .read = true ∧ base.heldView = none ∧ live.heldView = some (viewOf .current) ∧
      catching.ownCursor 0 = some 2 ∧ catching.windowWord 48 = 6 ∧ catching.windowWord 56 = 0x20005 ∧
      live.windowWord 56 = 4 ∧ live.windowWord 63 = 1 ∧
      { inState .offline with join := { (inState .offline).join with cause := some .left } }.windowWord 48 = 0x58 ∧
      after (exec (.windowWrite 49 .read) live) (fun s => s.port == ⟨none, some ⟨.done, 3⟩⟩) = true ∧
      after (exec (.windowWrite 255 .read) live) (fun s => s.port == ⟨none, some ⟨.done, 0⟩⟩) = true ∧
      after (exec (.windowWrite 256 .read) live) (fun s => s.port == ⟨none, some ⟨.refused, 0⟩⟩) = true := by
  decide +kernel

theorem test_InterruptOutputFollowsTheFlags :
    live.port.request = none ∧ logged.interruptOutput = false ∧
      { logged with commit := { logged.commit with doneNotify := true } }.interruptOutput = true ∧
      { logged with rep := { logged.rep with enables := 0x80 } }.interruptOutput = true := by
  decide +kernel

theorem test_FlagsAndLogTakeTheirEvents_log :
    live.rep.log.length < 4 ∧ 4 ≤ logged.rep.log.length ∧
      (logged.raise ⟨.missed, .bus, none, none, none, 0⟩).rep.overflow = 255 ∧
      (live.raise ⟨.missed, .bus, none, none, none, 0⟩).rep.log.length = 1 := by
  decide +kernel

/-! ### Start-up -/

/-- CLOCKING, the crystal enabled, with a count. -/
def clocking (n : Nat) (c : BusClock) : State :=
  let s := inState .clocking
  { s with rep := { s.rep with crystal := true, stab := n, clock := c } }

theorem test_CrystalCountRunsToTheSwitch :
    (clocking 0 .internal).stabilising = true ∧ (clocking 1023 .internal).stabilising = true ∧
      1022 + 1 < 2 ^ (clocking 0 .internal).rep.field 10 ∧ 1023 + 1 = 2 ^ (clocking 0 .internal).rep.field 10 ∧
      live.stabilising = false ∧
      after (exec .crystalPeriod (clocking 1022 .internal)) (fun s => s == clocking 1023 .internal) = true ∧
      after (exec .crystalPeriod (clocking 1023 .internal)) (fun s => s == clocking 1024 .switching) = true ∧
      after (exec .stabilisationCountDone (clocking 5 .internal)) (fun s => s == clocking 1024 .switching) = true ∧
      after (exec .crystalPeriod live) (fun s => s == live) = true := by
  decide +kernel

/-- Ready to switch, with the marker and segment 7's descriptor given. -/
def switching (m : Marker) (d : Word) : State :=
  let s := clocking 1024 .switching
  { s with store := { s.store with marker := m }, rep := { s.rep with config := s.rep.config.set 8 d } }

theorem test_SwitchEntersFilling :
    (switching .invalid 0).join.station = .clocking ∧ (switching .invalid 0).rep.clock = .switching ∧
      (switching .valid 0x150000).fillFlag 7 = true ∧ (∀ g : Segment, (switching .valid 0x90000).fillFlag g = false) ∧
      (switching .valid 0x90000).scrub 7 = .active ∧
      after (exec .busClockSwitchDone (switching .invalid 0)) (fun s => s.join.station == .filling &&
        segments.all fun g => s.sp.fill[g] == (if g = 0 then .filling else .waiting)) = true ∧
      after (exec .busClockSwitchDone (switching .valid 0x150000)) (fun s =>
        s.sp.fill[(7 : Segment)] == .filling && s.sp.fill[(0 : Segment)] == .none) = true ∧
      after (exec .busClockSwitchDone (switching .valid 0x90000)) (fun s =>
        s.join.station == .listening && s.walker.state == .timing && s.bus.unit == .seeking) = true := by
  decide +kernel

/-! ### Completions -/

/-- An APPLY write in progress. -/
def applying : State :=
  { busy live .apply (.write (oneWord 0 3 7)) with
    sp := { (busy live .apply (.write (oneWord 0 3 7))).sp with applyList := [oneWord 0 3 7] } }

theorem test_WriteCompletions :
    applying.sp.running = some ⟨.apply, .write (oneWord 0 3 7)⟩ ∧
      after (exec .applyCompletion applying) (fun s =>
        s.store.cell (.array 3) == clean 7 && s.sp.applyList.isEmpty && s.sp.running == none) = true ∧
      after (exec .localWriteCompletion (busy live .localPort (.write (oneWord 2048 0 7)))) (fun s =>
        s.store.cell (.array 8192) == clean 7 && s.port == ⟨none, some ⟨.done, 0⟩⟩) = true := by
  decide +kernel

/-- A LOCAL read in progress, of a line with the cell given in each word. -/
def reading (s : State) (a : BitVec 16) (rule : ReadRule) (c : Cell) : State :=
  holding (busy (withLine s (lineOfAddress a) fun _ => c) .localPort (.read (lineOfAddress a))) (readAt a .storeWait (some rule))

/-- Line 2048, of a LOCAL segment, with these cells. -/
def scanned (c d : Cell) : State := withLine live 2048 fun i => if i = 0 then c else d

/-- The same with spare line 4 for it in a state, its words those given, with word 1 written in it. -/
def spared (st : SpareState) (m : WordMask) (c d : Cell) : State :=
  let s := withEntry (scanned c d) 4 ⟨st, some 2048, m⟩
  { s with store := s.store.putMask (.spare 4) 15 fun i => if i = 0 then c else d }

theorem alone_of (s : State) (k : SpareIx) (l : Line) (h : s.store.tableLost = false ∧ s.store.table[k].names l = true ∧
    ∀ j : SpareIx, s.store.table[j].names l = true → j = k) : Redirects s.store k l := ⟨h.1, h.2.1, h.2.2⟩

theorem test_ReadCompletionsWriteBack :
    Unredirected (scanned (worn 5) (clean 6)).store 2048 ∧ Redirects (spared .active 15 (worn 5) (clean 6)).store 4 2048 ∧
      Redirects (spared .filling 2 (worn 5) (lost 6)).store 4 2048 ∧ live.scrub 0 = .off ∧ live.scrub 1 = .passive ∧
      ((scanned (worn 5) (lost 6)).completeRead .localPort 2048).store.cell (.array 8192) = clean 5 ∧
      ((scanned (worn 5) (lost 6)).completeRead .localPort 2048).store.cell (.array 8193) = lost 6 ∧
      ((spared .active 15 (worn 5) (clean 6)).completeRead .localPort 2048).store.cell (.spare 4 0) = clean 5 ∧
      ((spared .active 15 (worn 5) (clean 6)).completeRead .localPort 2048).store.cell (.array 8192) = worn 5 ∧
      ((spared .filling 2 (worn 5) (lost 6)).completeRead .localPort 2048).store.cell (.spare 4 0) = clean 5 ∧
      ((spared .filling 2 (worn 5) (lost 6)).completeRead .localPort 2048).store.cell (.array 8192) = clean 5 ∧
      ((spared .filling 2 (worn 5) (lost 6)).completeRead .localPort 2048).store.table[(4 : SpareIx)] = ⟨.filling, some 2048, 3⟩ ∧
      ((spared .filling 14 (worn 5) (clean 6)).completeRead .localPort 2048).store.table[(4 : SpareIx)].state = .active ∧
      ((reading live 0 .member (worn 5)).completeRead .localPort 0).store.cell (.array 0) = worn 5 ∧
      ((reading live 0 .member (worn 5)).completeRead .localPort 0).health.corrected = 4 :=
  ⟨Or.inr (by decide +kernel), alone_of _ 4 2048 (by decide +kernel), alone_of _ 4 2048 (by decide +kernel), by decide +kernel⟩

/-- The suspect list given. -/
def suspecting (xs : List Suspect) (s : State) : State := { s with health := { s.health with suspects := xs } }

/-- No spare line is FREE. -/
def exhausted (s : State) : State :=
  { s with store := { s.store with table := Vector.replicate 24 ⟨.retired, none, 0⟩ } }

/-- Twelve suspects, the lowest count that of lines 20 and 30. -/
def twelve : List Suspect :=
  [⟨10, 2⟩, ⟨20, 1⟩, ⟨30, 1⟩] ++ (List.finRange 9).map fun n => ⟨⟨n.val, by omega⟩, 2⟩

theorem test_FindingsMoveTheSpareTable_suspects :
    Unredirected (scanned (worn 5) (clean 6)).store 2048 ∧ live.rep.field 20 = 3 ∧ twelve.length = 12 ∧
      ((scanned (clean 5) (clean 6)).completeRead .serve 2048).health.suspects = [] ∧
      ((suspecting [⟨7, 1⟩, ⟨2048, 1⟩, ⟨9, 2⟩] (scanned (worn 5) (clean 6))).completeRead .serve 2048).health.suspects =
        [⟨7, 1⟩, ⟨2048, 2⟩, ⟨9, 2⟩] ∧
      ((suspecting [⟨7, 1⟩] (scanned (worn 5) (clean 6))).completeRead .serve 2048).health.suspects = [⟨7, 1⟩, ⟨2048, 1⟩] ∧
      ((suspecting twelve (scanned (worn 5) (clean 6))).completeRead .serve 2048).health.suspects =
        twelve.eraseIdx 1 ++ [⟨2048, 1⟩] :=
  ⟨Or.inr (by decide +kernel), by decide +kernel⟩

theorem test_FindingsMoveTheSpareTable_promotion :
    Redirects (spared .active 15 (lost 5) (clean 6)).store 4 2048 ∧ Redirects
        (spared .filling 2 (clean 5) (lost 6)).store 4 2048 ∧
      (∀ k : SpareIx, (scanned (lost 5) (clean 6)).store.table[k].names 2048 = false) ∧
      ((scanned (lost 5) (clean 6)).completeRead .scrub 2048).rep.log = [⟨.spared, .scrub, some 1, some 2048, none, 0⟩] ∧
      ((suspecting [⟨2048, 2⟩] (scanned (worn 5) (clean 6))).completeRead .scrub 2048).store.table[(0 : SpareIx)] =
        ⟨.filling, some 2048, 0⟩ ∧
      ((exhausted (scanned (lost 5) (clean 6))).completeRead .giveRead 2048).rep.log =
        [⟨.spareExhausted, .bus, some 1, some 2048, none, 24⟩] ∧
      (let s := exhausted (scanned (lost 5) (clean 6))
       ({ s with health := { s.health with exhausted := [2048] } }.completeRead .giveRead 2048).rep.log = []) ∧
      ((spared .active 15 (lost 5) (clean 6)).completeRead .serve 2048).health.retire[(4 : SpareIx)] = some .prefetch ∧
      ((spared .active 15 (lost 5) (clean 6)).completeRead .serve 2048).rep.log =
        [⟨.spareRetired, .prefetch, some 1, some 2048, none, 4⟩] ∧
      ((spared .filling 2 (clean 5) (lost 6)).completeRead .serve 2048).rep.log = [] :=
  ⟨alone_of _ 4 2048 (by decide +kernel), alone_of _ 4 2048 (by decide +kernel), by decide +kernel⟩

theorem test_LocalReadIsAnswered :
    (reading live 0 .member (clean 5)).localState 0 = .current ∧ (reading catching 7 .member (worn 5)).belowCursor 1 = true ∧
      (reading catching 8 .member (clean 5)).belowCursor 2 = false ∧ (reading base 0 .detached (clean 5)).localState 0 =
          .detached ∧
      ((reading live 0 .member (clean 5)).delivered 0)[(0 : WordIx)].health ≠ .uncorrectable ∧
      after (exec .localReadCompletion (reading live 0 .member (clean 5))) (fun s =>
        s.port == ⟨none, some ⟨.done, 5⟩⟩) = true ∧
      after (exec .localReadCompletion (reading catching 8 .member (clean 5))) (fun s =>
        s.port == ⟨none, some ⟨.stale, 0⟩⟩) = true ∧
      after (exec .localReadCompletion (reading base 0 .detached (worn 5))) (fun s =>
        s.port == ⟨none, some ⟨.detached, 5⟩⟩) = true := by
  decide +kernel

/-- A repair entry of a line of segment 0. -/
def asking (l : Line) (st : RepairState) : RepairEntry := ⟨0, l, 1, st, .localRead⟩

/-- A full repair list, four lines being asked for. -/
def fullRepair : List RepairEntry := [asking 1 freshAsk, asking 2 freshAsk, asking 3 freshAsk, asking 4 freshAsk]

theorem test_LocalReadOfALostWord :
    (reading live 0 .member (lost 5)).repairable 0 = true ∧ (reading live 0 .member (lost 5)).localState 0 = .current ∧
      (reading live 8192 .localSegment (lost 5)).repairable 2048 = false ∧
      (viewOf .current).repairResponder 0 0 = some 1 ∧ fullRepair.length = 4 ∧ (∀ e ∈ fullRepair, e.state ≠ .failed) ∧
      (∀ e ∈ fullRepair, e.line ≠ 0) ∧
      after (exec .localReadCompletion (reading live 8192 .localSegment (lost 5))) (fun s =>
        s.port == ⟨none, some ⟨.corrupt, 5⟩⟩ && s.rep.log.any fun e => e.kind == .wordLost) = true ∧
      after (exec .localReadCompletion (reading live 0 .member (lost 5))) (fun s =>
        s.port.request.map (·.stage) == some .repairWait && s.repair == [asking 0 freshAsk]) = true ∧
      after (exec .localReadCompletion { reading live 0 .member (lost 5) with repair := fullRepair }) (fun s =>
        s.port.request.map (·.stage) == some .slotWait && s.repair == fullRepair) = true := by
  decide +kernel

/-- An entry of a line in the repair list. -/
def withRepair (e : RepairEntry) : State := { live with repair := [asking 9 freshAsk, e] }

/-- CURRENT, the other station in MISMATCH: no repair responder. -/
def unanswered : State :=
  { live with view := some { viewOf .current with members := (viewOf .current).members.set 1 (some (member .mismatch)) } }

theorem test_LostWordsAreHanded :
    (live.handWord .prefetch 2048 2 |>.1) = .lost ∧ live.repairable 0 = true ∧ catching.repairable 1 = true ∧
      catching.repairable 2 = false ∧
      (withRepair (asking 0 freshAsk)).handWord .prefetch 0 2 =
        (.asking, withRepair { asking 0 freshAsk with bad := 5 }) ∧
      (withRepair (asking 0 .failed)).handWord .prefetch 0 0 = (.lost, withRepair (asking 0 .failed)) ∧
      (withRepair (asking 0 .failed)).handWord .prefetch 0 2 = (.asking, withRepair { asking 0 freshAsk with bad := 5 }) ∧
      { live with repair := fullRepair }.handWord .prefetch 0 2 = (.held, { live with repair := fullRepair }) ∧
      ({ live with repair := [asking 1 freshAsk, asking 2 .failed, asking 3 .failed, asking 4 freshAsk] }.handWord .prefetch 0 0).2.repair
        = [asking 1 freshAsk, asking 3 .failed, asking 4 freshAsk, { asking 0 freshAsk with origin := .prefetch }] ∧
      (unanswered.handWord .prefetch 0 0).1 = .lost ∧ (unanswered.handWord .prefetch 0 0).2.repair.map (·.state) = [.failed] := by
  decide +kernel

/-- A GIVE_READ in progress for station 1. -/
def giving (c : Cell) : State :=
  { busy (withLine live 0 fun i => if i = 0 then c else clean 5) .giveRead (.read 0) with
    gives := [⟨1, 0, 0, .reading, 0, Vector.replicate 4 0, 0⟩] }

theorem test_GiveReadFillsItsEntry :
    (giving (clean 5)).gives = [] ++ ⟨1, 0, 0, .reading, 0, Vector.replicate 4 0, 0⟩ :: [] ∧
      (∀ i : WordIx, (((giving (clean 5)).delivered 0)[i]).health ≠ .uncorrectable) ∧
      after (exec .giveReadCompletion (giving (lost 9))) (fun s =>
        s.gives == [⟨1, 0, 0, .ready, 1, #v[0, 5, 5, 5], 0⟩]) = true := by
  decide +kernel

/-- A fill copy in progress, its spare holding word 0 and its original with word 3 lost. -/
def filling : State :=
  busy (withEntry (withLine base 5 fun i => if i = 3 then lost 1 else worn 1) 0 ⟨.filling, some 5, 1⟩) .spareCopy (.fillCopy 0 5)

theorem test_FillCopyCompletes :
    filling.sp.running = some ⟨.spareCopy, .fillCopy 0 5⟩ ∧ filling.store.tableLost = false ∧
      filling.store.table[(0 : SpareIx)].state = .filling ∧
      after (exec .fillCopyCompletion filling) (fun s =>
        s.store.table[(0 : SpareIx)] == ⟨.filling, some 5, 7⟩ && s.store.cell (.spare 0 2) == clean 1 &&
          s.health.corrected == 3 && s.health.copyDone[(0 : SpareIx)]) = true := by
  decide +kernel

/-- A return copy in progress from spare line 0, its word 3 lost. -/
def returning : State :=
  let s := withEntry base 0 ⟨.active, some 5, 15⟩
  busy { s with
    store := s.store.putMask (.spare 0) 15 fun i => if i = 3 then lost 2 else worn 2
    health := { s.health with retire := s.health.retire.set 0 (some .scrub), suspects := [⟨5, 2⟩] } }
    .spareCopy (.returnCopy 0 5)

theorem test_ReturnCopyCompletes :
    returning.sp.running = some ⟨.spareCopy, .returnCopy 0 5⟩ ∧ returning.store.tableLost = false ∧
      returning.store.table[(0 : SpareIx)].state = .active ∧ returning.health.retire[(0 : SpareIx)] = some .scrub ∧
      returning.store.table[(1 : SpareIx)].state = .free ∧ (∀ i : SpareIx, i < 1 → returning.store.table[i].state ≠ .free) ∧
      after (exec .returnCopyCompletion returning) (fun s =>
        s.store.cell (.array 20) == clean 2 && s.store.cell (.array 23) == lost 2 &&
          s.store.table[(0 : SpareIx)].state == .retired && s.store.table[(1 : SpareIx)] == ⟨.filling, some 5, 0⟩ &&
          s.rep.log == [⟨.spared, .scrub, some 0, some 5, none, 1⟩]) = true := by
  decide +kernel

theorem test_ReturnCopyCompletes_with_no_free_entry :
    (∀ j : SpareIx, { returning with store := { returning.store with
      table := Vector.ofFn fun k : SpareIx => if k = 0 then ⟨.active, some 5, 15⟩ else
          ⟨.retired, none, 0⟩ } }.store.table[j].state ≠
        .free) ∧
      after (exec .returnCopyCompletion { returning with store := { returning.store with
        table := Vector.ofFn fun k : SpareIx => if k = 0 then ⟨.active, some 5, 15⟩ else ⟨.retired, none, 0⟩ } }) (fun s =>
          s.health.exhausted == [5]) = true := by
  decide +kernel

/-- A job of station 1's pair in segment 0, with so many lines held in its buffer. -/
def job (n : Nat) : Job := ⟨1, 0, 16, (List.range n).map fun o => ⟨o, Vector.replicate 4 3, 0⟩, [], none, none, 0⟩

/-- Station 1 CATCHING in segment 0, served by this station. -/
def serverView : View :=
  { viewOf .current with members := ((viewOf .current).members.set 1 (some (member (.catching 0 0)))) }

/-- A serving station with that job. -/
def serving (j : Job) : State :=
  { live with
    view := some serverView
    catchup := { live.catchup with jobs := live.catchup.jobs.set 0 (some j), ring := [0], token := some 0 } }

/-- A SERVE read in progress, of the line at an offset. -/
def serveReading (n : Nat) : State :=
  busy (withLine (serving { job n with reading := some n }) (lineAt 0 n) fun _ => clean 4) .serve (.read (lineAt 0 n))

theorem test_ServeReadAddsTheLine :
    (serveReading 6).sp.running = some ⟨.serve, .read (lineAt (job 6).segment 6)⟩ ∧ (serveReading 6).catchup.reader = some 0 ∧
      (∀ i : WordIx, (((serveReading 6).delivered (lineAt 0 6))[i]).health ≠ .uncorrectable) ∧
      after (exec .serveReadCompletion (serveReading 5)) (fun s =>
        (s.catchup.jobs[(0 : JobIx)].map fun j => (j.buffer.length, j.ahead.length)) == some (6, 0)) = true ∧
      after (exec .serveReadCompletion (serveReading 6)) (fun s =>
        (s.catchup.jobs[(0 : JobIx)].map fun j => (j.buffer.length, j.ahead.length)) == some (6, 1)) = true := by
  decide +kernel

/-- A walker step in progress on the last line, with the cell given in each word. -/
def stepping (first : Bool) (c : Cell) : State :=
  let s := busy (withLine base 16383 fun _ => c) .scrub (.read 16383)
  { s with walker := ⟨.stepping, 16383, some 16383, 9950, first, none, 0⟩ }

theorem test_ScrubStepSetsThePace :
    (stepping true (clean 1)).sp.running = some ⟨.scrub, .read 16383⟩ ∧ (stepping true (clean 1)).walker.chosen = some 16383 ∧
      (∀ i : WordIx, (((stepping true (worn 1)).store.readLine 16383)[i]).health ≠ .uncorrectable) ∧
      after (exec .scrubStepCompletion (stepping true (clean 1))) (fun s =>
        s.walker == ⟨.timing, 16384, none, 10, true, none, 0⟩) = true ∧
      after (exec .scrubStepCompletion (stepping false (clean 1))) (fun s => s.walker.interval == 10000) = true ∧
      after (exec .scrubStepCompletion (stepping false (worn 1))) (fun s => s.walker.interval == 10) = true := by
  decide +kernel

/-- A fill write in progress at an offset of segment 7, the others with the fill state given. -/
def fillingAt (n : Nat) (others : FillState) : State :=
  let s := busy (inState .filling) .fill (.write ⟨lineAt 7 n, 15, Vector.replicate 4 0, 0⟩)
  { s with sp := { s.sp with fill := (Vector.replicate 8 others).set 7 .filling, fillNext := n } }

theorem test_FillWriteAdvancesTheFill :
    (fillingAt 2046 .ended).sp.fill[(7 : Segment)] = .filling ∧
      (∀ h : Segment, h ≠ 7 → (fillingAt 2046 .ended).sp.fill[h] ≠ .filling) ∧ (fillingAt 2046 .ended).sp.fillNext + 1 < 2048 ∧
      (fillingAt 2047 .ended).sp.fillNext + 1 = 2048 ∧ (fillingAt 2047 .waiting).sp.fill[(0 : Segment)] = .waiting ∧
      after (exec .fillWriteCompletion (fillingAt 2046 .ended)) (fun s => s.sp.fillNext == 2047) = true ∧
      after (exec .fillWriteCompletion (fillingAt 2047 .waiting)) (fun s =>
        s.sp.fill[(0 : Segment)] == .filling && s.join.station == .filling) = true ∧
      after (exec .fillWriteCompletion (fillingAt 2047 .ended)) (fun s =>
        s.store.marker == .valid && s.join.station == .listening) = true ∧
      (holding (fillingAt 2047 .ended) (readAt 0xFFFF .fillWait none)).started = true ∧
      (fillingAt 2047 .ended).join.station = .filling ∧ segmentOf (lineOfAddress 0xFFFF) = 7 ∧
      after (exec .fillWriteCompletion (holding (fillingAt 2047 .ended) (readAt 0xFFFF .fillWait none))) (fun s =>
        s.port.request.map (·.stage) == some .storeWait) = true := by
  decide +kernel

/-! ### Timers -/

/-- The walker timing at a cursor, segment 7's scrub ACTIVE, or none. -/
def walking (cursor : Nat) (active : Bool) : State :=
  { base with
    walker := { base.walker with state := .timing, cursor := cursor }
    rep := { base.rep with config := base.rep.config.set 8 (if active then 0x90000 else 0x50000) } }

theorem test_ScrubExpiryChoosesALine :
    (walking 16383 true).walker.state = .timing ∧ (walking 16383 true).eligible 16383 = true ∧
      (walking 16384 true).eligible 14336 = true ∧ (walking 16384 true).scrub 7 = .active ∧
      (∀ g : Segment, (walking 0 false).scrub g ≠ .active) ∧
      after (exec .scrubIntervalExpiry (walking 0 true)) (fun s => s.walker.chosen == some 14336 && s.walker.firstPass) = true ∧
      after (exec .scrubIntervalExpiry (walking 16383 true)) (fun s => s.walker.chosen == some 16383) = true ∧
      after (exec .scrubIntervalExpiry (walking 16384 true)) (fun s =>
        s.walker.chosen == some 14336 && !s.walker.firstPass && StatusFlag.scrubPass.isIn s.rep.flags) = true ∧
      after (exec .scrubIntervalExpiry (walking 0 false)) (fun s => s == walking 0 false) = true := by
  decide +kernel

/-- A monitor running in segment 0 with a count, at the default floor. -/
def watched (n : Nat) : State :=
  { catching with catchup := { catching.catchup with monitors := catching.catchup.monitors.set 0 ⟨true, n, none⟩ } }

/-- ROSTER_WAIT with the timer running, after so many attempts. -/
def waitingRoster (n : Nat) : State :=
  let s := inState .rosterWait
  { s with join := { s.join with rosterTimer := true, attempts := n, accepted := n } }

theorem test_QuietRosterAndProgressExpiries :
    live.join.station = .joined ∧ live.bus.quiet = .counting ∧ (waitingRoster 2).join.rosterTimer = true ∧
      (waitingRoster 2).join.attempts < 3 ∧ (watched 0).catchup.monitors[(0 : Segment)].running = true ∧
      (watched 0).rep.field 16 = 0 ∧ (watched 1).catchup.monitors[(0 : Segment)].stall = none ∧
      (viewOf (.catching 2 0)).server (watched 0).me 0 = some 1 ∧
      after (exec .quietTimerExpiry live) (fun s => s.bus.emptyPending && s.bus.quiet == .stopped) = true ∧
      after (exec .rosterTimerExpiry (waitingRoster 2)) (fun s => s.join.joinPending && !s.join.rosterTimer) = true ∧
      after (exec (.progressWindowExpiry 0) (watched 0)) (fun s =>
        s.catchup.monitors[(0 : Segment)] == ⟨true, 0, some ⟨1, 0⟩⟩) = true ∧
      after (exec (.progressWindowExpiry 0) (watched 1)) (fun s =>
        s.catchup.monitors[(0 : Segment)] == ⟨true, 0, none⟩) = true := by
  decide +kernel

theorem test_QuietRosterAndProgressExpiries_spent :
    (waitingRoster 3).join.station = .rosterWait ∧ 3 ≤ (waitingRoster 3).join.attempts ∧ (waitingRoster 3).out = [] ∧
      (waitingRoster 3).commit.state.pending = false ∧ (waitingRoster 3).walker.state ≠ .held ∧
      (waitingRoster 3).port.request = none ∧
      after (exec .rosterTimerExpiry (waitingRoster 3)) (fun s =>
        s.join.station == .offline && s.join.cause == some .joinFailed &&
          s.rep.log == [⟨.joinFailed, .bus, none, none, some 0, 3⟩]) = true := by
  decide +kernel

/-- The repair timer running for line 0, after so many asks. -/
def timing (n : Nat) : State := { live with repair := [asking 0 (.asking .timing n 0 (some 1))] }

theorem test_RepairTimerExpiry :
    (timing 2).repair = [] ++ asking 0 (.asking .timing 2 0 (some 1)) :: [] ∧ (timing 3).walker.state ≠ .held ∧
      after (exec (.repairTimerExpiry 0) (timing 2)) (fun s => s.repair == [asking 0 (.asking .toAsk 2 0 (some 1))]) = true ∧
      after (exec (.repairTimerExpiry 0) (holding (timing 3) { readAt 0 .repairWait none with raw := some (lost 6) })) (fun s =>
        s.repair == [asking 0 .failed] && s.port == ⟨none, some ⟨.corrupt, 6⟩⟩ &&
          s.rep.log == [⟨.repairFailed, .localRead, some 0, some 0, some 1, 1⟩]) = true := by
  decide +kernel

/-! ### The bus between frames -/

theorem test_SelectorOffersInOrder :
    { inState .joining with join := { (inState .joining).join with joinPending := true } }.chosenItem = some .join ∧
      live.chosenItem = none ∧ base.chosenItem = none ∧ leaving.chosenItem = some .leave ∧
      { live with bus := { live.bus with emptyPending := true } }.chosenItem = some .empty ∧
      (serving (job 6)).chosenItem = some .copy ∧ { serving (job 6) with out := [entry 1] }.chosenItem = some .outbound ∧
      { live with out := [entry 1], repair := [asking 0 freshAsk] }.chosenItem = some (.ask 0) ∧
      { live with gives := [⟨1, 0, 0, .ready, 0, Vector.replicate 4 0, 0⟩], repair := [asking 0 freshAsk] }.chosenItem =
        some .give ∧ live.heldView = some (viewOf .current) := by
  decide +kernel

theorem test_OpeningChoosesTheClaim :
    live.bus.unit = .following ∧ live.bus.phase = some .claiming ∧ live.bus.window = .due ∧ live.port.request = none ∧
      base.heldView = none ∧
      after (exec .claimWindowOpening { live with out := [entry 1] }) (fun s =>
        s.bus.claim == some .outbound && s.bus.window == .quiet) = true ∧
      after (exec .claimWindowOpening { live with gives := [⟨2, 0, 0, .ready, 0, Vector.replicate 4 0, 0⟩] }) (fun s =>
        s.gives.isEmpty) = true ∧
      after (exec .claimWindowOpening { unwritable with
        out := [⟨.group 0 2, .waiting, 0⟩], commit := { unwritable.commit with state := .queued } }) (fun s =>
          s.out.isEmpty && s.commit.state == .failed .chainAborted 1) = true := by
  decide +kernel

/-- This station claims the outbound head: position 16 + 14, the last winner being station 1. -/
def claiming : State := { live with out := [entry 5], bus := { live.bus with window := .counting, claim := some .outbound } }

theorem test_ClaimResolvedBeginsTheFrame :
    claiming.ownPosition = some 30 ∧ 16 * (Item.cls .outbound).val + (claiming.me.val + 31 - claiming.lastWinner.val) % 16 = 30 ∧
      ((0 : Station).val = (claiming.lastWinner.val + 1 + 30 % 16) % 16) ∧
      after (exec (.claimResolved 29) claiming) (fun s => s.bus.owner == some 15 && s.bus.cls == some 1 && s.out == [entry 5]) =
        true ∧
      after (exec (.claimResolved 30) claiming) (fun s => s.bus.owner == some 0 &&
        s.bus.inFlight == some ⟨.outbound, composeUpdate 0 0 1 (Vector.replicate 4 5) 0 0⟩ &&
          s.out == [{ (entry 5).unmark with state := .sending }]) = true ∧
      after (exec (.claimResolved 31) claiming) (fun s => s == claiming) = true ∧
      claiming.bus.window = .counting ∧
      after (exec (.claimResolved 63) { live with bus := { live.bus with window := .counting } }) (fun s =>
        s.bus.cls == some 3 && s.bus.quiet == .held && s.bus.window == .due) = true := by
  decide +kernel

/-- A unit that SEEKS. -/
def seeking : State := { base with bus := { base.bus with unit := .seeking, phase := none } }

/-- A FOLLOWING unit in a window at a part. -/
def inWindow (s : State) (w : Window) (count : Nat) : State := { s with bus := { s.bus with window := w, positions := count } }

theorem test_MarksBringTheUnitInStep :
    seeking.bus.unit = .seeking ∧ base.bus.unit = .following ∧ base.bus.window = .due ∧ base.join.station = .listening ∧
      base.bus.claim = none ∧ live.join.station ≠ .listening ∧ State.reset.bus.unit = .off ∧ claiming.bus.claim ≠ none ∧
      after (exec .emptyWindowEnd seeking) (fun s => s == inWindow base .due 65) = true ∧
      after (exec (.windowMark 11) seeking) (fun s => s == inWindow base .counting 0) = true ∧
      after (exec (.windowMark 10) seeking) (fun s => s == seeking) = true ∧
      after (exec .emptyWindowEnd (inWindow base .quiet 0)) (fun s =>
        s.join.station == .joining && s.join.joinPending && s.bus.window == .due && s.bus.positions == 65) = true ∧
      after (exec .emptyWindowEnd (inWindow live .counting 0)) (fun s => s == inWindow live .due 64) = true ∧
      after (exec .emptyWindowEnd (inWindow live .quiet 0)) (fun s => s == inWindow live .due 65) = true ∧
      after (exec .emptyWindowEnd live) (fun s => s == live) = true ∧
      after (exec .emptyWindowEnd claiming) (fun s => s == claiming) = true := by
  decide +kernel

/-- The first driven position after a quiet stretch is the mark; the next, after however long a run, is a claim. -/
theorem test_MarksBringTheUnitInStep_mark_or_claim :
    after (exec (.windowMark 11) (inWindow live .quiet 0)) (fun s => s == inWindow live .counting 0) = true ∧
      after (exec (.windowMark 10) (inWindow live .quiet 0)) (fun s => s == inWindow live .quiet 0) = true ∧
      after (exec (.windowMark 12) (inWindow live .counting 0)) (fun s =>
        s.bus.phase == some .inFrame && s.bus.owner == some 14 && s.bus.positions == 12) =
        true ∧
      after (exec (.windowMark 64) (inWindow live .counting 0)) (fun s => s == inWindow live .counting 0) = true ∧
      after (exec (.windowMark 11) live) (fun s => s == live) = true := by
  decide +kernel

/-- After a frame of a class, before its continuation position or break field, with a copy run of this station or none. -/
def between (p : Phase) (c : Fin 4) (r : Option CopyRun) : State :=
  let s := serving (job 6)
  { s with bus := { s.bus with phase := some p, owner := some 1, cls := some c, copyRun := r } }

theorem test_ContinuationsAndBreakFields :
    (between .continuing 1 none).bus.owner = some 1 ∧ (between .continuing 1 none).bus.cls = some 1 ∧
      (between .breaking 2 none).bus.breakIn = false ∧
      (between .breaking 2 none).bus.copyRun = none ∧ (serving (job 6)).catchup.jobs[(0 : JobIx)] = some (job 6) ∧
      after (exec .continuation (between .continuing 1 none)) (fun s =>
        s.bus.phase == some .inFrame && s.bus.run == .group 1) = true ∧
      after (exec .continuation (between .breaking 2 (some ⟨0, 1, none⟩))) (fun s =>
        s.bus.copyRun == some ⟨0, 2, none⟩) = true ∧
      after (exec .breakField (between .breaking 2 none)) (fun s => s.bus.phase == some .claiming && s.bus.owner == none) = true ∧
      after (exec .breakField (between .breaking 2 (some ⟨0, 3, none⟩))) (fun s =>
        s.catchup.jobs[(0 : JobIx)] == some { job 6 with e := 14 } && s.bus.copyRun.isNone) = true := by
  decide +kernel

theorem test_RunLengthFollowsTheEnding :
    (serving { job 6 with e := 2 }).catchup.jobs[(0 : JobIx)] = some { job 6 with e := 2 } ∧
      (serving (job 6)).rep.field 11 = 2 ∧ (serving (job 6)).rep.field 12 = 16 ∧
      ((serving { job 6 with e := 2 }).endRun 0 .broken).catchup.jobs[(0 : JobIx)] = some { job 6 with e := 2 } ∧
      ((serving { job 6 with e := 16 }).endRun 0 .full).catchup.jobs[(0 : JobIx)] = some { job 6 with e := 16 } ∧
      (serving (job 6)).catchup.ring = [] ++ 0 :: [] ∧ ((serving (job 6)).endRun 0 .dry).catchup.token = some 0 ∧
      (let s := serving (job 6)
       ({ s with catchup := { s.catchup with ring := [2, 0, 1] } }.endRun 0 .full).catchup.token = some 1) ∧
      2 ≤ (CopyRun.mk 0 2 none).count ∧ ((serving (job 6)).copyFrame (job 6) 1).header.gpos = gposShut ∧
      ((serving (job 6)).copyFrame (job 6) 2).header.gpos = gposOpen := by
  decide +kernel

/-- This station's run of its job after so many frames. -/
def running (n : Nat) : CopyRun := ⟨0, n, none⟩

/-- A station with a STALL item whose named server serves nobody. -/
def staleStall (s : State) : State :=
  { s with catchup := { s.catchup with monitors := s.catchup.monitors.set 0 ⟨false, 0, some ⟨9, 0⟩⟩ } }

/-- A station whose READY give head names an asker that is not present. -/
def staleGive (s : State) : State := { s with gives := [⟨2, 0, 0, .ready, 0, Vector.replicate 4 0, 0⟩] }

/-- A chain at the head of the queue whose second record an opening would find unwritable. -/
def spoiltChain : State :=
  { unwritable with out := [⟨.group 0 2, .waiting, 0⟩], commit := { unwritable.commit with state := .queued } }

theorem test_RunLengthFollowsTheEnding_ending :
    (serving (job 6)).runEnding (running 2) = none ∧ (serving (job 6)).runEnding (running 16) = some .full ∧
      (serving (job 0)).runEnding (running 2) = some .dry ∧
      (serving (job 6)).runEnding ⟨0, 2, some .completed⟩ = some .completed ∧
      (staleGive (serving (job 6))).runEnding (running 1) = none ∧
      (staleGive (serving (job 6))).runEnding (running 2) = some .broken ∧
      (staleStall (serving (job 6))).runEnding (running 2) = some .broken := by
  decide +kernel

/-- The end of station 1's COPY, with a break mark. -/
def peerCopy (mark : BitVec 3) : Ended :=
  ⟨1, 2, some (composeCopy 1 2 0 0 [⟨0, Vector.replicate 4 3, 0⟩] mark), none, ⟨false, false, false, false⟩, 0⟩

theorem test_RunLengthFollowsTheEnding_breakIn :
    (peerCopy gposOpen).own = none ∧ live.join.station = .joined ∧
      (live.afterFrame (peerCopy gposOpen) true).bus.breakIn = false ∧
      ((staleStall live).afterFrame (peerCopy gposOpen) true).bus.breakIn = true ∧
      ((staleStall live).afterFrame (peerCopy gposShut) true).bus.breakIn = false ∧
      ((staleGive live).afterFrame (peerCopy gposOpen) false).bus.breakIn = true ∧
      (spoiltChain.afterFrame (peerCopy gposOpen) true).bus.breakIn = true ∧
      (staleGive base).urgentPending = false ∧ leaving.urgentPending = true ∧
      { live with repair := [asking 0 freshAsk] }.urgentPending = true ∧ (serving (job 6)).urgentPending = false := by
  decide +kernel

/-! ### Frame ends -/

/-- Every station present but the owner acknowledges, and none rejects, as one test. -/
def allAck (v : View) (owner : Station) (sl : Slots) : Bool :=
  stations.all fun x => !v.present x || (!rejectSlot sl x && (x == owner || ackSlot sl x))

theorem all_of (v : View) (owner : Station) (sl : Slots) (h : allAck v owner sl = true) : AllAcknowledge v owner sl := by
  intro x hx
  have := List.all_eq_true.mp h x (List.mem_finRange x)
  simp only [hx, Bool.not_true, Bool.false_or, Bool.and_eq_true, Bool.not_eq_true', Bool.or_eq_true, beq_iff_eq] at this
  exact ⟨this.1, fun h => this.2.resolve_left h⟩

/-- What the end of a peer's frame needs of the state, as one test. -/
def goodCheck (s : State) (v : View) (owner : Station) (f : Frame) (c : Fin 4) (sl : Slots) : Bool :=
  s.bus.unit == .following && s.bus.inFlight == none && s.heldView == some v && v.present s.me &&
    !((inFrame s owner c).judgeFrame (some f) owner c).marks && allAck v owner sl && decide
        (s.join.leaveAttempts < frameRetryLimit)

/-- A frame that passes every check, ended with everybody acknowledging. -/
def Good (s : State) (owner : Station) (f : Frame) (c : Fin 4) (sl : Slots) : Prop :=
  readFrame f.heard = some f ∧ ∃ v, GoodFrame (inFrame s owner c) v f owner c sl

theorem good_of (s : State) (v : View) (owner : Station) (f : Frame) (c : Fin 4) (sl : Slots)
    (h : (decide (readFrame f.heard = some f) && goodCheck s v owner f c sl) = true) : Good s owner f c sl := by
  simp only [goodCheck, Bool.and_eq_true, beq_iff_eq, Bool.not_eq_true', decide_eq_true_eq] at h
  obtain ⟨h0, ⟨⟨⟨⟨⟨h1, h2⟩, h3⟩, h4⟩, h5⟩, h6⟩, h7⟩ := h
  exact ⟨h0, v, ⟨h1, rfl, rfl, rfl⟩, h3, h4, h2, h5, all_of v owner sl h6, h7⟩

/-- An UPDATE of line 0, word 2. -/
def updateFrame : Frame := composeUpdate 1 0 4 (Vector.replicate 4 8) 0 0

theorem test_PeerFrameIsTaken_update : Good live 1 updateFrame 1 ack0 ∧
    after (exec (.update updateFrame.heard ack0) (inFrame live 1 1)) (fun s =>
      s.sp.running == some ⟨.apply, .write ⟨0, 4, #v[0, 0, 8, 0], 0⟩⟩ && s.bus.slot == some .ack &&
        s.bus.phase == some .continuing) = true :=
  ⟨good_of _ (viewOf .current) _ _ _ _ (by decide +kernel), by decide +kernel⟩

/-- An ASK for word 0 of line 0. -/
def askFrame : Frame := composeAsk 1 (asking 0 freshAsk)

theorem test_PeerFrameIsTaken_ask : Good live 1 askFrame 1 ack0 ∧
    (viewOf .current).repairResponder 1 0 = some live.me ∧ live.gives.length < 4 ∧
    after (exec (.ask askFrame.heard ack0) (inFrame live 1 1)) (fun s => s.gives.map (·.state) == [.reading]) = true :=
  ⟨good_of _ (viewOf .current) _ _ _ _ (by decide +kernel), by decide +kernel⟩

/-- A GIVE to this station, word 3 void. -/
def giveFrame : Frame := composeGive 1 ⟨0, 0, 0, .inFlight, 8, Vector.replicate 4 6, 0⟩

theorem test_PeerFrameIsTaken_give : Good (timing 1) 1 giveFrame 1 ack0 ∧
    giveFrame.giveAsker = (timing 1).me ∧ (viewOf .current).isMember (timing 1).me giveFrame.segment = true ∧
    giveFrame.giveVoid = 8 ∧ (timing 1).walker.state ≠ .held ∧
    (asking 0 freshAsk).bad &&& giveFrame.giveVoid = 0 ∧
    after (exec (.give giveFrame.heard ack0) (inFrame (timing 1) 1 1)) (fun s =>
      s.repair.isEmpty && s.sp.applyList == [⟨0, 7, #v[6, 6, 6, 0], 0⟩]) = true :=
  ⟨good_of _ (viewOf .current) _ _ _ _ (by decide +kernel), by decide +kernel⟩

/-- The COPY of the segment's last line to this station. -/
def copyFrame : Frame := composeCopy 1 0 0 2047 [⟨2047, Vector.replicate 4 6, 1⟩] gposShut

/-- CATCHING, the last line to come. -/
def lastLine : State := joinedAs (.catching 2047 0)

theorem test_PeerFrameIsTaken_copy : Good lastLine 1 copyFrame 2 ack0 ∧
    copyFrame.copyStation = lastLine.me ∧ copyFrame.copyLast = true ∧
    after (exec (.copy copyFrame.heard ack0) (inFrame lastLine 1 2)) (fun s =>
      s.localState 0 == .current && s.sp.applyList == [⟨2047, 15, #v[0, 6, 6, 6], 1⟩] &&
        StatusFlag.catchupDone.isIn s.rep.flags && s.bus.phase == some .breaking) = true :=
  ⟨good_of _ (viewOf (.catching 2047 0)) _ _ _ _ (by decide +kernel), by decide +kernel⟩

/-- A STALL of station 1 naming this one. -/
def stallFrame : Frame := composeStall 1 0 0

/-- Station 2 beside the two, with a member state and a miss and a reject count. -/
def third (v : View) (st : MemberState) (miss reject : Nat) : View :=
  { v with members := v.members.set 2 (some { member st with miss := miss, reject := reject }) }

/-- Station 1 CATCHING with two servers. -/
def twoServers : State := { serving (job 6) with view := some (third serverView .current 0 0) }

/-- Stations 0 and 2 acknowledge. -/
def ack02 : Slots := 17

theorem test_PeerFrameIsTaken_stall : Good (serving (job 6)) 1 stallFrame 0 ack0 ∧ Good twoServers 1 stallFrame 0 ack02 ∧
    serverView.state 1 0 = .catching 0 0 ∧
    after (exec (.stall stallFrame.heard ack0) (inFrame (serving (job 6)) 1 0)) (fun s =>
      s.bus.phase == some .claiming && s.view.any fun w => w.state 1 0 == .catching 0 0) = true ∧
    after (exec (.stall stallFrame.heard ack02) (inFrame twoServers 1 0)) (fun s =>
      s.view.any fun w => w.state 1 0 == .catching 0 1) = true :=
  ⟨good_of _ serverView _ _ _ _ (by decide +kernel), good_of _ (third serverView .current 0 0) _ _ _ _ (by decide +kernel),
    by decide +kernel⟩

theorem test_PeerFrameIsTaken_leave : Good live 1 (composeLeave 1) 0 ack0 ∧
    after (exec (.leaveFrame (composeLeave 1).heard ack0) (inFrame live 1 0)) (fun s =>
      s.view.any fun w => !w.present 1 && w.present 0) = true :=
  ⟨good_of _ (viewOf .current) _ _ _ _ (by decide +kernel), by decide +kernel⟩

theorem test_PeerFrameIsTaken_empty : Good live 1 (composeEmpty 1) 3 ack0 ∧
    after (exec (.empty (composeEmpty 1).heard ack0) (inFrame live 1 3)) (fun s =>
      s.bus.quiet == .counting && s.bus.phase == some .claiming) = true :=
  ⟨good_of _ (viewOf .current) _ _ _ _ (by decide +kernel), by decide +kernel⟩

/-- A re-JOIN of station 1. -/
def joinFrame : Frame := composeJoin 1 [(0, 3)]

/-- A JOIN of station 2 that declares another set for segment 0, and none for the others. -/
def clashing : Frame := composeJoin 2 [(0, 7)]

theorem clashing_clashes : Clashes (viewOf .current) 2 0 7 :=
  ⟨0, by decide, by decide +kernel, Or.inl (by decide +kernel)⟩

theorem joinFrame_does_not (v : View) (h : ∀ y : Station, v.present y = true → y = 0 ∨ y = 1) (h0 : v.declared 0 0 = some 3) :
    ¬Clashes v 1 0 3 := by
  rintro ⟨y, hy, hp, hc⟩
  rcases h y hp with rfl | rfl
  · rcases hc with ⟨_, hc⟩ | ⟨d, hd, _, hc⟩
    · exact hc h0
    · rw [h0] at hd; exact hc (Option.some.inj hd).symm
  · exact hy rfl

theorem test_PeerFrameIsTaken_join : Good live 1 joinFrame 0 ack0 ∧ ¬Clashes (viewOf .current) 1 0 3 ∧
    after (exec (.join joinFrame.heard ack0) (inFrame live 1 0)) (fun s =>
      s.join.rosters[(1 : Station)].isSome && s.view.any fun w => w.awaiting 1 && w.state 1 0 == .catching 0 0) = true :=
  ⟨good_of _ (viewOf .current) _ _ _ _ (by decide +kernel), joinFrame_does_not _ (by decide +kernel) (by decide +kernel),
    by decide +kernel⟩

theorem test_PeerFrameIsTaken_join_mismatch : Good live 2 clashing 0 5 ∧ Clashes (viewOf .current) 2 0 7 ∧
    clashing.declarations.lookup 1 = none ∧
    after (exec (.join clashing.heard 5) (inFrame live 2 0)) (fun s =>
      s.view.any fun w => w.state 2 0 == .mismatch && w.state 2 1 == .none && w.declared 2 0 == some 7) = true :=
  ⟨good_of _ (viewOf .current) _ _ _ _ (by decide +kernel), clashing_clashes, by decide +kernel⟩

/-- The last CURRENT station joins anew: it is CURRENT, and the pair's cursor starts again. -/
theorem test_PeerFrameIsTaken_join_founding : Good catching 1 joinFrame 0 ack0 ∧ ¬Clashes (viewOf (.catching 2 0)) 1 0 3 ∧
    (∀ y, y ≠ 1 → (viewOf (.catching 2 0)).isCurrent y 0 = false) ∧
    after (exec (.join joinFrame.heard ack0) (inFrame catching 1 0)) (fun s =>
      s.view.any fun w => w.state 1 0 == .current && w.state 0 0 == .catching 0 0) = true :=
  ⟨good_of _ (viewOf (.catching 2 0)) _ _ _ _ (by decide +kernel),
    joinFrame_does_not _ (by decide +kernel) (by decide +kernel), by decide +kernel⟩

/-- Station 0 SETTLED, station 1 its elder responder for station 0 alone, AWAITING. -/
def awaitingView : View :=
  { viewOf .current with members := (viewOf .current).members.set 0 (some { member .current with standing := .awaiting }) }

/-- The ROSTER of station 1 to this station. -/
def rosterFrame : Frame := composeRoster 1 0 awaitingView

theorem test_PeerFrameIsTaken_roster : Good { live with view := some awaitingView } 1 rosterFrame 0 ack0 ∧
    awaitingView.present 0 = true ∧ (rosterFrame.rosterContent.map fun rc => (rc.joiner, rc.view)) = some (0, awaitingView) ∧
    after (exec (.roster rosterFrame.heard ack0) (inFrame { live with view := some awaitingView } 1 0)) (fun s =>
      s.view.any fun w => w.settled 0) = true :=
  ⟨good_of _ awaitingView _ _ _ _ (by decide +kernel), by decide +kernel⟩

/-- A group of two frames of line 0. -/
def groupFrame (p : BitVec 3) : Frame := composeUpdate 1 0 1 (Vector.replicate 4 8) p 2

theorem test_GroupsAreCollectedWhole :
    (groupFrame gposFirst).header.gpos = gposFirst ∧ (live.takeUpdate (viewOf .current) (groupFrame gposFirst)).group.isSome =
        true ∧
      ((live.takeUpdate (viewOf .current) (groupFrame gposFirst)).takeUpdate (viewOf .current)
        (groupFrame gposLast)).sp.applyList.length = 2 ∧
      ((live.takeUpdate (viewOf .current) (groupFrame gposFirst)).takeUpdate (viewOf .current) (groupFrame gposMiddle)).group =
          none ∧
      (live.takeUpdate (viewOf .current) (composeUpdate 1 0 1 (Vector.replicate 4 8) gposSingle 1)).sp.applyList.length = 1 ∧
      (live.takeUpdate (viewOf .current) (groupFrame gposLast)).sp.applyList = [] := by
  decide +kernel

/-- Line 0 held by a job, a READY give entry and a repair entry, word 2 void or bad in each. -/
def holders : State :=
  { serving { job 0 with buffer := [⟨0, Vector.replicate 4 3, 4⟩], ahead := [⟨1, Vector.replicate 4 3, 4⟩] } with
    gives := [⟨1, 0, 0, .ready, 4, Vector.replicate 4 0, 0⟩, ⟨1, 0, 1, .ready, 4, Vector.replicate 4 0, 0⟩]
    repair := [{ asking 0 freshAsk with bad := 12 }, asking 1 freshAsk] }

theorem test_AcceptedWritesReachTheBlocks : Good live 1 updateFrame 1 ack0 ∧ Good lastLine 1 copyFrame 2 ack0 ∧
    updateFrame.header.gpos = gposNone ∧ copyFrame.copyStation = lastLine.me ∧ lastLine.walker.state ≠ .held ∧
    live.walker.state ≠ .held ∧ (∀ e ∈ holders.repair, e.bad ≠ 0) ∧ serverView.serves holders.me 1 0 = true ∧
    (holders.enterWrites [updateFrame.updateWrite]).gives =
      [⟨1, 0, 0, .ready, 0, #v[0, 0, 8, 0], 0⟩, ⟨1, 0, 1, .ready, 4, Vector.replicate 4 0, 0⟩] ∧
    (holders.enterWrites [updateFrame.updateWrite]).repair = [{ asking 0 freshAsk with bad := 8 }, asking 1 freshAsk] ∧
    ((holders.enterWrites [updateFrame.updateWrite]).catchup.jobs[(0 : JobIx)].map fun j => (j.buffer, j.ahead)) =
      some ([⟨0, #v[3, 3, 8, 3], 0⟩], [⟨1, Vector.replicate 4 3, 4⟩]) :=
  ⟨good_of _ (viewOf .current) _ _ _ _ (by decide +kernel), good_of _ (viewOf (.catching 2047 0)) _ _ _ _ (by decide +kernel),
    by decide +kernel⟩

/-- JOINED with a third station at a miss and a reject count. -/
def threeAt (miss reject : Nat) : State := { live with view := some (third (viewOf .current) .none miss reject) }

/-- JOINED, this station at a miss and a reject count. -/
def selfAt (miss reject : Nat) : State :=
  { live with view := some { viewOf .current with
      members := (viewOf .current).members.set 0 (some { member .current with miss := miss, reject := reject }) } }

theorem test_LimitsMarkAbsent_missed :
    ((threeAt 2 0).judgeFrame (some updateFrame) 1 1).marks = false ∧ readFrame updateFrame.heard = some updateFrame ∧
      (∀ x, (third (viewOf .current) .none 2 0).present x = true → rejectSlot ack0 x = false) ∧ live.bus.inFlight = none ∧
      (viewOf .current).present live.me = true ∧ live.join.leaveAttempts < frameRetryLimit ∧
      after (exec (.update updateFrame.heard ack0) (inFrame (threeAt 2 0) 1 1)) (fun s =>
        s.rep.log == [⟨.missed, .bus, none, none, some 2, 1⟩] && StatusFlag.peerChange.isIn s.rep.flags &&
          s.view.any fun w => !w.present 2 && w.present 1) = true ∧
      after (exec (.update updateFrame.heard ack0) (inFrame (threeAt 1 0) 1 1)) (fun s =>
        s.rep.log.isEmpty && s.view.any fun w => (w.member 2).any fun m => m.miss == 2) = true ∧
      after (exec (.update updateFrame.heard 0) (inFrame (selfAt 2 0) 1 1)) (fun s =>
        s.join.station == .offline && s.join.cause == some .missed &&
          s.rep.log.head? == some ⟨.missed, .bus, none, none, some 0, 1⟩) = true := by
  decide +kernel

/-- Station 0 rejects and station 2 acknowledges. -/
def rej0ack2 : Slots := 18

theorem test_LimitsMarkAbsent_rejected :
    (third (viewOf .current) .none 0 0).present 0 = true ∧ rejectSlot rej0ack2 0 = true ∧ rejectSlot rej1 1 = true ∧
      after (exec (.damagedFrame 2) (inFrame live 1 1)) (fun s =>
        s.rep.log.isEmpty && s.view.any fun w => (w.member 1).any fun m => m.reject == 1) = true ∧
      after (exec (.damagedFrame rej0ack2) (inFrame { threeAt 0 0 with view := (selfAt 0 3).view.map (third · .none 0 0) } 1 1))
        (fun s => s.join.cause == some .expelled && s.rep.log.head? == some ⟨.expelled, .bus, none, none, some 0, 1⟩) = true ∧
      after (exec (.damagedFrame 2) (inFrame { live with view := some { viewOf .current with
          members := (viewOf .current).members.set 1 (some { member .current with reject := 3 }) } } 1 1)) (fun s =>
        s.rep.log == [⟨.selfFault, .bus, none, none, some 1, 1⟩] && s.view.any fun w => !w.present 1) = true := by
  decide +kernel

/-- A pair whose one server leaves, another station being CURRENT but passed over. -/
def spentView : View := third (viewOf (.catching 2 4)) .current 0 0

theorem test_LimitsMarkAbsent_spent : SpentWithout spentView [1] 0 0 4 ∧ ¬SpentWithout (viewOf (.catching 2 0)) [1] 0 0 0 ∧
    (spentView.markAbsent [1]).state 0 0 = .catching 2 0 ∧ spentView.lastWinner = 1 :=
  ⟨⟨⟨2, by decide +kernel⟩, by decide +kernel⟩, fun ⟨⟨y, h⟩, _⟩ => by revert y; decide +kernel, by decide +kernel⟩

/-- A job of another pair. -/
def otherJob (x : Station) : Job := ⟨x, 0, 16, [], [], none, none, 0⟩

/-- Jobs 0 to 2 in a ring that begins with the second. -/
def ringed : CatchUp :=
  { live.catchup with
    jobs := ((live.catchup.jobs.set 0 (some (otherJob 1))).set 1 (some (otherJob 2))).set 2 (some (otherJob 3))
    ring := [1, 0, 2], token := some 0 }

theorem test_BlocksFollowTheView : Good (serving (job 6)) 1 (composeEmpty 1) 3 ack0 ∧ Good catching 1 joinFrame 0 ack0 ∧
    serverView.serves 0 1 0 = true ∧ serverView.serves 0 2 0 = false ∧
    (live.catchup.review serverView 0 16).jobs[(0 : JobIx)] = some (otherJob 1) ∧
    (ringed.review serverView 0 16).ring = [0] ∧ ringed.ring = [1] ++ 0 :: [2] ∧ (ringed.removeJob 0).token = some 2 ∧
    (ringed.createJob (otherJob 4)).ring = [1, 0, 2, 3] ∧ catching.reviewMonitor none 0 ⟨false, 7, none⟩ = ⟨true, 0, none⟩ ∧
    catching.reviewMonitor (some 2) 0 ⟨true, 7, none⟩ = ⟨true, 0, none⟩ ∧
    catching.reviewMonitor (some 1) 0 ⟨true, 7, none⟩ = ⟨true, 7, none⟩ ∧
    live.reviewMonitor (some 1) 0 ⟨true, 7, none⟩ = ⟨false, 0, none⟩ ∧ orphaned.localState 0 = .orphaned ∧
    (∀ h : Segment, h ≠ 0 → live.localState h = orphaned.localState h) ∧
    (State.reviewSegments live { orphaned with out := [entry 5, entry 6] }).out = [] ∧
    (State.reviewSegments live { orphaned with out := [entry 5, entry 6] }).rep.log =
      [⟨.outboundDiscard, .port, some 0, none, none, 2⟩] ∧ State.reviewSegments live live = live :=
  ⟨good_of _ serverView _ _ _ _ (by decide +kernel), good_of _ (viewOf (.catching 2 0)) _ _ _ _ (by decide +kernel),
    by decide +kernel⟩

/-- An UPDATE entry of line 2048, in segment 1, or of line 0, at the retry limit. -/
def spentHead (g : Segment) (l : Line) : OutEntry := ⟨.update g l 1 (Vector.replicate 4 5) false, .waiting, 8⟩

/-- A spent head falls before the discard of another segment, and is counted in its own segment's. -/
theorem test_BlocksFollowTheView_spent_head :
    (∀ e ∈ [entry 6], e.attempts < 8) ∧ live.localState 1 ≠ .current ∧ live.localState 1 ≠ .catching ∧
      live.localState 0 = .current ∧
      (State.reviewBlocks live { orphaned with out := [spentHead 1 2048, entry 6] } (viewOf (.catching 2 3))).rep.log =
        [⟨.frameDiscarded, .bus, some 1, some 2048, none, 1⟩, ⟨.outboundDiscard, .port, some 0, none, none, 1⟩] ∧
      (State.reviewBlocks live { orphaned with out := [spentHead 0 0, entry 6] } (viewOf (.catching 2 3))).rep.log =
        [⟨.outboundDiscard, .port, some 0, none, none, 2⟩] := by
  decide +kernel

/-- An UPDATE of a segment that its sender mirrors not: inconsistent, and not malformed. -/
def strayUpdate : Frame := composeUpdate 1 2048 1 (Vector.replicate 4 8) 0 0

/-- An UPDATE of station 0's number that station 0 did not send. -/
def duplicateUpdate : Frame := composeUpdate 0 0 1 (Vector.replicate 4 8) 0 0

theorem test_DamagedFrameMovesCounts :
    live.heldView = some (viewOf .current) ∧ (live.judgeFrame (none : Option Frame) 1 1).unreadable = true ∧
      rejectSlot 2 0 = true ∧ (∀ x, (viewOf .current).present x = true → rejectSlot 0 x = false) ∧
      (List.finRange 16).all (fun x => ((viewOf .current).countRejected (viewOf .current) 1 2).member x |>.all fun m =>
        m.miss < 3 && m.reject < 4) = true ∧
      after (exec (.damagedFrame 2) (inFrame live 1 1)) (fun s => s.bus.slot == some .reject &&
        s.view.any fun w => (w.member 1).any fun m => m.reject == 1) = true ∧
      after (exec (.damagedFrame 0) (inFrame live 1 1)) (fun s =>
        s.join.station == .offline && s.join.cause == some .missed && s.bus.tracked == 1) = true := by
  decide +kernel

theorem test_DamagedFrameMovesCounts_marked_only :
    AllAcknowledge (viewOf .current) 1 ack0 ∧ AllAcknowledge (viewOf .current) 0 ack1 ∧
      (live.judgeFrame (readFrame strayUpdate.heard) 1 1).marks = true ∧ strayUpdate.malformed 1 1 = false ∧
      (live.judgeFrame (readFrame duplicateUpdate.heard) 0 1).marks = true ∧ duplicateUpdate.malformed 0 1 = false ∧
      duplicateUpdate.sender = live.me ∧
      after (exec (.update strayUpdate.heard ack0) (inFrame live 1 1)) (fun s =>
        s.bus.slot == some .reject && s.sp.applyList.isEmpty && s.join.station == .joined &&
          s.view.any fun w => w.lastWinner == 1) = true ∧
      after (exec (.update duplicateUpdate.heard ack1) (inFrame live 0 1)) (fun s =>
        s.bus.slot == some .reject && s.sp.applyList.length == 1 &&
          s.rep.log == [⟨.duplicateNumber, .bus, none, none, some 0, 1⟩]) = true :=
  ⟨all_of _ _ _ (by decide +kernel), all_of _ _ _ (by decide +kernel), by decide +kernel⟩

/-- An accepted COPY that names this station where it is MISMATCH, its REJECT lost, writes nothing. -/
theorem test_DamagedFrameMovesCounts_copy_to_mismatch :
    AllAcknowledge (viewOf .mismatch) 1 ack0 ∧ (mismatched.judgeFrame (readFrame copyFrame.heard) 1 2).marks = true ∧
      copyFrame.malformed 1 2 = false ∧ copyFrame.copyStation = mismatched.me ∧
      (viewOf .mismatch).isMember mismatched.me copyFrame.segment = false ∧
      after (exec (.copy copyFrame.heard ack0) (inFrame mismatched 1 2)) (fun s =>
        s.bus.slot == some .reject && s.sp.applyList.isEmpty && !StatusFlag.catchupDone.isIn s.rep.flags &&
          s.localState 0 == .mismatch) = true :=
  ⟨all_of _ _ _ (by decide +kernel), by decide +kernel⟩

/-- This station's own frame in progress. -/
def sendingFrame (s : State) (i : Item) (f : Frame) (c : Fin 4) : State :=
  let t := inFrame s 0 c
  { t with bus := { t.bus with inFlight := some ⟨i, f⟩ } }

/-- A frame heard as nothing. -/
def unheard : Heard := ⟨[], 0⟩

/-- The outbound head SENDING, with so many attempts. -/
def sendingUpdate (n : Nat) : State :=
  sendingFrame { live with out := [{ (entry 5).unmark with state := .sending, attempts := n }, entry 6] } .outbound
    (composeUpdate 0 0 1 (Vector.replicate 4 5) 0 0) 1

/-- A group SENDING its record at a place, with so many attempts. -/
def sendingGroup (pos n : Nat) : State :=
  sendingFrame { chained with
    out := [⟨.group 0 2, .sending, n⟩], commit := { chained.commit with state := .sending, notify := true, sendPos := pos } }
    .outbound (chained.groupFrame 0 2 pos) 1

/-- The LEAVE, with so many attempts. -/
def sendingLeave (n : Nat) : State :=
  sendingFrame { leaving with join := { leaving.join with leaveAttempts := n } } .leave (composeLeave 0) 0

/-- The ASK in flight, with so many rejections. -/
def sendingAsk (n : Nat) : State :=
  sendingFrame { live with repair := [asking 0 (.asking .inFlight 0 n none)] } (.ask 0) (composeAsk 0 (asking 0 freshAsk)) 1

/-- The GIVE in flight, with so many rejections. -/
def sendingGive (n : Nat) : State :=
  sendingFrame { live with gives := [⟨1, 0, 0, .inFlight, 0, Vector.replicate 4 4, n⟩] } .give
    (composeGive 0 ⟨1, 0, 0, .inFlight, 0, Vector.replicate 4 4, n⟩) 1

/-- A COPY of the first line of a job that holds six in its buffer and one ahead, with so many attempts. -/
def sendingCopy (n : Nat) : State :=
  let j := { job 6 with ahead := [⟨6, Vector.replicate 4 3, 0⟩], attempts := n }
  let s := sendingFrame (serving j) .copy (composeCopy 0 1 0 0 [⟨0, Vector.replicate 4 3, 0⟩] gposShut) 2
  { s with bus := { s.bus with copyRun := some ⟨0, 1, none⟩ } }

/-- This station's STALL naming station 1, with so many attempts. -/
def sendingStall (n : Nat) : State :=
  sendingFrame { catching with catchup := { catching.catchup with
    monitors := catching.catchup.monitors.set 0 ⟨true, 0, some ⟨1, n⟩⟩ } } (.stall 0) (composeStall 0 0 1) 0

/-- Station 1 AWAITING. -/
def guestView : View :=
  { viewOf .current with members := (viewOf .current).members.set 1 (some { member .current with standing := .awaiting }) }

/-- This station's ROSTER to station 1, with so many attempts. -/
def sendingRoster (n : Nat) : State :=
  sendingFrame { live with view := some guestView, join := { live.join with rosters := live.join.rosters.set 1 (some ⟨n, false⟩) } }
    (.roster 1) (composeRoster 0 1 guestView) 0

/-- What the end of this station's own frame needs of the state, as one test. -/
def ownCheck (s : State) (v : View) (i : InFlight) (c : Fin 4) : Bool :=
  s.bus.unit == .following && s.bus.phase == some .inFrame && s.bus.owner == some s.me && s.bus.cls == some c &&
    s.bus.inFlight == some i && s.heldView == some v && v.present s.me && allAck v s.me ack1 &&
    decide (s.join.leaveAttempts < frameRetryLimit)

theorem own_of (s : State) (v : View) (i : InFlight) (c : Fin 4) (h : ownCheck s v i c = true) : OwnFrame s v i c ack1 := by
  simp only [ownCheck, Bool.and_eq_true, beq_iff_eq, decide_eq_true_eq] at h
  obtain ⟨⟨⟨⟨⟨⟨⟨⟨h1, h2⟩, h3⟩, h4⟩, h5⟩, h6⟩, h7⟩, h8⟩, h9⟩ := h
  exact ⟨⟨h1, h2, h3, h4⟩, h6, h7, h5, all_of _ _ _ h8, h9⟩

theorem test_OwnFrameIsTaken :
    OwnFrame (sendingUpdate 0) (viewOf .current) ⟨.outbound, composeUpdate 0 0 1 (Vector.replicate 4 5) 0 0⟩ 1 ack1 ∧
      after (exec (.update unheard ack1) (sendingUpdate 0)) (fun s =>
        s.out == [entry 6] && s.sp.applyList == [⟨0, 1, #v[5, 0, 0, 0], 0⟩]) = true ∧
      after (exec (.update unheard ack1) (sendingGroup 0 5)) (fun s =>
        s.out == [⟨.group 0 2, .sending, 0⟩] && s.commit.sendPos == 1 && s.bus.next == some (chained.groupFrame 0 2 1) &&
          s.sp.applyList.isEmpty) = true ∧
      after (exec (.update unheard ack1) (sendingGroup 1 5)) (fun s =>
        s.out.isEmpty && s.commit.state == .done && s.commit.head == 2 && s.commit.doneNotify &&
          s.sp.applyList.length == 2 && StatusFlag.chainDone.isIn s.rep.flags) = true :=
  ⟨own_of _ _ _ _ (by decide +kernel), by decide +kernel⟩

theorem test_OwnFrameIsTaken_other_kinds :
    OwnFrame (sendingLeave 7) (viewOf .current) ⟨.leave, composeLeave 0⟩ 0 ack1 ∧
      after (exec (.leaveFrame unheard ack1) (sendingLeave 7)) (fun s =>
        s.join.station == .offline && s.join.cause == some .left && s.bus.tracked == 0 && s.view.isNone) = true ∧
      (sendingAsk 7).repairable 0 = true ∧
      after (exec (.ask unheard ack1) (sendingAsk 7)) (fun s =>
        s.repair == [asking 0 (.asking .timing 1 0 (some 1))]) = true ∧
      after (exec (.give unheard ack1) (sendingGive 7)) (fun s => s.gives.isEmpty) = true ∧
      after (exec (.empty unheard ack1) (sendingFrame live .empty (composeEmpty 0) 3)) (fun s => s.bus.quiet == .counting) =
          true ∧
      serverView.serves (sendingCopy 0).me 1 0 = true ∧
      after (exec (.copy unheard ack1) (sendingCopy 0)) (fun s =>
        (s.catchup.jobs[(0 : JobIx)].map fun j => (j.buffer.map (·.offset), j.ahead.length, j.attempts)) ==
          some ([1, 2, 3, 4, 5, 6], 0, 0)) = true :=
  ⟨own_of _ _ _ _ (by decide +kernel), by decide +kernel⟩

/-- This station's own STALL and ROSTER, ended. -/
theorem test_OwnFrameIsTaken_stall_and_roster :
    after (exec (.stall unheard ack1) (sendingStall 3)) (fun s =>
      s.catchup.monitors[(0 : Segment)] == ⟨true, 0, none⟩ && s.rep.log.map (·.kind) == [.catchupStalled]) = true ∧
    after (exec (.roster unheard ack1) (sendingRoster 0)) (fun s =>
      s.join.rosters[(1 : Station)] == none && s.view.any fun w => w.settled 1) = true := by
  decide +kernel

theorem test_OwnRejectionIsRetried :
    (viewOf .current).present 1 = true ∧ rejectSlot rej1 1 = true ∧ (sendingUpdate 6).port.request = none ∧
      (List.finRange 16).all (fun x => ((viewOf .current).countRejected (viewOf .current) 0 rej1).member x |>.all fun m =>
        m.miss < 3 && m.reject < 4) = true ∧
      after (exec (.update unheard rej1) (sendingUpdate 6)) (fun s =>
        s.out == [{ (entry 5).unmark with attempts := 7 }, entry 6]) = true ∧
      after (exec (.update unheard rej1) (sendingUpdate 7)) (fun s =>
        s.out == [entry 6] && s.rep.log == [⟨.frameDiscarded, .bus, some 0, some 0, none, 1⟩]) = true ∧
      after (exec (.update unheard rej1) (sendingGroup 1 6)) (fun s =>
        s.out == [⟨.group 0 2, .sending, 7⟩] && s.bus.next == some (chained.groupFrame 0 2 1)) = true ∧
      after (exec (.update unheard rej1) (sendingGroup 1 7)) (fun s =>
        s.out.isEmpty && s.commit.state == .failed .abandoned 1 && s.commit.head == 0 &&
          s.rep.log == [⟨.frameDiscarded, .bus, some 0, some 0, none, 1⟩]) = true := by
  decide +kernel

theorem test_OwnRejectionIsRetried_repair_and_leave :
    after (exec (.give unheard rej1) (sendingGive 6)) (fun s => s.gives.map (·.rejections) == [7]) = true ∧
      after (exec (.give unheard rej1) (sendingGive 7)) (fun s =>
        s.gives.isEmpty && s.rep.log == [⟨.frameDiscarded, .bus, some 0, some 0, some 1, 0⟩]) = true ∧
      after (exec (.ask unheard rej1) (sendingAsk 6)) (fun s => s.repair == [asking 0 (.asking .toAsk 0 7 none)]) = true ∧
      after (exec (.ask unheard rej1) (sendingAsk 7)) (fun s =>
        s.repair == [asking 0 .failed] && s.rep.log == [⟨.frameDiscarded, .bus, some 0, some 0, none, 1⟩]) = true ∧
      after (exec (.leaveFrame unheard rej1) (sendingLeave 6)) (fun s =>
        s.join.station == .leaving && s.join.leaveAttempts == 7) = true ∧
      after (exec (.leaveFrame unheard rej1) (sendingLeave 7)) (fun s =>
        s.join.station == .offline && s.join.cause == some .left &&
          s.rep.log.take 1 == [⟨.frameDiscarded, .bus, none, none, some 0, 0⟩]) = true := by
  decide +kernel

theorem test_OwnRejectionIsRetried_roster_stall_copy :
    guestView.awaiting 1 = true ∧ guestView.joinResponder 1 = some (sendingRoster 6).me ∧
      (sendingStall 6).localState 0 = .catching ∧ serverView.serves (sendingCopy 6).me 1 0 = true ∧
      after (exec (.roster unheard rej1) (sendingRoster 6)) (fun s => s.join.rosters[(1 : Station)] == some ⟨7, false⟩) = true ∧
      after (exec (.roster unheard rej1) (sendingRoster 7)) (fun s =>
        s.join.rosters[(1 : Station)] == some ⟨8, true⟩ && s.rep.log == [⟨.frameDiscarded, .bus, none, none, some 1, 0⟩]) = true ∧
      after (exec (.stall unheard rej1) (sendingStall 6)) (fun s =>
        s.catchup.monitors[(0 : Segment)] == ⟨true, 0, some ⟨1, 7⟩⟩) = true ∧
      after (exec (.stall unheard rej1) (sendingStall 7)) (fun s =>
        s.catchup.monitors[(0 : Segment)] == ⟨true, 0, none⟩ &&
          s.rep.log == [⟨.frameDiscarded, .bus, some 0, none, some 1, 0⟩]) = true ∧
      after (exec (.copy unheard rej1) (sendingCopy 6)) (fun s =>
        (s.catchup.jobs[(0 : JobIx)].map fun j => (j.buffer.length, j.ahead.length, j.attempts)) == some (6, 1, 7)) = true ∧
      after (exec (.copy unheard rej1) (sendingCopy 7)) (fun s =>
        (s.catchup.jobs[(0 : JobIx)].map fun j => (j.buffer.length, j.ahead.length, j.attempts)) == some (0, 0, 0) &&
          s.rep.log == [⟨.frameDiscarded, .bus, some 0, some 0, some 1, 1⟩]) = true := by
  decide +kernel

/-! ### The release of held requests -/

/-- A write held for a place in the queue, this station's UPDATE in progress at the head of a full one. -/
def waitingWrite : State :=
  sendingFrame { holding live ⟨.write 5, 0, .queueWait, none, none⟩ with
    out := { (entry 5).unmark with state := .sending } :: List.replicate 31
        ⟨.update 0 0 1 (Vector.replicate 4 0) false, .waiting, 0⟩ }
    .outbound (composeUpdate 0 0 1 (Vector.replicate 4 5) 0 0) 1

/-- A read held on word 0 of line 0, in a stage, with the repair list given. -/
def heldRead (st : Stage) (xs : List RepairEntry) : State :=
  { holding live { readAt 0 st none with raw := some (lost 6) } with repair := xs }

/-- An UPDATE of line 0, words 0 and 1. -/
def curingUpdate : Frame := composeUpdate 1 0 3 (Vector.replicate 4 8) 0 0

theorem test_HeldRequestsAreReleased :
    NeedsNewEntry { waitingWrite with out := List.replicate 31 ⟨.update 0 0 1 (Vector.replicate 4 0) false, .waiting, 0⟩ } 0 ∧
      OwnFrame waitingWrite (viewOf .current) ⟨.outbound, composeUpdate 0 0 1 (Vector.replicate 4 5) 0 0⟩ 1 ack1 ∧
      Good (heldRead .repairWait [asking 0 freshAsk]) 1 curingUpdate 1 ack0 ∧
      (switching .valid 0x90000).fillFlag 0 = false ∧ (asking 0 freshAsk).bad &&& ~~~curingUpdate.updateMask = 0 ∧
      after (exec .busClockSwitchDone (holding (switching .valid 0x90000) (readAt 0 .startWait none))) (fun s =>
        s.port.request.map (·.stage) == some .storeWait) = true ∧
      after (exec .busClockSwitchDone (holding (switching .valid 0x150000) (readAt 0xFFFF .startWait none))) (fun s =>
        s.port.request.map (·.stage) == some .fillWait) = true ∧
      after (exec (.update unheard ack1) waitingWrite) (fun s =>
        s.port == ⟨none, some ⟨.done, 0⟩⟩ && s.out.length == 32 && s.out.getLast? == some
            ⟨.update 0 0 1 #v[5, 0, 0, 0] true, .waiting, 0⟩)
        = true ∧
      after (exec (.update curingUpdate.heard ack0) (inFrame (heldRead .repairWait [asking 0 freshAsk]) 1 1)) (fun s =>
        s.repair.isEmpty && s.port.request.map (·.stage) == some .storeWait) = true ∧
      after (exec (.repairTimerExpiry 1) (heldRead .slotWait [asking 1 (.asking .timing 3 0 (some 1)), asking 2 freshAsk]))
        (fun s => s.repair.map (·.state) == [.failed, freshAsk] && s.port.request.map (·.stage) == some .storeWait) = true :=
  ⟨needs_of_unmarked _ 31 _ rfl, own_of _ _ _ _ (by decide +kernel), good_of _ (viewOf .current) _ _ _ _ (by decide +kernel),
    by decide +kernel⟩

/-- A read whose word the frame itself cures is re-taken before that frame end takes the station OFFLINE; one that it does not
cure is answered CORRUPT. -/
theorem test_cured_read_is_retaken_before_the_station_goes_offline :
    (let s := { heldRead .repairWait [asking 0 freshAsk] with view := (selfAt 2 0).view }
     after (exec (.update curingUpdate.heard 0) (inFrame s 1 1)) (fun t =>
       t.join.cause == some .missed && t.port.request.map (·.stage) == some .storeWait) &&
     after (exec (.update updateFrame.heard 0) (inFrame s 1 1)) (fun t =>
       t.join.cause == some .missed && t.port == ⟨none, some ⟨.corrupt, 6⟩⟩)) = true := by
  decide +kernel

/-- A copy in progress at RETENTION_LOSS counts the words it reads and moves none. -/
theorem test_copy_after_retention_loss_counts :
    (let s := { filling with store := { filling.store with tableLost := true } }
     after (exec .fillCopyCompletion s) fun t => t.health.corrected == 3 && t.store == s.store) = true := by
  decide +kernel

/-! ### Stations without a view -/

/-- This station's own JOIN in progress, after so many attempts. -/
def sendingJoin (n : Nat) : State :=
  let s := inState .joining
  sendingFrame { s with join := { s.join with joinPending := true, attempts := n } } .join (composeJoin 0 [(0, 3)]) 0

theorem test_StationsWithoutAView :
    base.inGroup = false ∧ (sendingJoin 1).join.station = .joining ∧ rejectSlot rej1 1 = true ∧
      (∀ x, rejectSlot ack1 x = false) ∧ ackSlot ack1 1 = true ∧ (∀ x, x ≠ 0 → ackSlot 0 x = false) ∧
      after (exec (.damagedFrame rej1) (inFrame base 1 1)) (fun s =>
        s.join.station == .joining && s.join.joinPending && s.bus.tracked == 15) = true ∧
      after (exec (.join unheard rej1) (sendingJoin 1)) (fun s => s.join.attempts == 2 && s.join.joinPending) = true ∧
      after (exec (.join unheard rej1) (sendingJoin 2)) (fun s =>
        s.join.station == .offline && s.join.cause == some .joinFailed) = true ∧
      after (exec (.join unheard ack1) (sendingJoin 2)) (fun s =>
        s.join.station == .rosterWait && s.join.rosterTimer && s.join.accepted == 1 && s.bus.tracked == 0) = true ∧
      after (exec (.join unheard 0) (sendingJoin 2)) (fun s => s.join.station == .joined && s.localState 0 == .current &&
        s.rep.log == [⟨.founded, .bus, some 0, none, some 0, 0⟩]) = true := by
  decide +kernel

theorem test_StationsWithoutAView_roster :
    ((waitingRoster 1).judgeFrame (some rosterFrame) 1 0).marks = false ∧ rosterFrame.kind? = some .roster ∧
      (∀ x, awaitingView.present x = true → rejectSlot ack0 x = false ∧ (x ≠ 1 → ackSlot ack0 x = true)) ∧
      after (exec (.roster rosterFrame.heard ack0) (inFrame (waitingRoster 1) 1 0)) (fun s =>
        s.join.station == .joined && s.localState 0 == .current && s.bus.slot == some .ack && s.bus.quiet == .counting &&
          StatusFlag.joined.isIn s.rep.flags && s.view.any fun w => w.settled 0 && w.lastWinner == 1) = true := by
  decide +kernel

theorem test_FramesReadBack :
    updateFrame.payload.length = updateFrame.header.length.toNat ∧ (31 : Nat) < 32 ∧
      (composeUpdate 15 16383 10 #v[1, 2, 3, 4] gposLast 31).groupLength = 31 ∧
      (composeUpdate 15 16383 10 #v[1, 2, 3, 4] gposLast 31).updateWrite = ⟨16383, 10, #v[0, 2, 0, 4], 0⟩ ∧
      (asking 2047 freshAsk).segment = segmentOf (asking 2047 freshAsk).line := by
  decide +kernel

end Sys2Proof.Tests
end

section
/-! ARRAY_FAULT (R4): what a fault makes of a cell, of the store and of a line read, and the obligation that rests on these. -/

namespace Sys2Proof

/-! ### A fault on one cell, by its health -/

theorem Cell.faulted_of_clean {c : Cell} (raw : Word) (h : c.health = .clean) : c.faulted raw = ⟨c.data, .correctable⟩ := by
  simp only [Cell.faulted, h]

theorem Cell.faulted_of_correctable {c : Cell} (raw : Word) (h : c.health = .correctable) :
    c.faulted raw = ⟨raw, .uncorrectable⟩ := by
  simp only [Cell.faulted, h]

theorem Cell.faulted_of_uncorrectable {c : Cell} (raw : Word) (h : c.health = .uncorrectable) :
    c.faulted raw = ⟨raw, .uncorrectable⟩ := by
  simp only [Cell.faulted, h]

end Sys2Proof

namespace Sys2Proof.Machine

/-! ### A fault in the store -/

theorem Store.fault_cell_same (st : Store) (w : StoreWord) (raw : Word) :
    (st.fault w raw).cell w = (st.cell w).faulted raw := by
  rw [Store.fault, Store.cell_put, if_pos rfl]

theorem Store.fault_cell_other (st : Store) {w x : StoreWord} (raw : Word) (h : x ≠ w) :
    (st.fault w raw).cell x = st.cell x := by
  rw [Store.fault, Store.cell_put, if_neg h]

/-- A fault touches the words' cells alone, so the table still says where each line is read. -/
theorem Store.fault_readAt (st : Store) (w : StoreWord) (raw : Word) (l : Line) (i : WordIx) :
    (st.fault w raw).readAt l i = st.readAt l i :=
  have same : SameTable st (st.fault w raw) := st.put_same w _
  Store.readAt_congr _ _ l i same.table same.lost

/-- The next read of the word's line finds the fault. -/
theorem Store.fault_readLine (st : Store) {w : StoreWord} (raw : Word) {l : Line} {i : WordIx} (h : st.readAt l i = w) :
    ((st.fault w raw).readLine l)[i] = (st.fault w raw).cell w := by
  rw [Store.readLine_get, Store.fault_readAt, h]

/-! ### The command -/

theorem exec_arrayFault (w : StoreWord) (raw : Word) (s : State) :
    exec (.arrayFault w raw) s = .next { s with store := s.store.fault w raw } := rfl

/-- Settles O7: the state left has the faulted store, whose cells are those of `Store.fault_cell_same` and
`Store.fault_cell_other`. -/
theorem arrayFaultWorsensOneWord : Obligations.ArrayFaultWorsensOneWord := by
  intro w raw s
  have faulted : (s.store.fault w raw).cell w = (s.store.cell w).faulted raw := s.store.fault_cell_same w raw
  refine ⟨_, exec_arrayFault w raw s, rfl, rfl, ?others, ?clean, ?correctable, ?uncorrectable, ?read⟩
  case others => exact fun x hx => s.store.fault_cell_other raw hx
  case clean => exact fun h => faulted.trans (Cell.faulted_of_clean raw h)
  case correctable => exact fun h => faulted.trans (Cell.faulted_of_correctable raw h)
  case uncorrectable => exact fun h => faulted.trans (Cell.faulted_of_uncorrectable raw h)
  case read => exact fun l i h => s.store.fault_readLine raw h

end Sys2Proof.Machine
end

section
/-! The interrupt output (R179): the flags counted one by one, the enable word through the window, and the obligation that rests
on these. -/

namespace Sys2Proof.Machine

/-! ### A flag in a flag word -/

@[simp] theorem StatusFlag.isIn_and (f : StatusFlag) (a b : BitVec 11) : f.isIn (a &&& b) = (f.isIn a && f.isIn b) :=
  BitVec.getLsbD_and

@[simp] theorem StatusFlag.isIn_zero (f : StatusFlag) : f.isIn 0 = false := BitVec.getLsbD_zero

@[simp] theorem StatusFlag.isIn_not_chainDone_mask (f : StatusFlag) :
    f.isIn (~~~StatusFlag.chainDone.mask) = !decide (f = .chainDone) := by
  cases f <;> rfl

/-- Every position of a flag word is some flag's. -/
theorem StatusFlag.exists_bit_eq : ∀ i : Fin 11, ∃ f : StatusFlag, f.bit = i.val
  | 0 => ⟨.busReady, rfl⟩
  | 1 => ⟨.joined, rfl⟩
  | 2 => ⟨.offline, rfl⟩
  | 3 => ⟨.segmentChange, rfl⟩
  | 4 => ⟨.peerChange, rfl⟩
  | 5 => ⟨.catchupDone, rfl⟩
  | 6 => ⟨.chainDone, rfl⟩
  | 7 => ⟨.chainFailed, rfl⟩
  | 8 => ⟨.scrubPass, rfl⟩
  | 9 => ⟨.logNonempty, rfl⟩
  | 10 => ⟨.logOverflow, rfl⟩

/-- As the flags fill the word, a word that is not 0 holds one of them. -/
theorem StatusFlag.ne_zero_iff_exists_isIn (w : BitVec 11) : w ≠ 0 ↔ ∃ f : StatusFlag, f.isIn w = true := by
  constructor
  · contrapose!
    intro none_set
    refine BitVec.eq_of_getLsbD_eq fun i hi => ?_
    obtain ⟨f, hf⟩ := StatusFlag.exists_bit_eq ⟨i, hi⟩
    have unset : f.isIn w = false := Bool.eq_false_iff.mpr (none_set f)
    rw [StatusFlag.isIn, hf] at unset
    exact unset.trans BitVec.getLsbD_zero.symm
  · rintro ⟨f, hf⟩ rfl
    rw [f.isIn_zero] at hf
    exact absurd hf Bool.false_ne_true

/-! ### The output -/

/-- A flag counts when it is set and enabled and, for CHAIN_DONE, the done-notify mark stands beside it (R179). -/
theorem State.isIn_interruptFlags (s : State) (f : StatusFlag) :
    f.isIn s.interruptFlags = true ↔
      f.isIn s.rep.flags = true ∧ f.isIn s.rep.enables = true ∧ (f = .chainDone → s.commit.doneNotify = true) := by
  cases mark : s.commit.doneNotify <;> simp [State.interruptFlags, mark, and_assoc]

theorem State.interruptOutput_iff (s : State) :
    s.interruptOutput = true ↔
      ∃ f : StatusFlag, f.isIn s.rep.flags = true ∧ f.isIn s.rep.enables = true ∧
        (f = .chainDone → s.commit.doneNotify = true) := by
  rw [State.interruptOutput, bne_iff_ne, StatusFlag.ne_zero_iff_exists_isIn]
  exact exists_congr s.isIn_interruptFlags

theorem State.interruptOutput_of_enables_zero {s : State} (h : s.rep.enables = 0) : s.interruptOutput = false := by
  rw [Bool.eq_false_iff, Ne, s.interruptOutput_iff]
  rintro ⟨f, -, enabled, -⟩
  rw [h, f.isIn_zero] at enabled
  exact Bool.false_ne_true enabled

/-! ### A core reset and the window -/

theorem exec_coreReset (a p : WordMask) (s : State) :
    exec (.coreReset a p) s = .next { State.reset with pending := s.pending, store := s.storeAfterReset a p } := rfl

theorem State.windowRequest_of_idle {s : State} (h : s.port.request = none) (effect : State → State) :
    s.windowRequest effect = effect s := by
  rw [State.windowRequest, h]

theorem exec_windowWrite_write {s : State} (h : s.port.request = none) (a : BitVec 16) (d : Word) :
    exec (.windowWrite a (.write d)) s = .next (s.writeWindow a d) :=
  congrArg Host.Outcome.next (s.windowRequest_of_idle h _)

theorem exec_windowWrite_read {s : State} (h : s.port.request = none) (a : BitVec 16) :
    exec (.windowWrite a .read) s = .next (s.readWindow a) :=
  congrArg Host.Outcome.next (s.windowRequest_of_idle h _)

/-- Word 35 takes the enables, whatever the station state (R179). -/
theorem State.writeWindow_enables (s : State) (d : Word) :
    s.writeWindow 35#16 d = { s with rep := { s.rep with enables := d.extractLsb' 0 11 }, port := answered .done 0 } := rfl

theorem State.windowWord_enables (s : State) : s.windowWord 35 = s.rep.enables.zeroExtend 32 :=
  (BitVec.setWidth_eq_append (by decide)).symm

/-- A read of word 35 has no effect of its own beside its answer (R185). -/
theorem State.readWindow_enables (s : State) :
    s.readWindow 35#16 = { s with port := answered .done (s.rep.enables.zeroExtend 32) } :=
  congrArg (s.answer .done) s.windowWord_enables

/-- Settles O26: the output by the flags it counts, the reset by its cleared enables, and word 35 by its write and its read. -/
theorem interruptOutputFollowsTheFlags : Obligations.InterruptOutputFollowsTheFlags := by
  refine ⟨State.interruptOutput_iff, ?reset, ?write, ?read⟩
  case reset =>
    exact fun a p s => ⟨_, exec_coreReset a p s, rfl, State.interruptOutput_of_enables_zero rfl⟩
  case write =>
    intro s d idle
    rw [exec_windowWrite_write idle, s.writeWindow_enables]
  case read =>
    intro s idle
    rw [exec_windowWrite_read idle, s.readWindow_enables]

end Sys2Proof.Machine
end

section
/-! Every command completes and keeps the invariant: a lemma for each command that is no shared operation, then one over all
commands, then the step. -/

namespace Sys2Proof.Machine

/-! ### The commands of the command word (R175, R137, R139, R177) -/

/-- START leaves CONFIG for CLOCKING: neither holds a view or an OFFLINE cause. -/
theorem State.startCommand_kept (s : State) : Kept s s.startCommand := by
  unfold State.startCommand
  split
  case isFalse => exact (s.setResult_quiet _ _).kept
  case isTrue config =>
    split
    · exact (s.setResult_quiet _ _).kept
    · have clocking : Kept s
          { s with join := { s.join with station := .clocking }, rep := { s.rep with crystal := true } } :=
        Kept.move rfl id (by simp [State.inGroup, config]) rfl (by simp [config]) (by simp) rfl rfl
          fun b => ⟨b.log, b.overflow, b.out, b.repair, b.gives, b.suspects, b.corrected⟩
      exact clocking.trans (State.setResult_quiet _ _ _).kept

/-- LEAVE goes from JOINED to LEAVING, where the view stays. -/
theorem State.leaveCommand_kept (s : State) : Kept s s.leaveCommand := by
  unfold State.leaveCommand
  split
  case isFalse => exact (s.setResult_quiet _ _).kept
  case isTrue joined =>
    refine Kept.trans ?moved (State.setResult_quiet _ _ _).kept
    refine ⟨rfl, fun sound => ⟨sound.store, ?bounded, ?cause, ?view⟩⟩
    case bounded =>
      exact have b := sound.bounded; ⟨b.log, b.overflow, b.out, b.repair, b.gives, b.suspects, b.corrected⟩
    case cause => simpa [joined] using sound.cause
    case view => simpa [State.inGroup, joined] using sound.view

/-- REJOIN goes from OFFLINE to LISTENING and takes the cause away. -/
theorem State.rejoinCommand_kept (s : State) : Kept s s.rejoinCommand := by
  unfold State.rejoinCommand
  split
  case isFalse => exact (s.setResult_quiet _ _).kept
  case isTrue offline =>
    refine Kept.trans ?moved (State.setResult_quiet _ _ _).kept
    refine ⟨rfl, fun sound => ⟨sound.store, ?bounded, ?cause, ?view⟩⟩
    case bounded =>
      exact have b := sound.bounded; ⟨b.log, b.overflow, b.out, b.repair, b.gives, b.suspects, b.corrected⟩
    case cause => simp
    case view =>
      have view := sound.view
      rw [State.inGroup, offline] at view
      exact view

theorem State.commandWord_kept (s : State) (d : Word) : Kept s (s.commandWord d) := by
  unfold State.commandWord
  split_ifs
  · exact s.startCommand_kept
  · exact s.leaveCommand_kept
  · exact s.rejoinCommand_kept
  · exact (s.commitChain_quiet _).kept
  · exact (s.setResult_quiet _ _).kept

/-! ### The window (R51, R178 to R185) -/

/-- A change of the reporting block that makes neither the log longer nor the overflow count larger. -/
theorem State.rep_kept (s : State) (r : Reporting) (hl : r.log.length ≤ s.rep.log.length)
    (ho : r.overflow ≤ s.rep.overflow) : Kept s { s with rep := r } :=
  Kept.ofParts rfl id rfl rfl rfl fun b =>
    ⟨hl.trans b.log, ho.trans b.overflow, b.out, b.repair, b.gives, b.suspects, b.corrected⟩

theorem State.writeStatus_kept (s : State) (d : Word) : Kept s (s.writeStatus d) :=
  (s.rep_kept (s.rep.clearFlags d) le_rfl le_rfl).trans (State.commit_quiet _ _).kept

theorem State.clearCorrected_kept (s : State) : Kept s s.clearCorrected :=
  Kept.ofParts rfl id rfl rfl rfl fun b => ⟨b.log, b.overflow, b.out, b.repair, b.gives, b.suspects, Nat.zero_le _⟩

theorem State.readWindow_kept (s : State) (a : BitVec 16) : Kept s (s.readWindow a) := by
  have effect : ∀ n, Kept s (s.readEffect n) := by
    intro n
    unfold State.readEffect
    split
    · exact s.rep_kept _ (by simp [Reporting.popLog]) le_rfl
    · exact s.rep_kept _ le_rfl (Nat.zero_le _)
    · exact s.clearCorrected_kept
    · exact Kept.refl s
  unfold State.readWindow
  dsimp only
  split
  · exact (effect _).trans (State.answer_quiet _ _ _).kept
  · exact (s.answer_quiet _ _).kept

/-- What a write of the window does, where its owner takes it. -/
theorem State.writeEffect_kept (s t : State) (a : Nat) (d : Word) (h : s.writeEffect a d = some t) : Kept s t := by
  unfold State.writeEffect at h
  split at h
  case isTrue =>
    unfold State.writeConfig at h
    split at h
    · cases h; exact s.rep_kept _ le_rfl le_rfl
    · cases h
  case isFalse =>
    split at h
    case isTrue =>
      split at h
      · unfold State.writeRecord at h
        dsimp only at h
        split at h
        · cases h
        · obtain ⟨x, -, rfl⟩ := Option.map_eq_some_iff.mp h
          exact (s.commit_quiet _).kept
      · cases h
    case isFalse =>
      split at h
      · cases h; exact s.commandWord_kept d
      · cases h; exact s.writeStatus_kept d
      · cases h; exact s.rep_kept _ le_rfl le_rfl
      · unfold State.writeHead at h
        split at h
        · cases h
        · cases h; exact (s.commit_quiet _).kept
      · cases h

theorem State.writeWindow_kept (s : State) (a : BitVec 16) (d : Word) : Kept s (s.writeWindow a d) := by
  unfold State.writeWindow
  split
  next t h => exact (s.writeEffect_kept t _ d h).trans (t.answer_quiet _ _).kept
  · exact (s.answer_quiet _ _).kept

theorem State.windowRequest_kept (s : State) (f : State → State) (h : Kept s (f s)) : Kept s (s.windowRequest f) := by
  unfold State.windowRequest
  split
  · exact Kept.refl s
  · exact h

/-! ### The supplies and the clock (R6, R7, R176) -/

/-- After a core reset every capacity is empty, and the station is in CONFIG without a view. -/
theorem coreReset_kept (s : State) (a p : WordMask) :
    Kept s { State.reset with pending := s.pending, store := s.storeAfterReset a p } := by
  refine ⟨rfl, fun sound => ⟨s.storeAfterReset_wf a p sound.store, ?bounded, ?cause, rfl⟩⟩
  case bounded => constructor <;> exact Nat.zero_le _
  case cause => exact ⟨nofun, nofun⟩

theorem State.busReady_kept (s : State) : Kept s s.busReady :=
  ((s.rep_kept { s.rep with clock := .crystal } le_rfl le_rfl).trans (State.bus_mild _ _).kept).trans
    (State.setFlag_quiet _ _).kept

/-! ### The bus between frames -/

theorem State.openWindow_kept (s : State) : Kept s s.openWindow :=
  ((((s.bus_mild _).trans (State.judgeItems_mild _)).trans (State.bus_mild _ _)).trans (State.retake_quiet _ _).mild).kept

theorem State.endEmptyWindow_kept (s : State) : Kept s s.endEmptyWindow := by
  unfold State.endEmptyWindow
  dsimp only
  split
  case isTrue listening => exact (s.bus_mild _).kept.trans (State.beginJoining_kept _ listening)
  case isFalse => exact (s.bus_mild _).kept

theorem State.breakRun_quiet (s : State) : Quiet s s.breakRun := by
  unfold State.breakRun
  split
  · exact s.endRun_quiet _ _
  · exact Quiet.refl s

theorem State.takeMark_kept (s : State) (n : Nat) : Kept s (s.takeMark n) := by
  unfold State.takeMark
  split
  case isFalse => exact Kept.refl s
  case isTrue =>
    split
    · exact Kept.refl s
    · split
      · exact (s.bus_mild _).kept
      · exact Kept.refl s
    · split_ifs
      · exact (s.resolveClaim_mild _).kept
      · exact Kept.refl s
      · exact Kept.refl s

/-! ### The timers -/

theorem State.repairTimer_kept (s : State) (l : Line) (e : RepairEntry) :
    Kept s (if e.expire.2 then
        ((({ s with repair := repairMap s.repair l fun e => e.expire.1 } : State).raise (repairFailed e)).releaseHeld true).settle
      else { s with repair := repairMap s.repair l fun e => e.expire.1 }) := by
  have moved : Quiet s { s with repair := repairMap s.repair l fun e => e.expire.1 } :=
    s.repair_quiet _ (repairMap_length _ _ _).le
  split
  · exact (((moved.trans (State.raise_quiet _ _)).trans (State.releaseHeld_quiet _ _)).mild.trans (State.settle_mild _)).kept
  · exact moved.kept

/-! ### Every command -/

/-- A command that leaves the state as it is or takes it on by an operation that keeps it. -/
theorem kept_ite {s t : State} {p : Prop} [Decidable p] (h : p → Kept s t) : Kept s (if p then t else s) := by
  split
  next hp => exact h hp
  next => exact Kept.refl s

theorem State.afterCompletion_kept {s t : State} (h : Kept s t) : Kept s t.afterCompletion :=
  (h.trans t.idlePort_mild.kept).trans (State.settle_mild _).kept

theorem State.releasedCompletion_kept {s t : State} (h : Kept s t) : Kept s (t.releaseSince s.repair).afterCompletion :=
  State.afterCompletion_kept (h.trans (t.releaseSince_quiet _).kept)

/-- Each of the 48 commands answers a next state, which keeps the queue and the invariant. -/
theorem exec_kept (c : Instr) (s : State) : ∃ t, exec c s = .next t ∧ Kept s t := by
  cases c with
  | coreReset a p => exact ⟨_, rfl, coreReset_kept s a p⟩
  | retentionLoss found => exact ⟨_, rfl, (s.store_kept _ fun _ => s.store.lose_wf found).trans (State.settle_mild _).kept⟩
  | arrayFault w raw => exact ⟨_, rfl, s.store_kept _ (s.store.fault_wf w raw)⟩
  | storeRead a => exact ⟨_, rfl, ((s.takeRequest_quiet _ _).mild.trans (State.settle_mild _)).kept⟩
  | storeWrite a d => exact ⟨_, rfl, ((s.takeRequest_quiet _ _).mild.trans (State.settle_mild _)).kept⟩
  | start => exact ⟨_, rfl, s.windowRequest_kept _ (s.startCommand_kept.trans (State.answer_quiet _ _ _).kept)⟩
  | leave => exact ⟨_, rfl, s.windowRequest_kept _ (s.leaveCommand_kept.trans (State.answer_quiet _ _ _).kept)⟩
  | rejoin => exact ⟨_, rfl, s.windowRequest_kept _ (s.rejoinCommand_kept.trans (State.answer_quiet _ _ _).kept)⟩
  | commit n => exact ⟨_, rfl, s.windowRequest_kept _ ((s.commitChain_quiet n).trans (State.answer_quiet _ _ _)).kept⟩
  | invalidCommand d => exact ⟨_, rfl, s.windowRequest_kept _ ((s.commandWord_kept d).trans (State.answer_quiet _ _ _).kept)⟩
  | statusWordWrite d => exact ⟨_, rfl, s.windowRequest_kept _ ((s.writeStatus_kept d).trans (State.answer_quiet _ _ _).kept)⟩
  | logRead => exact ⟨_, rfl, s.windowRequest_kept _ (s.readWindow_kept _)⟩
  | overflowCountRead => exact ⟨_, rfl, s.windowRequest_kept _ (s.readWindow_kept _)⟩
  | correctedWordCountRead => exact ⟨_, rfl, s.windowRequest_kept _ (s.readWindow_kept _)⟩
  | windowWrite a x =>
    refine ⟨_, rfl, s.windowRequest_kept _ ?_⟩
    cases x with
    | write d => exact s.writeWindow_kept a d
    | read => exact s.readWindow_kept a
  | stabilisationCountDone => exact ⟨_, rfl, kept_ite fun _ => s.rep_kept _ le_rfl le_rfl⟩
  | crystalPeriod => exact ⟨_, rfl, kept_ite fun _ => s.rep_kept _ le_rfl le_rfl⟩
  | busClockSwitchDone =>
    exact ⟨_, rfl, kept_ite fun h => (s.busReady_kept.trans (State.enterFilling_kept _ h.1)).trans (State.settle_mild _).kept⟩
  | applyCompletion =>
    refine ⟨_, rfl, ?_⟩
    split
    · exact State.afterCompletion_kept (s.completeApply_kept _)
    · exact Kept.refl s
  | localReadCompletion =>
    refine ⟨_, rfl, ?_⟩
    split
    · exact State.releasedCompletion_kept (s.completeLocalRead_kept _)
    · exact Kept.refl s
  | localWriteCompletion =>
    refine ⟨_, rfl, ?_⟩
    split
    · exact State.afterCompletion_kept (s.completeLocalWrite_kept _)
    · exact Kept.refl s
  | giveReadCompletion =>
    refine ⟨_, rfl, ?_⟩
    split
    · exact State.releasedCompletion_kept (s.completeGiveRead_kept _)
    · exact Kept.refl s
  | fillCopyCompletion =>
    refine ⟨_, rfl, ?_⟩
    split
    · exact State.afterCompletion_kept (s.completeFillCopy_kept _ _)
    · exact Kept.refl s
  | returnCopyCompletion =>
    refine ⟨_, rfl, ?_⟩
    split
    · exact State.afterCompletion_kept (s.completeReturnCopy_kept _ _)
    · exact Kept.refl s
  | serveReadCompletion =>
    refine ⟨_, rfl, ?_⟩
    split
    · exact State.releasedCompletion_kept (s.completeServe_kept _)
    · exact Kept.refl s
  | scrubStepCompletion =>
    refine ⟨_, rfl, ?_⟩
    split
    · exact State.releasedCompletion_kept (s.completeScrub_kept _)
    · exact Kept.refl s
  | fillWriteCompletion =>
    refine ⟨_, rfl, ?_⟩
    split
    · exact State.afterCompletion_kept (s.completeFill_kept _)
    · exact Kept.refl s
  | scrubIntervalExpiry => exact ⟨_, rfl, kept_ite fun _ => (s.chooseLine_quiet.mild.trans (State.settle_mild _)).kept⟩
  | claimWindowOpening => exact ⟨_, rfl, kept_ite fun _ => s.openWindow_kept.trans (State.settle_mild _).kept⟩
  | claimResolved p => exact ⟨_, rfl, kept_ite fun _ => (s.resolveClaim_mild p).kept⟩
  | emptyWindowEnd =>
    refine ⟨_, rfl, ?_⟩
    split
    · exact Kept.refl s
    · exact (s.bus_mild _).kept
    · exact kept_ite fun _ => s.endEmptyWindow_kept
  | continuation =>
    refine ⟨_, rfl, ?_⟩
    split
    · exact kept_ite fun _ => (s.continueRun_mild _ _).kept
    · exact Kept.refl s
  | breakField => exact ⟨_, rfl, kept_ite fun _ => (s.breakRun_quiet.mild.trans (State.bus_mild _ _)).kept⟩
  | join h x => exact ⟨_, rfl, s.frameEnd_kept _ x⟩
  | roster h x => exact ⟨_, rfl, s.frameEnd_kept _ x⟩
  | stall h x => exact ⟨_, rfl, s.frameEnd_kept _ x⟩
  | leaveFrame h x => exact ⟨_, rfl, s.frameEnd_kept _ x⟩
  | update h x => exact ⟨_, rfl, s.frameEnd_kept _ x⟩
  | ask h x => exact ⟨_, rfl, s.frameEnd_kept _ x⟩
  | give h x => exact ⟨_, rfl, s.frameEnd_kept _ x⟩
  | copy h x => exact ⟨_, rfl, s.frameEnd_kept _ x⟩
  | empty h x => exact ⟨_, rfl, s.frameEnd_kept _ x⟩
  | damagedFrame x => exact ⟨_, rfl, s.frameEnd_kept _ x⟩
  | quietTimerExpiry => exact ⟨_, rfl, kept_ite fun _ => (s.bus_mild _).kept⟩
  | rosterTimerExpiry =>
    refine ⟨_, rfl, kept_ite fun _ => ?_⟩
    split
    · exact (s.join_quiet { s.join with joinPending := true, rosterTimer := false } rfl rfl).kept
    · exact s.failJoin_kept.trans (State.settle_mild _).kept
  | repairTimerExpiry l =>
    refine ⟨_, rfl, ?_⟩
    split
    · exact Kept.refl s
    · exact s.repairTimer_kept l _
  | progressWindowExpiry g => exact ⟨_, rfl, (s.expireWindow_quiet g).kept⟩
  | windowMark n =>
    refine ⟨_, rfl, ?_⟩
    split
    · exact Kept.refl s
    · exact kept_ite fun _ => (s.bus_mild _).kept
    · exact s.takeMark_kept n

/-- Settles O2: the kept queue of `exec_kept`. -/
theorem everyCommandCompletes : Obligations.EveryCommandCompletes := by
  intro c s
  obtain ⟨t, next, kept⟩ := exec_kept c s
  exact ⟨t, next, kept.pending⟩

/-- Taking the front command from the queue leaves the invariant: no capacity counts the queue. -/
theorem Sound.dequeued {s : State} (h : Sound s) (rest : List Instr) : Sound { s with pending := rest } :=
  ⟨h.store, have b := h.bounded; ⟨b.log, b.overflow, b.out, b.repair, b.gives, b.suspects, b.corrected⟩, h.cause, h.view⟩

/-- Settles O3: an idle step changes nothing, and a command keeps the invariant by `exec_kept`. -/
theorem stepKeepsSoundness : Obligations.StepKeepsSoundness := by
  intro s t sound stepped
  unfold step at stepped
  cases queue : s.pending with
  | nil =>
    rw [queue] at stepped
    cases stepped
    exact sound
  | cons c rest =>
    rw [queue] at stepped
    obtain ⟨u, next, kept⟩ := exec_kept c { s with pending := rest }
    cases next.symm.trans stepped
    exact kept.sound (sound.dequeued rest)

/-- Settles O1: both clauses are the two branches of `step`. -/
theorem stepTakesTheFront : Obligations.StepTakesTheFront := by
  refine ⟨fun _ _ _ => rfl, fun s idle => ?_⟩
  rw [step, idle]

/-- Settles O4: an empty listing rises, the capacities are empty, and CONFIG holds neither cause nor view. -/
theorem resetIsSound : Obligations.ResetIsSound := by
  refine ⟨rfl, ?bounded, ⟨nofun, nofun⟩, rfl⟩
  case bounded => constructor <;> exact Nat.zero_le _

end Sys2Proof.Machine
end

section
/-! The STORE requests of the local port (R37 to R49, R54 to R57): one judgement for each stage, and the obligations that rest on
these. -/

namespace Sys2Proof.Machine

/-! ### A request at the port -/

/-- A STORE request is taken by an IDLE port, and the claimants then present. -/
theorem exec_storeCommand (d : Direction) (a : BitVec 16) (s : State) :
    exec (storeCommand a d) s = .next (s.takeRequest d a).settle := by
  cases d <;> rfl

theorem State.takeRequest_idle {s : State} (idle : s.port.request = none) (d : Direction) (a : BitVec 16) :
    s.takeRequest d a = s.judge ⟨d, a, .judging, none, none⟩ := by
  rw [State.takeRequest, idle]

theorem State.takeRequest_busy {s : State} {r : Request} (busy : s.port.request = some r) (d : Direction) (a : BitVec 16) :
    s.takeRequest d a = s := by
  rw [State.takeRequest, busy]

theorem State.windowRequest_busy {s : State} {r : Request} (busy : s.port.request = some r) (f : State → State) :
    s.windowRequest f = s := by
  rw [State.windowRequest, busy]

/-- What a STORE request taken by an IDLE port leaves is what its judgement leaves, up to the presentations. -/
theorem storeCommand_judged {s u : State} {d : Direction} {a : BitVec 16} (idle : s.port.request = none)
    (judged : s.judge ⟨d, a, .judging, none, none⟩ = u) : ∃ t, exec (storeCommand a d) s = .next t ∧ Settled u t :=
  ⟨u.settle, by rw [exec_storeCommand, s.takeRequest_idle idle, judged], u.settle_settled⟩

/-- Settles O11: a BUSY port hands each request back the state it met. -/
theorem busyPortTakesNoRequest : Obligations.BusyPortTakesNoRequest := by
  intro s r busy
  have window (f : State → State) : Host.Outcome.next (ρ := Refusal) (φ := Fault) (s.windowRequest f) = .next s :=
    congrArg _ (s.windowRequest_busy busy f)
  refine ⟨fun d a => ⟨s.settle, ?store, s.settle_settled⟩, window _, window _, window _, fun _ => window _, fun _ => window _,
    fun _ => window _, window _, window _, window _, fun _ _ => window _⟩
  case store => rw [exec_storeCommand, s.takeRequest_busy busy]

/-! ### The judgement (R39, R40) -/

theorem State.judge_started {s : State} (started : s.started = true) (r : Request) : s.judge r = s.judgeSegment r := by
  unfold State.judge
  cases station : s.join.station <;> simp_all [State.started]

theorem State.judgeSegment_filling {s : State} {r : Request} (h : s.fillPending r.segment = true) :
    s.judgeSegment r = s.holdRequest r .fillWait :=
  if_pos h

theorem State.fillPending_true {s : State} {g : Segment} (h : s.sp.fill[g] = .waiting ∨ s.sp.fill[g] = .filling) :
    s.fillPending g = true := by
  unfold State.fillPending
  obtain h | h := h <;> rw [h]

/-- Once the fill of its segment has ended, a read is judged by the local state. -/
theorem State.judge_read {s : State} {r : Request} (started : s.started = true) (filled : s.fillPending r.segment = false)
    (read : r.direction = .read) : s.judge r = s.judgeRead r := by
  rw [State.judge_started started, State.judgeSegment, if_neg (by simp [filled]), read]

/-- Once the fill of its segment has ended, a write is judged by the local state. -/
theorem State.judge_write {s : State} {r : Request} {d : Word} (started : s.started = true)
    (filled : s.fillPending r.segment = false) (write : r.direction = .write d) : s.judge r = s.judgeWrite r d := by
  rw [State.judge_started started, State.judgeSegment, if_neg (by simp [filled]), write]

/-- Settles O12: each of the three states is a branch of the judgement. -/
theorem storeRequestsWaitForStartUp : Obligations.StoreRequestsWaitForStartUp := by
  intro s d a idle
  refine ⟨fun config => storeCommand_judged idle ?_, fun clocking => storeCommand_judged idle ?_,
    fun started filling => storeCommand_judged idle ?_⟩
  · rw [State.judge, config]; rfl
  · rw [State.judge, clocking]; rfl
  · rw [State.judge_started started]
    exact State.judgeSegment_filling (State.fillPending_true filling)

/-! ### Reads (R41 to R44) -/

theorem State.judgeMemberRead_forwarded {s : State} {r : Request} {v : Word} (h : forwardLookup s.out r.line r.word = some v) :
    s.judgeMemberRead r = s.answer .done v := by
  rw [State.judgeMemberRead, h]

theorem State.judgeMemberRead_sent {s : State} {r : Request} (h : forwardLookup s.out r.line r.word = none) :
    s.judgeMemberRead r = s.sendRead r .member := by
  rw [State.judgeMemberRead, h]

theorem State.judgeStaleRead_forwarded {s : State} {r : Request} {v : Word} (h : forwardLookup s.out r.line r.word = some v) :
    s.judgeStaleRead r = s.answer .done v := by
  rw [State.judgeStaleRead, h]

theorem State.judgeStaleRead_stale {s : State} {r : Request} (h : forwardLookup s.out r.line r.word = none) :
    s.judgeStaleRead r = s.answer .stale 0 := by
  rw [State.judgeStaleRead, h]

/-- A read that may wait below the cursor is judged as a member's there, and as stale above. -/
theorem State.judgeRead_cursor {s : State} {r : Request}
    (h : s.localState r.segment = .catching ∨ s.localState r.segment = .orphaned) :
    s.judgeRead r = if s.belowCursor r.line then s.judgeMemberRead r else s.judgeStaleRead r := by
  unfold State.judgeRead
  obtain h | h := h <;> rw [h]

theorem State.judgeRead_below {s : State} {r : Request}
    (h : s.localState r.segment = .catching ∨ s.localState r.segment = .orphaned) (below : s.belowCursor r.line = true) :
    s.judgeRead r = s.judgeMemberRead r := by
  rw [State.judgeRead_cursor h, if_pos below]

theorem State.judgeRead_above {s : State} {r : Request}
    (h : s.localState r.segment = .catching ∨ s.localState r.segment = .orphaned) (above : s.belowCursor r.line = false) :
    s.judgeRead r = s.judgeStaleRead r := by
  rw [State.judgeRead_cursor h, if_neg (by simp [above])]

/-- At and above the cursor or below it, a forwarded word is answered. -/
theorem State.judgeRead_cursor_forwarded {s : State} {r : Request} {v : Word}
    (h : s.localState r.segment = .catching ∨ s.localState r.segment = .orphaned)
    (forwarded : forwardLookup s.out r.line r.word = some v) : s.judgeRead r = s.answer .done v := by
  rw [State.judgeRead_cursor h, State.judgeMemberRead_forwarded forwarded, State.judgeStaleRead_forwarded forwarded, ite_self]

theorem State.judgeRead_current {s : State} {r : Request} (h : s.localState r.segment = .current) :
    s.judgeRead r = s.judgeMemberRead r := by
  rw [State.judgeRead, h]

theorem State.judgeRead_off {s : State} {r : Request} (h : s.localState r.segment = .off) :
    s.judgeRead r = s.answer .refused 0 := by
  rw [State.judgeRead, h]

theorem State.judgeRead_localOnly {s : State} {r : Request} (h : s.localState r.segment = .localOnly) :
    s.judgeRead r = s.sendRead r .localSegment := by
  rw [State.judgeRead, h]

theorem State.judgeRead_detached {s : State} {r : Request}
    (h : s.localState r.segment = .detached ∨ s.localState r.segment = .mismatch) : s.judgeRead r = s.sendRead r .detached := by
  rw [State.judgeRead]
  obtain h | h := h <;> rw [h]

/-- Settles O13: the judgement by local state, and then by forwarding and cursor. -/
theorem storeReadIsJudged : Obligations.StoreReadIsJudged := by
  intro s a idle started waiting filling
  obtain ⟨r, hr⟩ : ∃ r : Request, r = ⟨.read, a, .judging, none, none⟩ := ⟨_, rfl⟩
  have line : lineOfAddress a = r.line := by rw [hr]; rfl
  have word : wordOfAddress a = r.word := by rw [hr]; rfl
  have segment : segmentOf r.line = r.segment := rfl
  have filled := State.fillPending_false waiting filling
  rw [line, segment] at filled ⊢
  rw [word]
  have judged : s.judge r = s.judgeRead r := State.judge_read started filled (by rw [hr])
  have completes {u : State} (h : s.judgeRead r = u) : ∃ t, exec (.storeRead a) s = .next t ∧ Settled u t :=
    storeCommand_judged (d := .read) idle (hr ▸ judged.trans h)
  have sentBy (rule : ReadRule) (h : s.judgeRead r = s.sendRead r rule) : ∃ t, exec (.storeRead a) s = .next t ∧
      Settled { s with port := { s.port with request := some ⟨.read, a, .storeWait, some rule, none⟩ } } t :=
    completes (h.trans (by rw [hr]; rfl))
  refine ⟨fun rule sent => sentBy rule ?_, fun st v direct => completes ?_⟩
  · cases state : s.localState r.segment <;> simp only [state] at sent
    case localOnly => exact sent ▸ State.judgeRead_localOnly state
    case detached => exact sent ▸ State.judgeRead_detached (.inl state)
    case mismatch => exact sent ▸ State.judgeRead_detached (.inr state)
    case current =>
      obtain ⟨rfl, none⟩ := sent
      rw [State.judgeRead_current state, State.judgeMemberRead_sent none]
    case catching =>
      obtain ⟨rfl, below, none⟩ := sent
      rw [State.judgeRead_below (.inl state) below, State.judgeMemberRead_sent none]
    case orphaned =>
      obtain ⟨rfl, below, none⟩ := sent
      rw [State.judgeRead_below (.inr state) below, State.judgeMemberRead_sent none]
  · have cursor (h : s.localState r.segment = .catching ∨ s.localState r.segment = .orphaned)
        (direct : (st = .done ∧ forwardLookup s.out r.line r.word = some v) ∨
          (st = .stale ∧ v = 0 ∧ s.belowCursor r.line = false ∧ forwardLookup s.out r.line r.word = none)) :
        s.judgeRead r = s.answer st v := by
      obtain ⟨rfl, forwarded⟩ | ⟨rfl, rfl, above, none⟩ := direct
      · exact State.judgeRead_cursor_forwarded h forwarded
      · rw [State.judgeRead_above h above, State.judgeStaleRead_stale none]
    cases state : s.localState r.segment <;> simp only [state] at direct
    case off =>
      obtain ⟨rfl, rfl⟩ := direct
      exact State.judgeRead_off state
    case current =>
      obtain ⟨rfl, forwarded⟩ := direct
      rw [State.judgeRead_current state, State.judgeMemberRead_forwarded forwarded]
      rfl
    case catching => exact cursor (.inl state) direct
    case orphaned => exact cursor (.inr state) direct

/-! ### Forwarding (R57) -/

/-- An entry forwards nothing exactly where it holds no UPDATE of the word. -/
theorem OutEntry.forwards_none {e : OutEntry} {l : Line} {i : WordIx}
    (h : ∀ g m slots c, e.body = .update g l m slots c → m.has i = false) : e.forwards l i = none := by
  unfold OutEntry.forwards
  split
  next g line m slots c body =>
    refine if_neg fun held => ?_
    obtain ⟨rfl, has⟩ : line = l ∧ m.has i = true := by simpa using held
    exact Bool.false_ne_true ((h g m slots c body).symm.trans has)
  next => rfl

theorem findSome_forwards_none {q : List OutEntry} {l : Line} {i : WordIx}
    (h : ∀ y ∈ q, ∀ g m slots c, y.body = .update g l m slots c → m.has i = false) :
    q.reverse.findSome? (fun e => e.forwards l i) = none :=
  List.findSome?_eq_none_iff.mpr fun y hy => OutEntry.forwards_none (h y (List.mem_reverse.mp hy))

/-- Settles O14: the lookup runs from the tail, past the entries that forward nothing. -/
theorem forwardingFindsTheYoungest : Obligations.ForwardingFindsTheYoungest := by
  intro l i
  refine ⟨fun older younger g m slots c st n has none => ?_, fun q none => findSome_forwards_none none⟩
  have held : OutEntry.forwards ⟨.update g l m slots c, st, n⟩ l i = some slots[i] := if_pos (by simp [has])
  rw [forwardLookup, List.reverse_append, List.reverse_cons, List.append_assoc, List.findSome?_append,
    findSome_forwards_none none, Option.none_or, List.singleton_append, List.findSome?_cons_of_isSome (by simp [held]), held]

/-! ### Writes (R48, R49) -/

theorem State.judgeWrite_localOnly {s : State} {r : Request} {d : Word} (h : s.localState r.segment = .localOnly) :
    s.judgeWrite r d = s.holdRequest r .storeWait := by
  rw [State.judgeWrite, h]

theorem State.judgeWrite_refused {s : State} {r : Request} {d : Word}
    (h : s.localState r.segment ∈ [LocalState.off, .detached, .mismatch, .orphaned]) :
    s.judgeWrite r d = s.answer .refused 0 := by
  rw [State.judgeWrite]
  simp only [List.mem_cons, List.not_mem_nil, or_false] at h
  obtain h | h | h | h := h <;> rw [h]

theorem State.judgeWrite_posted {s : State} {r : Request} {d : Word}
    (h : s.localState r.segment = .current ∨ s.localState r.segment = .catching) :
    s.judgeWrite r d = if s.join.station = .joined then s.offerWrite r d else s.answer .refused 0 := by
  rw [State.judgeWrite]
  obtain h | h := h <;> rw [h]

/-- A LEAVING station posts no write of a mirrored segment. -/
theorem State.judgeWrite_leaving {s : State} {r : Request} {d : Word} (h : s.localState r.segment ≠ .localOnly)
    (leaving : s.join.station = .leaving) : s.judgeWrite r d = s.answer .refused 0 := by
  have posted (state : s.localState r.segment = .current ∨ s.localState r.segment = .catching) :
      s.judgeWrite r d = s.answer .refused 0 :=
    (State.judgeWrite_posted state).trans (if_neg (by simp [leaving]))
  cases state : s.localState r.segment
  case localOnly => exact absurd state h
  case current => exact posted (.inl state)
  case catching => exact posted (.inr state)
  all_goals exact State.judgeWrite_refused (by simp [state])

/-- Settles O15: the judgement of a write by local state, LEAVING taken last. -/
theorem storeWriteAnsweredOrSent : Obligations.StoreWriteAnsweredOrSent := by
  intro s a d idle started waiting filling
  obtain ⟨r, hr⟩ : ∃ r : Request, r = ⟨.write d, a, .judging, none, none⟩ := ⟨_, rfl⟩
  have segment : segmentOf (lineOfAddress a) = r.segment := by rw [hr]; rfl
  have filled := State.fillPending_false waiting filling
  rw [segment] at filled ⊢
  have judged : s.judge r = s.judgeWrite r d := State.judge_write started filled (by rw [hr])
  have completes {u : State} (h : s.judgeWrite r d = u) : ∃ t, exec (.storeWrite a d) s = .next t ∧ Settled u t :=
    storeCommand_judged (d := .write d) idle (hr ▸ judged.trans h)
  refine ⟨fun state => completes ?sent, fun refused => completes ?refused⟩
  case sent => rw [State.judgeWrite_localOnly state, hr]; rfl
  case refused =>
    obtain state | ⟨mirrored, leaving⟩ := refused
    · exact State.judgeWrite_refused state
    · exact State.judgeWrite_leaving mirrored leaving

/-! ### Writes that the queue admits (R49, R54, R55) -/

/-- The youngest entry of a line takes the word, where it can: the entries younger than it do not reference the line. -/
theorem combineFirst_youngest {refs : OutEntry → Bool} {i : WordIx} {d : Word} {e e' : OutEntry} (younger older : List OutEntry)
    (ref : refs e = true) (none : ∀ y ∈ younger, refs y = false) (takes : e.combine i d = some e') :
    combineFirst refs i d (younger ++ e :: older) = some (younger ++ e' :: older) := by
  induction younger with
  | nil => rw [List.nil_append, combineFirst, if_pos ref, takes]; rfl
  | cons y ys ih =>
    have skip : refs y = false := none y (by simp)
    rw [List.cons_append, combineFirst, if_neg (by simp [skip]), ih fun x hx => none x (by simp [hx])]
    rfl

theorem words4_replace (slots : Vector Word 4) (i : WordIx) (d : Word) :
    (words4 fun j => if j = i then d else slots[j]) = slots.set i d := by
  refine Vector.ext fun n hn => ?_
  have get := words4_get (fun j => if j = i then d else slots[j]) ⟨n, hn⟩
  rw [Fin.getElem_fin] at get
  rw [get, Vector.getElem_set]
  by_cases same : i.val = n
  · rw [if_pos same, if_pos (Fin.ext same.symm)]
  · rw [if_neg same, if_neg fun h => same (congrArg Fin.val h).symm]
    rfl

/-- An entry that combines takes the word in its slot, and its mask the word's bit. -/
theorem OutEntry.combine_waiting (g : Segment) (l : Line) (m : WordMask) (slots : Vector Word 4) (n : Nat) (i : WordIx) (d : Word) :
    OutEntry.combine ⟨.update g l m slots true, .waiting, n⟩ i d =
      some ⟨.update g l (m ||| WordMask.single i) (slots.set i d) true, .waiting, n⟩ :=
  congrArg (fun w => some (⟨.update g l (m ||| WordMask.single i) w true, .waiting, n⟩ : OutEntry)) (words4_replace slots i d)

theorem OutEntry.combine_none {e : OutEntry} {i : WordIx} {d : Word} (h : ¬e.canCombine) : e.combine i d = none := by
  unfold OutEntry.combine
  split
  next g l m slots body waiting => exact absurd ⟨waiting, g, l, m, slots, body⟩ h
  next => rfl

/-- Where the youngest entry of the line can take no write, none combines. -/
theorem combineFirst_needsNew {s : State} {l : Line} (i : WordIx) (d : Word) (h : NeedsNewEntry s l) :
    combineFirst (fun e => e.references s.commit.staging l) i d s.out.reverse = none := by
  refine combineFirst_none _ _ _ _ fun younger e older reversed ref none => OutEntry.combine_none ?_
  refine h older.reverse e younger.reverse ?_ ref fun y hy => none y (List.mem_reverse.mp hy)
  rw [← List.reverse_reverse s.out, reversed]
  simp

/-- Settles O16: the queue takes the write by combining, by a new entry, or not at all. -/
theorem storeWriteEntersTheQueue : Obligations.StoreWriteEntersTheQueue := by
  intro s a d idle joined waiting filling state
  obtain ⟨r, hr⟩ : ∃ r : Request, r = ⟨.write d, a, .judging, none, none⟩ := ⟨_, rfl⟩
  have segment : segmentOf (lineOfAddress a) = r.segment := by rw [hr]; rfl
  have filled := State.fillPending_false waiting filling
  rw [segment] at filled state
  have judged : s.judge r = s.offerWrite r d := by
    rw [State.judge_write (by simp [State.started, joined]) filled (by rw [hr]), State.judgeWrite_posted state, if_pos joined]
  have completes {u : State} (h : s.offerWrite r d = u) : ∃ t, exec (.storeWrite a d) s = .next t ∧ Settled u t :=
    storeCommand_judged (d := .write d) idle (hr ▸ judged.trans h)
  have taken {q : List OutEntry} (h : queueTake s.commit.staging s.out (lineOfAddress a) (wordOfAddress a) d = some q) :
      s.offerWrite r d = { s with out := q, port := answered .done 0 } := by
    rw [State.offerWrite, hr, Request.line, Request.word, h]; rfl
  refine ⟨fun older younger g m slots n out none => completes (taken ?combined), fun needs =>
    ⟨fun room => completes (taken ?new), fun full => completes ?held⟩⟩
  case combined =>
    have first := combineFirst_youngest (refs := fun e => e.references s.commit.staging (lineOfAddress a)) younger.reverse older.reverse
      (by simp [OutEntry.references]) (fun y hy => none y (List.mem_reverse.mp hy))
      (OutEntry.combine_waiting g (lineOfAddress a) m slots n (wordOfAddress a) d)
    have reversed : s.out.reverse = younger.reverse ++ ⟨.update g (lineOfAddress a) m slots true, .waiting, n⟩ :: older.reverse := by
      simp [out]
    rw [queueTake, reversed, first]
    simp
  case new => exact queueTake_new _ _ s _ _ _ rfl rfl needs room
  case held =>
    rw [State.offerWrite, hr, Request.line, Request.word, queueTake, combineFirst_needsNew _ _ needs]
    simp only [full, outboundCapacity, lt_irrefl, ↓reduceIte]
    rfl

end Sys2Proof.Machine
end

section
/-! The retention domain: where the words of a write go, what a core reset leaves of a cut operation, and the obligations that
rest on these (R6, R7, R11, R12). -/

namespace Sys2Proof.Machine

/-! ### The words of a mask -/

@[simp] theorem WordMask.has_and (m n : WordMask) (i : WordIx) :
    WordMask.has (m &&& n) i = (WordMask.has m i && WordMask.has n i) := BitVec.getLsbD_and

@[simp] theorem WordMask.has_or (m n : WordMask) (i : WordIx) :
    WordMask.has (m ||| n) i = (WordMask.has m i || WordMask.has n i) := BitVec.getLsbD_or

theorem WordMask.has_zero (i : WordIx) : WordMask.has 0 i = false := BitVec.getLsbD_zero

theorem WordMask.has_all : ∀ i : WordIx, WordMask.has 15 i = true := by decide

theorem spare_ne_arrayWord (k : SpareIx) (i : WordIx) (l : Line) (j : WordIx) : StoreWord.spare k i ≠ arrayWord l j := nofun

/-- What a word holds after the words of a mask are written: its new cell where it is one of them, else what it held. -/
theorem Store.putMask_cell (st : Store) {at' : WordIx → StoreWord} (inj : ∀ i j, at' i = at' j → i = j) (m : WordMask)
    (cell : WordIx → Cell) (w : StoreWord) :
    (∃ i, m.has i = true ∧ at' i = w ∧ (st.putMask at' m cell).cell w = cell i) ∨
      ((∀ i, m.has i = true → at' i ≠ w) ∧ (st.putMask at' m cell).cell w = st.cell w) := by
  by_cases hit : ∃ i, m.has i = true ∧ at' i = w
  · obtain ⟨i, has, rfl⟩ := hit
    exact .inl ⟨i, has, rfl, st.putMask_written at' inj m cell i has⟩
  · have miss : ∀ i, m.has i = true → at' i ≠ w := fun i has same => hit ⟨i, has, same⟩
    exact .inr ⟨miss, st.putMask_other at' m cell w miss⟩

theorem arrayWord_injOn (l : Line) (i j : WordIx) (h : arrayWord l i = arrayWord l j) : i = j := (arrayWord_inj h).2

theorem spare_injOn (k : SpareIx) (i j : WordIx) (h : StoreWord.spare k i = .spare k j) : i = j := by
  injection h

/-! ### Words written to a line, by its entry -/

theorem Store.writeParts_array {st : Store} {l : Line} (h : st.spareFor l = none) (a p : WordMask) (cell : WordIx → Cell) :
    st.writeParts l a p cell = st.putMask (arrayWord l) a cell := by
  rw [Store.writeParts, h]

theorem Store.writeParts_active {st : Store} {l : Line} {k : SpareIx} (h : st.spareFor l = some k)
    (active : st.table[k].state = .active) (a p : WordMask) (cell : WordIx → Cell) :
    st.writeParts l a p cell = st.putMask (.spare k) p cell := by
  rw [Store.writeParts, h]
  exact if_pos (by rw [active]; rfl)

theorem Store.writeParts_filling {st : Store} {l : Line} {k : SpareIx} (h : st.spareFor l = some k)
    (filling : st.table[k].state ≠ .active) (a p : WordMask) (cell : WordIx → Cell) :
    st.writeParts l a p cell = ((st.putMask (arrayWord l) a cell).putMask (.spare k) p cell).markWritten k p := by
  rw [Store.writeParts, h]
  exact if_neg (by simpa using filling)

/-- Through an ACTIVE spare the array is left as it is. -/
theorem Store.writeWords_activeOther {st : Store} {l : Line} {k : SpareIx} (h : st.spareFor l = some k)
    (active : st.table[k].state = .active) (m : WordMask) (cell : WordIx → Cell) (x : StoreWord)
    (other : ∀ i, m.has i = true → StoreWord.spare k i ≠ x) : (st.writeWords l m cell).cell x = st.cell x := by
  unfold Store.writeWords
  split
  · rfl
  · rw [Store.activateLine_cell, Store.writeParts_active h active]
    exact st.putMask_other _ _ _ _ other

theorem Store.writeWords_empty (st : Store) (l : Line) (cell : WordIx → Cell) : st.writeWords l 0 cell = st := if_pos rfl

/-- The entry that redirects a line is FILLING or ACTIVE, and names it. -/
theorem SpareEntry.line_of_names {e : SpareEntry} {l : Line} (h : e.names l = true) : e.line = some l := by
  simp only [SpareEntry.names, Bool.and_eq_true, beq_iff_eq] at h
  exact h.2

/-- What a write of masked words through a FILLING entry leaves of the table, the empty mask included. -/
theorem Store.writeWords_fillingEntry {st : Store} {l : Line} {k : SpareIx} (h : st.spareFor l = some k)
    (names : st.table[k].names l = true) (filling : st.table[k].state = .filling) (m : WordMask) (cell : WordIx → Cell) :
    (∀ j : SpareIx, j ≠ k → (st.writeWords l m cell).table[j] = st.table[j]) ∧
    (st.table[k].mask ≠ 15 → (st.writeWords l m cell).table[k] =
      ⟨if st.table[k].mask ||| m = 15 then .active else .filling, some l, st.table[k].mask ||| m⟩) := by
  by_cases empty : m = 0
  · subst empty
    rw [Store.writeWords_empty]
    refine ⟨fun _ _ => rfl, fun partly => ?_⟩
    have same : st.table[k].mask ||| 0 = st.table[k].mask := BitVec.or_zero
    rw [same, if_neg partly, ← filling, ← SpareEntry.line_of_names names]
  · rw [Store.writeWords_filling st l m cell k h filling empty]
    refine ⟨fun j other => ?_, fun _ => ?_⟩
    · rw [Fin.getElem_fin, Vector.getElem_set_ne _ _ fun same => other (Fin.ext same.symm)]
      rfl
    · rw [Fin.getElem_fin, Vector.getElem_set_self, ← SpareEntry.line_of_names names]
      rfl

/-! ### Reads of a line -/

/-- An ACTIVE entry that names a line is in force for it. -/
theorem Store.activeSpare_of {st : Store} {l : Line} {k : SpareIx} (h : st.spareFor l = some k)
    (active : st.table[k].state = .active) : st.activeSpare l = some k := by
  rw [Store.activeSpare, h, Option.filter_some, active]
  rfl

theorem Store.spareFor_names {st : Store} {l : Line} {k : SpareIx} (h : st.spareFor l = some k) :
    st.table[k].names l = true := by
  unfold Store.spareFor at h
  split at h
  · cases h
  · exact List.find?_some (p := fun k : SpareIx => st.table[k].names l) h

theorem Store.activeSpare_none {st : Store} {l : Line}
    (h : ∀ k : SpareIx, st.table[k].line = some l → st.table[k].state ≠ .active) : st.activeSpare l = none := by
  rw [Store.activeSpare, Option.filter_eq_none_iff]
  intro k redirects
  have line := SpareEntry.line_of_names (Store.spareFor_names redirects)
  simpa using h k line

/-- Settles O8: the entry that names the line, by its state, and a read by the ACTIVE entry. -/
theorem theSpareTableRedirects : Obligations.TheSpareTableRedirects := by
  refine ⟨fun st w inUse => ⟨fun k names alone => ⟨fun active => ?active, fun filling => ?filling⟩, fun unnamed => ?array⟩,
    fun st l => ⟨fun k inUse active line alone i => ?spare, fun inactive i => ?plain⟩⟩
  case active =>
    have redirects := st.spareFor_unique w.line k inUse names alone
    refine ⟨fun i has => st.writeWords_spare _ _ _ _ _ redirects has, fun x other => ?_, ?_⟩
    · exact Store.writeWords_activeOther redirects active _ _ x fun i has same => other i has same.symm
    · refine st.writeWords_table _ _ _ fun j found => ?_
      cases redirects.symm.trans found
      exact active
  case filling =>
    have redirects := st.spareFor_unique w.line k inUse names alone
    refine ⟨fun i has => ⟨st.writeWords_spare _ _ _ _ _ redirects has, st.writeWords_both _ _ _ _ _ redirects filling has⟩,
      fun x other => ?_, Store.writeWords_fillingEntry redirects names filling _ _⟩
    refine st.writeWords_other _ _ _ x (fun i has same => (other i has).2 same.symm) fun j found i has same => ?_
    cases redirects.symm.trans found
    exact (other i has).1 same.symm
  case array =>
    have array := st.spareFor_none w.line unnamed
    refine ⟨fun i has => st.writeWords_array _ _ _ _ array has, fun x other => ?_, ?_⟩
    · exact st.writeWords_other _ _ _ x (fun i has same => other i has same.symm) (by simp [array])
    · exact st.writeWords_table _ _ _ (by simp [array])
  case spare =>
    have names : st.table[k].names l = true := by rw [SpareEntry.names, active, line]; simp
    have redirects := st.spareFor_unique l k inUse names alone
    rw [Store.readLine_get, st.readAt_spare l k i (Store.activeSpare_of redirects active)]
  case plain => rw [Store.readLine_get, st.readAt_array l i (Store.activeSpare_none inactive)]

/-! ### A cut operation (R6) -/

/-- What an operation cut short leaves of a store, beside what the whole operation would have left: a word is old or new, and a
mask bit is set with the new spare word. -/
structure CutShort (st whole t : Store) : Prop where
  marker : t.marker = st.marker
  lost   : t.tableLost = st.tableLost
  entry  : ∀ k : SpareIx, t.table[k].state = st.table[k].state ∧ t.table[k].line = st.table[k].line
  cells  : ∀ w, t.cell w = st.cell w ∨ t.cell w = whole.cell w
  kept   : ∀ (k : SpareIx) i, st.table[k].mask.has i = true → t.table[k].mask.has i = true
  set    : ∀ (k : SpareIx) i, st.table[k].mask.has i = false → t.table[k].mask.has i = true →
             t.cell (.spare k i) = whole.cell (.spare k i)
  clear  : ∀ (k : SpareIx) i, t.table[k].mask.has i = false → st.table[k].state = .filling →
             t.cell (.spare k i) = st.cell (.spare k i)

/-- A cut operation that leaves the table as it was: its bits are as they were, and it writes no FILLING spare. -/
theorem CutShort.ofCells {st whole t : Store} (same : SameTable st t) (cells : ∀ w, t.cell w = st.cell w ∨ t.cell w = whole.cell w)
    (clear : ∀ (k : SpareIx) (i : WordIx), st.table[k].state = .filling → t.cell (.spare k i) = st.cell (.spare k i)) :
    CutShort st whole t where
  marker := same.marker
  lost := same.lost
  entry k := by rw [same.table]; exact ⟨rfl, rfl⟩
  cells := cells
  kept k i h := by rw [same.table]; exact h
  set k i clear set := by rw [same.table, clear] at set; cases set
  clear k i _ filling := clear k i filling

theorem CutShort.refl (st whole : Store) : CutShort st whole st :=
  .ofCells (SameTable.refl st) (fun _ => .inl rfl) fun _ _ _ => rfl

theorem Store.markWritten_table (st : Store) (k j : SpareIx) (m : WordMask) :
    (st.markWritten k m).table[j] = if j = k then { st.table[k] with mask := st.table[k].mask ||| m } else st.table[j] := by
  rw [Store.markWritten, Store.setEntry, Fin.getElem_fin, Vector.getElem_set]
  by_cases same : j = k
  · rw [if_pos same, if_pos (congrArg Fin.val same).symm]
  · rw [if_neg same, if_neg fun h => same (Fin.ext h.symm)]
    rfl

/-- A cut operation that writes words of spare line k and sets the same bits: the words of `m`, of the cells it would have left. -/
theorem CutShort.ofMark {st whole a : Store} {k : SpareIx} {m : WordMask} (same : SameTable st a)
    (cells : ∀ w, a.cell w = st.cell w ∨ a.cell w = whole.cell w)
    (written : ∀ i, m.has i = true → a.cell (.spare k i) = whole.cell (.spare k i))
    (other : ∀ (j : SpareIx) i, (j = k → m.has i = false) → a.cell (.spare j i) = st.cell (.spare j i)) :
    CutShort st whole (a.markWritten k m) where
  marker := same.marker
  lost := same.lost
  entry j := by
    rw [Store.markWritten_table, same.table]
    by_cases e : j = k
    · subst e; rw [if_pos rfl]; exact ⟨rfl, rfl⟩
    · rw [if_neg e]; exact ⟨rfl, rfl⟩
  cells w := by rw [Store.markWritten_cell]; exact cells w
  kept j i h := by
    rw [Store.markWritten_table, same.table]
    by_cases e : j = k
    · subst e; rw [if_pos rfl]; simp [-Fin.getElem_fin, h]
    · rw [if_neg e]; exact h
  set j i clear set := by
    rw [Store.markWritten_table, same.table] at set
    rw [Store.markWritten_cell]
    by_cases e : j = k
    · subst e
      rw [if_pos rfl, WordMask.has_or, clear, Bool.false_or] at set
      exact written i set
    · rw [if_neg e, clear] at set
      cases set
  clear j i clear _ := by
    rw [Store.markWritten_table, same.table] at clear
    rw [Store.markWritten_cell]
    refine other j i fun e => ?_
    subst e
    rw [if_pos rfl, WordMask.has_or, Bool.or_eq_false_iff] at clear
    exact clear.2

/-- Words of a line cut short, each copy by its own mask. -/
theorem Store.writeParts_cutShort (st : Store) (l : Line) (m a p : WordMask) (cell : WordIx → Cell) :
    CutShort st (st.writeWords l m cell) (st.writeParts l (m &&& a) (m &&& p) cell) := by
  cases redirects : st.spareFor l with
  | none =>
    rw [Store.writeParts_array redirects]
    refine .ofCells (st.putMask_same _ _ _) (fun w => ?_) fun k i _ =>
      st.putMask_other _ _ _ _ fun j _ same => spare_ne_arrayWord k i l j same.symm
    obtain ⟨i, has, rfl, new⟩ | ⟨-, old⟩ := st.putMask_cell (arrayWord_injOn l) (m &&& a) cell w
    · simp only [WordMask.has_and, Bool.and_eq_true] at has
      exact .inr (new.trans (st.writeWords_array l m cell i redirects has.1).symm)
    · exact .inl old
  | some k =>
    by_cases active : st.table[k].state = .active
    · rw [Store.writeParts_active redirects active]
      refine .ofCells (st.putMask_same _ _ _) (fun w => ?_) fun j i filling => ?_
      · obtain ⟨i, has, rfl, new⟩ | ⟨-, old⟩ := st.putMask_cell (spare_injOn k) (m &&& p) cell w
        · simp only [WordMask.has_and, Bool.and_eq_true] at has
          exact .inr (new.trans (st.writeWords_spare l m cell i k redirects has.1).symm)
        · exact .inl old
      · refine st.putMask_other _ _ _ _ fun n _ same => ?_
        cases same
        rw [active] at filling
        cases filling
    · have filling : st.table[k].state = .filling := by
        have names := Store.spareFor_names redirects
        unfold SpareEntry.names at names
        split at names
        next h => exact h
        next h => exact absurd h active
        all_goals simp at names
      rw [Store.writeParts_filling redirects active]
      have written (i : WordIx) (has : (m &&& p).has i = true) :
          ((st.putMask (arrayWord l) (m &&& a) cell).putMask (.spare k) (m &&& p) cell).cell (.spare k i) =
            (st.writeWords l m cell).cell (.spare k i) := by
        rw [Store.putMask_written _ _ (spare_injOn k) _ _ _ has]
        simp only [WordMask.has_and, Bool.and_eq_true] at has
        exact (st.writeWords_spare l m cell i k redirects has.1).symm
      refine .ofMark ((st.putMask_same _ _ _).trans (Store.putMask_same _ _ _ _)) (fun w => ?_) written fun j i unset => ?_
      · obtain ⟨i, has, rfl, -⟩ | ⟨-, old⟩ :=
          (st.putMask (arrayWord l) (m &&& a) cell).putMask_cell (spare_injOn k) (m &&& p) cell w
        · exact .inr (written i has)
        · rw [old]
          obtain ⟨i, has, rfl, new⟩ | ⟨-, old⟩ := st.putMask_cell (arrayWord_injOn l) (m &&& a) cell w
          · simp only [WordMask.has_and, Bool.and_eq_true] at has
            exact .inr (new.trans (st.writeWords_both l m cell i k redirects filling has.1).symm)
          · exact .inl old
      · rw [Store.putMask_other, Store.putMask_other]
        · exact fun n _ same => spare_ne_arrayWord j i l n same.symm
        · intro n has same
          cases same
          rw [unset rfl] at has
          cases has

/-- A fill copy cut short. -/
theorem Store.fillCopy_cutShort (st : Store) (k : SpareIx) (l : Line) (p : WordMask) :
    CutShort st (st.fillCopy k l) (st.fillCopyWords k l (st.fillMask k l &&& p)) := by
  have whole (i : WordIx) (has : (st.fillMask k l).has i = true) :
      (st.fillCopy k l).cell (.spare k i) = (st.arrayLine l)[i].cleaned := by
    rw [Store.fillCopy, Store.activate_cell, Store.fillCopyWords, Store.markWritten_cell]
    exact st.putMask_written _ (spare_injOn k) _ _ i has
  have written (i : WordIx) (has : (st.fillMask k l &&& p).has i = true) :
      (st.putMask (.spare k) (st.fillMask k l &&& p) fun i => (st.arrayLine l)[i].cleaned).cell (.spare k i) =
        (st.fillCopy k l).cell (.spare k i) := by
    rw [st.putMask_written _ (spare_injOn k) _ _ i has]
    simp only [WordMask.has_and, Bool.and_eq_true] at has
    exact (whole i has.1).symm
  refine .ofMark (st.putMask_same _ _ _) (fun w => ?_) written fun j i unset => ?_
  · obtain ⟨i, has, rfl, -⟩ | ⟨-, old⟩ := st.putMask_cell (spare_injOn k) (st.fillMask k l &&& p)
      (fun i => (st.arrayLine l)[i].cleaned) w
    · exact .inr (written i has)
    · exact .inl old
  · refine st.putMask_other _ _ _ _ fun n has same => ?_
    cases same
    rw [unset rfl] at has
    cases has

/-- Words of the array cut short write no spare. -/
theorem Store.putArray_cutShort (st : Store) (l : Line) (a : WordMask) (cell : WordIx → Cell) :
    CutShort st (st.putMask (arrayWord l) 15 cell) (st.putMask (arrayWord l) a cell) := by
  refine .ofCells (st.putMask_same _ _ _) (fun w => ?_) fun j i _ =>
    st.putMask_other _ _ _ _ fun n _ same => spare_ne_arrayWord j i l n same.symm
  obtain ⟨i, -, rfl, new⟩ | ⟨-, old⟩ := st.putMask_cell (arrayWord_injOn l) a cell w
  · exact .inr (new.trans (st.putMask_written _ (arrayWord_injOn l) 15 cell i (WordMask.has_all i)).symm)
  · exact .inl old

/-- A return copy cut short. -/
theorem Store.returnCopy_cutShort (st : Store) (k : SpareIx) (l : Line) (a : WordMask) :
    CutShort st (st.returnCopyWords k l 15) (st.returnCopyWords k l a) :=
  st.putArray_cutShort l a _

/-- Every operation in progress is cut short word by word. -/
theorem State.storeAfterReset_cutShort (s : State) (a p : WordMask) (r : Running) (h : s.sp.running = some r) :
    CutShort s.store (s.wholeStore r.op) (s.storeAfterReset a p) := by
  obtain ⟨c, op⟩ := r
  rw [State.storeAfterReset, h]
  dsimp only
  cases op with
  | write w => exact s.store.writeParts_cutShort w.line w.mask a p w.cell
  | read l =>
    cases scrub : s.scrub (segmentOf l) with
    | off =>
      have none := s.store.writeParts_cutShort l 0 a p fun i => (s.store.readLine l)[i].cleaned
      rw [Store.writeWords_empty] at none
      simpa only [Store.cutShort, State.wholeStore, scrub, bne_self_eq_false, Bool.false_eq_true, ↓reduceIte] using none
    | passive | active =>
      simp only [Store.cutShort, State.wholeStore, scrub, reduceCtorEq, ↓reduceIte]
      exact s.store.writeParts_cutShort l (correctableMask (s.store.readLine l)) a p fun i => (s.store.readLine l)[i].cleaned
  | fillCopy k l =>
    cases lost : s.store.tableLost with
    | true => simpa only [Store.cutShort, State.wholeStore, lost, ↓reduceIte] using CutShort.refl s.store s.store
    | false =>
      simpa only [Store.cutShort, State.wholeStore, lost, Bool.false_eq_true, ↓reduceIte] using s.store.fillCopy_cutShort k l p
  | returnCopy k l =>
    cases lost : s.store.tableLost with
    | true => simpa only [Store.cutShort, State.wholeStore, lost, ↓reduceIte] using CutShort.refl s.store s.store
    | false =>
      simpa only [Store.cutShort, State.wholeStore, lost, Bool.false_eq_true, ↓reduceIte] using s.store.returnCopy_cutShort k l a

/-- Whatever is in progress, a core reset leaves the retention domain but for words and bits of the cut operation. -/
theorem State.storeAfterReset_table (s : State) (a p : WordMask) :
    (s.storeAfterReset a p).marker = s.store.marker ∧ (s.storeAfterReset a p).tableLost = s.store.tableLost ∧
    ∀ k : SpareIx, (s.storeAfterReset a p).table[k].state = s.store.table[k].state ∧
      (s.storeAfterReset a p).table[k].line = s.store.table[k].line := by
  cases running : s.sp.running with
  | none => rw [State.storeAfterReset, running]; exact ⟨rfl, rfl, fun _ => ⟨rfl, rfl⟩⟩
  | some r =>
    have cut := s.storeAfterReset_cutShort a p r running
    exact ⟨cut.marker, cut.lost, cut.entry⟩

/-- The segments' fields of the default block (R174). -/
theorem reset_segment : ∀ g : Segment, State.reset.mode g = .localOnly ∧ State.reset.mirrorSet g = 0 ∧
    State.reset.scrub g = .passive ∧ State.reset.fillFlag g = false := by
  decide

/-- The commit unit's records after a core reset. -/
theorem reset_record (r : RecordIx) : State.reset.commit.staging[r] = Record.zero := Vector.getElem_replicate _

/-- Settles O5: the core domain by its reset values, the retention domain by `State.storeAfterReset_cutShort`. -/
theorem coreResetClearsTheCoreDomain : Obligations.CoreResetClearsTheCoreDomain := by
  intro arr spr s
  obtain ⟨marker, lost, entry⟩ := s.storeAfterReset_table arr spr
  refine ⟨_, exec_coreReset arr spr s, rfl, rfl, rfl, rfl, ?fill, rfl, rfl, rfl, ?marks, rfl, rfl, rfl, rfl, rfl, rfl, rfl, rfl,
    rfl, rfl, rfl, ?staging, rfl, rfl, rfl, rfl, rfl, rfl, rfl, rfl, rfl, rfl, rfl, rfl, rfl, rfl, rfl, rfl, rfl, rfl, rfl,
    ?rosters, ?jobs, rfl, rfl, ?monitors, reset_segment, rfl, rfl, rfl, rfl, rfl, rfl, rfl, rfl, rfl, rfl, rfl, rfl, rfl, rfl, rfl,
    rfl, rfl, rfl, rfl, rfl, rfl, marker, lost, entry, ?idle, ?cut⟩
  case fill => exact fun g => Vector.getElem_replicate _
  case marks => exact fun k => ⟨Vector.getElem_replicate _, Vector.getElem_replicate _⟩
  case staging =>
    intro r
    rw [reset_record r]
    exact ⟨rfl, rfl, rfl, rfl, fun i => Vector.getElem_replicate _⟩
  case rosters => exact fun x => Vector.getElem_replicate _
  case jobs => exact fun k => Vector.getElem_replicate _
  case monitors =>
    intro g
    have stopped : State.reset.catchup.monitors[g] = ⟨false, 0, none⟩ := Vector.getElem_replicate _
    exact ⟨congrArg Monitor.running stopped, congrArg Monitor.stall stopped⟩
  case idle =>
    intro idle
    rw [State.storeAfterReset, idle]
  case cut =>
    intro r running
    have cut := s.storeAfterReset_cutShort arr spr r running
    exact ⟨cut.cells, fun k i => ⟨cut.kept k i, fun unset => ⟨cut.set k i unset, fun clear filling => cut.clear k i clear filling⟩⟩⟩

/-! ### The loss of the retention domain, and the completions of writes -/

/-- Settles O6: the lost store lists no word and its table is not in use. -/
theorem retentionLossLosesTheDomain : Obligations.RetentionLossLosesTheDomain := fun found s =>
  ⟨{ s with store := s.store.lose found }, _, rfl, State.settle_settled _, rfl, rfl, rfl, fun _ => rfl, rfl, fun _ => rfl⟩

/-- Settles O29: each completion is the write, and the port IDLE. -/
theorem writeCompletions : Obligations.WriteCompletions := by
  intro s w
  refine ⟨fun running => ?apply, fun running => ?localPort⟩
  case apply =>
    refine ⟨(s.completeApply w).afterCompletion, ?_, State.settle_settled _⟩
    change execApplyCompletion s = _
    rw [execApplyCompletion, running]
  case localPort =>
    refine ⟨(s.completeLocalWrite w).afterCompletion, ?_, State.settle_settled _⟩
    change execLocalWriteCompletion s = _
    rw [execLocalWriteCompletion, running]

end Sys2Proof.Machine
end

section
/-! What the completion of a line read does to the words, the count, the suspect list and the spare table (R13, R19, R20, R26 to
R36), and the obligations that rest on it. -/

namespace Sys2Proof.Machine

/-! ### The cells a read finds -/

theorem Store.activeSpare_unredirected {st : Store} {l : Line} (h : st.spareFor l = none) : st.activeSpare l = none := by
  rw [Store.activeSpare, h]; rfl

theorem Store.activeSpare_filling {st : Store} {l : Line} {k : SpareIx} (h : st.spareFor l = some k)
    (filling : st.table[k].state = .filling) : st.activeSpare l = none := by
  rw [Store.activeSpare, h, Option.filter_some, filling]
  rfl

theorem Store.readLine_array {st : Store} {l : Line} (h : st.activeSpare l = none) (i : WordIx) :
    (st.readLine l)[i] = st.cell (arrayWord l i) := by
  rw [Store.readLine_get, st.readAt_array l i h]

theorem Store.readLine_spare {st : Store} {l : Line} {k : SpareIx} (h : st.activeSpare l = some k) (i : WordIx) :
    (st.readLine l)[i] = st.cell (.spare k i) := by
  rw [Store.readLine_get, st.readAt_spare l k i h]

/-- What a write through a FILLING entry leaves of the entry, the empty mask and the full one included. -/
theorem Store.writeWords_fillingMask {st : Store} {l : Line} {k : SpareIx} (h : st.spareFor l = some k)
    (names : st.table[k].names l = true) (filling : st.table[k].state = .filling) (m : WordMask) (cell : WordIx → Cell) :
    (st.writeWords l m cell).table[k].mask = st.table[k].mask ||| m ∧ (st.writeWords l m cell).table[k].line = some l := by
  by_cases empty : m = 0
  · subst empty
    rw [Store.writeWords_empty]
    exact ⟨BitVec.or_zero.symm, SpareEntry.line_of_names names⟩
  · have line := SpareEntry.line_of_names names
    rw [Store.writeWords_filling st l m cell k h filling empty, Fin.getElem_fin, Vector.getElem_set_self]
    exact ⟨rfl, line⟩

theorem Store.writeWords_tableLost (st : Store) (l : Line) (m : WordMask) (cell : WordIx → Cell) :
    (st.writeWords l m cell).tableLost = st.tableLost := by
  have activate (a : Store) (k : SpareIx) : (a.activate k).tableLost = a.tableLost := by
    unfold Store.activate
    split <;> rfl
  have activateLine (a : Store) : (a.activateLine l).tableLost = a.tableLost := by
    unfold Store.activateLine
    split
    · rfl
    · exact activate a _
  unfold Store.writeWords
  split
  · rfl
  · rw [activateLine]
    unfold Store.writeParts
    split
    · exact (st.putMask_same _ _ _).lost
    · split
      · exact (st.putMask_same _ _ _).lost
      · exact ((st.putMask_same _ _ _).trans (Store.putMask_same _ _ _ _)).lost

/-! ### The write-back (R13) -/

theorem writeBack_has {cs : Vector Cell 4} {i : WordIx} (h : cs[i].health = .correctable) :
    (correctableMask cs).has i = true := by
  rw [correctableMask_has, h]; rfl

theorem correctable_of_has {cs : Vector Cell 4} {i : WordIx} (h : (correctableMask cs).has i = true) :
    cs[i].health = .correctable := by
  simpa [correctableMask_has] using h

/-- Where no entry redirects the line, the corrected words are written in the array. -/
theorem Store.writeBack_array {st : Store} {l : Line} (h : st.spareFor l = none) :
    (∀ i, (st.cell (arrayWord l i)).health = .correctable →
      (st.writeBack l (st.readLine l)).cell (arrayWord l i) = ⟨(st.cell (arrayWord l i)).data, .clean⟩) ∧
    ∀ w, (∀ i, w = arrayWord l i → (st.cell w).health ≠ .correctable) →
      (st.writeBack l (st.readLine l)).cell w = st.cell w := by
  have found (i : WordIx) := Store.readLine_array (Store.activeSpare_unredirected h) i
  refine ⟨fun i corr => ?_, fun w other => ?_⟩
  · rw [Store.writeBack, st.writeWords_array l _ _ i h (writeBack_has (by rw [found, corr])), found]
    rfl
  · refine st.writeWords_other _ _ _ w (fun i has same => ?_) (by simp [h])
    have corr := correctable_of_has has
    rw [found] at corr
    exact other i same.symm (same ▸ corr)

/-- Where the entry is ACTIVE, they are written in the spare alone. -/
theorem Store.writeBack_active {st : Store} {l : Line} {k : SpareIx} (h : st.spareFor l = some k)
    (active : st.table[k].state = .active) :
    (∀ i, (st.cell (.spare k i)).health = .correctable →
      (st.writeBack l (st.readLine l)).cell (.spare k i) = ⟨(st.cell (.spare k i)).data, .clean⟩) ∧
    (∀ w, (∀ i, w = .spare k i → (st.cell w).health ≠ .correctable) →
      (st.writeBack l (st.readLine l)).cell w = st.cell w) ∧
    (st.writeBack l (st.readLine l)).table = st.table := by
  have found (i : WordIx) := Store.readLine_spare (Store.activeSpare_of h active) i
  refine ⟨fun i corr => ?_, fun w other => ?_, st.writeWords_table _ _ _ fun j redirects => ?_⟩
  · rw [Store.writeBack, st.writeWords_spare l _ _ i k h (writeBack_has (by rw [found, corr])), found]
    rfl
  · refine Store.writeWords_activeOther h active _ _ w fun i has same => ?_
    have corr := correctable_of_has has
    rw [found] at corr
    exact other i same.symm (same ▸ corr)
  · cases h.symm.trans redirects
    exact active

/-- Where it is FILLING, they are written in both, and set their mask bits. -/
theorem Store.writeBack_filling {st : Store} {l : Line} {k : SpareIx} (h : st.spareFor l = some k)
    (filling : st.table[k].state = .filling) :
    (∀ i, (st.cell (arrayWord l i)).health = .correctable →
      (st.writeBack l (st.readLine l)).cell (arrayWord l i) = ⟨(st.cell (arrayWord l i)).data, .clean⟩ ∧
      (st.writeBack l (st.readLine l)).cell (.spare k i) = ⟨(st.cell (arrayWord l i)).data, .clean⟩) ∧
    (∀ w, (∀ i, w = arrayWord l i ∨ w = .spare k i → (st.cell (arrayWord l i)).health ≠ .correctable) →
      (st.writeBack l (st.readLine l)).cell w = st.cell w) ∧
    (∀ i, (st.writeBack l (st.readLine l)).table[k].mask.has i =
      (st.table[k].mask.has i || (st.cell (arrayWord l i)).health == .correctable)) ∧
    (st.writeBack l (st.readLine l)).table[k].line = some l ∧
    (st.table[k].mask ≠ 15 → (st.writeBack l (st.readLine l)).table[k].state =
      if (st.writeBack l (st.readLine l)).table[k].mask = 15 then .active else .filling) ∧
    ∀ j : SpareIx, j ≠ k → (st.writeBack l (st.readLine l)).table[j] = st.table[j] := by
  have found (i : WordIx) := Store.readLine_array (Store.activeSpare_filling h filling) i
  have names := Store.spareFor_names h
  obtain ⟨mask, line⟩ := Store.writeWords_fillingMask h names filling (correctableMask (st.readLine l))
    fun i => (st.readLine l)[i].cleaned
  obtain ⟨others, entry⟩ := Store.writeWords_fillingEntry h names filling (correctableMask (st.readLine l))
    fun i => (st.readLine l)[i].cleaned
  refine ⟨fun i corr => ?_, fun w other => ?_, fun i => ?_, line, fun partly => ?_, others⟩
  · have has : (correctableMask (st.readLine l)).has i = true := writeBack_has (by rw [found, corr])
    rw [Store.writeBack, st.writeWords_both l _ _ i k h filling has, st.writeWords_spare l _ _ i k h has, found]
    exact ⟨rfl, rfl⟩
  · have corrected (i : WordIx) (has : (correctableMask (st.readLine l)).has i = true) :
        (st.cell (arrayWord l i)).health = .correctable := by
      rw [← found]; exact correctable_of_has has
    refine st.writeWords_other _ _ _ w (fun i has same => other i (.inl same.symm) (corrected i has)) fun j redirects i has same => ?_
    cases h.symm.trans redirects
    exact other i (.inr same.symm) (corrected i has)
  · rw [Store.writeBack, mask, WordMask.has_or, correctableMask_has, found]
  · rw [Store.writeBack, entry partly]

/-! ### The completion of a read (R13, R19) -/

/-- With the scrub mode OFF a completed read counts, and does nothing else. -/
theorem State.completeRead_off {s : State} (c : Claimant) {l : Line} (off : s.scrub (segmentOf l) = .off) :
    s.completeRead c l = s.countCorrected (s.store.readLine l) := by
  have kept : (s.countCorrected (s.store.readLine l)).scrub (segmentOf l) = .off := off
  have acts : State.actOnFinding (s.countCorrected (s.store.readLine l)) s.store c.origin l (s.store.readLine l) =
      s.countCorrected (s.store.readLine l) := by
    rw [State.actOnFinding, kept]
  rw [State.completeRead, off]
  exact acts

/-- The count rises by the words corrected. -/
theorem State.completeRead_corrected (s : State) (c : Claimant) (l : Line) : (s.completeRead c l).health.corrected =
    min (s.health.corrected + (wordIxs.filter fun i => (s.store.readLine l)[i].health == .correctable).length) 65535 := by
  rw [(s.completeRead_found c l).corrected, ← maskOf_size]
  rfl

/-- The table after a read of a redirected line is the write-back's. -/
theorem State.completeRead_redirected {s : State} (c : Claimant) {l : Line} {k : SpareIx} (h : s.scrub (segmentOf l) ≠ .off)
    (redirects : s.store.spareFor l = some k) : (s.completeRead c l).store = s.store.writeBack l (s.store.readLine l) := by
  rw [s.completeRead_scrubbed c l h, redirects]
  dsimp only
  split
  · rw [State.markRetire_store]; rfl
  · rfl

/-- Settles O30: the write-back by the entry of the line, and the count. -/
theorem readCompletionsWriteBack : Obligations.ReadCompletionsWriteBack := by
  rintro s t c l rfl
  refine ⟨s.completeRead_frame c l, s.completeRead_corrected c l, fun off => ?off, fun scrubbed => ⟨fun unredirected => ?array,
    fun k redirects => ⟨fun active => ?active, fun filling => ?filling⟩⟩⟩
  case off => rw [State.completeRead_off c off]; rfl
  case array =>
    obtain ⟨written, others⟩ := Store.writeBack_array (s.store.spareFor_unredirected l unredirected)
    simp only [s.completeRead_cells c l scrubbed]
    exact ⟨written, others⟩
  case active =>
    have found := s.store.spareFor_redirects k l redirects
    rw [State.completeRead_redirected c scrubbed found]
    exact Store.writeBack_active found active
  case filling =>
    have found := s.store.spareFor_redirects k l redirects
    rw [State.completeRead_redirected c scrubbed found]
    exact Store.writeBack_filling found filling

/-! ### The suspect list and the spare table (R26 to R34) -/

theorem State.arrayFinding_clean {s : State} (o : Origin) (l : Line) {cs : Vector Cell 4} (good : correctableMask cs = 0)
    (bad : uncorrectableMask cs = 0) : s.arrayFinding o l cs = s := by
  unfold State.arrayFinding
  rw [good, bad]
  rfl

/-- A correctable finding that does not make its line due for promotion. -/
theorem State.arrayFinding_noted {s : State} (o : Origin) {l : Line} {cs : Vector Cell 4} {xs : List Suspect}
    (good : correctableMask cs ≠ 0) (bad : uncorrectableMask cs = 0)
    (noted : noteSuspect s.threshold l s.health.suspects = (xs, false)) :
    s.arrayFinding o l cs = { s with health := { s.health with suspects := xs } } := by
  have some : (correctableMask cs == 0) = false := beq_eq_false_iff_ne.mpr good
  rw [State.arrayFinding, bad, some, noted]
  rfl

/-- A finding that makes its line due for promotion. -/
theorem State.arrayFinding_promotes {s : State} (o : Origin) {l : Line} {cs : Vector Cell 4}
    (due : uncorrectableMask cs ≠ 0 ∨ (correctableMask cs ≠ 0 ∧ (noteSuspect s.threshold l s.health.suspects).2 = true)) :
    ∃ xs, s.arrayFinding o l cs = ({ s with health := { s.health with suspects := xs } } : State).promote o l := by
  unfold State.arrayFinding
  dsimp only
  refine ⟨_, if_pos ?_⟩
  obtain bad | ⟨good, noted⟩ := due
  · exact Bool.or_eq_true_iff.mpr (.inr (bne_iff_ne.mpr bad))
  · have some : (correctableMask cs == 0) = false := beq_eq_false_iff_ne.mpr good
    rw [some]
    exact Bool.or_eq_true_iff.mpr (.inl noted)

/-- A line at the threshold is due for promotion. -/
theorem noteSuspect_due {n : Nat} {l : Line} {xs : List Suspect} (held : ∃ e ∈ xs, e.line = l)
    (limit : ∀ e ∈ xs, e.line = l → n ≤ e.count + 1) : (noteSuspect n l xs).2 = true := by
  obtain ⟨e, found⟩ : ∃ e, (xs.find? fun e => e.line == l) = some e := by
    rw [← Option.isSome_iff_exists, List.find?_isSome]
    obtain ⟨e, mem, line⟩ := held
    exact ⟨e, mem, by simp [line]⟩
  have line : e.line = l := by simpa using List.find?_some found
  rw [noteSuspect, found]
  dsimp only
  rw [if_pos (limit e (List.mem_of_find?_eq_some found) line)]

/-- A promoted line leaves the suspect list. -/
theorem State.promote_suspects (s : State) (o : Origin) (l : Line) : ∀ e ∈ (s.promote o l).health.suspects, e.line ≠ l := by
  have dropped : (s.promote o l).health.suspects = s.health.suspects.filter fun e => e.line != l := by
    unfold State.promote
    dsimp only
    split
    · rfl
    · split
      · rfl
      · split <;> rfl
  intro e mem
  rw [dropped, List.mem_filter] at mem
  simpa using mem.2

theorem State.promote_free {s : State} (o : Origin) {l : Line} {k : SpareIx} (inUse : s.store.tableLost = false)
    (free : s.store.table[k].state = .free) (lowest : ∀ j < k, s.store.table[j].state ≠ .free) : s.promote o l =
      { s with
        store := s.store.setEntry k ⟨.filling, some l, 0⟩
        health := { s.health.dropSuspect l with
          copyDone := s.health.copyDone.set k false, retire := s.health.retire.set k none }
        rep := s.rep.raise (lineEntry .spared o l k.val) } := by
  have first : s.store.firstFree = some k :=
    find_finRange k (by rw [free]; rfl) fun j hj => by simpa using lowest j hj
  rw [State.promote, if_neg (by simp [inUse]), first]
  rfl

theorem Store.firstFree_none {st : Store} (h : ∀ k : SpareIx, st.table[k].state ≠ .free) : st.firstFree = none :=
  List.find?_eq_none.mpr fun k _ => by simpa using h k

theorem State.promote_none {s : State} (o : Origin) {l : Line} (inUse : s.store.tableLost = false)
    (none : ∀ k : SpareIx, s.store.table[k].state ≠ .free) : s.promote o l =
      if l ∈ s.health.exhausted then { s with health := s.health.dropSuspect l }
      else { s with
        health := { s.health.dropSuspect l with exhausted := s.health.exhausted ++ [l] }
        rep := s.rep.raise (lineEntry .spareExhausted o l s.store.retiredCount) } := by
  rw [State.promote, if_neg (by simp [inUse]), Store.firstFree_none none]
  by_cases held : l ∈ s.health.exhausted
  · exact (if_pos (List.contains_iff_mem.mpr held)).trans (if_pos held).symm
  · exact (if_neg (mt List.contains_iff_mem.mp held)).trans (if_neg held).symm

/-- What promotion does to the table, the marks and the log, by the lowest FREE entry. -/
theorem State.promote_cases {s : State} (o : Origin) (l : Line) (inUse : s.store.tableLost = false) :
    (∀ k : SpareIx, s.store.table[k].state = .free → (∀ j < k, s.store.table[j].state ≠ .free) →
      (s.promote o l).store.table[k] = ⟨.filling, some l, 0⟩ ∧
      (∀ j : SpareIx, j ≠ k → (s.promote o l).store.table[j] = s.store.table[j]) ∧
      (s.promote o l).health.copyDone[k] = false ∧ (s.promote o l).health.retire[k] = none ∧
      (∀ j : SpareIx, j ≠ k → (s.promote o l).health.retire[j] = s.health.retire[j]) ∧
      (s.promote o l).rep = s.rep.raise ⟨.spared, o, some (segmentOf l), some l, none, k.val⟩) ∧
    ((∀ k : SpareIx, s.store.table[k].state ≠ .free) →
      (s.promote o l).store = s.store ∧ (s.promote o l).health.retire = s.health.retire ∧
      (l ∉ s.health.exhausted → (s.promote o l).health.exhausted = s.health.exhausted ++ [l] ∧
        (s.promote o l).rep = s.rep.raise ⟨.spareExhausted, o, some (segmentOf l), some l, none,
          (spareIxs.filter fun k => s.store.table[k].state == .retired).length⟩) ∧
      (l ∈ s.health.exhausted → (s.promote o l).health.exhausted = s.health.exhausted ∧ (s.promote o l).rep = s.rep)) := by
  refine ⟨fun k free lowest => ?_, fun none => ?_⟩
  · rw [State.promote_free o inUse free lowest]
    refine ⟨Vector.getElem_set_self _, fun j other => ?_, Vector.getElem_set_self _, Vector.getElem_set_self _, fun j other => ?_,
      rfl⟩
    · exact Vector.getElem_set_ne k.isLt j.isLt fun same => other (Fin.ext same.symm)
    · exact Vector.getElem_set_ne k.isLt j.isLt fun same => other (Fin.ext same.symm)
  · rw [State.promote_none o inUse none]
    refine ⟨?_, ?_, fun fresh => ?_, fun held => ?_⟩
    · split_ifs <;> rfl
    · split_ifs <;> rfl
    · rw [if_neg fresh]; exact ⟨rfl, rfl⟩
    · rw [if_pos held]; exact ⟨rfl, rfl⟩

/-- The findings a mask reports. -/
theorem correctableMask_zero_iff (cs : Vector Cell 4) : correctableMask cs = 0 ↔ ¬∃ i : WordIx, cs[i].health = .correctable := by
  rw [correctableMask, maskOf_eq_zero]
  simp

theorem uncorrectableMask_zero_iff (cs : Vector Cell 4) :
    uncorrectableMask cs = 0 ↔ ¬∃ i : WordIx, cs[i].health = .uncorrectable := by
  rw [uncorrectableMask, maskOf_eq_zero]
  simp

/-- What a read of a line without a spare notes, when no word of it is lost. -/
theorem State.completeRead_noted {s : State} (c : Claimant) {l : Line} (h : s.scrub (segmentOf l) ≠ .off)
    (array : s.store.spareFor l = none) (bad : uncorrectableMask (s.store.readLine l) = 0)
    (good : correctableMask (s.store.readLine l) ≠ 0) {xs : List Suspect}
    (noted : noteSuspect (s.rep.field 20) l s.health.suspects = (xs, false)) :
    (s.completeRead c l).health.suspects = xs ∧ (s.completeRead c l).store.table = s.store.table ∧
      (s.completeRead c l).rep = s.rep := by
  have written : (s.writtenBack l).arrayFinding c.origin l (s.store.readLine l) =
      { s.writtenBack l with health := { (s.writtenBack l).health with suspects := xs } } :=
    State.arrayFinding_noted _ good bad noted
  rw [s.completeRead_scrubbed c l h, array, written]
  exact ⟨rfl, s.writtenBack_table l array, rfl⟩

/-- Of a redirected line, a read marks its entry for retirement or does nothing but write back. -/
theorem State.completeRead_spare {s : State} (c : Claimant) {l : Line} {k : SpareIx} (h : s.scrub (segmentOf l) ≠ .off)
    (redirects : s.store.spareFor l = some k) :
    (s.store.table[k].state = .active → uncorrectableMask (s.store.readLine l) ≠ 0 → s.health.retire[k] = none →
      s.completeRead c l = (s.writtenBack l).markRetire c.origin l k) ∧
    (s.store.table[k].state = .filling ∨ uncorrectableMask (s.store.readLine l) = 0 ∨ s.health.retire[k] ≠ none →
      s.completeRead c l = s.writtenBack l) := by
  rw [s.completeRead_scrubbed c l h, redirects]
  dsimp only
  refine ⟨fun active bad _ => if_pos (Bool.and_eq_true_iff.mpr ⟨beq_iff_eq.mpr active, bne_iff_ne.mpr bad⟩), fun none => ?_⟩
  split
  next found =>
    rw [Bool.and_eq_true, beq_iff_eq, bne_iff_ne] at found
    obtain filling | good | held := none
    · rw [filling] at found
      cases found.1
    · exact absurd good found.2
    · have marked : ((s.writtenBack l).health.retire[k]).isSome = true := Option.isSome_iff_ne_none.mpr held
      rw [State.markRetire, if_pos marked]
  next => rfl

theorem State.markRetire_unmarked {s : State} (o : Origin) (l : Line) {k : SpareIx} (h : s.health.retire[k] = none) :
    s.markRetire o l k =
      { s with
        health := { s.health with retire := s.health.retire.set k (some o) }
        rep := s.rep.raise ⟨.spareRetired, o, some (segmentOf l), some l, none, k.val⟩ } :=
  if_neg (by simp only [h]; simp)

/-- Settles O31: the finding by the entry of its line, and then by the suspect list and the lowest FREE entry. -/
theorem findingsMoveTheSpareTable : Obligations.FindingsMoveTheSpareTable := by
  refine ⟨rfl, rfl, rfl, rfl, ?_⟩
  rintro s t c l bad good rfl scrubbed hbad hgood
  refine ⟨fun unredirected sound => ⟨fun clean => ?clean, fun corr => ⟨fun before n after held others below => ?raised,
    fun fresh => ?fresh⟩⟩, fun inUse unnamed due => ?promoted, fun k redirects => ?redirected⟩
  case clean =>
    have array := s.store.spareFor_unredirected l unredirected
    have noGood := (correctableMask_zero_iff _).mpr (mt hgood.mpr clean)
    have noBad := (uncorrectableMask_zero_iff _).mpr (mt hbad.mpr sound)
    rw [s.completeRead_scrubbed c l scrubbed, array, State.arrayFinding_clean _ _ noGood noBad]
    exact ⟨rfl, s.writtenBack_table l array, rfl⟩
  case raised =>
    refine State.completeRead_noted c scrubbed (s.store.spareFor_unredirected l unredirected)
      ((uncorrectableMask_zero_iff _).mpr (mt hbad.mpr sound)) (mt (correctableMask_zero_iff _).mp (not_not_intro (hgood.mp corr))) ?_
    rw [held]
    exact noteSuspect_raise _ l before after n others below
  case fresh =>
    have entered {xs : List Suspect}
        (h : (if s.health.suspects.length < 12 then s.health.suspects else dropLowest s.health.suspects) ++ [⟨l, 1⟩] = xs) :=
      State.completeRead_noted c scrubbed (s.store.spareFor_unredirected l unredirected)
        ((uncorrectableMask_zero_iff _).mpr (mt hbad.mpr sound)) (mt (correctableMask_zero_iff _).mp (not_not_intro (hgood.mp corr)))
        (xs := xs) (by rw [noteSuspect_new _ l _ fresh, h])
    obtain ⟨suspects, table, rep⟩ := entered rfl
    refine ⟨table, rep, fun room => ?_, fun before e after held full least oldest => ?_⟩
    · rw [suspects, if_pos room]
    · rw [suspects, if_neg (by simp [full]), held, dropLowest_split before after e least oldest]
  case promoted =>
    have array := s.store.spareFor_none l unnamed
    have finding : uncorrectableMask (s.store.readLine l) ≠ 0 ∨ (correctableMask (s.store.readLine l) ≠ 0 ∧
        (noteSuspect (s.writtenBack l).threshold l (s.writtenBack l).health.suspects).2 = true) := by
      obtain lost | ⟨corr, held, limit⟩ := due
      · exact .inl (mt (uncorrectableMask_zero_iff _).mp (not_not_intro (hbad.mp lost)))
      · exact .inr ⟨mt (correctableMask_zero_iff _).mp (not_not_intro (hgood.mp corr)), noteSuspect_due held limit⟩
    obtain ⟨xs, promoted⟩ := State.arrayFinding_promotes (s := s.writtenBack l) c.origin finding
    have table : (s.writtenBack l).store.table = s.store.table := s.writtenBack_table l array
    have lost : (s.writtenBack l).store.tableLost = false := (s.store.writeWords_tableLost l _ _).trans inUse
    rw [s.completeRead_scrubbed c l scrubbed, array, promoted]
    generalize entered : ({ s.writtenBack l with health := { (s.writtenBack l).health with suspects := xs } } : State) = x
    have xtable : x.store.table = s.store.table := by rw [← entered]; exact table
    have xrep : x.rep = s.rep := by rw [← entered]; rfl
    have xexhausted : x.health.exhausted = s.health.exhausted := by rw [← entered]; rfl
    obtain ⟨free, none⟩ := State.promote_cases (s := x) c.origin l (by rw [← entered]; exact lost)
    rw [xtable, xrep] at free
    rw [xtable, xrep, xexhausted] at none
    refine ⟨x.promote_suspects _ l, fun k isFree lowest => ?_, fun noFree => ?_⟩
    · obtain ⟨entry, others, copyDone, retire, -, rep⟩ := free k isFree lowest
      exact ⟨entry, others, copyDone, retire, rep⟩
    · obtain ⟨store, -, fresh, held⟩ := none noFree
      exact ⟨(congrArg Store.table store).trans xtable, fresh, held⟩
  case redirected =>
    obtain ⟨marks, stays⟩ := State.completeRead_spare c scrubbed (s.store.spareFor_redirects k l redirects)
    have stays' (h : s.store.table[k].state = .filling ∨ ¬bad ∨ s.health.retire[k] ≠ none) : s.completeRead c l = s.writtenBack l :=
      stays (h.imp_right (Or.imp_left fun sound => (uncorrectableMask_zero_iff _).mpr (mt hbad.mpr sound)))
    have marks' (active : s.store.table[k].state = .active) (lost : bad) (unmarked : s.health.retire[k] = none) :
        s.completeRead c l = (s.writtenBack l).markRetire c.origin l k :=
      marks active (mt (uncorrectableMask_zero_iff _).mp (not_not_intro (hbad.mp lost))) unmarked
    have unmarkedWritten (h : s.health.retire[k] = none) := State.markRetire_unmarked (s := s.writtenBack l) c.origin l h
    have either : s.completeRead c l = s.writtenBack l ∨
        (s.health.retire[k] = none ∧ s.completeRead c l = (s.writtenBack l).markRetire c.origin l k) := by
      by_cases held : s.health.retire[k] = none
      · obtain names := redirects.names
        by_cases lost : bad
        · by_cases active : s.store.table[k].state = .active
          · exact .inr ⟨held, marks' active lost held⟩
          · refine .inl (stays' (.inl ?_))
            unfold SpareEntry.names at names
            split at names
            next filling => exact filling
            next h => exact absurd h active
            all_goals simp at names
        · exact .inl (stays' (.inr (.inl lost)))
      · exact .inl (stays' (.inr (.inr held)))
    have frame : (s.completeRead c l).health.suspects = s.health.suspects ∧
        (s.completeRead c l).health.exhausted = s.health.exhausted := by
      obtain same | ⟨unmarked, marked⟩ := either
      · rw [same]; exact ⟨rfl, rfl⟩
      · rw [marked, unmarkedWritten unmarked]; exact ⟨rfl, rfl⟩
    refine ⟨frame.1, frame.2, fun active lost unmarked => ?_, fun h => ?_⟩
    · rw [marks' active lost unmarked, unmarkedWritten unmarked]
      exact ⟨rfl, rfl⟩
    · rw [stays' h]
      exact ⟨rfl, rfl⟩

end Sys2Proof.Machine
end

section
/-! The repair unit's answer for a lost word (R161 to R163), and the ends of the reads of LOCAL, GIVE_READ, SERVE and SCRUB, whose
lost words it takes (R24, R41 to R46, R145, R171). -/

namespace Sys2Proof.Machine

/-! ### A lost word handed (R162, R163) -/

/-- A word is repairable in a MIRRORED segment where this station is CURRENT, or CATCHING with the line below its cursor. -/
theorem State.repairable_iff (s : State) (l : Line) : s.repairable l = true ↔ s.mode (segmentOf l) = .mirrored ∧
    (s.ownState (segmentOf l) = .current ∨ ∃ c p, s.ownState (segmentOf l) = .catching c p ∧ offsetOf l < c) := by
  unfold State.repairable
  cases s.ownState (segmentOf l) <;> simp

theorem State.handWord_unrepairable {s : State} (o : Origin) {l : Line} (i : WordIx) (h : s.repairable l = false) :
    s.handWord o l i = (.lost, s.raise (wordLost o l (WordMask.single i))) := by
  rw [State.handWord, h]; rfl

theorem State.handWord_asks {s : State} (o : Origin) {l : Line} (i : WordIx) (h : s.repairable l = true) {e : RepairEntry}
    (found : repairFor s.repair l = some e) (asking : e.asking = true) : s.handWord o l i =
      (.asking, { s with repair := repairMap s.repair l fun e => { e with bad := e.bad ||| WordMask.single i } }) := by
  rw [State.handWord, h, found]
  exact if_pos asking

theorem State.handWord_failed {s : State} (o : Origin) {l : Line} (i : WordIx) (h : s.repairable l = true) {e : RepairEntry}
    (found : repairFor s.repair l = some e) (failed : e.asking = false) : s.handWord o l i =
      if e.bad.has i then (.lost, s)
      else (.asking,
        { s with repair := repairMap s.repair l fun e => { e with bad := e.bad ||| WordMask.single i, state := freshAsk } }) := by
  rw [State.handWord, h, found]
  exact if_neg (Bool.eq_false_iff.mp failed)

/-- The repair responder for this station in a line's segment. -/
def State.responder (s : State) (l : Line) : Option Station := s.heldView.bind fun v => v.repairResponder s.me (segmentOf l)

/-- A line without an entry, in a view with a responder: an ASKING entry where the list takes one. -/
theorem State.handWord_new {s : State} (o : Origin) {l : Line} (i : WordIx) (h : s.repairable l = true)
    (found : repairFor s.repair l = none) {y : Station} (responder : s.responder l = some y) : s.handWord o l i =
      match repairInsert s.repair ⟨segmentOf l, l, WordMask.single i, freshAsk, o⟩ with
      | some xs => (.asking, { s with repair := xs })
      | none => (.held, s) := by
  unfold State.responder at responder
  rw [State.handWord, h, found, responder]
  rfl

/-- A line without an entry, and no responder: a FAILED entry where the list takes one. -/
theorem State.handWord_newFailed {s : State} (o : Origin) {l : Line} (i : WordIx) (h : s.repairable l = true)
    (found : repairFor s.repair l = none) (responder : s.responder l = none) : s.handWord o l i =
      match repairInsert s.repair ⟨segmentOf l, l, WordMask.single i, .failed, o⟩ with
      | some xs => (.lost, ({ s with repair := xs } : State).raise (wordLost o l (WordMask.single i)))
      | none => (.held, s) := by
  unfold State.responder at responder
  rw [State.handWord, h, found, responder]
  rfl

theorem repairFor_none {xs : List RepairEntry} {l : Line} (h : ∀ x ∈ xs, x.line ≠ l) : repairFor xs l = none :=
  List.find?_eq_none.mpr fun x hx => by simpa using h x hx

/-- A list of four ASKING entries takes no new one. -/
theorem repairInsert_full {xs : List RepairEntry} (e : RepairEntry) (full : 4 ≤ xs.length)
    (asking : ∀ x ∈ xs, x.state ≠ .failed) : repairInsert xs e = none := by
  have all : xs.all RepairEntry.asking = true := List.all_eq_true.mpr fun x hx => x.asking_iff.mpr (asking x hx)
  rw [repairInsert, if_neg (show ¬xs.length < repairCapacity from Nat.not_lt.mpr full), if_pos all]

theorem wordLost_eq (o : Origin) (l : Line) (i : WordIx) :
    wordLost o l (WordMask.single i) = ⟨.wordLost, o, some (segmentOf l), some l, none, 2 ^ i.val⟩ := by
  rw [wordLost, lineEntry, WordMask.single_toNat]

/-- Settles O34: the answer by the entry of the line, and without one by the responder and the room in the list. -/
theorem lostWordsAreHanded : Obligations.LostWordsAreHanded := by
  intro s o l i
  refine ⟨s.repairable_iff l, fun unrepairable => ?lost, fun repairable => ⟨fun before e after list line others => ?entry,
    fun none => ⟨fun full asking => ?held, fun kept room => ⟨fun v y view responder => ?asks, fun responder => ?fails⟩⟩⟩⟩
  case lost => rw [State.handWord_unrepairable o i unrepairable, wordLost_eq]
  case entry =>
    have found : repairFor s.repair l = some e := by rw [list, repairFor_split before after e l line others]
    have mapped (f : RepairEntry → RepairEntry) : repairMap s.repair l f = before ++ f e :: after := by
      rw [list, repairMap_split before after e l line others]
    refine ⟨fun asking => ?_, fun failed bad => ?_, fun failed good => ?_⟩
    · rw [State.handWord_asks o i repairable found (e.asking_iff.mpr asking), mapped]
    · rw [State.handWord_failed o i repairable found (e.asking_false_iff.mpr failed), if_pos bad]
    · rw [State.handWord_failed o i repairable found (e.asking_false_iff.mpr failed), if_neg (by simp [good]), mapped, freshAsk]
  case held =>
    cases responder : s.responder l with
    | none => rw [State.handWord_newFailed o i repairable (repairFor_none none) responder, repairInsert_full _ full asking]
    | some y => rw [State.handWord_new o i repairable (repairFor_none none) responder, repairInsert_full _ full asking]
  case asks =>
    have answers : s.responder l = some y := by rw [State.responder, view]; exact responder
    rw [State.handWord_new o i repairable (repairFor_none none) answers, repairInsert_kept _ kept _ room]
    rfl
  case fails =>
    have silent : s.responder l = .none := by
      rw [State.responder, Option.bind_eq_none_iff]
      exact responder
    rw [State.handWord_newFailed o i repairable (repairFor_none none) silent, repairInsert_kept _ kept _ room, wordLost_eq]
    rfl

/-! ### What a handed word leaves of the list -/

theorem State.handWord_held {s t : State} {o : Origin} {l : Line} {i : WordIx} (h : s.handWord o l i = (.held, t)) : t = s := by
  cases repairable : s.repairable l with
  | false => rw [State.handWord_unrepairable o i repairable] at h; cases h
  | true =>
    cases found : repairFor s.repair l with
    | some e =>
      cases asking : e.asking with
      | true => rw [State.handWord_asks o i repairable found asking] at h; cases h
      | false =>
        rw [State.handWord_failed o i repairable found asking] at h
        split at h <;> cases h
    | none =>
      cases responder : s.responder l with
      | none =>
        rw [State.handWord_newFailed o i repairable found responder] at h
        split at h <;> cases h
        rfl
      | some y =>
        rw [State.handWord_new o i repairable found responder] at h
        split at h <;> cases h
        rfl

/-- A changed entry is still the one of its line. -/
theorem repairFor_repairMap {xs : List RepairEntry} {l : Line} {e : RepairEntry} (f : RepairEntry → RepairEntry)
    (line : ∀ x, (f x).line = x.line) (h : repairFor xs l = some e) : repairFor (repairMap xs l f) l = some (f e) := by
  induction xs with
  | nil => cases h
  | cons x xs ih =>
    unfold repairFor repairMap at *
    by_cases same : x.line = l
    · rw [List.find?_cons_of_pos (by simp [same])] at h
      cases h
      rw [List.map_cons, if_pos same, List.find?_cons_of_pos (by simp [line, same])]
    · rw [List.find?_cons_of_neg (by simpa using same)] at h
      rw [List.map_cons, if_neg same, List.find?_cons_of_neg (by simpa using same)]
      exact ih h

/-- A new entry is found where its line had none. -/
theorem repairFor_repairInsert {xs ys : List RepairEntry} {e : RepairEntry} (fresh : repairFor xs e.line = none)
    (h : repairInsert xs e = some ys) : repairFor ys e.line = some e := by
  have appended {kept : List RepairEntry} (sub : kept ⊆ xs) : repairFor (kept ++ [e]) e.line = some e := by
    have none : repairFor kept e.line = .none := repairFor_none fun x hx same =>
      absurd same (by simpa using List.find?_eq_none.mp fresh x (sub hx))
    rw [repairFor, List.find?_append]
    rw [repairFor] at none
    rw [none, Option.none_or, List.find?_cons_of_pos (by simp)]
  unfold repairInsert at h
  split at h
  · cases h
    exact appended (List.Subset.refl xs)
  · split at h
    · cases h
    · cases h
      exact appended List.eraseP_subset

theorem WordMask.has_single_self : ∀ i : WordIx, (WordMask.single i).has i = true := by decide

/-- A word taken by the repair unit lies in the mask of an ASKING entry of its line. -/
theorem State.handWord_asking {s t : State} {o : Origin} {l : Line} {i : WordIx} (h : s.handWord o l i = (.asking, t)) :
    ∃ e, repairFor t.repair l = some e ∧ e.asking = true ∧ e.bad.has i = true := by
  have bit (m : WordMask) : (m ||| WordMask.single i).has i = true := by
    rw [WordMask.has_or, WordMask.has_single_self, Bool.or_true]
  cases repairable : s.repairable l with
  | false => rw [State.handWord_unrepairable o i repairable] at h; cases h
  | true =>
    cases found : repairFor s.repair l with
    | some e =>
      cases asking : e.asking with
      | true =>
        rw [State.handWord_asks o i repairable found asking] at h
        cases h
        exact ⟨_, repairFor_repairMap _ (fun _ => rfl) found, asking, bit _⟩
      | false =>
        rw [State.handWord_failed o i repairable found asking] at h
        split at h <;> cases h
        exact ⟨_, repairFor_repairMap _ (fun _ => rfl) found, rfl, bit _⟩
    | none =>
      cases responder : s.responder l with
      | none =>
        rw [State.handWord_newFailed o i repairable found responder] at h
        split at h <;> cases h
      | some y =>
        rw [State.handWord_new o i repairable found responder] at h
        split at h <;> cases h
        next xs inserted => exact ⟨_, repairFor_repairInsert found inserted, rfl, WordMask.has_single_self i⟩

/-! ### The release after a read (R163, R170) -/

theorem State.releaseSince_same {s : State} {before : List RepairEntry} (h : s.repair = before) : s.releaseSince before = s :=
  if_pos h

/-- A list that only grew made no room. -/
theorem madeRoom_append (xs ys : List RepairEntry) : madeRoom xs (xs ++ ys) = false := by
  rw [madeRoom, List.any_eq_false]
  intro e mem
  rw [Bool.not_eq_true, Bool.not_eq_false', List.any_eq_true]
  refine ⟨e, List.mem_append_left _ mem, ?_⟩
  cases e.asking <;> simp

theorem State.wakeWalker_same {s : State} (h : s.walker.state ≠ .held) : s.wakeWalker = s := if_neg h

/-- Where the read held is not released, and no walker and no read waits for a slot, a release touches the waiting lines alone. -/
theorem State.releaseSince_jobs {s : State} (before : List RepairEntry) (read : s.releaseRead = s)
    (walker : s.walker.state ≠ .held ∨ madeRoom before s.repair = false)
    (slot : ∀ r, s.port.request = some r → r.stage ≠ .slotWait) :
    ∃ jobs, s.releaseSince before = { s with catchup := { s.catchup with jobs := jobs } } := by
  unfold State.releaseSince
  split
  · exact ⟨_, rfl⟩
  · unfold State.releaseHeld
    rw [read]
    dsimp only
    split
    next room =>
      have awake : (s.releaseJobs (madeRoom before s.repair)).wakeWalker = s.releaseJobs (madeRoom before s.repair) := by
        refine State.wakeWalker_same (walker.resolve_right fun none => ?_)
        rw [none] at room
        cases room
      rw [awake, State.retake_other (s.releaseJobs _) _ slot]
      exact ⟨_, rfl⟩
    · exact ⟨_, rfl⟩

/-! ### LOCAL reads (R41, R42, R45, R46) -/

/-- The state in which a LOCAL read ends: its store written back, its findings taken, and the word recorded. -/
theorem State.completeLocalRead_request {s : State} {r : Request} (request : s.port.request = some r)
    (stage : r.stage = .storeWait) (l : Line) :
    s.completeLocalRead l = (s.completeRead .localPort l).endRead r (s.delivered l)[r.word] := by
  have held : (s.completeRead .localPort l).port.request = some r := by rw [s.completeRead_frame .localPort l]; exact request
  rw [State.completeLocalRead, held]
  exact if_pos stage

theorem exec_localReadCompletion {s : State} {l : Line} (running : s.sp.running = some ⟨.localPort, .read l⟩) :
    exec .localReadCompletion s = .next ((s.completeLocalRead l).releaseSince s.repair).idlePort.settle := by
  change execLocalReadCompletion s = _
  rw [execLocalReadCompletion, running]
  rfl

theorem State.endRead_localSegment {s : State} {r : Request} (rule : r.rule = some .localSegment) (c : Cell) :
    s.endRead r c = s.answerRead { r with raw := some c } .done c := by
  cases r
  cases rule
  rfl

theorem State.endRead_detached {s : State} {r : Request} (rule : r.rule = some .detached) (c : Cell) :
    s.endRead r c = s.answerRead { r with raw := some c } .detached c := by
  cases r
  cases rule
  rfl

theorem State.endRead_member {s : State} {r : Request} (rule : r.rule = some .member ∨ r.rule = none) (c : Cell) :
    s.endRead r c = s.judgeCompletedRead { r with raw := some c } c := by
  cases r
  obtain rule | rule := rule <;> cases rule <;> rfl

/-- A LOCAL read whose word is not lost is answered by its rule, and a member's by the state and cursor found. -/
theorem State.endRead_sound {s : State} {r : Request} {c : Cell} (sound : c.health ≠ .uncorrectable) {st : Status} {v : Word}
    (h : match r.rule, s.localState r.segment with
      | some .localSegment, _ => st = .done ∧ v = c.data
      | some .detached, _ => st = .detached ∧ v = c.data
      | _, .current => st = .done ∧ v = c.data
      | _, .catching | _, .orphaned => if s.belowCursor r.line then st = .done ∧ v = c.data else st = .stale ∧ v = 0
      | _, .detached | _, .mismatch | _, .off | _, .localOnly => st = .detached ∧ v = c.data) :
    s.endRead r c = s.answer st v := by
  have direct (r' : Request) (a : Status) : s.answerRead r' a c = s.answer a c.data := if_neg (by simpa using sound)
  have member (r' : Request) : s.answerMember r' c = s.answer .done c.data := if_neg (by simpa using sound)
  have judged (h : match s.localState r.segment with
      | .current => st = .done ∧ v = c.data
      | .catching | .orphaned => if s.belowCursor r.line then st = .done ∧ v = c.data else st = .stale ∧ v = 0
      | .detached | .mismatch | .off | .localOnly => st = .detached ∧ v = c.data) :
      s.judgeCompletedRead { r with raw := some c } c = s.answer st v := by
    have cursor (h : if s.belowCursor r.line then st = .done ∧ v = c.data else st = .stale ∧ v = 0) :
        (if s.belowCursor r.line then s.answerMember { r with raw := some c } c else s.answer .stale 0) = s.answer st v := by
      cases below : s.belowCursor r.line with
      | true =>
        rw [below] at h
        obtain ⟨rfl, rfl⟩ := h
        exact member _
      | false =>
        rw [below] at h
        obtain ⟨rfl, rfl⟩ := h
        rfl
    unfold State.judgeCompletedRead
    rw [show ({ r with raw := some c } : Request).segment = r.segment from rfl]
    cases state : s.localState r.segment <;> rw [state] at h
    case current => obtain ⟨rfl, rfl⟩ := h; exact member _
    case catching => exact cursor h
    case orphaned => exact cursor h
    all_goals obtain ⟨rfl, rfl⟩ := h; exact direct _ _
  cases rule : r.rule with
  | none =>
    rw [rule] at h
    rw [State.endRead_member (.inr rule)]
    refine judged ?_
    cases state : s.localState r.segment <;> rw [state] at h <;> exact h
  | some rule' =>
    rw [rule] at h
    cases rule' with
    | localSegment =>
      obtain ⟨rfl, rfl⟩ := h
      rw [State.endRead_localSegment rule, direct]
    | detached =>
      obtain ⟨rfl, rfl⟩ := h
      rw [State.endRead_detached rule, direct]
    | member =>
      rw [State.endRead_member (.inl rule)]
      refine judged ?_
      cases state : s.localState r.segment <;> rw [state] at h <;> exact h

/-- Settles O32: the answer changes the port alone, and no lost word moves the repair list. -/
theorem localReadIsAnswered : Obligations.LocalReadIsAnswered := by
  intro s r st v running request stage sound judged
  obtain ⟨x, hx⟩ : ∃ x, x = s.completeRead .localPort (lineOfAddress r.address) := ⟨_, rfl⟩
  have frame : x = { s with store := x.store, health := x.health, rep := x.rep } := by
    rw [hx]; exact s.completeRead_frame _ _
  have ended : s.completeLocalRead (lineOfAddress r.address) = x.answer st v := by
    rw [State.completeLocalRead_request request stage, ← hx]
    refine State.endRead_sound sound ?_
    rw [show x.localState r.segment = s.localState r.segment by rw [hx, State.completeRead_localState],
      show x.belowCursor r.line = s.belowCursor r.line by rw [hx, State.completeRead_belowCursor]]
    exact judged
  have kept : (x.answer st v).repair = s.repair := by rw [frame]; rfl
  refine ⟨(x.answer st v).idlePort, _, ?_, State.settle_settled _, rfl, ?_⟩
  · rw [exec_localReadCompletion running, ended, State.releaseSince_same kept]
  · rw [← hx]
    refine ⟨rfl, rfl, rfl, ?_⟩
    rw [frame]
    exact ⟨rfl, rfl, rfl, rfl, rfl, rfl, rfl, rfl, rfl, rfl, rfl, rfl⟩

end Sys2Proof.Machine
end

section
/-! The reads that find a lost word, and the ends of the other reads (R24, R41 to R46, R145, R171). -/

namespace Sys2Proof.Machine

/-! ### A LOCAL read of a lost word (R41, R42, R46) -/

/-- A read held on an ASKING entry that still lacks its word stays held. -/
theorem State.releaseRead_waits {s : State} {r : Request} {e : RepairEntry} (request : s.port.request = some r)
    (found : repairFor s.repair r.line = some e) (asking : e.asking = true) (bad : e.bad.has r.word = true) :
    s.releaseRead = s := by
  unfold State.releaseRead
  rw [request]
  dsimp only
  split
  · rw [found]
    dsimp only
    rw [bad, if_neg (by decide), if_pos asking]
  · rfl

theorem State.releaseRead_idle {s : State} (h : s.port.request = none) : s.releaseRead = s := by
  rw [State.releaseRead, h]

/-- A member's read of a lost word is handed to the repair unit. -/
theorem State.endRead_handed {s : State} {r : Request} {c : Cell} (lost : c.health = .uncorrectable)
    (rule : r.rule = some .member ∨ r.rule = none)
    (member : s.localState r.segment = .current ∨
      ((s.localState r.segment = .catching ∨ s.localState r.segment = .orphaned) ∧ s.belowCursor r.line = true)) :
    s.endRead r c = s.handRead { r with raw := some c } := by
  have handed : s.answerMember { r with raw := some c } c = s.handRead { r with raw := some c } := if_pos (by rw [lost]; rfl)
  have state : s.localState ({ r with raw := some c } : Request).segment = s.localState r.segment := rfl
  rw [State.endRead_member rule, State.judgeCompletedRead, state]
  obtain current | ⟨catching | orphaned, below⟩ := member
  · rw [current]; exact handed
  · rw [catching]; exact (if_pos below).trans handed
  · rw [orphaned]; exact (if_pos below).trans handed

/-- A lost word that is not repairable is answered CORRUPT with its raw data, whatever the rule of the read. -/
theorem State.endRead_unrepairable {s : State} {r : Request} {c : Cell} (lost : c.health = .uncorrectable)
    (unrepairable : s.repairable r.line = false) (catching : s.localState r.segment ≠ .catching)
    (orphaned : s.localState r.segment ≠ .orphaned) :
    s.endRead r c = (s.raise (wordLost .localRead r.line (WordMask.single r.word))).answer .corrupt c.data := by
  have handed := State.handWord_unrepairable .localRead r.word unrepairable
  have direct (a : Status) : s.answerRead { r with raw := some c } a c =
      (s.raise (wordLost .localRead r.line (WordMask.single r.word))).answer .corrupt c.data := by
    rw [State.answerRead, lost]
    change (s.handWord .localRead r.line r.word).2.answer .corrupt c.data = _
    rw [handed]
  have member : s.handRead { r with raw := some c } =
      (s.raise (wordLost .localRead r.line (WordMask.single r.word))).answer .corrupt c.data := by
    unfold State.handRead
    change (match s.handWord .localRead r.line r.word with
      | (.asking, t) => t.holdRequest { r with raw := some c } .repairWait
      | (.lost, t) => t.answer .corrupt c.data
      | (.held, t) => t.holdRequest { r with raw := some c } .slotWait) = _
    rw [handed]
  have judged (rule : r.rule = some .member ∨ r.rule = none) : s.endRead r c =
      (s.raise (wordLost .localRead r.line (WordMask.single r.word))).answer .corrupt c.data := by
    cases state : s.localState r.segment
    case current => rw [State.endRead_handed lost rule (.inl state), member]
    case catching => exact absurd state catching
    case orphaned => exact absurd state orphaned
    all_goals
      rw [State.endRead_member rule, State.judgeCompletedRead,
        show s.localState ({ r with raw := some c } : Request).segment = _ from state]
      exact direct _
  cases rule : r.rule with
  | none => exact judged (.inr rule)
  | some rule' =>
    cases rule' with
    | localSegment => rw [State.endRead_localSegment rule, direct]
    | detached => rw [State.endRead_detached rule, direct]
    | member => exact judged (.inl rule)

/-! What a handed read leaves, by the repair unit's answer. -/

theorem State.handRead_asking {s t : State} {r : Request} (h : s.handWord .localRead r.line r.word = (.asking, t)) :
    s.handRead r = t.holdRequest r .repairWait := by
  rw [State.handRead, h]

theorem State.handRead_lost {s t : State} {r : Request} (h : s.handWord .localRead r.line r.word = (.lost, t)) :
    s.handRead r = t.answer .corrupt r.rawData := by
  rw [State.handRead, h]

theorem State.handRead_held {s t : State} {r : Request} (h : s.handWord .localRead r.line r.word = (.held, t)) :
    s.handRead r = t.holdRequest r .slotWait := by
  rw [State.handRead, h]

/-- Settles O33: the word handed, then the release, which finds the read held where the unit asks for its word. -/
theorem localReadOfALostWord : Obligations.LocalReadOfALostWord := by
  intro s r running request stage lost
  obtain ⟨x, hx⟩ : ∃ x, x = s.completeRead .localPort (lineOfAddress r.address) := ⟨_, rfl⟩
  obtain ⟨c, hc⟩ : ∃ c, c = (s.delivered (lineOfAddress r.address))[wordOfAddress r.address] := ⟨_, rfl⟩
  have frame : x = { s with store := x.store, health := x.health, rep := x.rep } := by
    rw [hx]; exact s.completeRead_frame _ _
  have repair : x.repair = s.repair := by rw [frame]
  have state : x.localState r.segment = s.localState r.segment := by rw [hx, State.completeRead_localState]
  have repairable : x.repairable r.line = s.repairable r.line := by rw [hx, State.completeRead_repairable]
  have below : x.belowCursor r.line = s.belowCursor r.line := by rw [hx, State.completeRead_belowCursor]
  have ended : s.completeLocalRead (lineOfAddress r.address) = x.endRead r c := by
    rw [State.completeLocalRead_request request stage, ← hx, hc]
    rfl
  have completes (y : State) (released : (x.endRead r c).releaseSince s.repair = y) :
      exec .localReadCompletion s = .next y.idlePort.settle := by
    rw [exec_localReadCompletion running, ended, released]
  rw [← hc] at lost ⊢
  rw [← hx]
  refine ⟨fun unrepairable catching orphaned => ?corrupt, fun isRepairable current rule fresh responds =>
    ⟨fun room => ?asks, fun full asking => ?waits⟩, fun member rule walker a s' handed => ?handed⟩
  case corrupt =>
    have answer := State.endRead_unrepairable lost (repairable.trans unrepairable) (state.trans_ne catching)
      (state.trans_ne orphaned)
    rw [wordLost_eq] at answer
    have released := (State.releaseSince_same (s := x.endRead r c) (before := s.repair) (by rw [answer]; exact repair)).trans answer
    exact ⟨_, _, completes _ released, State.settle_settled _, rfl, repair, rfl⟩
  case asks =>
    obtain ⟨v, y, view, responder⟩ := responds
    have held : x.heldView = some v := by rw [hx, State.completeRead_view]; exact view
    have answers : x.responder r.line = some y := by
      rw [State.responder, held, show x.me = s.me by rw [hx, State.completeRead_me]]
      exact responder
    obtain ⟨e, he⟩ : ∃ e : RepairEntry, e = ⟨r.segment, r.line, WordMask.single r.word, freshAsk, .localRead⟩ := ⟨_, rfl⟩
    have inserted : repairInsert x.repair e = some (s.repair ++ [e]) := by
      rw [repair]
      exact if_pos room
    have fresh' : repairFor x.repair r.line = none := by rw [repair]; exact repairFor_none fresh
    have handed : x.handWord .localRead r.line r.word = (.asking, { x with repair := s.repair ++ [e] }) := by
      rw [State.handWord_new _ _ (repairable.trans isRepairable) fresh' answers,
        show (⟨segmentOf r.line, r.line, _, _, _⟩ : RepairEntry) = e from he.symm, inserted]
    have waits : x.endRead r c =
        ({ x with repair := s.repair ++ [e] } : State).holdRequest { r with raw := some c } .repairWait := by
      rw [State.endRead_handed lost rule (.inl (state.trans current))]
      exact State.handRead_asking (r := { r with raw := some c }) handed
    have entry : repairFor (s.repair ++ [e]) r.line = some e := by
      have found := repairFor_repairInsert (by rw [he]; exact fresh') inserted
      rwa [show e.line = r.line by rw [he]] at found
    obtain ⟨jobs, released⟩ := State.releaseSince_jobs
      (s := ({ x with repair := s.repair ++ [e] } : State).holdRequest { r with raw := some c } .repairWait) s.repair
      (State.releaseRead_waits rfl entry (by rw [he]; rfl) (by rw [he]; exact WordMask.has_single_self _))
      (.inr (madeRoom_append _ _)) (by rintro r' ⟨⟩; exact nofun)
    refine ⟨_, _, completes _ ((congrArg (State.releaseSince · s.repair) waits).trans released), State.settle_settled _, rfl, ?_⟩
    rw [he]
    rfl
  case waits =>
    obtain ⟨v, y, view, responder⟩ := responds
    have held : x.heldView = some v := by rw [hx, State.completeRead_view]; exact view
    have answers : x.responder r.line = some y := by
      rw [State.responder, held, show x.me = s.me by rw [hx, State.completeRead_me]]
      exact responder
    have fresh' : repairFor x.repair r.line = none := by rw [repair]; exact repairFor_none fresh
    have handed : x.handWord .localRead r.line r.word = (.held, x) := by
      rw [State.handWord_new _ _ (repairable.trans isRepairable) fresh' answers, repair, repairInsert_full _ full.ge asking]
    have waits : x.endRead r c = x.holdRequest { r with raw := some c } .slotWait := by
      rw [State.endRead_handed lost rule (.inl (state.trans current))]
      exact State.handRead_held (r := { r with raw := some c }) handed
    have released := (State.releaseSince_same (s := x.endRead r c) (before := s.repair) (by rw [waits]; exact repair)).trans waits
    exact ⟨_, _, completes _ released, State.settle_settled _, repair, rfl⟩
  case handed =>
    have member' : x.localState r.segment = .current ∨
        ((x.localState r.segment = .catching ∨ x.localState r.segment = .orphaned) ∧ x.belowCursor r.line = true) := by
      rw [state, below]; exact member
    have ends : x.endRead r c = x.handRead { r with raw := some c } := State.endRead_handed lost rule member'
    have quiet : s'.walker = s.walker := by
      obtain ⟨xs, rep, handedFrame⟩ := x.handWord_frame .localRead (lineOfAddress r.address) (wordOfAddress r.address)
      rw [handed] at handedFrame
      have same : s' = _ := handedFrame
      rw [same, frame]
    cases a with
    | asking =>
      obtain ⟨e, found, asking, bad⟩ := State.handWord_asking handed
      obtain ⟨jobs, released⟩ := State.releaseSince_jobs (s := s'.holdRequest { r with raw := some c } .repairWait) s.repair
        (State.releaseRead_waits rfl found asking bad) (.inl (by rw [State.holdRequest_walker, quiet]; exact walker))
        (by rintro r' ⟨⟩; exact nofun)
      exact ⟨_, _, completes _ ((congrArg (State.releaseSince · s.repair)
          (ends.trans (State.handRead_asking (r := { r with raw := some c }) handed))).trans released),
        State.settle_settled _, rfl, rfl, rfl⟩
    | lost =>
      obtain ⟨jobs, released⟩ := State.releaseSince_jobs (s := s'.answer .corrupt c.data) s.repair
        (State.releaseRead_idle rfl) (.inl (by rw [State.answer_walker, quiet]; exact walker)) (by rintro r' ⟨⟩)
      exact ⟨_, _, completes _ ((congrArg (State.releaseSince · s.repair)
          (ends.trans (State.handRead_lost (r := { r with raw := some c }) handed))).trans released),
        State.settle_settled _, rfl, rfl, rfl⟩
    | held =>
      have same : s' = x := State.handWord_held handed
      have kept : s'.repair = s.repair := by rw [same]; exact repair
      have waits := ends.trans (State.handRead_held (r := { r with raw := some c }) handed)
      have released := (State.releaseSince_same (s := x.endRead r c) (before := s.repair) (by rw [waits]; exact kept)).trans waits
      exact ⟨_, _, completes _ released, State.settle_settled _, rfl, rfl, rfl⟩

/-! ### A GIVE_READ read (R171) -/

/-- The words handed on change the repair list and the reporting block alone. -/
theorem State.handGive_frame (s : State) (l : Line) (m : WordMask) :
    ∃ xs rep, s.handGive l m = { s with repair := xs, rep := rep } := by
  unfold State.handGive
  generalize m.words = is
  induction is generalizing s with
  | nil => exact ⟨_, _, rfl⟩
  | cons i is ih =>
    obtain ⟨xs, rep, handed⟩ := s.handWord_frame .bus l i
    obtain ⟨ys, rep', rest⟩ := ih (s.handWord .bus l i).2
    refine ⟨ys, rep', ?_⟩
    rw [List.foldl_cons, rest, handed]

/-- Where no word is lost, none is handed on. -/
theorem uncorrectable_words {cs : Vector Cell 4} (sound : ∀ i : WordIx, cs[i].health ≠ .uncorrectable) :
    (uncorrectableMask cs).words = [] := by
  rw [(uncorrectableMask_zero_iff cs).mpr fun ⟨i, lost⟩ => sound i lost]
  rfl

theorem giveRead_reading {before after : List GiveEntry} {e : GiveEntry} (cs : Vector Cell 4) (reading : e.state = .reading)
    (hb : ∀ x ∈ before, x.state ≠ .reading) (ha : ∀ x ∈ after, x.state ≠ .reading) :
    giveRead (before ++ e :: after) cs = before ++
      { e with
        state := .ready
        void := uncorrectableMask cs
        data := words4 fun i => if cs[i].health == .uncorrectable then 0 else cs[i].data } :: after := by
  have others (xs : List GiveEntry) (h : ∀ x ∈ xs, x.state ≠ .reading) : giveRead xs cs = xs := by
    unfold giveRead
    conv_rhs => rw [← List.map_id xs]
    exact List.map_congr_left fun x hx => if_neg (h x hx)
  have split : giveRead (before ++ e :: after) cs = giveRead before cs ++ giveRead [e] cs ++ giveRead after cs := by
    simp [giveRead]
  rw [split, others before hb, others after ha]
  simp [giveRead, reading]

/-- Settles O35: the entry filled, and then what the lost words and the release leave alone. -/
theorem giveReadFillsItsEntry : Obligations.GiveReadFillsItsEntry := by
  intro s l before after e running gives reading line hb ha
  obtain ⟨x, hx⟩ : ∃ x, x = s.completeRead .giveRead l := ⟨_, rfl⟩
  have frame : x = { s with store := x.store, health := x.health, rep := x.rep } := by
    rw [hx]; exact s.completeRead_frame _ _
  have xgives : x.gives = before ++ e :: after := by rw [frame]; exact gives
  obtain ⟨y, hy⟩ : ∃ y : State, y = { x with gives := giveRead x.gives (s.delivered l) } := ⟨_, rfl⟩
  have ended : s.completeGiveRead l = y.handGive l (uncorrectableMask (s.delivered l)) := by
    rw [State.completeGiveRead, ← hx, hy]
    refine if_pos ?_
    rw [xgives]
    simp [reading, line]
  have completes : exec .giveReadCompletion s =
      .next ((y.handGive l (uncorrectableMask (s.delivered l))).releaseSince s.repair).idlePort.settle := by
    change execGiveReadCompletion s = _
    rw [execGiveReadCompletion, running, ← ended]
    rfl
  have filled : y.gives = before ++
      { e with
        state := .ready
        void := uncorrectableMask (s.delivered l)
        data := words4 fun i => if (s.delivered l)[i].health == .uncorrectable then 0 else (s.delivered l)[i].data } :: after := by
    rw [hy, ← giveRead_reading (s.delivered l) reading hb ha, ← xgives]
  obtain ⟨z, hz⟩ : ∃ z, z = (y.handGive l (uncorrectableMask (s.delivered l))).releaseSince s.repair := ⟨_, rfl⟩
  rw [← hz] at completes
  have left : z = { s with
      store := x.store, health := x.health, rep := z.rep, gives := y.gives, port := z.port, out := z.out,
      walker := z.walker, repair := z.repair, catchup := z.catchup } := by
    obtain ⟨xs, rep, handed⟩ := y.handGive_frame l (uncorrectableMask (s.delivered l))
    have released := ((y.handGive l (uncorrectableMask (s.delivered l))).releaseSince_released s.repair).frame
    rw [← hz, handed] at released
    rw [released, hy, frame]
  have idle {α : Type} (f : State → α) : f z.idlePort = f (State.idlePort _) := congrArg (fun u : State => f u.idlePort) left
  refine ⟨_, _, completes, State.settle_settled _, ?words, ?store, idle State.sp, idle State.pending, idle State.commit,
    idle State.group, idle State.bus, idle State.view, idle State.join, fun sound => ?sound⟩
  case words =>
    refine ⟨uncorrectableMask (s.delivered l),
      words4 fun i => if (s.delivered l)[i].health == .uncorrectable then 0 else (s.delivered l)[i].data,
      (idle State.gives).trans filled, fun i => ⟨?_, ?_⟩⟩
    · rw [uncorrectableMask, maskOf_has]
      exact beq_iff_eq
    · simp only [words4_get, beq_iff_eq]
  case store =>
    rw [← hx]
    exact idle State.store
  case sound =>
    have none : y.handGive l (uncorrectableMask (s.delivered l)) = y := by
      rw [State.handGive, uncorrectable_words sound]
      rfl
    have repair : y.repair = s.repair := by rw [hy, frame]
    rw [none, State.releaseSince_same repair] at hz
    rw [← hx, hz, hy, frame]
    exact ⟨rfl, rfl, rfl, rfl, rfl, rfl⟩

/-! ### A SERVE read (R145) -/

/-- A line is added to the buffer while it holds fewer than six. -/
theorem Job.add_eq (j : Job) (h : HeldLine) : j.add h =
    if j.buffer.length < 6 then { j with buffer := j.buffer ++ [h] } else { j with ahead := j.ahead ++ [h] } := rfl

/-- A SERVE read without a lost word ends with its line added. -/
theorem State.endServe_sound {s : State} (k : JobIx) (g : Segment) (o : Nat) {cs : Vector Cell 4}
    (sound : ∀ i : WordIx, cs[i].health ≠ .uncorrectable) : s.endServe k g o cs =
      { s with catchup := s.catchup.modifyJob k fun j =>
        ({ j with reading := none } : Job).add ⟨o, words4 fun i => cs[i].data, uncorrectableMask cs⟩ } := by
  rw [State.endServe, uncorrectable_words sound]
  rfl

theorem CatchUp.modifyJob_jobs (c : CatchUp) (k x : JobIx) (f : Job → Job) :
    (c.modifyJob k f).jobs[x] = if x = k then (c.jobs[k]).map f else c.jobs[x] := by
  rw [CatchUp.modifyJob, CatchUp.setJob, Fin.getElem_fin, Vector.getElem_set]
  by_cases same : x = k
  · rw [if_pos (congrArg Fin.val same).symm, if_pos same]
  · rw [if_neg fun h => same (Fin.ext h.symm), if_neg same]
    rfl

/-- Settles O38: the job whose read it was takes the line, and the repair list stays. -/
theorem serveReadAddsTheLine : Obligations.ServeReadAddsTheLine := by
  intro s k j o running reader job reading sound
  obtain ⟨l, hl⟩ : ∃ l, l = lineAt j.segment o := ⟨_, rfl⟩
  rw [← hl] at running sound ⊢
  obtain ⟨x, hx⟩ : ∃ x, x = s.completeRead .serve l := ⟨_, rfl⟩
  have frame : x = { s with store := x.store, health := x.health, rep := x.rep } := by
    rw [hx]; exact s.completeRead_frame _ _
  have catchup : x.catchup = s.catchup := by rw [frame]
  have ended : s.completeServe l = x.endServe k j.segment o (s.delivered l) := by
    rw [State.completeServe, ← hx]
    rw [catchup, reader]
    dsimp only
    rw [job]
    dsimp only
    rw [reading]
    exact if_pos hl.symm
  have repair : (x.endServe k j.segment o (s.delivered l)).repair = s.repair := by
    rw [State.endServe_sound k j.segment o sound, frame]
  refine ⟨(x.endServe k j.segment o (s.delivered l)).idlePort, _, ?_, State.settle_settled _, ?_⟩
  · change execServeReadCompletion s = _
    rw [execServeReadCompletion, running]
    dsimp only
    rw [ended, State.releaseSince_same repair]
    rfl
  · rw [State.endServe_sound k j.segment o sound, ← hx]
    refine ⟨⟨words4 fun i => (s.delivered l)[i].data, fun i => words4_get _ i, ?_⟩, fun y other => ?_, ?_, rfl, ?_⟩
    · rw [State.idlePort_catchup, CatchUp.modifyJob_jobs, if_pos rfl, catchup, job,
        (uncorrectableMask_zero_iff _).mpr fun ⟨i, lost⟩ => sound i lost]
      rfl
    · rw [State.idlePort_catchup, CatchUp.modifyJob_jobs, if_neg other, catchup]
    · rw [State.idlePort_catchup, catchup]
      rfl
    · rw [frame]
      exact ⟨rfl, rfl, rfl, rfl, rfl, rfl, rfl, rfl, rfl, rfl, rfl, rfl, rfl, rfl⟩

/-! ### A walker step (R24, R25) -/

/-- Settles O39: with no word to hand on, the step ends at once. -/
theorem scrubStepSetsThePace : Obligations.ScrubStepSetsThePace := by
  intro s l running stepping chosen sound
  obtain ⟨x, hx⟩ : ∃ x, x = s.completeRead .scrub l := ⟨_, rfl⟩
  have frame : x = { s with store := x.store, health := x.health, rep := x.rep } := by
    rw [hx]; exact s.completeRead_frame _ _
  have config : x.rep.config = s.rep.config := by rw [hx]; exact s.completeRead_config _ _
  have walker : x.walker = s.walker := by rw [frame]
  obtain ⟨f, hf⟩ : ∃ f : Finding, f = Vector.ofFn fun i : WordIx => (s.store.readLine l)[i].health := ⟨_, rfl⟩
  obtain ⟨y, hy⟩ : ∃ y : State, y = { x with walker := { x.walker with
    cursor := l.val + 1, findings := some f, toHand := uncorrectableMask (s.store.readLine l) } } := ⟨_, rfl⟩
  have ended : s.completeScrub l = y.endStep := by
    have handed : x.finishStep l (s.store.readLine l) = y.endStep := by
      rw [State.finishStep, ← hf, ← hy, State.handOn, hy]
      dsimp only
      rw [walker, chosen]
      dsimp only
      rw [uncorrectable_words sound]
      rfl
    rw [State.completeScrub, ← hx]
    rw [walker, if_pos stepping, handed]
  have dirty : (wordIxs.any fun i => f[i] != .clean) = true ↔ ∃ i : WordIx, (s.store.readLine l)[i].health ≠ .clean := by
    simp [hf, wordIxs]
  have pace : y.nextInterval f = if s.walker.firstPass = true ∨ ∃ i : WordIx, (s.store.readLine l)[i].health ≠ .clean
      then s.scrubFast else min s.scrubSlow (s.walker.interval + s.scrubStep) := by
    have fields : y.scrubFast = s.scrubFast ∧ y.scrubSlow = s.scrubSlow ∧ y.scrubStep = s.scrubStep := by
      rw [hy]
      simp only [State.scrubFast, State.scrubSlow, State.scrubStep, Reporting.field, config, and_self]
    have first : y.walker.firstPass = s.walker.firstPass ∧ y.walker.interval = s.walker.interval := by
      rw [hy, walker]; exact ⟨rfl, rfl⟩
    rw [State.nextInterval, fields.1, fields.2.1, fields.2.2, first.1, first.2]
    simp only [Bool.or_eq_true, dirty]
  have stepped : y.walker = { s.walker with
      cursor := l.val + 1, findings := some f, toHand := uncorrectableMask (s.store.readLine l) } := by
    rw [hy, walker]
  have kept : y = { s with store := x.store, health := x.health, rep := x.rep, walker := y.walker } := by rw [hy, frame]
  have left : y.endStep = { s with
      store := x.store, health := x.health, rep := x.rep
      walker := { y.walker with
        state := .timing, chosen := none, interval := y.nextInterval f, findings := none, toHand := 0 } } := by
    rw [State.endStep, show y.walker.findings = some f by rw [stepped]]
    exact congrArg (fun u : State => ({ u with walker := { y.walker with
      state := .timing, chosen := none, interval := y.nextInterval f, findings := none, toHand := 0 } } : State)) kept
  have idle {α : Type} (g : State → α) : g y.endStep.idlePort = g (State.idlePort _) :=
    congrArg (fun u : State => g u.idlePort) left
  refine ⟨y.endStep.idlePort, _, ?next, State.settle_settled _, ?walker, ?_⟩
  case next =>
    have repair : y.endStep.repair = s.repair := by rw [left]
    change execScrubStepCompletion s = _
    rw [execScrubStepCompletion, running]
    dsimp only
    rw [ended, State.releaseSince_same repair]
    rfl
  case walker =>
    refine (idle State.walker).trans ?_
    rw [State.idlePort_walker, stepped, pace]
  · rw [← hx]
    exact ⟨idle State.store, idle State.health, idle State.rep, idle State.sp, idle State.pending, idle State.port, idle State.out,
      idle State.commit, idle State.group, idle State.bus, idle State.view, idle State.join, idle State.catchup,
      idle State.repair, idle State.gives⟩

end Sys2Proof.Machine
end

section
/-! The copies of SPARE_COPY and the fill: their completions, and the obligations that rest on these (R14, R17, R18, R35, R36). -/

namespace Sys2Proof.Machine

/-! ### The fill copy (R14, R32, R33) -/

theorem Store.arrayLine_get (st : Store) (l : Line) (i : WordIx) : (st.arrayLine l)[i] = st.cell (arrayWord l i) := words4_get _ i

theorem Store.spareLine_get (st : Store) (k : SpareIx) (i : WordIx) : (st.spareLine k)[i] = st.cell (.spare k i) := words4_get _ i

/-- The words a fill copy writes are those whose bit is clear and whose original is not lost. -/
theorem Store.fillMask_has (st : Store) (k : SpareIx) (l : Line) (i : WordIx) : (st.fillMask k l).has i = true ↔
    st.table[k].mask.has i = false ∧ (st.cell (arrayWord l i)).health ≠ .uncorrectable := by
  rw [Store.fillMask, maskOf_has, Store.arrayLine_get, Bool.and_eq_true, Bool.not_eq_true', bne_iff_ne]

theorem Store.fillCopy_cell (st : Store) (k : SpareIx) (l : Line) (w : StoreWord) : (st.fillCopy k l).cell w =
    (st.putMask (.spare k) (st.fillMask k l) fun i => (st.arrayLine l)[i].cleaned).cell w := by
  rw [Store.fillCopy, Store.activate_cell, Store.fillCopyWords, Store.markWritten_cell]

theorem Store.activate_table (st : Store) (k j : SpareIx) : (st.activate k).table[j] =
    if j = k ∧ st.table[k].state = .filling ∧ st.table[k].mask = 15 then { st.table[k] with state := .active } else st.table[j] := by
  unfold Store.activate
  by_cases full : st.table[k].state = .filling ∧ st.table[k].mask = 15
  · rw [if_pos (by rw [full.1, full.2]; rfl), Store.setEntry, Fin.getElem_fin, Vector.getElem_set]
    by_cases same : j = k
    · rw [if_pos (congrArg Fin.val same).symm, if_pos ⟨same, full⟩]
    · rw [if_neg fun h => same (Fin.ext h.symm), if_neg fun h => same h.1]
      rfl
  · have off : ¬ (st.table[k].state == .filling && st.table[k].mask == 15#4) = true := fun h =>
      full ⟨eq_of_beq (Bool.and_eq_true_iff.mp h).1, eq_of_beq (Bool.and_eq_true_iff.mp h).2⟩
    rw [if_neg off, if_neg fun h => full h.2]

/-- The table after a fill copy, entry by entry. -/
theorem Store.fillCopy_table (st : Store) (k : SpareIx) (l : Line) (filling : st.table[k].state = .filling) :
    (∀ j : SpareIx, j ≠ k → (st.fillCopy k l).table[j] = st.table[j]) ∧
    (st.fillCopy k l).table[k].line = st.table[k].line ∧
    (st.fillCopy k l).table[k].mask = st.table[k].mask ||| st.fillMask k l ∧
    ((st.fillCopy k l).table[k].state = .active ↔ (st.fillCopy k l).table[k].mask = 15) := by
  have words (j : SpareIx) : (st.fillCopyWords k l (st.fillMask k l)).table[j] =
      if j = k then { st.table[k] with mask := st.table[k].mask ||| st.fillMask k l } else st.table[j] := by
    rw [Store.fillCopyWords, Store.markWritten_table, (st.putMask_same _ _ _).table]
  unfold Store.fillCopy
  refine ⟨fun j other => ?_, ?_⟩
  · rw [Store.activate_table, if_neg fun h => other h.1, words, if_neg other]
  · rw [Store.activate_table, words, if_pos rfl]
    by_cases full : st.table[k].mask ||| st.fillMask k l = 15
    · rw [if_pos ⟨rfl, filling, full⟩]
      exact ⟨rfl, rfl, iff_of_true rfl full⟩
    · rw [if_neg fun h => full h.2.2]
      refine ⟨rfl, rfl, iff_of_false ?_ full⟩
      change st.table[k].state ≠ _
      rw [filling]
      decide

/-- Settles O36: the words by the fill mask, the entry by its bits. -/
theorem fillCopyCompletes : Obligations.FillCopyCompletes := by
  intro s k l running inUse filling
  obtain ⟨others, line, mask, active⟩ := s.store.fillCopy_table k l filling
  have completed : s.completeFillCopy k l = { s with
      store := s.store.fillCopy k l
      health := { s.health with
        corrected := min (s.health.corrected + (correctableMask (s.store.arrayLine l)).size) 65535
        copyDone := s.health.copyDone.set k true } } := by
    rw [State.completeFillCopy, inUse]
    rfl
  have counted : (correctableMask (s.store.arrayLine l)).size =
      (wordIxs.filter fun i => (s.store.cell (arrayWord l i)).health == .correctable).length := by
    rw [correctableMask, maskOf_size]
    simp only [Store.arrayLine_get]
  rw [counted] at completed
  refine ⟨(s.completeFillCopy k l).idlePort, _, ?next, State.settle_settled _, ?_⟩
  case next =>
    change execFillCopyCompletion s = _
    rw [execFillCopyCompletion, running]
    rfl
  rw [completed]
  refine ⟨fun i => ⟨fun clear sound => ?written, fun kept => ?kept⟩, fun w other => ?other, others, line, active, rfl, rfl⟩
  case written =>
    have has : (s.store.fillMask k l).has i = true := (s.store.fillMask_has k l i).mpr ⟨clear, sound⟩
    refine ⟨?_, ?_⟩
    · change (s.store.fillCopy k l).cell _ = _
      rw [Store.fillCopy_cell, Store.putMask_written _ _ (spare_injOn k) _ _ _ has, Store.arrayLine_get]
      rfl
    · change ((s.store.fillCopy k l).table[k].mask).has i = true
      rw [mask, WordMask.has_or, has, Bool.or_true]
  case kept =>
    have unset : (s.store.fillMask k l).has i = false := by
      rw [Bool.eq_false_iff]
      intro has
      obtain ⟨clear, sound⟩ := (s.store.fillMask_has k l i).mp has
      obtain set | lost := kept
      · rw [clear] at set; cases set
      · exact sound lost
    refine ⟨?_, ?_⟩
    · change (s.store.fillCopy k l).cell _ = _
      rw [Store.fillCopy_cell]
      refine Store.putMask_other _ _ _ _ _ fun j has same => ?_
      cases same
      rw [unset] at has
      cases has
    · change ((s.store.fillCopy k l).table[k].mask).has i = _
      rw [mask, WordMask.has_or, unset, Bool.or_false]
  case other =>
    change (s.store.fillCopy k l).cell w = _
    rw [Store.fillCopy_cell]
    exact Store.putMask_other _ _ _ _ _ fun i _ same => other i same.symm

/-! ### The return copy (R35, R36) -/

/-- A return copy writes each word plain, or poisoned where the spare has lost it. -/
theorem Store.returnCopy_cell (st : Store) (k : SpareIx) (l : Line) :
    (∀ i : WordIx, (st.returnCopyWords k l 15).cell (arrayWord l i) = ⟨(st.cell (.spare k i)).data,
      if (st.cell (.spare k i)).health = .uncorrectable then .uncorrectable else .clean⟩) ∧
    ∀ w, (∀ i, w ≠ arrayWord l i) → (st.returnCopyWords k l 15).cell w = st.cell w := by
  refine ⟨fun i => ?_, fun w other => st.putMask_other _ _ _ w fun i _ same => other i same.symm⟩
  refine (st.putMask_written (arrayWord l) (arrayWord_injOn l) 15 _ i (WordMask.has_all i)).trans ?_
  rw [Store.spareLine_get]
  cases st.cell (.spare k i) with
  | mk data health => cases health <;> rfl

/-- Settles O37: the words copied, the entry RETIRED, and the promotion of its line. -/
theorem returnCopyCompletes : Obligations.ReturnCopyCompletes := by
  intro s k l o running inUse active retiring
  obtain ⟨x, hx⟩ : ∃ x : State, x = State.retireEntry { s.countCorrected (s.store.spareLine k) with
    store := s.store.returnCopyWords k l 15 } k := ⟨_, rfl⟩
  have completed : s.completeReturnCopy k l = x.promote o l := by
    rw [State.completeReturnCopy, inUse, retiring, hx]
    rfl
  have same : (s.store.returnCopyWords k l 15).table = s.store.table := (s.store.putMask_same _ _ _).table
  have lost : x.store.tableLost = false := by
    rw [hx]
    exact (s.store.putMask_same _ _ _).lost.trans inUse
  have table (j : SpareIx) : x.store.table[j] = if j = k then { s.store.table[k] with state := .retired } else s.store.table[j] := by
    rw [hx]
    change ((s.store.returnCopyWords k l 15).table.set k { (s.store.returnCopyWords k l 15).table[k] with state := .retired })[j] = _
    rw [same, Fin.getElem_fin, Vector.getElem_set]
    by_cases e : j = k
    · rw [if_pos (congrArg Fin.val e).symm, if_pos e]
    · rw [if_neg fun h => e (Fin.ext h.symm), if_neg e]
      rfl
  have retire (j : SpareIx) (h : j = k) : x.health.retire[j] = none := by
    subst h
    rw [hx]
    exact Vector.getElem_set_self _
  have rep : x.rep = s.rep := by rw [hx]; rfl
  have exhausted : x.health.exhausted = s.health.exhausted := by rw [hx]; rfl
  obtain ⟨found, cells, -, -⟩ := x.promote_found o l
  obtain ⟨free, none⟩ := State.promote_cases (s := x) o l lost
  obtain ⟨written, kept⟩ := s.store.returnCopy_cell k l
  have cell (w : StoreWord) : (x.promote o l).store.cell w = (s.store.returnCopyWords k l 15).cell w := by
    rw [cells, hx]
    exact Store.setEntry_cell _ _ _ _
  have stillFree (j : SpareIx) (h : s.store.table[j].state = .free) : j ≠ k := by
    rintro rfl
    rw [active] at h
    cases h
  have freeIff (j : SpareIx) : x.store.table[j].state = .free ↔ s.store.table[j].state = .free := by
    rw [table]
    by_cases e : j = k
    · subst e
      rw [if_pos rfl, active]
      exact iff_of_false nofun nofun
    · rw [if_neg e]
  refine ⟨(s.completeReturnCopy k l).idlePort, _, ?next, State.settle_settled _, ?_⟩
  case next =>
    change execReturnCopyCompletion s = _
    rw [execReturnCopyCompletion, running]
    rfl
  rw [completed]
  refine ⟨fun i => (cell _).trans (written i), fun w other => (cell w).trans (kept w other), ?retired, fun j isFree lowest => ?spared,
    fun noFree => ?exhausted, ?mark, x.promote_suspects o l, ?frame⟩
  case retired =>
    change (x.promote o l).store.table[k] = _
    by_cases some : ∃ j : SpareIx, x.store.table[j].state = .free
    · obtain ⟨j, isFree, lowest⟩ : ∃ j : SpareIx, x.store.table[j].state = .free ∧ ∀ i < j, x.store.table[i].state ≠ .free := by
        obtain ⟨j, isFree, least⟩ := exists_minimal_of_wellFoundedLT (fun j : SpareIx => x.store.table[j].state = .free) some
        exact ⟨j, isFree, fun i lt h => absurd (least h lt.le) (not_le.mpr lt)⟩
      obtain ⟨-, others, -⟩ := free j isFree lowest
      rw [others k (stillFree j ((freeIff j).mp isFree)).symm, table, if_pos rfl]
    · obtain ⟨store, -⟩ := none fun j h => some ⟨j, h⟩
      rw [store, table, if_pos rfl]
  case spared =>
    obtain ⟨entry, others, -, -, -, spared⟩ := free j ((freeIff j).mpr isFree) fun i lt => mt (freeIff i).mp (lowest i lt)
    refine ⟨entry, fun i ne other => ?_, ?_⟩
    · change (x.promote o l).store.table[i] = _
      rw [others i ne, table, if_neg other]
    · rw [← rep]
      exact spared
  case exhausted =>
    obtain ⟨store, -, fresh, held⟩ := none fun j => mt (freeIff j).mp (noFree j)
    refine ⟨fun j other => ?_, ?_⟩
    · change (x.promote o l).store.table[j] = _
      rw [store, table, if_neg other]
    · change l ∈ (x.promote o l).health.exhausted
      by_cases already : l ∈ x.health.exhausted
      · rw [(held already).1]; exact already
      · rw [(fresh already).1]; simp
  case mark =>
    change (x.promote o l).health.retire[k] = _
    by_cases some : ∃ j : SpareIx, x.store.table[j].state = .free
    · obtain ⟨j, isFree, lowest⟩ : ∃ j : SpareIx, x.store.table[j].state = .free ∧ ∀ i < j, x.store.table[i].state ≠ .free := by
        obtain ⟨j, isFree, least⟩ := exists_minimal_of_wellFoundedLT (fun j : SpareIx => x.store.table[j].state = .free) some
        exact ⟨j, isFree, fun i lt h => absurd (least h lt.le) (not_le.mpr lt)⟩
      obtain ⟨-, -, -, -, others, -⟩ := free j isFree lowest
      rw [others k (stillFree j ((freeIff j).mp isFree)).symm, retire k rfl]
    · obtain ⟨-, marks, -⟩ := none fun j h => some ⟨j, h⟩
      rw [marks, retire k rfl]
  case frame =>
    have frame : x = { s with store := x.store, health := x.health } := by rw [hx]; rfl
    have rest {α : Type} (g : State → α) : g x = g { s with store := x.store, health := x.health } := congrArg g frame
    have kept : x.promote o l = { s with
        store := (x.promote o l).store, health := (x.promote o l).health, rep := (x.promote o l).rep } :=
      found.trans (rest fun u => { u with
        store := (x.promote o l).store, health := (x.promote o l).health, rep := (x.promote o l).rep })
    exact congrArg State.idlePort kept

end Sys2Proof.Machine
end

section
/-! The end of the fill and the start-up: the obligations that rest on `State.leaveFilling` (R7, R17, R18, R176). -/

namespace Sys2Proof.Machine

/-! ### The end of the fill (R18) -/

theorem State.leaveFilling_stays {s : State} {g : Segment} (pending : s.fillPending g = true) : s.leaveFilling = s := by
  rw [State.leaveFilling, if_neg]
  rintro ⟨-, done⟩
  have left := List.all_eq_true.mp done g (List.mem_finRange g)
  rw [pending] at left
  cases left

theorem State.leaveFilling_done {s : State} (station : s.join.station = .filling) (done : ∀ g, s.fillPending g = false) :
    s.leaveFilling = State.startWalker
      { s with store := { s.store with marker := .valid }, join := { s.join with station := .listening } } := by
  rw [State.leaveFilling, if_pos ⟨station, List.all_eq_true.mpr fun g _ => by rw [done g]; rfl⟩]

theorem State.startWalker_frame (s : State) : s.startWalker = { s with walker := s.startWalker.walker } := by
  unfold State.startWalker
  split <;> rfl

/-- The segment a fill goes through is the one FILLING. -/
theorem StorePort.fillingSegment_of {p : StorePort} {g : Segment} (filling : p.fill[g] = .filling)
    (alone : ∀ h : Segment, h ≠ g → p.fill[h] ≠ .filling) : p.fillingSegment = some g :=
  find_finRange g (beq_iff_eq.mpr filling) fun j lt => beq_eq_false_iff_ne.mpr (alone j lt.ne)

theorem State.retake_held {s : State} {r : Request} {st : Stage} (request : s.port.request = some r) (stage : r.stage = st) :
    s.retake st = s.judge r := by
  rw [State.retake, request]
  exact if_pos stage

theorem exec_fillWriteCompletion {s : State} {w : LineWrite} (running : s.sp.running = some ⟨.fill, .write w⟩) :
    exec .fillWriteCompletion s = .next (s.completeFill w).idlePort.settle := by
  change execFillWriteCompletion s = _
  rw [execFillWriteCompletion, running]
  rfl

/-- The state in which the fill of a segment has just ended. -/
def State.segmentFilled (s : State) (w : LineWrite) (g : Segment) : State :=
  { s with store := s.store.write w, sp := { s.sp with fill := s.sp.fill.set g .ended, fillNext := 0 } }

theorem State.completeFill_next {s : State} {w : LineWrite} {g : Segment} (filling : s.sp.fillingSegment = some g)
    (more : s.sp.fillNext + 1 < 2048) :
    s.completeFill w = { s with store := s.store.write w, sp := { s.sp with fillNext := s.sp.fillNext + 1 } } := by
  rw [State.completeFill, filling]
  exact if_pos more

theorem State.completeFill_last {s : State} {w : LineWrite} {g : Segment} (filling : s.sp.fillingSegment = some g)
    (last : s.sp.fillNext + 1 = 2048) : s.completeFill w = (s.segmentFilled w g).leaveFilling.retake .fillWait := by
  rw [State.completeFill, filling]
  exact if_neg (by rw [last]; exact Nat.lt_irrefl _)

theorem State.segmentFilled_pending (s : State) (w : LineWrite) (g h : Segment) :
    (s.segmentFilled w g).fillPending h = if h = g then false else s.fillPending h := by
  have fill : (s.segmentFilled w g).sp.fill[h] = if h = g then .ended else s.sp.fill[h] := by
    change (s.sp.fill.set g .ended)[h] = _
    rw [Fin.getElem_fin, Vector.getElem_set]
    by_cases same : h = g
    · rw [if_pos (congrArg Fin.val same).symm, if_pos same]
    · rw [if_neg fun e => same (Fin.ext e.symm), if_neg same]
      rfl
  unfold State.fillPending
  rw [fill]
  by_cases same : h = g
  · rw [if_pos same, if_pos same]
  · rw [if_neg same, if_neg same]

/-- Leaving FILLING moves the marker, the station state and the walker; and no local state, as no view is held on either side. -/
theorem State.leaveFilling_frame (s : State) : ∃ (m : Marker) (w : Walker) (st : StationState),
    s.leaveFilling = { s with store := { s.store with marker := m }, walker := w, join := { s.join with station := st } } ∧
    (st = s.join.station ∨ s.join.station = .filling ∧ st = .listening) := by
  by_cases done : s.join.station = .filling ∧ segments.all fun g => !s.fillPending g
  · refine ⟨.valid, s.leaveFilling.walker, .listening, ?_, .inr ⟨done.1, rfl⟩⟩
    rw [State.leaveFilling, if_pos done, State.startWalker_frame]
  · refine ⟨s.store.marker, s.walker, s.join.station, ?_, .inl rfl⟩
    rw [State.leaveFilling, if_neg done]

/-- Settles O40: the fill goes on, ends its segment, or ends with the last one. -/
theorem fillWriteAdvancesTheFill : Obligations.FillWriteAdvancesTheFill := by
  intro s w g _ running filling alone
  have which : s.sp.fillingSegment = some g := StorePort.fillingSegment_of filling alone
  rw [exec_fillWriteCompletion running]
  refine ⟨fun more => ⟨_, rfl, ?_⟩, fun last free waits => ⟨_, rfl, ?_⟩, fun last free station none => ?_,
    fun last r request stage segment station => ⟨_, rfl, ?_⟩⟩
  · rw [State.completeFill_next which more]
    exact State.settle_settled _
  · obtain ⟨h, waiting⟩ := waits
    have other : h ≠ g := by
      rintro rfl
      rw [filling] at waiting
      cases waiting
    have pending : (s.segmentFilled w g).fillPending h = true := by
      rw [State.segmentFilled_pending, if_neg other, State.fillPending_true (.inl waiting)]
    rw [State.completeFill_last which last, State.leaveFilling_stays pending, State.retake_other (s.segmentFilled w g) _ free]
    exact State.settle_settled _
  · have done (h : Segment) : (s.segmentFilled w g).fillPending h = false := by
      rw [State.segmentFilled_pending]
      by_cases same : h = g
      · exact if_pos same
      · rw [if_neg same, State.fillPending_false (none h) (alone h same)]
    refine ⟨(s.completeFill w).idlePort, _, rfl, State.settle_settled _, ?_⟩
    have left := State.leaveFilling_done (s := s.segmentFilled w g) station done
    have kept : (s.segmentFilled w g).leaveFilling.retake .fillWait = (s.segmentFilled w g).leaveFilling := by
      refine State.retake_other _ _ ?_
      rw [left, State.startWalker_frame]
      exact free
    rw [State.completeFill_last which last, kept, left, State.startWalker_frame]
    rfl
  · rw [(State.settle_settled _).port, State.completeFill_last which last]
    obtain ⟨m, wk, st, left, moved⟩ := (s.segmentFilled w g).leaveFilling_frame
    have held : (s.segmentFilled w g).leaveFilling.port.request = some r := by rw [left]; exact request
    rw [State.retake_held held stage]
    have now : st = .filling ∨ st = .listening := moved.imp (·.trans station) And.right
    have noView : (s.segmentFilled w g).leaveFilling.heldView = none := by
      rw [left]
      obtain rfl | rfl := now <;> rfl
    have noViewBefore : s.heldView = none := by
      rw [State.heldView, State.inGroup, station]
      rfl
    have mode : (s.segmentFilled w g).leaveFilling.mode = s.mode := by rw [left]; rfl
    refine (State.judge_judged s _ r ?_ ?_ (fun h => ?_) ?_ fun h => ?_).1
    · rw [left]
      obtain rfl | rfl := now <;> rfl
    · rw [left]
      refine (State.segmentFilled_pending s w g r.segment).trans (if_pos segment)
    · rw [State.localState, State.localState, mode, noView, noViewBefore]
    · rw [left]
      rfl
    · rw [State.ownCursor, State.ownCursor, State.ownState, State.ownState, noView, noViewBefore]

/-! ### The start-up (R176) -/

/-- Settles O27. -/
theorem crystalCountRunsToTheSwitch : Obligations.CrystalCountRunsToTheSwitch := by
  intro s
  have period : exec .crystalPeriod s = .next (if s.stabilising then s.setStab (s.rep.stab + 1) else s) := rfl
  have count : exec .stabilisationCountDone s = .next (if s.stabilising then s.setStab s.stabTarget else s) := rfl
  have target : s.stabTarget = 2 ^ s.rep.field 10 := rfl
  have reached : s.setStab (2 ^ s.rep.field 10) =
      { s with rep := { s.rep with stab := 2 ^ s.rep.field 10, clock := .switching } } := by
    rw [State.setStab, target, if_pos le_rfl]
  rw [period, count, target]
  refine ⟨fun running => ?running, fun idle => ?idle⟩
  case running =>
    have internal : s.rep.clock = .internal := by
      simp only [State.stabilising, Bool.and_eq_true, beq_iff_eq] at running
      exact running.2
    rw [if_pos running]
    refine ⟨fun short => ?_, fun last => ?_, ?_⟩
    · rw [State.setStab, target, if_neg (not_le.mpr short), ← internal]
    · rw [last, reached]
    · rw [if_pos running, reached]
  case idle =>
    have off : ¬s.stabilising = true := by rw [idle]; exact Bool.false_ne_true
    rw [if_neg off, if_neg off]
    exact ⟨rfl, rfl⟩

/-- Outside the group no write is posted: a judgement moves the port alone. -/
theorem State.judge_outside {s : State} (noView : s.heldView = none) (r : Request) :
    s.judge r = { s with port := (s.judge r).port } := by
  have write (d : Word) : s.judgeWrite r d = { s with port := (s.judgeWrite r d).port } := by
    unfold State.judgeWrite State.localState
    rw [noView]
    cases s.mode r.segment <;> rfl
  unfold State.judge State.judgeSegment State.judgeRead State.judgeMemberRead State.judgeStaleRead
  repeat' split
  all_goals first | rfl | exact write _

theorem State.retake_outside {s : State} (noView : s.heldView = none) (st : Stage) :
    s.retake st = { s with port := (s.retake st).port } := by
  unfold State.retake
  repeat' split
  all_goals first | rfl | exact State.judge_outside noView _

/-- The state at the entry to FILLING, before a held request is re-taken. -/
def State.fillingEntered (s : State) : State :=
  { s with
    store := if s.store.marker == .invalid then s.store.clearTable else s.store
    sp := { s.sp with
      fill := Vector.ofFn fun g : Segment => if s.store.marker == .invalid || s.fillFlag g then .waiting else .none, fillNext := 0 }
    join := { s.join with station := .filling } }

theorem State.enterFilling_eq (s : State) : s.enterFilling = (s.fillingEntered.retake .startWait).leaveFilling := rfl

/-- Settles O28: the entry to FILLING, and its end at once where no segment is to be filled. -/
theorem switchEntersFilling : Obligations.SwitchEntersFilling := by
  intro s clocking switching
  have done : exec .busClockSwitchDone s = .next s.busReady.enterFilling.settle := congrArg _ (if_pos ⟨clocking, switching⟩)
  obtain ⟨x, hx⟩ : ∃ x, x = s.busReady.fillingEntered.retake .startWait := ⟨_, rfl⟩
  obtain ⟨p, entered⟩ : ∃ p, x = { s.busReady.fillingEntered with port := p } :=
    ⟨_, hx.trans (State.retake_outside rfl _)⟩
  have filled : s.busReady.enterFilling = x.leaveFilling := by rw [State.enterFilling_eq, hx]
  have fill (g : Segment) : x.sp.fill[g] = if s.store.marker == .invalid || s.fillFlag g then .waiting else .none := by
    rw [entered]
    exact Vector.getElem_ofFn _
  have frame {α : Type} (f : State → α) : f x = f { s.busReady.fillingEntered with port := p } := congrArg f entered
  obtain ⟨m, wk, st, left, moved⟩ := x.leaveFilling_frame
  have unmoved {α : Type} (f : State → α) : f x.leaveFilling =
      f { x with store := { x.store with marker := m }, walker := wk, join := { x.join with station := st } } := congrArg f left
  refine ⟨x.leaveFilling, _, done, filled ▸ State.settle_settled _, ?rep, ?bus, ?pending, ?health, ?out, ?commit, ?group, ?view,
    ?catchup, ?repair, ?gives, fun cold => ?cold, fun warm => ?warm⟩
  case rep => exact (unmoved State.rep).trans (frame State.rep)
  case bus => exact (unmoved State.bus).trans (frame State.bus)
  case pending => exact (unmoved State.pending).trans (frame State.pending)
  case health => exact (unmoved State.health).trans (frame State.health)
  case out => exact (unmoved State.out).trans (frame State.out)
  case commit => exact (unmoved State.commit).trans (frame State.commit)
  case group => exact (unmoved State.group).trans (frame State.group)
  case view => exact (unmoved State.view).trans (frame State.view)
  case catchup => exact (unmoved State.catchup).trans (frame State.catchup)
  case repair => exact (unmoved State.repair).trans (frame State.repair)
  case gives => exact (unmoved State.gives).trans (frame State.gives)
  case cold =>
    have all (g : Segment) : x.sp.fill[g] = .waiting := by rw [fill, cold]; rfl
    rw [State.leaveFilling_stays (State.fillPending_true (.inl (all 0)))]
    refine ⟨(frame State.store).trans ?_, frame State.join, all, frame State.walker⟩
    change (if s.store.marker == .invalid then s.store.clearTable else s.store) = _
    rw [cold]
    rfl
  case warm =>
    have flagged (g : Segment) : x.sp.fill[g] = if s.fillFlag g then .waiting else .none := by rw [fill, warm]; rfl
    have store : x.store = s.store := by
      refine (frame State.store).trans ?_
      change (if s.store.marker == .invalid then s.store.clearTable else s.store) = _
      rw [warm]
      rfl
    refine ⟨fun g => ?_, fun some => ?_, fun none => ?_⟩
    · rw [unmoved State.sp]
      exact flagged g
    · obtain ⟨g, flag⟩ := some
      have waiting : x.sp.fill[g] = .waiting := by rw [flagged, flag]; rfl
      rw [State.leaveFilling_stays (State.fillPending_true (.inl waiting))]
      exact ⟨store, frame State.join, frame State.walker⟩
    · have station : x.join.station = .filling := frame fun u => u.join.station
      have empty (g : Segment) : x.fillPending g = false := by
        have free : x.sp.fill[g] = .none := by rw [flagged, none]; rfl
        exact State.fillPending_false (by rw [free]; nofun) (by rw [free]; nofun)
      obtain ⟨y, hy⟩ : ∃ y : State, y = { x with
        store := { x.store with marker := .valid }, join := { x.join with station := .listening } } := ⟨_, rfl⟩
      have lists : x.leaveFilling = y.startWalker := (State.leaveFilling_done station empty).trans (by rw [hy])
      have scrub (g : Segment) : y.scrub g = s.scrub g := by rw [hy, entered]; rfl
      refine ⟨?_, ?_, fun walked => ?_, fun unwalked => ?_⟩
      · rw [lists, State.startWalker_frame, hy, ← store]
      · rw [lists, State.startWalker_frame, hy, entered]
        rfl
      · obtain ⟨g, active⟩ := walked
        have any : segments.any y.walked = true := List.any_eq_true.mpr
          ⟨g, List.mem_finRange g, by rw [State.walked, scrub, active]; rfl⟩
        rw [lists, State.startWalker, if_pos any]
        refine ⟨rfl, rfl, ?_, rfl⟩
        rw [hy, entered]
        rfl
      · have any : ¬segments.any y.walked = true := by
          rw [List.any_eq_true]
          rintro ⟨g, -, active⟩
          rw [State.walked, scrub] at active
          exact unwalked g (eq_of_beq active)
        rw [lists, State.startWalker, if_neg any, hy, entered]
        rfl

end Sys2Proof.Machine
end

section
/-! The store port's claimants: what each presents, and the grant (R9, R10, R32, R144, R171). -/

namespace Sys2Proof.Machine

/-! ### The grant (R9, R10) -/

theorem State.grant_busy {s : State} {r : Running} (busy : s.sp.running = some r) : s.grant = s := by
  rw [State.grant, busy]

/-- The first claimant of a list that presents is granted. -/
theorem findSome_presented {f : Claimant → Option StoreOp} {c : Claimant} {op : StoreOp} (presents : f c = some op) :
    ∀ cs : List Claimant, c ∈ cs → (∀ d, cs.idxOf d < cs.idxOf c → f d = none) →
      (cs.findSome? fun c => (f c).map fun op => (⟨c, op⟩ : Running)) = some ⟨c, op⟩
  | d :: cs, mem, before => by
    by_cases first : d = c
    · rw [first, List.findSome?_cons_of_isSome (by simp [presents]), presents]
      rfl
    · have none : f d = none := before d (by rw [List.idxOf_cons_self, List.idxOf_cons_ne _ first]; exact Nat.succ_pos _)
      rw [List.findSome?_cons_of_isNone (by simp [none])]
      refine findSome_presented presents cs ((List.mem_cons.mp mem).resolve_left (Ne.symm first)) fun e lt => ?_
      by_cases same : d = e
      · exact same ▸ none
      · refine before e ?_
        rw [List.idxOf_cons_ne _ same, List.idxOf_cons_ne _ first]
        exact Nat.succ_lt_succ lt

theorem mem_claimants : ∀ c : Claimant, c ∈ claimants := by
  intro c
  cases c <;> decide

/-- Settles O9. -/
theorem grantsInPriorityOrder : Obligations.GrantsInPriorityOrder := by
  refine ⟨rfl, fun s => ⟨fun r busy => State.grant_busy busy, fun idle nobody => ?_, fun c op idle presents before => ?_⟩⟩
  · have none : s.nextGrant = none := List.findSome?_eq_none_iff.mpr fun c _ => by rw [nobody c]; rfl
    rw [State.grant, idle, none]
  · have next : s.nextGrant = some ⟨c, op⟩ := findSome_presented presents claimants (mem_claimants c) before
    rw [State.grant, idle, next]
    rfl

/-! ### What the claimants present -/

theorem State.runningFor_iff (s : State) (c : Claimant) : s.runningFor c = true ↔ ∃ r, s.sp.running = some r ∧ r.claimant = c := by
  unfold State.runningFor
  cases s.sp.running with
  | none => exact iff_of_false Bool.false_ne_true fun ⟨_, h, _⟩ => nomatch h
  | some r => exact ⟨fun h => ⟨r, rfl, eq_of_beq h⟩, fun ⟨_, h, same⟩ => by cases h; exact beq_iff_eq.mpr same⟩

/-! ### GIVE_READ (R171) -/

theorem findIdx_split {α : Type} {p : α → Bool} (b a : List α) {e : α} (none : ∀ x ∈ b, p x = false) (here : p e = true) :
    (b ++ e :: a).findIdx? p = some b.length := by
  induction b with
  | nil => rw [List.nil_append, List.findIdx?_cons, if_pos here]; rfl
  | cons x xs ih =>
    rw [List.cons_append, List.findIdx?_cons, if_neg (by rw [none x List.mem_cons_self]; exact Bool.false_ne_true),
      ih fun y mem => none y (List.mem_cons_of_mem _ mem)]
    rfl

theorem GiveEntry.reading_false {xs : List GiveEntry} (none : ∀ e ∈ xs, e.state ≠ .reading) :
    (xs.any fun e => e.state == .reading) = false :=
  List.any_eq_false.mpr fun e mem h => none e mem (eq_of_beq h)

theorem State.presentGive_taken {s : State} (taken : (∃ e ∈ s.gives, e.state = .reading) ∨ s.runningFor .giveRead = true) :
    s.presentGive = s := by
  refine if_pos ?_
  rw [Bool.or_eq_true, List.any_eq_true]
  exact taken.symm.imp id fun ⟨e, mem, reading⟩ => ⟨e, mem, beq_iff_eq.mpr reading⟩

theorem State.presentGive_oldest {s : State} {before after : List GiveEntry} {e : GiveEntry} (gives : s.gives = before ++ e :: after)
    (free : ∀ x ∈ s.gives, x.state ≠ .reading) (idle : s.runningFor .giveRead = false)
    (none : ∀ x ∈ before, x.state ≠ .toRead) (toRead : e.state = .toRead) :
    s.presentGive = { s with gives := before ++ { e with state := .reading } :: after } := by
  rw [State.presentGive, idle, GiveEntry.reading_false free, gives,
    findIdx_split before after (fun x mem => beq_eq_false_iff_ne.mpr (none x mem)) (beq_iff_eq.mpr toRead)]
  exact congrArg (fun g => ({ s with gives := g } : State)) (modify_length before e after _)

theorem State.presentGive_nothing {s : State} (none : ∀ x ∈ s.gives, x.state ≠ .toRead) : s.presentGive = s := by
  have index : s.gives.findIdx? (fun e => e.state == .toRead) = .none :=
    List.findIdx?_eq_none_iff.mpr fun e mem => beq_eq_false_iff_ne.mpr (none e mem)
  rw [State.presentGive, index]
  exact ite_self _

theorem State.presented_giveRead {s : State} {before after : List GiveEntry} {e : GiveEntry} (gives : s.gives = before ++ e :: after)
    (none : ∀ x ∈ before, x.state ≠ .reading) (reading : e.state = .reading) : s.presented .giveRead = some (.read e.line) := by
  have found : s.gives.find? (fun e => e.state == .reading) = some e := by
    rw [gives, List.find?_append, List.find?_eq_none.mpr fun x mem h => none x mem (eq_of_beq h), Option.none_or,
      List.find?_cons_of_pos (p := fun e : GiveEntry => e.state == .reading) (beq_iff_eq.mpr reading)]
  rw [State.presented, found]
  rfl

/-! ### SERVE (R144) -/

theorem Job.needsRead_iff (j : Job) (c : Nat) : j.needsRead c = true ↔ j.waiting = none ∧ j.reading = none ∧
    j.buffer.length + j.ahead.length < 12 ∧ c + j.buffer.length + j.ahead.length < 2048 := by
  rw [Job.needsRead, Bool.and_eq_true, Bool.and_eq_true, Bool.and_eq_true, Option.isNone_iff_eq_none, Option.isNone_iff_eq_none,
    decide_eq_true_iff, decide_eq_true_iff, and_assoc, and_assoc, Nat.add_assoc]
  exact Iff.rfl

theorem State.jobNeedsRead_iff (s : State) (k : JobIx) : s.jobNeedsRead k = true ↔ ∃ j, s.catchup.jobs[k] = some j ∧
    j.needsRead (s.jobCursor j) = true := by
  unfold State.jobNeedsRead
  cases s.catchup.jobs[k] with
  | none => exact iff_of_false Bool.false_ne_true fun ⟨_, h, _⟩ => nomatch h
  | some j => exact ⟨fun h => ⟨j, rfl, h⟩, fun ⟨_, h, needs⟩ => by cases h; exact needs⟩

theorem State.jobCursor_catching {s : State} {v : View} {j : Job} {c : Nat} {p : StationSet} (view : s.heldView = some v)
    (catching : v.state j.station j.segment = .catching c p) : s.jobCursor j = c := by
  rw [State.jobCursor, view]
  change (v.cursor j.station j.segment).getD 0 = c
  rw [View.cursor, catching]
  rfl

theorem CatchUp.reader_none {c : CatchUp} (free : ∀ (k : JobIx) j, c.jobs[k] = some j → j.reading = none) : c.reader = none := by
  refine List.find?_eq_none.mpr fun k _ => ?_
  cases held : c.jobs[k] with
  | none => exact Bool.false_ne_true
  | some j =>
    change ¬j.reading.isSome = true
    rw [free k j held]
    exact Bool.false_ne_true

theorem CatchUp.reader_only {c : CatchUp} {k : JobIx} {j : Job} (held : c.jobs[k] = some j) (reading : j.reading.isSome = true)
    (free : ∀ x : JobIx, x ≠ k → ∀ i, c.jobs[x] = some i → i.reading = none) : c.reader = some k := by
  refine find_finRange k (by rw [held]; exact reading) fun x lt => ?_
  cases other : c.jobs[x] with
  | none => rfl
  | some i =>
    change i.reading.isSome = false
    rw [free x lt.ne i other]
    rfl

theorem State.serving_eq (s : State) : s.serving = s.runningFor .serve := by
  unfold State.serving State.runningFor
  rfl

theorem State.presentServe_token {s : State} {tk : JobIx} (idle : s.runningFor .serve = false) (reader : s.catchup.reader = none)
    (token : s.catchup.token = some tk) : s.presentServe = match (s.catchup.ringFrom tk).find? s.jobNeedsRead with
      | some k => { s with catchup := s.catchup.modifyJob k fun j => { j with reading := some (j.nextOffset (s.jobCursor j)) } }
      | none => s := by
  rw [State.presentServe, State.serving_eq, idle, reader, token]
  rfl

/-! ### SPARE_COPY (R32) -/

theorem State.presentSpareCopy_lost {s : State} (lost : s.store.tableLost = true) : s.presentSpareCopy.sp.spareCopy = none := by
  rw [State.presentSpareCopy, lost]
  rfl

theorem State.presentSpareCopy_kept {s : State} {op : StoreOp} (inUse : s.store.tableLost = false) (held : s.sp.spareCopy = some op)
    (wanted : s.copyWanted op = true) : s.presentSpareCopy.sp.spareCopy = some op := by
  have kept : s.sp.spareCopy.filter s.copyWanted = some op := by rw [held, Option.filter_some, if_pos wanted]
  rw [State.presentSpareCopy, inUse]
  dsimp only
  rw [if_neg Bool.false_ne_true, kept]
  rfl

theorem State.presentSpareCopy_chosen {s : State} (inUse : s.store.tableLost = false) (idle : s.runningFor .spareCopy = false)
    (unheld : s.sp.spareCopy.filter s.copyWanted = none) : s.presentSpareCopy.sp.spareCopy = s.copyDue := by
  rw [State.presentSpareCopy, inUse]
  dsimp only
  rw [if_neg Bool.false_ne_true, unheld, idle]
  rfl

/-- Every copy that is due is one that is still wanted. -/
theorem State.copyDue_wanted {s : State} {op : StoreOp} (due : s.copyDue = some op) : s.copyWanted op = true := by
  have returns (k : SpareIx) (op : StoreOp) (h : s.returnDue k = some op) : s.copyWanted op = true := by
    unfold State.returnDue at h
    split at h
    case isTrue marked =>
      obtain ⟨l, -, rfl⟩ := Option.map_eq_some_iff.mp h
      exact marked
    case isFalse => cases h
  have fills (k : SpareIx) (op : StoreOp) (h : s.fillDue k = some op) : s.copyWanted op = true := by
    unfold State.fillDue at h
    split at h
    case h_1 => cases h
    case h_2 l line =>
      split at h
      case isTrue due =>
        cases h
        rw [Bool.and_eq_true, Bool.and_eq_true, Bool.and_eq_true] at due
        rw [State.copyWanted, line, due.1.1.1]
        exact beq_self_eq_true _
      case isFalse => cases h
  unfold State.copyDue at due
  split at due
  case h_1 op' found =>
    obtain ⟨k, -, h⟩ := List.exists_of_findSome?_eq_some found
    cases due
    exact returns k op h
  case h_2 =>
    obtain ⟨k, -, h⟩ := List.exists_of_findSome?_eq_some due
    exact fills k op h

theorem State.returnDue_none {s : State} {k : SpareIx} (unmarked : s.health.retire[k] = none) : s.returnDue k = none := by
  rw [State.returnDue, unmarked]
  rfl

theorem State.returnDue_marked {s : State} {k : SpareIx} {l : Line} (marked : s.health.retire[k] ≠ none)
    (line : s.store.table[k].line = some l) : s.returnDue k = some (.returnCopy k l) := by
  rw [State.returnDue, if_pos (Option.isSome_iff_ne_none.mpr marked), line]
  rfl

theorem State.fillPending_eq_false (s : State) (g : Segment) :
    s.fillPending g = false ↔ s.sp.fill[g] ≠ .waiting ∧ s.sp.fill[g] ≠ .filling := by
  refine ⟨fun h => ⟨fun w => ?_, fun f => ?_⟩, fun h => State.fillPending_false h.1 h.2⟩
  · rw [State.fillPending_true (.inl w)] at h; cases h
  · rw [State.fillPending_true (.inr f)] at h; cases h

/-- When the fill copy of an entry is due. -/
def State.FillDue (s : State) (j : SpareIx) : Prop :=
  s.store.table[j].state = .filling ∧ s.health.copyDone[j] = false ∧
    ∃ l, s.store.table[j].line = some l ∧ s.mode (segmentOf l) ≠ .off ∧ s.sp.fill[segmentOf l] ≠ .waiting ∧
      s.sp.fill[segmentOf l] ≠ .filling

theorem State.fillDue_eq (s : State) (k : SpareIx) {l : Line} (line : s.store.table[k].line = some l) :
    s.fillDue k = if s.store.table[k].state == .filling && !s.health.copyDone[k] && s.mode (segmentOf l) != .off &&
      !s.fillPending (segmentOf l) then some (.fillCopy k l) else none := by
  rw [State.fillDue, line]

theorem State.fillDue_cond (s : State) (k : SpareIx) {l : Line} (line : s.store.table[k].line = some l) :
    (s.store.table[k].state == .filling && !s.health.copyDone[k] && s.mode (segmentOf l) != .off &&
      !s.fillPending (segmentOf l)) = true ↔ s.FillDue k := by
  rw [Bool.and_eq_true, Bool.and_eq_true, Bool.and_eq_true, Bool.not_eq_true', Bool.not_eq_true', beq_iff_eq, bne_iff_ne,
    State.fillPending_eq_false]
  constructor
  · rintro ⟨⟨⟨filling, uncopied⟩, mode⟩, filled⟩
    exact ⟨filling, uncopied, l, line, mode, filled⟩
  · rintro ⟨filling, uncopied, l', line', mode, filled⟩
    rw [line] at line'
    cases line'
    exact ⟨⟨⟨filling, uncopied⟩, mode⟩, filled⟩

theorem State.fillDue_due {s : State} {k : SpareIx} {l : Line} (line : s.store.table[k].line = some l) (due : s.FillDue k) :
    s.fillDue k = some (.fillCopy k l) := by
  rw [State.fillDue_eq s k line, if_pos ((State.fillDue_cond s k line).mpr due)]

theorem State.fillDue_none {s : State} {k : SpareIx} (due : ¬s.FillDue k) : s.fillDue k = none := by
  cases line : s.store.table[k].line with
  | none => rw [State.fillDue, line]
  | some l => rw [State.fillDue_eq s k line, if_neg (mt (State.fillDue_cond s k line).mp due)]

/-! ### FILL (R17) -/

theorem StorePort.fillingSegment_none {p : StorePort} (none : ∀ h : Segment, p.fill[h] ≠ .filling) : p.fillingSegment = .none :=
  List.find?_eq_none.mpr fun h _ e => none h (eq_of_beq e)

theorem State.presented_fill {s : State} {g : Segment} (filling : s.sp.fillingSegment = some g) :
    s.presented .fill = some (.write ⟨lineAt g s.sp.fillNext, 15, Vector.replicate 4 0, 0⟩) := by
  rw [State.presented, filling]
  rfl

theorem State.presentFill_filling {s : State} {g : Segment} (filling : s.sp.fillingSegment = some g) : s.presentFill = s := by
  rw [State.presentFill, filling]
  rfl

/-- Settles O10, claimant by claimant. -/
theorem claimantsPresentTheirWork : Obligations.ClaimantsPresentTheirWork := by
  intro s
  refine ⟨fun w rest list => ?_, fun empty => ?_, fun r request stage => ?_, fun other => ?_, fun l waiting chosen => ?_,
    fun other => ?_, fun free idle => ⟨fun before e after gives none toRead => ?giveRead, State.presentGive_nothing⟩, fun taken => ?_,
    fun k => ?_, fun v c p j view catching => State.jobCursor_catching view catching,
    fun free idle tk before after token ring fresh => ?serve, State.presentSpareCopy_lost, fun inUse =>
      ⟨fun k l held => ⟨fun filling line => ?kept, fun other => ?withdrawn⟩, fun unheld idle k l line =>
        ⟨fun marked first => ?returned, fun due dueIff unmarked isDue first => ?filled⟩⟩,
    fun g filling first => ?_, fun none => ⟨fun g waiting first => ?_, fun noneWaiting => ?_⟩⟩
  · rw [State.presented, list]
    rfl
  · rw [State.presented, empty]
    rfl
  · have op : s.presented .localPort = some r.storeOp := by
      rw [State.presented, request]
      exact if_pos stage
    rw [op]
    refine ⟨fun read => ?_, fun d write => ?_⟩
    · rw [Request.storeOp, read]
      rfl
    · rw [Request.storeOp, write, ← words4_single]
      rfl
  · rw [State.presented]
    cases request : s.port.request with
    | none => rfl
    | some r => exact if_neg (other r request)
  · rw [State.presented, if_pos waiting, chosen]
    rfl
  · exact if_neg other
  case giveRead =>
    have next := State.presentGive_oldest gives free (State.runningFor_false s _ idle) none toRead
    refine ⟨next, ?_⟩
    rw [next]
    exact State.presented_giveRead (e := { e with state := .reading }) rfl
      (fun x mem => free x (gives ▸ List.mem_append_left _ mem)) rfl
  · exact State.presentGive_taken (taken.imp id (s.runningFor_iff .giveRead).mpr)
  · rw [State.jobNeedsRead_iff]
    simp only [Job.needsRead_iff]
  case serve =>
    have served := State.presentServe_token (State.runningFor_false s _ idle) (CatchUp.reader_none free) token
    have around := s.catchup.ringFrom_split before after tk ring fresh
    refine ⟨fun xs ys k j split none needs held o offset => ?_, fun none => ?_⟩
    · have found : (s.catchup.ringFrom tk).find? s.jobNeedsRead = some k := by
        rw [around, split, List.find?_append, List.find?_eq_none.mpr (fun x mem h => Bool.false_ne_true ((none x mem).symm.trans h)),
          Option.none_or, List.find?_cons_of_pos needs]
      have next : s.presentServe = { s with
          catchup := { s.catchup with jobs := s.catchup.jobs.set k (some { j with reading := some o }) } } := by
        rw [served, found, offset, Nat.add_assoc]
        dsimp only
        rw [CatchUp.modifyJob, held]
        rfl
      refine ⟨next, ?_⟩
      have set (x : JobIx) : s.presentServe.catchup.jobs[x] =
          if x = k then some { j with reading := some o } else s.catchup.jobs[x] := by
        rw [next, Fin.getElem_fin, Vector.getElem_set]
        by_cases same : x = k
        · rw [if_pos (congrArg Fin.val same).symm, if_pos same]
        · rw [if_neg fun h => same (Fin.ext h.symm), if_neg same]
          rfl
      have own : s.presentServe.catchup.jobs[k] = some { j with reading := some o } := (set k).trans (if_pos rfl)
      have reader : s.presentServe.catchup.reader = some k :=
        CatchUp.reader_only own rfl fun x other i h => free x i (by rw [← h, set, if_neg other])
      rw [State.presented, reader]
      change (s.presentServe.catchup.jobs[k]).bind _ = _
      rw [own]
      rfl
    · rw [served, List.find?_eq_none.mpr fun x mem h => ?_]
      have inRing : x ∈ s.catchup.ring := by
        rw [around, List.mem_append, List.mem_cons] at mem
        rw [ring, List.mem_append, List.mem_cons]
        exact mem.symm
      rw [none x inRing] at h
      cases h
  case kept =>
    refine State.presentSpareCopy_kept inUse held ?_
    rw [State.copyWanted, filling, line]
    exact beq_self_eq_true _
  case withdrawn =>
    have unwanted : s.copyWanted (.fillCopy k l) = false := by
      rw [State.copyWanted, beq_eq_false_iff_ne.mpr other]
      rfl
    intro again
    have unheld : s.sp.spareCopy.filter s.copyWanted = none := by
      rw [held, Option.filter_some, unwanted]
      rfl
    cases idle : s.runningFor .spareCopy with
    | false =>
      rw [State.presentSpareCopy_chosen inUse idle unheld] at again
      rw [State.copyDue_wanted again] at unwanted
      cases unwanted
    | true =>
      rw [State.presentSpareCopy, inUse] at again
      dsimp only at again
      rw [if_neg Bool.false_ne_true, unheld, idle] at again
      cases again
  case returned =>
    rw [State.presentSpareCopy_chosen inUse (State.runningFor_false s _ idle) (by rw [unheld]; rfl), State.copyDue,
      show spareIxs.findSome? s.returnDue = _ from findSome_finRange k _ (State.returnDue_marked marked line)
        fun j lt => State.returnDue_none (first j lt)]
  case filled =>
    have none : spareIxs.findSome? s.returnDue = .none := findSome_finRange_none fun j => State.returnDue_none (unmarked j)
    rw [State.presentSpareCopy_chosen inUse (State.runningFor_false s _ idle) (by rw [unheld]; rfl), State.copyDue, none]
    exact findSome_finRange k _ (State.fillDue_due line ((dueIff k).mp isDue)) fun j lt =>
      State.fillDue_none (mt (dueIff j).mpr (first j lt))
  · have which : s.sp.fillingSegment = some g :=
      find_finRange g (beq_iff_eq.mpr filling) fun j lt => beq_eq_false_iff_ne.mpr (first j lt)
    exact ⟨State.presentFill_filling which, State.presented_fill which⟩
  · have next : segments.find? (fun g => s.sp.fill[g] == .waiting) = some g :=
      find_finRange g (beq_iff_eq.mpr waiting) fun j lt => beq_eq_false_iff_ne.mpr (first j lt)
    rw [State.presentFill, StorePort.fillingSegment_none none, next]
    rfl
  · have next : segments.find? (fun g => s.sp.fill[g] == .waiting) = .none :=
      List.find?_eq_none.mpr fun h _ e => noneWaiting h (eq_of_beq e)
    refine ⟨?_, ?_⟩
    · rw [State.presentFill, StorePort.fillingSegment_none none, next]
      rfl
    · rw [State.presented, StorePort.fillingSegment_none none]
      rfl

end Sys2Proof.Machine
end

section
/-! The commands of the command word: START, LEAVE, REJOIN and COMMIT (R71 to R73, R137, R139, R175, R177). -/

namespace Sys2Proof.Machine

theorem exec_start {s : State} (idle : s.port.request = none) : exec .start s = .next (s.startCommand.answer .done 0) :=
  congrArg Host.Outcome.next (State.windowRequest_of_idle idle fun s => s.startCommand.answer .done 0)

theorem exec_leave {s : State} (idle : s.port.request = none) : exec .leave s = .next (s.leaveCommand.answer .done 0) :=
  congrArg Host.Outcome.next (State.windowRequest_of_idle idle fun s => s.leaveCommand.answer .done 0)

theorem exec_rejoin {s : State} (idle : s.port.request = none) : exec .rejoin s = .next (s.rejoinCommand.answer .done 0) :=
  congrArg Host.Outcome.next (State.windowRequest_of_idle idle fun s => s.rejoinCommand.answer .done 0)

theorem exec_commit {s : State} (idle : s.port.request = none) (n : Bool) :
    exec (.commit n) s = .next ((s.commitChain n).answer .done 0) :=
  congrArg Host.Outcome.next (State.windowRequest_of_idle idle fun s => (s.commitChain n).answer .done 0)

theorem exec_invalidCommand {s : State} (idle : s.port.request = none) (d : Word) :
    exec (.invalidCommand d) s = .next ((s.commandWord d).answer .done 0) :=
  congrArg Host.Outcome.next (State.windowRequest_of_idle idle fun s => (s.commandWord d).answer .done 0)

/-! ### START (R174, R175) -/

theorem inRange_iff (low high n : Nat) : inRange low high n = true ↔ low ≤ n ∧ n ≤ high := decide_eq_true_iff

/-- A segment descriptor of the block, as a number. -/
theorem descriptorValid_iff (d : Word) {me : Nat} (small : me ≤ 15) : descriptorValid d (Fin.ofNat 16 me) = true ↔
    d.toNat < 2 ^ 21 ∧ d.toNat / 2 ^ 16 % 4 ≠ 3 ∧ d.toNat / 2 ^ 18 % 4 ≠ 3 ∧
      (d.toNat / 2 ^ 16 % 4 = 2 → d.toNat.testBit me = true) := by
  have part (at' n : Nat) (x : BitVec n) : d.extractLsb' at' n = x ↔ d.toNat / 2 ^ at' % 2 ^ n = x.toNat := by
    rw [← BitVec.toNat_inj, BitVec.extractLsb'_toNat, Nat.shiftRight_eq_div_pow]
  have own : (descriptorSet d).has (Fin.ofNat 16 me) = d.toNat.testBit me := by
    have same : (Fin.ofNat 16 me).val = me := Nat.mod_eq_of_lt (by omega)
    rw [StationSet.has, descriptorSet, same, BitVec.getLsbD_extractLsb', Nat.zero_add, decide_eq_true (by omega), Bool.true_and]
    rfl
  rw [descriptorValid, Bool.and_eq_true, Bool.and_eq_true, Bool.and_eq_true, Bool.or_eq_true, beq_iff_eq, bne_iff_ne, bne_iff_ne,
    bne_iff_ne, Ne, Ne, Ne, part, part, part, part, own, and_assoc, and_assoc, Decidable.imp_iff_not_or]
  have top : d.toNat / 2 ^ 21 % 2 ^ 11 = (0 : BitVec 11).toNat ↔ d.toNat < 2 ^ 21 := by
    have := d.isLt
    change d.toNat / 2 ^ 21 % 2 ^ 11 = 0 ↔ _
    omega
  rw [top]
  rfl

/-- A field passes START exactly when it lies in its range, as long as the fields before it do: the mirror sets are judged by the
station number, RUN_MAX by RUN_MIN and SLOW by FAST. -/
theorem Reporting.fieldValid_iff {r : Reporting} : ∀ i : Fin 21, (∀ j < i, FieldInRange r j) → (r.fieldValid i = true ↔ FieldInRange r i)
  | ⟨0, _⟩, _ => (inRange_iff _ _ _).trans ⟨And.right, fun h => ⟨Nat.zero_le _, h⟩⟩
  | ⟨1, _⟩, before | ⟨2, _⟩, before | ⟨3, _⟩, before | ⟨4, _⟩, before | ⟨5, _⟩, before | ⟨6, _⟩, before | ⟨7, _⟩, before
  | ⟨8, _⟩, before => descriptorValid_iff _ (before 0 (Fin.lt_def.mpr (Nat.succ_pos _)))
  | ⟨9, _⟩, _ => (inRange_iff _ _ _).trans ⟨And.right, fun h => ⟨Nat.zero_le _, h⟩⟩
  | ⟨10, _⟩, _ => inRange_iff _ _ _
  | ⟨11, _⟩, _ => inRange_iff _ _ _
  | ⟨12, _⟩, before => by
    have low : 1 ≤ r.field 11 := (show 1 ≤ r.field 11 ∧ _ from before 11 (Fin.lt_def.mpr (Nat.lt_succ_self 11))).1
    change (inRange 1 32 _ && decide (r.field 11 ≤ _)) = true ↔ _ ≤ _ ∧ _ ≤ 32
    rw [Bool.and_eq_true, inRange_iff, decide_eq_true_iff]
    exact ⟨fun ⟨⟨_, high⟩, ordered⟩ => ⟨ordered, high⟩, fun ⟨ordered, high⟩ => ⟨⟨low.trans ordered, high⟩, ordered⟩⟩
  | ⟨13, _⟩, _ | ⟨14, _⟩, _ | ⟨15, _⟩, _ => inRange_iff _ _ _
  | ⟨16, _⟩, _ => (inRange_iff _ _ _).trans ⟨And.right, fun h => ⟨Nat.zero_le _, h⟩⟩
  | ⟨17, _⟩, _ | ⟨19, _⟩, _ => inRange_iff _ _ _
  | ⟨18, _⟩, before => by
    have low : 1 ≤ r.field 17 := (show 1 ≤ r.field 17 ∧ _ from before 17 (Fin.lt_def.mpr (Nat.lt_succ_self 17))).1
    change (inRange 1 65535 _ && decide (r.field 17 ≤ _)) = true ↔ _ ≤ _ ∧ _ ≤ 65535
    rw [Bool.and_eq_true, inRange_iff, decide_eq_true_iff]
    exact ⟨fun ⟨⟨_, high⟩, ordered⟩ => ⟨ordered, high⟩, fun ⟨ordered, high⟩ => ⟨⟨low.trans ordered, high⟩, ordered⟩⟩
  | ⟨20, _⟩, _ => inRange_iff _ _ _
  | ⟨n + 21, lt⟩, _ => absurd lt (by omega)

theorem Reporting.firstInvalid_none {r : Reporting} (all : ∀ i, FieldInRange r i) : r.firstInvalid = none :=
  List.find?_eq_none.mpr fun i _ => by rw [(Reporting.fieldValid_iff i fun j _ => all j).mpr (all i)]; exact Bool.false_ne_true

theorem Reporting.firstInvalid_some {r : Reporting} {i : Fin 21} (fails : ¬FieldInRange r i) (first : ∀ j < i, FieldInRange r j) :
    r.firstInvalid = some i := by
  refine find_finRange i ?_ fun j lt => ?_
  · rw [Bool.eq_false_iff.mpr (mt (Reporting.fieldValid_iff i first).mp fails)]
    rfl
  · rw [(Reporting.fieldValid_iff j fun h hlt => first h (hlt.trans lt)).mpr (first j lt)]
    rfl

/-- Settles O17. -/
theorem startJudgesTheBlock : Obligations.StartJudgesTheBlock := by
  intro s idle config
  rw [exec_start idle, State.startCommand, if_pos config]
  refine ⟨fun all => ?_, fun i fails first => ?_⟩
  · rw [Reporting.firstInvalid_none all]
    rfl
  · rw [Reporting.firstInvalid_some fails first]
    rfl

/-! ### LEAVE and REJOIN (R93, R137, R139) -/

/-- Settles O18. -/
theorem leaveAndRejoinInTheirStates : Obligations.LeaveAndRejoinInTheirStates := by
  intro s idle
  rw [exec_start idle, exec_leave idle, exec_rejoin idle, State.startCommand, State.leaveCommand, State.rejoinCommand]
  refine ⟨fun joined => ?_, fun offline => ?_, fun other => ?_, fun other => ?_, fun other => ?_⟩
  · rw [if_pos joined]
    rfl
  · rw [if_pos offline]
    rfl
  · rw [if_neg other]
    rfl
  · rw [if_neg other]
    rfl
  · rw [if_neg other]
    rfl

/-! ### COMMIT (R71 to R73) -/

/-- The walk goes on past the records that pass without STOP. -/
theorem walkChain_passes {st : Vector Record 16} {w : Segment → Bool} : ∀ (k left passed : Nat) (r : RecordIx), k < left →
    (∀ j < k, (st[(chainFrom st left r).getD j 0].mask ≠ 0 ∧ w (segmentOf st[(chainFrom st left r).getD j 0].line) = true) ∧
      st[(chainFrom st left r).getD j 0].stop = false) →
    walkChain st w left passed r = walkChain st w (left - k) (passed + k) ((chainFrom st left r).getD k 0)
  | 0, left + 1, passed, r, _, _ => rfl
  | k + 1, left + 1, passed, r, lt, pass => by
    obtain ⟨⟨mask, writable⟩, stop⟩ : (st[r].mask ≠ 0 ∧ w (segmentOf st[r].line) = true) ∧ st[r].stop = false :=
      pass 0 (Nat.succ_pos k)
    have more : left ≠ 0 := by omega
    have here : walkChain st w (left + 1) passed r = walkChain st w left (passed + 1) st[r].link := by
      rw [walkChain, if_neg (by rw [beq_iff_eq]; exact mask), writable, if_neg (by exact Bool.false_ne_true), stop,
        if_neg Bool.false_ne_true, if_neg (by rw [beq_iff_eq]; exact more)]
    rw [here, walkChain_passes k left (passed + 1) st[r].link (by omega) fun j jlt => pass (j + 1) (by omega),
      Nat.add_sub_add_right, Nat.add_assoc, Nat.add_comm 1 k]
    rfl

/-- The walk at one record. -/
theorem walkChain_record {st : Vector Record 16} {w : Segment → Bool} (left passed : Nat) (r : RecordIx) :
    (st[r].mask = 0 → walkChain st w (left + 1) passed r = .failed .chainEmptyRecord r) ∧
    (st[r].mask ≠ 0 → w (segmentOf st[r].line) = false → walkChain st w (left + 1) passed r = .failed .chainNotWritable r) ∧
    (st[r].mask ≠ 0 → w (segmentOf st[r].line) = true →
      (st[r].stop = true → walkChain st w (left + 1) passed r = .valid (passed + 1)) ∧
      (st[r].stop = false → left = 0 → walkChain st w (left + 1) passed r = .failed .chainTooLong r)) := by
  rw [walkChain]
  refine ⟨fun empty => if_pos (beq_iff_eq.mpr empty), fun mask unwritable => ?_, fun mask writable => ?_⟩
  · rw [if_neg (by rw [beq_iff_eq]; exact mask), unwritable]
    rfl
  · rw [if_neg (by rw [beq_iff_eq]; exact mask), writable, if_neg (by exact Bool.false_ne_true)]
    refine ⟨fun stop => if_pos stop, fun stop last => ?_⟩
    rw [stop, if_neg Bool.false_ne_true, last]
    rfl

theorem CommitState.pending_of {c : CommitState} (h : c = .queued ∨ c = .sending) : c.pending = true := by
  obtain rfl | rfl := h <;> rfl

/-- COMMIT where it is judged by the walk over the chain. -/
theorem State.commitChain_walk {s : State} (n : Bool) (station : s.join.station ≠ .leaving) (free : s.commit.state.pending = false) :
    s.commitChain n = match walkChain s.commit.staging s.writable chainLimit 0 s.commit.head with
      | .failed code r =>
        (({ s with commit := { s.commit with state := .failed code r } }).setFlag .chainFailed).setResult .refused
      | .valid count =>
        if outboundCapacity ≤ s.out.length then s.setResult .busy else (s.queueChain count n).setResult .ok := by
  rw [State.commitChain, if_neg station, free]
  rfl

theorem State.commitChain_valid {s : State} (n : Bool) {count : Nat} (station : s.join.station ≠ .leaving)
    (free : s.commit.state.pending = false) (walk : walkChain s.commit.staging s.writable 16 0 s.commit.head = .valid count) :
    s.commitChain n = if 32 ≤ s.out.length then s.setResult .busy else (s.queueChain count n).setResult .ok := by
  rw [State.commitChain_walk n station free, show chainLimit = 16 from rfl, walk]
  rfl

/-- Settles O19: the two refusals, and the walk to the first record that fails. -/
theorem commitJudgesTheChain : Obligations.CommitJudgesTheChain := by
  refine ⟨fun s n idle => ⟨fun leaving => ?_, fun station pending => ?_⟩,
    fun s n k idle station free lt pass code r which fails => ?_⟩
  · rw [exec_commit idle, State.commitChain, if_pos leaving]
    rfl
  · rw [exec_commit idle, State.commitChain, if_neg station, if_pos (CommitState.pending_of pending)]
    rfl
  · have left : 16 - k = (15 - k) + 1 := by omega
    have walk : walkChain s.commit.staging s.writable 16 0 s.commit.head = .failed code r := by
      rw [walkChain_passes k 16 0 s.commit.head lt pass, ← which, left]
      obtain ⟨empty, unwritable, passes⟩ := walkChain_record (st := s.commit.staging) (w := s.writable) (15 - k) (0 + k) r
      obtain ⟨rfl, mask⟩ | ⟨rfl, mask, segment⟩ | ⟨rfl, rfl, ⟨mask, segment⟩, stop⟩ := fails
      · exact empty mask
      · exact unwritable mask segment
      · exact (passes mask segment).2 stop rfl
    rw [exec_commit idle, State.commitChain_walk n station free, show chainLimit = 16 from rfl, walk]
    rfl

/-- Settles O20: the walk ends at the record with STOP, and the queue takes the chain where it has a place. -/
theorem commitQueuesAValidChain : Obligations.CommitQueuesAValidChain := by
  intro s n k idle station free lt pass last stop
  have left : 16 - k = (15 - k) + 1 := by omega
  have walk : walkChain s.commit.staging s.writable 16 0 s.commit.head = .valid (k + 1) := by
    rw [walkChain_passes k 16 0 s.commit.head lt pass, left]
    obtain ⟨-, -, passes⟩ := walkChain_record (st := s.commit.staging) (w := s.writable) (15 - k) (0 + k)
      ((chainFrom s.commit.staging 16 s.commit.head).getD k 0)
    rw [(passes last.1 last.2).1 stop, Nat.zero_add]
  rw [exec_commit idle, State.commitChain_valid n station free walk]
  refine ⟨fun room => ?_, fun full => ?_⟩
  · rw [if_neg (not_le.mpr room), State.queueChain]
    simp only [List.any_map]
    rfl
  · rw [if_pos full]
    rfl

/-! ### The command word (R177) -/

theorem namesOneCommand_iff (d : Word) : namesOneCommand d = true ↔
    ([0, 1, 2, 3].filter fun i => d.getLsbD i).length = 1 ∧ (d.getLsbD 8 = true → d.getLsbD 3 = true) := by
  rw [namesOneCommand, Bool.and_eq_true, beq_iff_eq, Bool.or_eq_true, Bool.not_eq_true', ← Bool.not_eq_true, or_comm,
    Decidable.imp_iff_not_or]

/-- A word with one of the four command bits set names one command. -/
theorem namesOneCommand_of {d : Word} {k : Nat} (lt : k < 4) (bits : ∀ i < 4, d.getLsbD i = (i == k))
    (flag : d.getLsbD 8 = true → k = 3) : namesOneCommand d = true := by
  have filter : ([0, 1, 2, 3].filter fun i => d.getLsbD i) = [0, 1, 2, 3].filter fun i => i == k :=
    List.filter_congr fun i mem => bits i (by revert i; decide)
  have one : ∀ k < 4, ([0, 1, 2, 3].filter fun i => i == k).length = 1 := by decide
  refine (namesOneCommand_iff d).mpr ⟨?_, fun h => ?_⟩
  · rw [filter, one k lt]
  · rw [bits 3 (by decide), flag h]
    rfl

/-- Settles O21. -/
theorem commandWordNamesOneCommand : Obligations.CommandWordNamesOneCommand := by
  intro s d idle
  rw [exec_invalidCommand idle, exec_start idle, exec_leave idle, exec_rejoin idle, exec_commit idle]
  refine ⟨fun none => ?_, ?_, fun bits flag => ?_, fun bits flag => ?_, fun bits flag => ?_, fun bits => ?_⟩
  · have names : namesOneCommand d = false := by
      rw [Bool.eq_false_iff, Ne, namesOneCommand_iff]
      rintro ⟨one, flag⟩
      obtain more | ⟨set, unset⟩ := none
      · exact more one
      · rw [flag set] at unset
        cases unset
    rw [State.commandWord, names]
    rfl
  · exact congrArg Host.Outcome.next (State.windowRequest_of_idle idle fun s => s.writeWindow 32#16 d)
  · rw [State.commandWord, namesOneCommand_of (by decide) bits (by rw [flag]; nofun), bits 0 (by decide)]
    rfl
  · rw [State.commandWord, namesOneCommand_of (by decide) bits (by rw [flag]; nofun), bits 0 (by decide), bits 1 (by decide)]
    rfl
  · rw [State.commandWord, namesOneCommand_of (by decide) bits (by rw [flag]; nofun), bits 0 (by decide), bits 1 (by decide),
      bits 2 (by decide)]
    rfl
  · rw [State.commandWord, namesOneCommand_of (by decide) bits fun _ => rfl, bits 0 (by decide), bits 1 (by decide),
      bits 2 (by decide)]
    rfl

end Sys2Proof.Machine
end

section
/-! The control window's words: the status word, the log and the counts, and what each word's write and read does (R51, R69 to R74,
R174, R178 to R182, R185). -/

namespace Sys2Proof.Machine

/-! ### The status flags (R178) -/

theorem StatusFlag.bit_lt (f : StatusFlag) : f.bit < 11 := by
  cases f <;> decide

@[simp] theorem StatusFlag.isIn_not (f : StatusFlag) (w : BitVec 11) : f.isIn (~~~w) = !f.isIn w := by
  rw [StatusFlag.isIn, BitVec.getLsbD_not, decide_eq_true f.bit_lt, Bool.true_and]
  rfl

theorem StatusFlag.isIn_word (f : StatusFlag) (d : Word) : f.isIn (d.extractLsb' 0 11) = d.getLsbD f.bit := by
  rw [StatusFlag.isIn, BitVec.getLsbD_extractLsb', decide_eq_true f.bit_lt, Bool.true_and, Nat.zero_add]

theorem StatusFlag.isIn_logNonempty_mask (f : StatusFlag) : f.isIn StatusFlag.logNonempty.mask = (f == .logNonempty) := by
  cases f <;> rfl

/-- A write of the status word clears the flags written, LOG_NONEMPTY only with the log empty. -/
theorem Reporting.isIn_clearFlags (r : Reporting) (d : Word) (f : StatusFlag) : f.isIn (r.clearFlags d).flags =
    (f.isIn r.flags && !(d.getLsbD f.bit && (f != .logNonempty || r.log.isEmpty))) := by
  rw [Reporting.clearFlags]
  dsimp only
  rw [StatusFlag.isIn_and, StatusFlag.isIn_not]
  cases r.log.isEmpty with
  | true => rw [if_pos rfl, StatusFlag.isIn_word, Bool.or_true, Bool.and_true]
  | false =>
    rw [if_neg Bool.false_ne_true, StatusFlag.isIn_and, StatusFlag.isIn_not, StatusFlag.isIn_word, StatusFlag.isIn_logNonempty_mask,
      Bool.or_false]
    rfl

theorem State.raise_taken {s : State} (e : LogEntry) (room : s.rep.log.length < 4) : s.raise e =
    { s with rep := { s.rep with log := s.rep.log ++ [e], flags := s.rep.flags ||| StatusFlag.logNonempty.mask } } := by
  rw [State.raise, Reporting.raise]
  exact congrArg (fun r => ({ s with rep := r } : State)) (if_pos room)

theorem State.raise_refused {s : State} (e : LogEntry) (full : 4 ≤ s.rep.log.length) : s.raise e =
    { s with rep := { s.rep with
        overflow := min (s.rep.overflow + 1) 255, flags := s.rep.flags ||| StatusFlag.logOverflow.mask } } := by
  rw [State.raise, Reporting.raise]
  exact congrArg (fun r => ({ s with rep := r } : State)) (if_neg (not_lt.mpr full))

theorem exec_statusWordWrite {s : State} (idle : s.port.request = none) (d : Word) :
    exec (.statusWordWrite d) s = .next ((s.writeStatus d).answer .done 0) :=
  congrArg Host.Outcome.next (State.windowRequest_of_idle idle fun s => (s.writeStatus d).answer .done 0)

/-- Settles O22. -/
theorem flagsAndLogTakeTheirEvents : Obligations.FlagsAndLogTakeTheirEvents :=
  ⟨fun s d idle => ⟨_, exec_statusWordWrite idle d, rfl, fun f => s.rep.isIn_clearFlags d f⟩,
    fun _ e => ⟨State.raise_taken e, State.raise_refused e⟩⟩

/-! ### Reads of the log and the counts (R19, R181) -/

theorem exec_logRead {s : State} (idle : s.port.request = none) : exec .logRead s = .next
    { s with rep := { s.rep with log := s.rep.log.tail }, port := answered .done (s.rep.oldest LogEntry.wordB) } :=
  congrArg Host.Outcome.next (State.windowRequest_of_idle idle fun s => s.readWindow 43#16)

theorem exec_overflowCountRead {s : State} (idle : s.port.request = none) : exec .overflowCountRead s = .next
    { s with rep := { s.rep with overflow := 0 }, port := answered .done (BitVec.ofNat 32 s.rep.overflow) } :=
  congrArg Host.Outcome.next (State.windowRequest_of_idle idle fun s => s.readWindow 44#16)

theorem exec_correctedWordCountRead {s : State} (idle : s.port.request = none) : exec .correctedWordCountRead s = .next
    { s with health := { s.health with corrected := 0 }, port := answered .done (BitVec.ofNat 32 s.health.corrected) } :=
  congrArg Host.Outcome.next (State.windowRequest_of_idle idle fun s => s.readWindow 45#16)

theorem exec_logWordRead {s : State} (idle : s.port.request = none) :
    exec (.windowWrite 40#16 .read) s = .next { s with port := answered .done (s.rep.oldest LogEntry.wordA) } ∧
    exec (.windowWrite 41#16 .read) s = .next { s with port := answered .done (s.rep.oldest LogEntry.wordB) } ∧
    exec (.windowWrite 42#16 .read) s = .next { s with port := answered .done (s.rep.oldest LogEntry.wordA) } := by
  rw [exec_windowWrite_read idle, exec_windowWrite_read idle, exec_windowWrite_read idle]
  exact ⟨rfl, rfl, rfl⟩

theorem Reporting.oldest_cons {r : Reporting} {e : LogEntry} {rest : List LogEntry} (log : r.log = e :: rest) (f : LogEntry → Word) :
    r.oldest f = f e := by
  rw [Reporting.oldest, log]
  rfl

theorem Reporting.oldest_nil {r : Reporting} (log : r.log = []) (f : LogEntry → Word) : r.oldest f = 0 := by
  rw [Reporting.oldest, log]
  rfl

/-- Settles O23. -/
theorem logIsReadOldestFirst : Obligations.LogIsReadOldestFirst := by
  intro s idle
  obtain ⟨word40, word41, word42⟩ := exec_logWordRead idle
  rw [exec_logRead idle, word40, word41, word42]
  refine ⟨fun e rest log => ?_, fun log => ?_, exec_correctedWordCountRead idle, exec_overflowCountRead idle, fun e full =>
    ⟨⟨_, exec_overflowCountRead idle, rfl, ?_⟩, _, exec_overflowCountRead idle, ?_⟩⟩
  · rw [Reporting.oldest_cons log, Reporting.oldest_cons log, log]
    exact ⟨rfl, rfl, rfl, rfl⟩
  · rw [Reporting.oldest_nil log, Reporting.oldest_nil log, log, List.tail_nil, ← log]
    exact ⟨rfl, rfl, rfl, rfl⟩
  · rw [State.raise_refused e full.ge]
  · exact congrArg (fun u : State => u.rep.overflow) (State.raise_refused (s := { s with
      rep := { s.rep with overflow := 0 }, port := answered .done (BitVec.ofNat 32 s.rep.overflow) }) e full.ge)

/-! ### Writes (R51, R69, R70, R74, R174, R185) -/

theorem State.writeWindow_taken {s t : State} {a : BitVec 16} {d : Word} (effect : s.writeEffect a.toNat d = some t) :
    s.writeWindow a d = { t with port := answered .done 0 } := by
  rw [State.writeWindow, effect]
  rfl

theorem State.writeWindow_refused {s : State} {a : BitVec 16} {d : Word} (effect : s.writeEffect a.toNat d = none) :
    s.writeWindow a d = { s with port := answered .refused 0 } := by
  rw [State.writeWindow, effect]
  rfl

theorem toNat_ofNat_window {a : Nat} (lt : a < 256) : (BitVec.ofNat 16 a).toNat = a :=
  (BitVec.toNat_ofNat a 16).trans (Nat.mod_eq_of_lt (by omega))

theorem State.writeEffect_config (s : State) (i : Fin 21) (d : Word) : s.writeEffect i.val d = s.writeConfig i d :=
  dif_pos i.isLt

theorem State.writeEffect_record (s : State) {a : Nat} (low : 128 ≤ a) (high : a < 256) (d : Word) :
    s.writeEffect a d = s.writeRecord a d := by
  rw [State.writeEffect, dif_neg (by omega), if_pos low, if_pos high]

/-- The words that no write reaches. -/
theorem State.writeEffect_none (s : State) {a : Nat} (d : Word)
    (h : (21 ≤ a ∧ a ≤ 31) ∨ a = 33 ∨ (37 ≤ a ∧ a ≤ 127) ∨ 256 ≤ a) : s.writeEffect a d = none := by
  rw [State.writeEffect, dif_neg (by omega)]
  by_cases record : 128 ≤ a
  · rw [if_pos record, if_neg (by omega)]
  · rw [if_neg record]
    split
    case h_5 => rfl
    all_goals omega

theorem groupOf_iff (q : List OutEntry) (head : RecordIx) (count : Nat) : groupOf q = some (head, count) ↔
    ∃ older st n younger, q = older ++ ⟨.group head count, st, n⟩ :: younger ∧ ∀ e ∈ older, ∀ h c, e.body ≠ .group h c := by
  rw [groupOf, List.findSome?_eq_some_iff]
  constructor
  · rintro ⟨older, ⟨body, st, n⟩, younger, split, here, before⟩
    cases body with
    | update => cases here
    | group head' count' =>
      cases here
      refine ⟨older, st, n, younger, split, fun e mem h c same => ?_⟩
      have none := before e mem
      rw [same] at none
      cases none
  · rintro ⟨older, st, n, younger, split, before⟩
    refine ⟨older, _, younger, split, rfl, fun e mem => ?_⟩
    cases body : e.body with
    | update => rfl
    | group h c => exact absurd body (before e mem h c)

theorem CommitState.pending_iff (c : CommitState) : c.pending = true ↔ c = .queued ∨ c = .sending := by
  cases c <;> simp [CommitState.pending]

/-- The write-protected records of the model are those of `RecordProtected`. -/
theorem State.mem_protectedRecords (s : State) (r : RecordIx) : r ∈ s.protectedRecords ↔ RecordProtected s r := by
  rw [RecordProtected, ← CommitState.pending_iff, State.protectedRecords]
  cases s.commit.state.pending with
  | false => exact iff_of_false (List.not_mem_nil) fun h => Bool.false_ne_true h.1
  | true =>
    rw [if_pos rfl]
    cases group : groupOf s.out with
    | none =>
      refine iff_of_false List.not_mem_nil ?_
      rintro ⟨-, older, head, count, st, n, younger, split, before, -⟩
      rw [(groupOf_iff _ head count).mpr ⟨older, st, n, younger, split, before⟩] at group
      cases group
    | some p =>
      obtain ⟨head, count⟩ := p
      constructor
      · intro mem
        obtain ⟨older, st, n, younger, split, before⟩ := (groupOf_iff _ head count).mp group
        exact ⟨rfl, older, head, count, st, n, younger, split, before, mem⟩
      · rintro ⟨-, older, head', count', st, n, younger, split, before, mem⟩
        rw [(groupOf_iff _ head' count').mpr ⟨older, st, n, younger, split, before⟩] at group
        cases group
        exact mem

theorem recordAt_eq (r : RecordIx) (w : Fin 8) : recordAt (128 + 8 * r.val + w.val) = r ∧ (128 + 8 * r.val + w.val) % 8 = w.val := by
  refine ⟨Fin.ext ?_, by omega⟩
  change (128 + 8 * r.val + w.val - 128) / 8 % 16 = r.val
  omega

theorem Record.write_data (r : Record) (d : Word) : ∀ i : WordIx, r.write d (i.val + 1) = some { r with data := r.data.set i d }
  | 0 => rfl
  | 1 => rfl
  | 2 => rfl
  | 3 => rfl

theorem Record.write_unassigned (r : Record) (d : Word) {w : Nat} (h : 5 ≤ w) : r.write d w = none := by
  obtain ⟨n, rfl⟩ := Nat.exists_eq_add_of_le' h
  rfl

/-- A word of a record written: of the four data words one, or the first word's fields. -/
theorem Record.write_word (r : Record) (d : Word) (w : Fin 5) : ∃ x, r.write d w.val = some x ∧
    (∀ i : WordIx, x.data[i] = if w.val = i.val + 1 then d else r.data[i]) ∧ (w.val ≠ 0 → x = { r with data := x.data }) ∧
    (w.val = 0 → x.line.val = d.toNat % 2 ^ 14 ∧ x.mask = d.extractLsb' 16 4 ∧ x.stop = d.getLsbD 20 ∧
      x.link.val = d.toNat / 2 ^ 24 % 16) := by
  induction w using Fin.cases with
  | zero =>
    refine ⟨r.setWord0 d, rfl, fun i => (if_neg (Nat.succ_ne_zero _).symm).symm, fun h => absurd rfl h, fun _ => ⟨?_, rfl, rfl, ?_⟩⟩
    · change (d.extractLsb' 0 14).toNat = _
      rw [BitVec.extractLsb'_toNat]
      rfl
    · change (d.extractLsb' 24 4).toNat = _
      rw [BitVec.extractLsb'_toNat, Nat.shiftRight_eq_div_pow]
  | succ i =>
    refine ⟨_, r.write_data d i, fun j => ?_, fun _ => rfl, fun h => absurd h (Nat.succ_ne_zero _)⟩
    change (r.data.set i d)[j] = _
    rw [Fin.getElem_fin, Vector.getElem_set]
    by_cases same : i.val = j.val
    · rw [if_pos same]
      exact (if_pos (congrArg Nat.succ same)).symm
    · rw [if_neg same]
      exact (if_neg fun h => same (Nat.succ.inj h)).symm

theorem State.writeRecord_protected {s : State} {a : Nat} {r : RecordIx} (at' : recordAt a = r) (d : Word) (h : RecordProtected s r) :
    s.writeRecord a d = none := by
  subst at'
  exact if_pos (List.contains_iff_mem.mpr ((s.mem_protectedRecords _).mpr h))

theorem State.writeRecord_open {s : State} {a : Nat} {r : RecordIx} (at' : recordAt a = r) (d : Word) (h : ¬RecordProtected s r) :
    s.writeRecord a d = (s.commit.staging[r].write d (a % 8)).map fun x =>
      { s with commit := { s.commit with staging := s.commit.staging.set r x } } := by
  subst at'
  exact if_neg fun mem => h ((s.mem_protectedRecords _).mp (List.contains_iff_mem.mp mem))

/-- Settles O24, owner by owner. -/
theorem windowWritesGoToTheirOwners : Obligations.WindowWritesGoToTheirOwners := by
  intro s d idle
  simp only [exec_windowWrite_write idle, exec_windowWrite_read idle]
  refine ⟨fun i config => ?_, fun i config => ?_, rfl, fun free => ?_, fun pending => ?_, fun r w openRecord => ?record,
    fun r w closed => ?_, fun a h => ?_, fun a h => ?_⟩
  · rw [State.writeWindow_taken (t := { s with rep := { s.rep with config := s.rep.config.set i d } })]
    rw [toNat_ofNat_window (by omega), State.writeEffect_config]
    exact if_pos config
  · rw [State.writeWindow_refused]
    rw [toNat_ofNat_window (by omega), State.writeEffect_config]
    exact if_neg config
  · have head : s.writeEffect 36 d = some { s with
        commit := { s.commit with head := ⟨d.toNat % 16, Nat.mod_lt _ (by decide)⟩ } } := by
      change s.writeHead d = _
      rw [State.writeHead, free]
      rfl
    rw [State.writeWindow_taken (a := 36#16) head]
  · have head : s.writeEffect 36 d = none := by
      change s.writeHead d = _
      rw [State.writeHead, pending]
      rfl
    rw [State.writeWindow_refused (a := 36#16) head]
  case record =>
    have at' : recordAt (128 + 8 * r.val + w.val) = r ∧ (128 + 8 * r.val + w.val) % 8 = w.val :=
      recordAt_eq r (w.castLE (by decide))
    obtain ⟨record, place⟩ := at'
    obtain ⟨x, written, data, first, other⟩ := s.commit.staging[r].write_word d w
    have effect : s.writeEffect (BitVec.ofNat 16 (128 + 8 * r.val + w.val)).toNat d =
        some { s with commit := { s.commit with staging := s.commit.staging.set r x } } := by
      rw [toNat_ofNat_window (by omega), State.writeEffect_record _ (by omega) (by omega),
        State.writeRecord_open record d openRecord, place]
      exact congrArg (Option.map _) written
    have staged (q : RecordIx) : (s.commit.staging.set r x)[q] = if q = r then x else s.commit.staging[q] := by
      rw [Fin.getElem_fin, Vector.getElem_set]
      by_cases same : q = r
      · rw [if_pos (congrArg Fin.val same).symm, if_pos same]
      · rw [if_neg fun h => same (Fin.ext h.symm), if_neg same]
        rfl
    have own : (s.commit.staging.set r x)[r] = x := (staged r).trans (if_pos rfl)
    refine ⟨_, congrArg _ (State.writeWindow_taken effect), rfl, fun q ne => (staged q).trans (if_neg ne), fun i => ?_, fun h => ?_,
      fun h => ?_⟩
    · exact (congrArg (fun y : Record => y.data[i]) own).trans (data i)
    · exact own.trans ((first h).trans (congrArg (fun y : Record => { s.commit.staging[r] with data := y.data }) own.symm))
    · change (s.commit.staging.set r x)[r].line.val = _ ∧ (s.commit.staging.set r x)[r].mask = _ ∧ _ ∧ _
      rw [own]
      exact other h
  · have effect : s.writeEffect (BitVec.ofNat 16 (128 + 8 * r.val + w.val)).toNat d = none := by
      rw [toNat_ofNat_window (by omega), State.writeEffect_record _ (by omega) (by omega)]
      by_cases guarded : RecordProtected s r
      · exact State.writeRecord_protected (recordAt_eq r w).1 d guarded
      · rw [State.writeRecord_open (recordAt_eq r w).1 d guarded, (recordAt_eq r w).2, Record.write_unassigned _ d (closed.resolve_left guarded)]
        rfl
    rw [State.writeWindow_refused effect]
  · rw [State.writeWindow_refused (s.writeEffect_none d h)]
  · exact congrArg _ (if_neg (not_lt.mpr h))

/-! ### Reads (R182, R185) -/

theorem State.readEffect_plain (s : State) {a : BitVec 16} (plain : plainWindowAccess a .read = true) : s.readEffect a.toNat = s := by
  rw [plainWindowAccess, Bool.and_eq_true, Bool.and_eq_true, bne_iff_ne, bne_iff_ne, bne_iff_ne] at plain
  obtain ⟨⟨log, overflow⟩, corrected⟩ := plain
  unfold State.readEffect
  split
  case h_1 h => exact absurd (BitVec.eq_of_toNat_eq h) log
  case h_2 h => exact absurd (BitVec.eq_of_toNat_eq h) overflow
  case h_3 h => exact absurd (BitVec.eq_of_toNat_eq h) corrected
  case h_4 => rfl

theorem toNat_append_add {m n : Nat} (x : BitVec m) (y : BitVec n) : (x ++ y).toNat = x.toNat * 2 ^ n + y.toNat := by
  rw [BitVec.toNat_append, ← Nat.shiftLeft_add_eq_or_of_lt y.isLt, Nat.shiftLeft_eq]

theorem State.windowWord_record (s : State) (r : RecordIx) (w : Fin 8) :
    s.windowWord (128 + 8 * r.val + w.val) = s.commit.staging[r].wordAt w.val := by
  obtain ⟨record, place⟩ := recordAt_eq r w
  generalize at' : 128 + 8 * r.val + w.val = a at record place
  subst record
  rw [State.windowWord, dif_neg (by omega), if_pos (by omega), place]

theorem State.windowWord_unassigned (s : State) {a : Nat}
    (h : (21 ≤ a ∧ a ≤ 31) ∨ a = 38 ∨ a = 39 ∨ a = 46 ∨ a = 47 ∨ a = 54 ∨ a = 55 ∨ (64 ≤ a ∧ a ≤ 127)) : s.windowWord a = 0 := by
  rw [State.windowWord, dif_neg (by omega), if_neg (by omega)]
  split
  all_goals first | rfl | omega

theorem State.windowWord_segment (s : State) : ∀ g : Segment, s.windowWord (56 + g.val) = s.segmentWord g
  | 0 => rfl
  | 1 => rfl
  | 2 => rfl
  | 3 => rfl
  | 4 => rfl
  | 5 => rfl
  | 6 => rfl
  | 7 => rfl

/-- The word of a segment: its cursor above its local state. -/
theorem State.segmentWord_toNat (s : State) (g : Segment) : (s.segmentWord g).toNat =
    65536 * ((s.ownCursor g).getD 0 % 2048) + (s.localState g).code := by
  have small : (s.localState g).code < 8 := by cases s.localState g <;> decide
  simp only [State.segmentWord, toNat_append_add, BitVec.toNat_ofNat]
  omega

theorem JoinControl.word_toNat (j : JoinControl) : j.word.toNat = 16 * j.cause.elim 0 OfflineCause.code + j.station.code := by
  have station : j.station.code < 16 := by cases j.station <;> decide
  have cause : j.cause.elim 0 OfflineCause.code < 16 := by
    cases j.cause with
    | none => decide
    | some c => cases c <;> decide
  simp only [JoinControl.word, toNat_append_add, BitVec.toNat_ofNat]
  omega

theorem State.ownCursor_iff (s : State) (g : Segment) (c : Nat) :
    s.ownCursor g = some c ↔ ∃ v p, s.heldView = some v ∧ v.state s.me g = .catching c p := by
  rw [State.ownCursor, State.ownState]
  cases view : s.heldView with
  | none => exact iff_of_false nofun fun ⟨_, _, h, _⟩ => nomatch h
  | some v =>
    dsimp only
    constructor
    · intro h
      cases state : v.state s.me g with
      | catching c' p =>
        rw [state] at h
        cases h
        exact ⟨v, p, rfl, state⟩
      | none => rw [state] at h; cases h
      | current => rw [state] at h; cases h
      | mismatch => rw [state] at h; cases h
    · rintro ⟨v', p, same, state⟩
      cases same
      rw [state]

/-- Settles O25, word by word. -/
theorem windowReadsTheWord : Obligations.WindowReadsTheWord := by
  intro s idle
  have place {r : RecordIx} {a : Nat} (w : Fin 8) (at' : a = 128 + 8 * r.val + w.val) :
      s.windowWord a = s.commit.staging[r].wordAt w.val := at' ▸ s.windowWord_record r w
  refine ⟨fun a lt plain => ?_, fun i => dif_pos i.isLt, rfl, rfl, (BitVec.setWidth_eq_append (by decide)).symm,
    s.windowWord_enables, rfl, rfl, rfl, rfl, rfl, ?_, fun g => ?_, fun g c => s.ownCursor_iff g c, fun none => ?_,
    fun v view => ?_, fun r => ⟨s.windowWord_record r 0, fun i => ?_, ?_, ?_, ?_⟩, fun a h => s.windowWord_unassigned h⟩
  · rw [exec_windowWrite_read idle, State.readWindow, if_pos lt, s.readEffect_plain plain]
    rfl
  · change s.join.word.toNat = _
    rw [JoinControl.word_toNat]
    congr 1
    cases s.join.cause with
    | none => rfl
    | some c => cases c <;> rfl
  · rw [s.windowWord_segment, State.segmentWord_toNat]
    congr 1
    cases s.ownCursor g <;> rfl
  · change s.heldView.elim 0 _ = _ ∧ s.heldView.elim 0 _ = _
    rw [none]
    exact ⟨rfl, rfl⟩
  · change s.heldView.elim 0 _ = _ ∧ s.heldView.elim 0 _ = _
    rw [view]
    exact ⟨(BitVec.setWidth_eq_append (by decide)).symm, rfl⟩
  · rw [place (Fin.castLE (by decide) i.succ) (by change _ = 128 + 8 * r.val + (i.val + 1); omega)]
    match i with
    | 0 => rfl
    | 1 => rfl
    | 2 => rfl
    | 3 => rfl
  · exact place 5 (by change _ = 128 + 8 * r.val + 5; omega)
  · exact place 6 (by change _ = 128 + 8 * r.val + 6; omega)
  · exact place 7 (by change _ = 128 + 8 * r.val + 7; omega)

end Sys2Proof.Machine
end

section
/-! Frames read back: the payload words of the composers, as a receiver reads them (R59, R96, R158, R164, R173). -/

namespace Sys2Proof.Machine

theorem lowWord_read {a b : Nat} (x : BitVec a) (y : BitVec b) : (x ++ y).extractLsb' 0 b = y := by
  apply BitVec.eq_of_toNat_eq
  rw [BitVec.extractLsb'_toNat, toNat_append_add, Nat.shiftRight_zero, Nat.mul_add_mod_of_lt y.isLt]

theorem stationOfBits_stationBits (x : Station) : stationOfBits (stationBits x) = x :=
  Fin.ext ((BitVec.toNat_ofNat x.val 4).trans (Nat.mod_eq_of_lt x.isLt))

/-- The group length of an UPDATE's first word. -/
theorem updateWord_groupLength {n : Nat} (small : n < 32) (m : WordMask) :
    ((0#19 ++ BitVec.ofNat 5 n ++ 0#4 ++ m : BitVec 32).extractLsb' 8 5).toNat = n := by
  have := m.isLt
  simp only [BitVec.extractLsb'_toNat, toNat_append_add, BitVec.toNat_ofNat, Nat.shiftRight_eq_div_pow]
  omega

/-- The void mask of a GIVE's first word. -/
theorem giveWord_void (void : WordMask) (asker : BitVec 4) : (0#24 ++ void ++ asker : BitVec 32).extractLsb' 4 4 = void := by
  have hv := void.isLt
  have ha := asker.isLt
  apply BitVec.eq_of_toNat_eq
  simp only [BitVec.extractLsb'_toNat, toNat_append_add, BitVec.toNat_ofNat, Nat.shiftRight_eq_div_pow]
  omega

/-- A line sent by its segment and offset is the line read (R59). -/
theorem Frame.line_of {f : Frame} {l : Line} (segment : f.segment = segmentOf l) (offset : f.header.offset.toNat = offsetOf l % 2048) :
    f.line = l := by
  rw [Frame.line, segment, offset, lineAt_segment_offset]

theorem Frame.word0_of {f : Frame} {w : Word} {ws : List Word} (words : f.words = w :: ws) : f.word0 = w := by
  rw [Frame.word0, words]
  rfl

theorem WordMask.size_le (m : WordMask) : m.size ≤ 4 := WordMask.length_words m ▸ WordMask.length_words_le m

theorem composeUpdate_reads (x : Station) (l : Line) (m : WordMask) (d : Vector Word 4) (p : BitVec 3) {n : Nat} (small : n < 32) :
    let f := composeUpdate x l m d p n
    readFrame f.heard = some f ∧ f.kind? = some .update ∧ f.sender = x ∧ f.line = l ∧ f.header.gpos = p ∧ f.updateMask = m ∧
      f.groupLength = n ∧ f.header.count.toNat = m.size ∧ f.words.tail = gatherWords m d := by
  have few : (gatherWords m d).length ≤ 4 := by rw [gatherWords, List.length_map]; exact WordMask.length_words_le m
  obtain ⟨read, kind, sender, segment, gpos, words, offset, count⟩ := composeFrame_reads x .update (segmentOf l) p (offsetOf l) m.size
    ((0#19 ++ BitVec.ofNat 5 n ++ 0#4 ++ m : BitVec 32) :: gatherWords m d) (by rw [List.length_cons]; omega)
  refine ⟨read, kind, sender, Frame.line_of segment offset, gpos, ?_, ?_, ?_, congrArg List.tail words⟩
  · exact (congrArg (fun w : Word => w.extractLsb' 0 4) (Frame.word0_of words)).trans (lowWord_read _ m)
  · exact (congrArg (fun w : Word => (w.extractLsb' 8 5).toNat) (Frame.word0_of words)).trans (updateWord_groupLength small m)
  · have := WordMask.size_le m
    exact count.trans (Nat.mod_eq_of_lt (by omega))

theorem composeGive_reads (x : Station) {e : GiveEntry} (segment : e.segment = segmentOf e.line) :
    let f := composeGive x e
    readFrame f.heard = some f ∧ f.kind? = some .give ∧ f.sender = x ∧ f.line = e.line ∧ f.giveAsker = e.asker ∧
      f.giveVoid = e.void ∧
      f.words = (0#24 ++ e.void ++ stationBits e.asker : BitVec 32) :: wordIxs.map fun i => if e.void.has i then 0 else e.data[i] := by
  obtain ⟨read, kind, sender, segment', -, words, offset, -⟩ := composeFrame_reads x .give e.segment gposNone (offsetOf e.line) 0
    ((0#24 ++ e.void ++ stationBits e.asker : BitVec 32) :: wordIxs.map fun i => if e.void.has i then 0 else e.data[i])
    (by rw [List.length_cons, List.length_map]; decide)
  refine ⟨read, kind, sender, Frame.line_of (segment'.trans segment) offset, ?_, ?_, words⟩
  · refine (congrArg (fun w : Word => stationOfBits (w.extractLsb' 0 4)) (Frame.word0_of words)).trans ?_
    exact (congrArg stationOfBits (lowWord_read _ _)).trans (stationOfBits_stationBits e.asker)
  · exact (congrArg (fun w : Word => w.extractLsb' 4 4) (Frame.word0_of words)).trans (giveWord_void _ _)

/-- Settles O60: a frame whole, and the fields of the four composers. -/
theorem framesReadBack : Obligations.FramesReadBack := by
  refine ⟨readFrame_heard, fun x l m d p n small => ?update, fun x e segment => ?ask, fun x p g => ?stall, fun x e segment => ?give⟩
  case update =>
    obtain ⟨read, kind, sender, line, gpos, mask, length, count, tail⟩ := composeUpdate_reads x l m d p small
    refine ⟨read, kind, sender, line, gpos, mask, length, ?_, line, mask, fun i has => ?_⟩
    · rw [Frame.updateMalformed, mask, count, length, gpos, bne_self_eq_false, Bool.or_false]
      rfl
    · rw [Frame.updateWrite, mask, tail]
      refine (words4_get _ i).trans ?_
      rw [if_pos has, gatherWords_get m d i has]
  case ask =>
    obtain ⟨read, kind, sender, segment', -, words, offset, -⟩ := composeFrame_reads x .ask e.segment gposNone (offsetOf e.line) 0
      [(0#28 ++ e.bad : BitVec 32)] (by rw [List.length_singleton]; decide)
    refine ⟨read, kind, sender, Frame.line_of (segment'.trans segment) offset, ?_⟩
    exact (congrArg (fun w : Word => w.extractLsb' 0 4) (Frame.word0_of words)).trans (lowWord_read _ _)
  case stall =>
    obtain ⟨read, kind, sender, segment, -, words, -, -⟩ := composeFrame_reads x .stall g gposNone 0 0
      [(0#28 ++ stationBits p : BitVec 32)] (by rw [List.length_singleton]; decide)
    refine ⟨read, kind, sender, segment, ?_⟩
    refine (congrArg (fun w : Word => stationOfBits (w.extractLsb' 0 4)) (Frame.word0_of words)).trans ?_
    exact (congrArg stationOfBits (lowWord_read _ _)).trans (stationOfBits_stationBits p)
  case give =>
    obtain ⟨read, kind, sender, line, asker, void, words⟩ := composeGive_reads x segment
    refine ⟨read, kind, sender, line, asker, void, fun i => ?_⟩
    refine (words4_get _ i).trans ?_
    rw [words, Nat.add_comm 1, List.getD_cons_succ]
    match i with
    | 0 => rfl
    | 1 => rfl
    | 2 => rfl
    | 3 => rfl

end Sys2Proof.Machine
end

section
/-! The timer expiries: the walker's choice of a line, the quiet, roster and progress timers, and the repair timer (R22, R23, R93,
R126, R157, R165). -/

namespace Sys2Proof.Machine

/-! ### The walker's choice (R22, R23) -/

theorem State.eligible_iff (s : State) (l : Line) : s.eligible l = true ↔
    s.scrub (segmentOf l) = .active ∧ ∀ c, s.ownCursor (segmentOf l) = some c → offsetOf l < c := by
  have below : offsetOf l < 2048 := Nat.mod_lt _ (by decide)
  rw [State.eligible, decide_eq_true_iff, State.eligibleLimit, State.walked]
  by_cases active : s.scrub (segmentOf l) = .active
  · rw [if_pos (beq_iff_eq.mpr active), Nat.lt_min, and_iff_right (show offsetOf l < segmentLines from below), and_iff_right active]
    cases s.ownCursor (segmentOf l) with
    | none => exact iff_of_true below nofun
    | some c => exact ⟨fun lt c' same => Option.some.inj same ▸ lt, fun h => h c rfl⟩
  · rw [if_neg (by rw [beq_iff_eq]; exact active)]
    exact iff_of_false (Nat.not_lt_zero _) fun h => active h.1

/-- The line a segment offers lies in the range and is its first eligible one there. -/
theorem State.eligibleIn_some {s : State} {low high : Nat} {g : Segment} {k : Line} (h : s.eligibleIn low high g = some k) :
    segmentOf k = g ∧ low ≤ k.val ∧ k.val < high ∧ s.eligible k = true ∧
      ∀ x : Line, segmentOf x = g → low ≤ x.val → k ≤ x := by
  have most : s.eligibleLimit g ≤ 2048 := by
    unfold State.eligibleLimit
    split
    · exact Nat.min_le_left _ _
    · exact Nat.zero_le _
  have limit : segmentLines = 2048 := rfl
  unfold State.eligibleIn at h
  dsimp only at h
  split at h
  case isFalse => cases h
  case isTrue lt =>
    rw [limit] at lt h
    have value : k.val = g.val * 2048 + (max low (g.val * 2048) - g.val * 2048) % 2048 := by rw [← Option.some.inj h]; rfl
    have exactly : k.val = max low (g.val * 2048) := by omega
    have segment : segmentOf k = g := Fin.ext (by change k.val / 2048 = _; omega)
    refine ⟨segment, by omega, by omega, ?_, fun x inSegment above => ?_⟩
    · rw [State.eligible, segment]
      exact decide_eq_true (by change k.val % 2048 < _; omega)
    · have := congrArg Fin.val inSegment
      change x.val / 2048 = _ at this
      rw [Fin.le_def]
      omega

theorem State.eligibleIn_none {s : State} {low high : Nat} {g : Segment} (h : s.eligibleIn low high g = none) (x : Line)
    (segment : segmentOf x = g) (above : low ≤ x.val) (below : x.val < high) : s.eligible x = false := by
  rw [State.eligible, segment, decide_eq_false_iff_not]
  intro lt
  have limit : segmentLines = 2048 := rfl
  have place := congrArg Fin.val segment
  change x.val / 2048 = _ at place
  change x.val % 2048 < _ at lt
  unfold State.eligibleIn at h
  dsimp only at h
  rw [limit, if_pos (by omega)] at h
  cases h

theorem State.firstEligible_none {s : State} {low high : Nat} (none : ∀ k : Line, low ≤ k.val → k.val < high → s.eligible k = false) :
    s.firstEligible low high = .none := by
  refine findSome_finRange_none fun g => ?_
  cases found : s.eligibleIn low high g with
  | none => rfl
  | some k =>
    obtain ⟨-, above, below, eligible, -⟩ := State.eligibleIn_some found
    rw [none k above below] at eligible
    cases eligible

theorem State.firstEligible_some {s : State} {low high : Nat} {l : Line} (above : low ≤ l.val) (below : l.val < high)
    (eligible : s.eligible l = true) (first : ∀ k : Line, low ≤ k.val → k < l → s.eligible k = false) :
    s.firstEligible low high = some l := by
  refine findSome_finRange (segmentOf l) l ?_ fun g lt => ?_
  · cases found : s.eligibleIn low high (segmentOf l) with
    | none =>
      rw [State.eligibleIn_none found l rfl above below] at eligible
      cases eligible
    | some k =>
      obtain ⟨-, kAbove, -, kEligible, least⟩ := State.eligibleIn_some found
      obtain same | lt := (least l rfl above).eq_or_lt
      · rw [same]
      · rw [first k kAbove lt] at kEligible
        cases kEligible
  · cases found : s.eligibleIn low high g with
    | none => rfl
    | some k =>
      obtain ⟨segment, kAbove, -, kEligible, -⟩ := State.eligibleIn_some found
      have before : k < l := by
        have place := congrArg Fin.val segment
        change k.val / 2048 = _ at place
        rw [Fin.lt_def] at lt ⊢
        change g.val < l.val / 2048 at lt
        omega
      rw [first k kAbove before] at kEligible
      cases kEligible

/-- Settles O41: from the cursor on, below it, or no line at all. -/
theorem scrubExpiryChoosesALine : Obligations.ScrubExpiryChoosesALine := by
  refine ⟨State.eligible_iff, fun s timing => ?_⟩
  have inArray (k : Line) : k.val < 16384 := k.isLt
  have choose {u : State} (h : s.chooseLine = u) : ∃ t, exec .scrubIntervalExpiry s = .next t ∧ Settled u t :=
    ⟨_, congrArg Host.Outcome.next (if_pos timing), h ▸ State.settle_settled _⟩
  have noneAbove (none : ∀ k : Line, s.walker.cursor ≤ k.val → s.eligible k = false) :
      s.firstEligible s.walker.cursor arrayLines = .none := State.firstEligible_none fun k above _ => none k above
  refine ⟨fun l above eligible first => choose ?_, fun l below eligible none first => choose ?_, fun none => choose ?_⟩
  · have found : s.firstEligible s.walker.cursor arrayLines = some l :=
      State.firstEligible_some above (inArray l) eligible first
    rw [State.chooseLine, found]
    rfl
  · have found : s.firstEligible 0 s.walker.cursor = some l :=
      State.firstEligible_some (Nat.zero_le _) below eligible fun k _ lt => first k lt
    rw [State.chooseLine, noneAbove none, found]
    rfl
  · have below : s.firstEligible 0 s.walker.cursor = .none := State.firstEligible_none fun k _ _ => none k
    rw [State.chooseLine, noneAbove fun k _ => none k, below, ← timing]

/-! ### The progress window (R157) -/

theorem State.expireWindow_monitors {s : State} {g : Segment} (running : s.catchup.monitors[g].running = true) :
    s.expireWindow g = { s with catchup := { s.catchup with monitors := (s.expireWindow g).catchup.monitors } } ∧
    (∀ h : Segment, h ≠ g → (s.expireWindow g).catchup.monitors[h] = s.catchup.monitors[h]) ∧
    (s.expireWindow g).catchup.monitors[g] = ⟨true, 0, match s.catchup.monitors[g].stall with
      | some i => some i
      | none => if s.catchup.monitors[g].count ≤ s.progressFloor then (s.ownServer g).map fun p => ⟨p, 0⟩ else none⟩ := by
  rw [State.expireWindow]
  dsimp only
  rw [if_pos running]
  refine ⟨rfl, fun h other => ?_, ?_⟩
  · exact (CatchUp.mapMonitors_get _ _ h).trans (if_neg other)
  · exact (CatchUp.mapMonitors_get _ _ g).trans (if_pos rfl)

/-! ### The roster timer (R120, R126) -/

theorem State.corruptHeldRead_same {s : State}
    (free : ∀ r, s.port.request = some r → r.stage ≠ .repairWait ∧ r.stage ≠ .slotWait) : s.corruptHeldRead = s := by
  unfold State.corruptHeldRead
  split
  · rfl
  · next r request => exact if_neg (not_or.mpr (free r request))

theorem State.segmentsChanged_false {b s : State} (same : ∀ g, b.localState g = s.localState g) : State.segmentsChanged b s = false :=
  List.any_eq_false.mpr fun g _ => by rw [same g, bne_self_eq_false]; exact Bool.false_ne_true

theorem State.discardQueue_empty {s : State} (empty : s.out = []) : s.discardQueue = s := by
  rw [State.discardQueue, empty]
  rfl

theorem State.abortChain_idle {s : State} (idle : s.commit.state.pending = false) : s.abortChain = s :=
  if_neg (by rw [idle]; exact Bool.false_ne_true)

theorem State.localState_outside {s t : State} (noView : s.heldView = none) (noView' : t.heldView = none)
    (config : t.rep.config = s.rep.config) (g : Segment) : t.localState g = s.localState g := by
  have mode : t.mode g = s.mode g := by
    rw [State.mode, State.mode, Reporting.descriptor, Reporting.descriptor, config]
  rw [State.localState, State.localState, mode, noView, noView']

/-- A station without a view, queue, chain or held request that goes OFFLINE loses what it holds and logs nothing more. -/
theorem State.goOffline_bare {b s : State} {cause : OfflineCause} (repair : s.repair = b.repair) (empty : s.out = [])
    (idle : s.commit.state.pending = false) (walker : s.walker.state ≠ .held) (noView : s.heldView = none)
    (noViewBefore : b.heldView = none) (config : b.rep.config = s.rep.config)
    (free : ∀ r, s.port.request = some r → r.stage ≠ .repairWait ∧ r.stage ≠ .slotWait ∧ r.stage ≠ .queueWait) :
    State.goOffline b s cause = (s.teardown cause).setFlag .offline := by
  have left : s.discardSpentHead.abortChain.discardQueue = s := by
    rw [State.discardSpentHead_same s (by rw [empty]; exact fun _ h => nomatch h), State.abortChain_idle idle,
      State.discardQueue_empty empty]
  have unchanged : State.segmentsChanged b (s.teardown cause) = false :=
    State.segmentsChanged_false (State.localState_outside (s := s.teardown cause) rfl noViewBefore config)
  rw [State.goOffline, State.releaseSince_same repair]
  rw [left, unchanged, noView]
  obtain ⟨x, hx⟩ : ∃ x, x = (s.teardown cause).setFlag .offline := ⟨_, rfl⟩
  have port : x.port = s.port := by rw [hx]; rfl
  change (((s.teardown cause).setFlag .offline).wakeWalker.corruptHeldRead).retake .queueWait = _
  rw [← hx, State.wakeWalker_same (by rw [hx]; exact walker),
    State.corruptHeldRead_same fun r h => ⟨(free r (port ▸ h)).1, (free r (port ▸ h)).2.1⟩,
    State.retake_other _ _ fun r h => (free r (port ▸ h)).2.2]

/-- Settles O42: the quiet timer, the roster timer and the progress windows. -/
theorem quietRosterAndProgressExpiries : Obligations.QuietRosterAndProgressExpiries := by
  refine ⟨fun s => ⟨fun joined counting => congrArg Host.Outcome.next (if_pos ⟨joined, counting⟩), fun waiting timer left => ?_,
    fun g running => ⟨_, rfl, ?_⟩⟩, fun s waiting timer spent empty idle walker free => ?_⟩
  · exact (congrArg Host.Outcome.next (if_pos ⟨waiting, timer⟩)).trans (congrArg Host.Outcome.next (if_pos left))
  · obtain ⟨frame, others, own⟩ := State.expireWindow_monitors running
    refine ⟨frame, others, ?_⟩
    rw [own]
    refine ⟨rfl, rfl, fun i item => ?_, fun none above => ?_, fun none below v p view server => ?_⟩
    · dsimp only
      rw [item]
    · dsimp only
      rw [none]
      exact if_neg (not_le.mpr above)
    · dsimp only
      rw [none]
      refine (if_pos below).trans ?_
      rw [State.ownServer, view]
      exact congrArg (Option.map _) server
  · have noView : s.heldView = none := by
      rw [State.heldView, State.inGroup, waiting]
      rfl
    have failed : s.failJoin =
        ((s.raise ⟨.joinFailed, .bus, none, none, some s.me, s.join.accepted⟩).teardown .joinFailed).setFlag .offline :=
      State.goOffline_bare rfl empty idle walker noView noView (s.rep.raise_config _).symm free
    have done : exec .rosterTimerExpiry s = .next s.failJoin.settle :=
      (congrArg Host.Outcome.next (if_pos ⟨waiting, timer⟩)).trans (congrArg Host.Outcome.next (if_neg (not_lt.mpr spent)))
    refine ⟨s.failJoin, _, done, State.settle_settled _, ?_⟩
    rw [failed]
    exact ⟨rfl, rfl, rfl, rfl, rfl, empty, rfl, rfl, fun k => Vector.getElem_replicate _, rfl, rfl, rfl, rfl, rfl, rfl, rfl, rfl, rfl,
      rfl, rfl, rfl⟩

/-! ### The repair timer (R165, R167) -/

theorem State.judge_portAndQueue (s : State) (r : Request) : ∃ p o, s.judge r = { s with port := p, out := o } := by
  unfold State.judge State.judgeSegment State.judgeRead State.judgeWrite State.judgeMemberRead State.judgeStaleRead State.offerWrite
    State.sendRead State.holdRequest State.answer
  repeat' split
  all_goals exact ⟨_, _, rfl⟩

theorem State.retake_portAndQueue (s : State) (st : Stage) : ∃ p o, s.retake st = { s with port := p, out := o } := by
  unfold State.retake
  repeat' split
  all_goals first | exact s.judge_portAndQueue _ | exact ⟨_, _, rfl⟩

theorem State.releaseRead_portAndQueue (s : State) : ∃ p o, s.releaseRead = { s with port := p, out := o } := by
  unfold State.releaseRead State.answer
  repeat' split
  all_goals first | exact s.judge_portAndQueue _ | exact ⟨_, _, rfl⟩

/-- With the walker not held, a release moves the port, the queue and the waiting lines alone. -/
theorem State.releaseHeld_frame {s : State} (room : Bool) (walker : s.walker.state ≠ .held) :
    ∃ p o jobs, s.releaseHeld room = { s with port := p, out := o, catchup := { s.catchup with jobs := jobs } } := by
  obtain ⟨p, o, read⟩ := s.releaseRead_portAndQueue
  unfold State.releaseHeld
  rw [read]
  dsimp only
  split
  · rw [State.wakeWalker_same (by exact walker)]
    obtain ⟨p', o', retaken⟩ := State.retake_portAndQueue (State.releaseJobs { s with port := p, out := o } room) .slotWait
    rw [retaken]
    exact ⟨_, _, _, rfl⟩
  · exact ⟨_, _, _, rfl⟩

/-- A read held on an entry that has FAILED is answered CORRUPT. -/
theorem State.releaseHeld_corrupt {s : State} {r : Request} {e : RepairEntry} (room : Bool) (walker : s.walker.state ≠ .held)
    (request : s.port.request = some r) (stage : r.stage = .repairWait) (found : repairFor s.repair r.line = some e)
    (failed : e.asking = false) (bad : e.bad.has r.word = true) :
    (s.releaseHeld room).port = answered .corrupt r.rawData := by
  have read : s.releaseRead = s.answer .corrupt r.rawData := by
    rw [State.releaseRead, request]
    dsimp only
    rw [if_pos stage, found]
    dsimp only
    rw [bad, failed]
    rfl
  unfold State.releaseHeld
  rw [read]
  dsimp only
  split
  · rw [State.wakeWalker_same (by exact walker), State.retake_other _ _ (by exact fun _ h => nomatch h)]
    rfl
  · rfl

theorem exec_repairTimerExpiry {s : State} {before after : List RepairEntry} {e : RepairEntry} (list : s.repair = before ++ e :: after)
    (others : ∀ x ∈ before ++ after, x.line ≠ e.line) : exec (.repairTimerExpiry e.line) s = .next
      (if e.expire.2 then
        ((State.raise { s with repair := before ++ e.expire.1 :: after } (repairFailed e)).releaseHeld true).settle
      else { s with repair := before ++ e.expire.1 :: after }) := by
  change execRepairTimerExpiry e.line s = _
  rw [execRepairTimerExpiry, list, repairFor_split before after e e.line rfl others, repairMap_split before after e e.line rfl others]

/-- Settles O43: asked again, or FAILED with the release of what it held. -/
theorem repairTimerExpiry : Obligations.RepairTimerExpiry := by
  intro s before after e asks rejections of list absentBefore absentAfter state
  have others (x : RepairEntry) (mem : x ∈ before ++ after) : x.line ≠ e.line :=
    (List.mem_append.mp mem).elim (absentBefore x) (absentAfter x)
  rw [exec_repairTimerExpiry list others]
  refine ⟨fun left => ?_, fun spent walker free => ?_⟩
  · have again : e.expire = ({ e with state := .asking .toAsk asks rejections of }, false) := by
      rw [RepairEntry.expire, state]
      exact if_pos left
    rw [again]
    rfl
  · have failed : e.expire = ({ e with state := .failed }, true) := by
      rw [RepairEntry.expire, state]
      exact if_neg (not_lt.mpr spent)
    have entry : repairFailed e = ⟨.repairFailed, e.origin, some (segmentOf e.line), some e.line, of, e.bad.toNat⟩ := by
      rw [repairFailed, RepairEntry.askedOf, state]
      rfl
    obtain ⟨x, hx⟩ : ∃ x, x = State.raise { s with repair := before ++ { e with state := .failed } :: after } (repairFailed e) :=
      ⟨_, rfl⟩
    obtain ⟨p, o, jobs, frame⟩ := State.releaseHeld_frame (s := x) true (by rw [hx]; exact walker)
    refine ⟨x.releaseHeld true, (x.releaseHeld true).settle, ?_, State.settle_settled _, ?_⟩
    · rw [failed, hx]
      rfl
    · refine ⟨?_, ?_, fun r request stage line bad => ?_, ?_⟩
      · rw [frame, hx]
        rfl
      · rw [frame, hx, ← entry]
        rfl
      · refine State.releaseHeld_corrupt (e := { e with state := .failed }) true (by rw [hx]; exact walker) (by rw [hx]; exact request)
          stage ?_ rfl bad
        rw [hx]
        exact repairFor_split before after { e with state := .failed } _ line.symm fun x mem => by
          rw [Request.line, line]
          exact others x mem
      · rw [frame, hx]
        exact ⟨rfl, rfl, rfl, rfl, rfl, rfl, rfl, rfl, rfl, rfl, rfl⟩

end Sys2Proof.Machine
end

section
/-! The bus between frames: the transmit selector, the marks, continuations and break fields, and the run length; and the groups
at a receiver (R79 to R81, R85, R88, R91, R101 to R104, R150, R151, R184). -/

namespace Sys2Proof.Machine

/-! ### The selector (R91, R131, R137, R150, R158, R164) -/

/-- The first index that meets a condition, as an equivalence. -/
theorem find_finRange_iff {n : Nat} {p : Fin n → Bool} (k : Fin n) :
    (List.finRange n).find? p = some k ↔ p k = true ∧ ∀ j < k, p j = false := by
  refine ⟨fun found => ⟨List.find?_some found, fun j lt => ?_⟩, fun h => find_finRange k h.1 h.2⟩
  by_contra unset
  have holds : p j = true := by simpa using unset
  have some : ∃ j, p j = true := ⟨j, holds⟩
  obtain ⟨i, here, least⟩ := exists_minimal_of_wellFoundedLT (fun j : Fin n => p j = true) some
  have first : (List.finRange n).find? p = Option.some i :=
    find_finRange i here fun h hlt => Bool.eq_false_iff.mpr fun e => absurd (least e hlt.le) (not_le.mpr hlt)
  have same : i = k := Option.some.inj (first.symm.trans found)
  rw [← same] at lt
  exact absurd (least holds lt.le) (not_le.mpr lt)

/-- The items of class 0 and 1 as one list. -/
theorem State.urgentItem_eq (s : State) : s.urgentItem =
    [s.rosterDue.map .roster, s.stallDue.map .stall, if s.leaveDue then some .leave else none,
      if s.giveDue then some .give else none, s.askDue.map .ask, if s.out.isEmpty then none else some .outbound].findSome? id := by
  unfold State.urgentItem
  cases s.rosterDue with
  | some => rfl
  | none =>
    cases s.stallDue with
    | some => rfl
    | none =>
      cases s.leaveDue with
      | true => rfl
      | false =>
        cases s.giveDue with
        | true => rfl
        | false =>
          cases s.askDue with
          | some => rfl
          | none => cases s.out.isEmpty <;> rfl

theorem State.chosenItem_group {s : State} (group : s.join.station = .joined ∨ s.join.station = .leaving) : s.chosenItem =
    match s.urgentItem with
    | some i => some i
    | none =>
      if s.copyReady then some .copy
      else if s.join.station == .joined && s.bus.emptyPending then some .empty
      else none := by
  unfold State.chosenItem
  obtain h | h := group
  · rw [h] <;> rfl
  · rw [h] <;> rfl

theorem State.rosterDue_iff {s : State} {v : View} (view : s.heldView = some v) (x : Station) :
    s.rosterDue = some x ↔ s.Owes v x ∧ ∀ y < x, ¬s.Owes v y := by
  have owes (y : Station) : (v.awaiting y && v.joinResponder y == some s.me &&
      (match s.join.rosters[y] with
       | some r => !r.dropped
       | none => false)) = true ↔ s.Owes v y := by
    rw [Bool.and_eq_true, Bool.and_eq_true, beq_iff_eq, State.Owes, and_assoc]
    refine and_congr_right fun _ => and_congr_right fun _ => ?_
    cases s.join.rosters[y] with
    | none => exact iff_of_false Bool.false_ne_true fun ⟨_, h, _⟩ => nomatch h
    | some r => exact ⟨fun h => ⟨r, rfl, (Bool.not_eq_true' _).mp h⟩, fun ⟨_, h, kept⟩ => by cases h; exact (Bool.not_eq_true' _).mpr kept⟩
  have search : s.rosterDue = (List.finRange 16).find? fun y => v.awaiting y && v.joinResponder y == some s.me &&
      (match s.join.rosters[y] with
       | some r => !r.dropped
       | none => false) := by
    rw [State.rosterDue, view]
    rfl
  rw [search, find_finRange_iff, owes]
  refine and_congr_right fun _ => forall_congr' fun y => imp_congr_right fun _ => ?_
  rw [← owes y, Bool.not_eq_true]

theorem State.stallDue_iff (s : State) (g : Segment) : s.stallDue = some g ↔
    s.catchup.monitors[g].stall ≠ none ∧ ∀ h : Segment, h < g → s.catchup.monitors[h].stall = none := by
  refine (find_finRange_iff g).trans (and_congr Option.isSome_iff_ne_none (forall_congr' fun h => imp_congr_right fun _ => ?_))
  exact Option.isSome_eq_false_iff.trans Option.isNone_iff_eq_none

theorem State.askDue_iff (s : State) (l : Line) : s.askDue = some l ↔ ∃ before e after,
    s.repair = before ++ e :: after ∧ (∀ x ∈ before, x.toAsk = false) ∧ e.toAsk = true ∧ e.line = l := by
  rw [State.askDue, Option.map_eq_some_iff]
  simp only [List.find?_eq_some_iff_append, Bool.not_eq_true']
  constructor
  · rintro ⟨e, ⟨toAsk, before, after, split, none⟩, line⟩
    exact ⟨before, e, after, split, none, toAsk, line⟩
  · rintro ⟨before, e, after, split, none, toAsk, line⟩
    exact ⟨e, ⟨toAsk, before, after, split, none⟩, line⟩

theorem State.copyReady_iff (s : State) : s.copyReady = true ↔
    ∃ k j, s.catchup.token = some k ∧ s.catchup.jobs[k] = some j ∧ j.ready (s.jobCursor j) = true := by
  rw [State.copyReady]
  cases s.catchup.token with
  | none => exact iff_of_false Bool.false_ne_true fun ⟨_, _, h, _⟩ => nomatch h
  | some k =>
    dsimp only
    rw [State.jobReady]
    cases held : s.catchup.jobs[k] with
    | none =>
      refine iff_of_false Bool.false_ne_true ?_
      rintro ⟨_, j, same, h, -⟩
      cases same
      rw [held] at h
      cases h
    | some j =>
      refine ⟨fun ready => ⟨k, j, rfl, held, ready⟩, ?_⟩
      rintro ⟨_, j', same, h, ready⟩
      cases same
      rw [held] at h
      cases h
      exact ready

/-- Settles O44. -/
theorem selectorOffersInOrder : Obligations.SelectorOffersInOrder := by
  intro s
  refine ⟨fun joining => ?_, fun outside => ?_, fun group => ?_, fun v view x => State.rosterDue_iff view x, s.stallDue_iff,
    s.leaveDue_iff, s.giveDue_iff, s.askDue_iff, s.copyReady_iff⟩
  · unfold State.chosenItem
    obtain h | h := joining <;> rw [h]
  · unfold State.chosenItem
    simp only [List.mem_cons, List.not_mem_nil, or_false] at outside
    obtain h | h | h | h | h := outside <;> rw [h]
  · rw [State.chosenItem_group group, State.urgentItem_eq,
      show ∀ a b c d e f g h : Option Item, [a, b, c, d, e, f, g, h] = [a, b, c, d, e, f] ++ [g, h] from fun _ _ _ _ _ _ _ _ => rfl,
      List.findSome?_append]
    cases [s.rosterDue.map Item.roster, s.stallDue.map .stall, if s.leaveDue then some .leave else none,
      if s.giveDue then some .give else none, s.askDue.map .ask, if s.out.isEmpty then none else some .outbound].findSome? id with
    | some i => rfl
    | none =>
      have empty : (s.join.station == .joined && s.bus.emptyPending) = true ↔ s.join.station = .joined ∧ s.bus.emptyPending = true := by
        rw [Bool.and_eq_true, beq_iff_eq]
      rw [Option.none_or]
      simp only [empty]
      cases s.copyReady with
      | true => rfl
      | false => by_cases offered : s.join.station = .joined ∧ s.bus.emptyPending = true <;> simp [offered]

/-! ### Marks and empty windows (R85, R88, R123, R184) -/

theorem exec_windowMark_following {s : State} (n : Nat) (unit : s.bus.unit = .following) :
    exec (.windowMark n) s = .next (s.takeMark n) := by
  change execWindowMark n s = _
  rw [execWindowMark, unit]

theorem exec_emptyWindowEnd_following {s : State} (unit : s.bus.unit = .following) :
    exec .emptyWindowEnd s = .next (if s.bus.canEmpty then s.endEmptyWindow else s) := by
  change execEmptyWindowEnd s = _
  rw [execEmptyWindowEnd, unit]

theorem BusUnit.canEmpty_iff (b : BusUnit) : b.canEmpty = true ↔
    b.unit = .following ∧ b.phase = some .claiming ∧ b.window ≠ .due ∧ b.claim = none := by
  rw [BusUnit.canEmpty, Bool.and_eq_true, Bool.and_eq_true, Bool.and_eq_true, beq_iff_eq, beq_iff_eq, bne_iff_ne, beq_iff_eq,
    and_assoc, and_assoc]

theorem State.takeMark_elsewhere {s : State} (n : Nat) (phase : s.bus.phase ≠ some .claiming) : s.takeMark n = s := if_neg phase

/-- Settles O48: by the state of the unit, and of the window at a FOLLOWING one. -/
theorem marksBringTheUnitInStep : Obligations.MarksBringTheUnitInStep := by
  intro s n
  refine ⟨fun seeking => ?_, fun unit phase => ?_, fun off => ?_⟩
  · have mark : exec (.windowMark n) s = .next (if 11 ≤ n then { s with bus := s.bus.follow .counting 0 } else s) := by
      change execWindowMark n s = _
      rw [execWindowMark, seeking]
      rfl
    have empty : exec .emptyWindowEnd s = .next { s with bus := s.bus.follow .due emptyPositions } := by
      change execEmptyWindowEnd s = _
      rw [execEmptyWindowEnd, seeking]
    rw [mark]
    exact ⟨empty, fun long => congrArg _ (if_pos long), fun short => congrArg _ (if_neg (not_le.mpr short))⟩
  · rw [exec_windowMark_following n unit, exec_emptyWindowEnd_following unit, State.takeMark, if_pos phase]
    have unempty (h : ¬(s.bus.window ≠ .due ∧ s.bus.claim = none)) : ¬s.bus.canEmpty = true := by
      rw [BusUnit.canEmpty_iff]
      exact fun can => h can.2.2
    refine ⟨fun quiet long => ?_, fun quiet short => ?_, fun counting lt => ?_, fun counting long => ?_, fun due => ?_,
      fun m none last => ?_, fun claimed => congrArg _ (if_neg (unempty fun h => claimed h.2))⟩
    · rw [quiet]
      exact congrArg _ (if_pos long)
    · rw [quiet]
      exact congrArg _ (if_neg (not_le.mpr short))
    · rw [counting]
      exact congrArg _ (dif_pos lt)
    · rw [counting]
      exact congrArg _ (dif_neg (not_lt.mpr long))
    · rw [due]
      exact ⟨rfl, congrArg _ (if_neg (unempty fun h => h.1 due))⟩
    · have length : s.bus.window.length = m ∧ s.bus.window ≠ .due := by
        obtain ⟨window, rfl⟩ | ⟨window, rfl⟩ := last
        · rw [window]; exact ⟨rfl, nofun⟩
        · rw [window]; exact ⟨rfl, nofun⟩
      rw [if_pos ((BusUnit.canEmpty_iff _).mpr ⟨unit, phase, length.2, none⟩), State.endEmptyWindow, length.1]
      exact ⟨fun other => congrArg _ (if_neg other), fun listening => congrArg _ (if_pos listening)⟩
  · obtain off | ⟨unit, phase⟩ := off
    · refine ⟨?_, ?_⟩
      · change execWindowMark n s = _
        rw [execWindowMark, off]
      · change execEmptyWindowEnd s = _
        rw [execEmptyWindowEnd, off]
    · rw [exec_windowMark_following n unit, exec_emptyWindowEnd_following unit, State.takeMark_elsewhere n phase]
      exact ⟨rfl, congrArg _ (if_neg (by rw [BusUnit.canEmpty_iff]; exact fun h => phase h.2.1))⟩

/-! ### Continuations and break fields (R101, R103, R104) -/

/-- Settles O49. -/
theorem continuationsAndBreakFields : Obligations.ContinuationsAndBreakFields := by
  intro s unit
  refine ⟨fun owner c hasOwner hasClass phase => ?_, fun breaking => ?_⟩
  · have can : s.bus.canContinue = true := by
      rw [BusUnit.canContinue, unit]
      obtain phase | ⟨phase, free⟩ := phase
      · rw [phase]
        rfl
      · rw [phase, free]
        rfl
    change execContinuation s = _
    rw [execContinuation, hasOwner, hasClass]
    refine congrArg Host.Outcome.next ((if_pos can).trans ?_)
    rw [State.continueRun, BusUnit.beginFrame, ← hasOwner, ← hasClass]
    rfl
  · have field : exec .breakField s = .next { s.breakRun with bus := s.breakRun.bus.awaitWindow } :=
      congrArg Host.Outcome.next (if_pos ⟨unit, breaking⟩)
    rw [field, State.breakRun]
    refine ⟨fun none => ?_, fun r j run held => ?_⟩
    · rw [none]
      simp only [BusUnit.awaitWindow, none]
    · rw [run]
      dsimp only
      rw [State.endRun, CatchUp.modifyJob, held]
      rfl

/-! ### The run length (R103, R104, R150, R151) -/

theorem CatchUp.following_ring {c : CatchUp} {before after : List JobIx} {k : JobIx} (ring : c.ring = before ++ k :: after)
    (fresh : k ∉ before) : some (c.following k) = (after ++ before ++ [k]).head? := by
  rw [CatchUp.following, c.ringFrom_split before after k ring fresh, List.cons_append, List.getD_cons_succ]
  cases after ++ before <;> rfl

/-- What an ending leaves of the run's job. -/
theorem State.endRun_job {s : State} {k : JobIx} {j : Job} (held : s.catchup.jobs[k] = some j) (e : Ending) :
    (s.endRun k e).catchup.jobs[k] = some { j with e := stepE s.runMin s.runMax j.e e } := by
  have stepped : (s.catchup.modifyJob k fun j => { j with e := stepE s.runMin s.runMax j.e e }).jobs[k] =
      some { j with e := stepE s.runMin s.runMax j.e e } := by
    rw [CatchUp.modifyJob_jobs, if_pos rfl, held]
    rfl
  cases e with
  | broken => exact stepped
  | full => exact stepped
  | dry => exact stepped
  | completed => exact held
  | dropped => exact held

theorem State.runEnding_job {s : State} {run : CopyRun} {j : Job} (held : s.catchup.jobs[run.job] = some j) (here : run.gone = none) :
    s.runEnding run = if j.e ≤ run.count then some .full else if j.buffer.isEmpty then some .dry
      else if s.runMin ≤ run.count && s.urgentPending then some .broken else none := by
  rw [State.runEnding, here, held]

theorem State.urgentPending_iff (s : State) : s.urgentPending = true ↔ (s.join.station = .joined ∨ s.join.station = .leaving) ∧
    ((∃ x, s.rosterDue = some x) ∨ (∃ (g : Segment) (i : StallItem), s.catchup.monitors[g].stall = some i) ∨
      (s.join.station = .leaving ∧ s.out = [] ∧ s.commit.state.pending = false) ∨
      (∃ e rest, s.gives = e :: rest ∧ e.state = .ready) ∨
      (∃ e ∈ s.repair, ∃ asks rejections of, e.state = .asking .toAsk asks rejections of) ∨ s.out ≠ []) := by
  rw [State.urgentPending, Bool.and_eq_true, State.inGroup, Bool.or_eq_true, beq_iff_eq, beq_iff_eq, State.urgentItem_isSome,
    Option.isSome_iff_exists, State.stallDue_isSome, State.leaveDue_iff, State.giveDue_iff, State.askDue_isSome]
  simp only [RepairEntry.toAsk_iff]

/-- Settles O50: the endings one by one, the items pending, and the break-in. -/
theorem runLengthFollowsTheEnding : Obligations.RunLengthFollowsTheEnding := by
  refine ⟨fun s k j held => ⟨State.endRun_job held .broken, State.endRun_job held .full, State.endRun_job held .dry, rfl, rfl,
    fun before after ring fresh e => ?token, fun e j' low high after => ?range, fun n => rfl, fun run job => ?ending⟩,
    State.urgentPending_iff, fun s e accepted peer => ?breakIn⟩
  case token =>
    have moves (e : Ending) : some ((s.catchup.modifyJob k fun j => { j with e := stepE s.runMin s.runMax j.e e }).following k) =
        (after ++ before ++ [k]).head? := CatchUp.following_ring ring fresh
    cases e with
    | full => exact ⟨rfl, fun _ => moves .full, fun h => absurd rfl h⟩
    | dry => exact ⟨rfl, fun _ => moves .dry, fun _ h => absurd rfl h⟩
    | broken => exact ⟨rfl, fun h => h.elim nofun nofun, fun _ _ => rfl⟩
    | completed => exact ⟨rfl, fun h => h.elim nofun nofun, fun _ _ => rfl⟩
    | dropped => exact ⟨rfl, fun h => h.elim nofun nofun, fun _ _ => rfl⟩
  case range =>
    rw [State.endRun_job held e] at after
    cases after
    change s.rep.field 11 ≤ stepE s.runMin s.runMax j.e e ∧ stepE s.runMin s.runMax j.e e ≤ s.rep.field 12
    have min' : s.runMin = s.rep.field 11 := rfl
    have max' : s.runMax = s.rep.field 12 := rfl
    cases e <;> rw [stepE] <;> omega
  case ending =>
    subst job
    refine ⟨fun e gone => ?_, fun here => ?_⟩
    · rw [State.runEnding, gone]
    · rw [State.runEnding_job held here]
      refine ⟨fun full => if_pos full, fun short empty => ?_, fun short lines => ?_⟩
      · rw [if_neg (not_le.mpr short), empty]
        rfl
      · rw [if_neg (not_le.mpr short), if_neg (by rw [List.isEmpty_iff]; exact lines)]
        simp only [Bool.and_eq_true, decide_eq_true_iff]
        rfl
  case breakIn =>
    rw [State.afterFrame, peer]
    change (e.open && s.urgentPending) = _
    rw [Ended.open, peer, Bool.and_comm]
    cases e.frame <;> rfl

/-! ### Groups at a receiver (R61, R79 to R81) -/

theorem State.takeUpdate_plain {s : State} {v : View} {f : Frame} (position : f.header.gpos = gposNone) :
    s.takeUpdate v f = State.enterWrites { s with group := none } (if v.isMember s.me f.segment then [f.updateWrite] else []) :=
  if_pos position

theorem State.takeUpdate_group {s : State} {v : View} {f : Frame} (position : f.header.gpos ≠ gposNone) {record : List LineWrite}
    (written : record = if v.isMember s.me f.segment then [f.updateWrite] else []) {b : Option GroupBuffer} {ws : List LineWrite}
    (taken : takeGroupFrame s.group f record = (b, ws)) :
    (s.takeUpdate v f).group = b ∧ (s.takeUpdate v f).sp.applyList = s.sp.applyList ++ ws := by
  have entered : s.takeUpdate v f = State.enterWrites { s with group := b } ws := by
    rw [State.takeUpdate]
    dsimp only
    rw [if_neg position, ← written, taken]
  rw [entered]
  exact ⟨rfl, rfl⟩

/-- A frame that neither opens a group nor is one alone, by the buffer it finds. -/
theorem takeGroupFrame_later {b : Option GroupBuffer} {f : Frame} {record : List LineWrite}
    (position : f.header.gpos = gposMiddle ∨ f.header.gpos = gposLast) : takeGroupFrame b f record = match b with
      | none => (none, [])
      | some b =>
        if b.sender = f.sender ∧ b.length = f.groupLength then
          if f.header.gpos = gposMiddle ∧ b.taken + 1 < b.length then
            (some { b with taken := b.taken + 1, lines := b.lines ++ record }, [])
          else if f.header.gpos = gposLast ∧ b.taken + 1 = b.length then (none, b.lines ++ record)
          else (none, [])
        else (none, []) := by
  rw [takeGroupFrame.eq_def]
  obtain h | h := position
  · rw [h, if_neg (by decide), if_neg (by decide)] <;> rfl
  · rw [h, if_neg (by decide), if_neg (by decide)] <;> rfl

/-- Settles O52, by the group position and the buffer. -/
theorem groupsAreCollectedWhole : Obligations.GroupsAreCollectedWhole := by
  intro s v f record written
  have apply {b : Option GroupBuffer} (position : f.header.gpos ≠ gposNone) (taken : takeGroupFrame s.group f record = (b, [])) :
      (s.takeUpdate v f).group = b ∧ (s.takeUpdate v f).sp.applyList = s.sp.applyList := by
    obtain ⟨group, list⟩ := State.takeUpdate_group position written taken
    exact ⟨group, list.trans (List.append_nil _)⟩
  have ne {p : BitVec 3} (position : f.header.gpos = p) (other : p ≠ gposNone) : f.header.gpos ≠ gposNone := position ▸ other
  have later (position : f.header.gpos = gposMiddle ∨ f.header.gpos = gposLast) : f.header.gpos ≠ gposNone :=
    position.elim (ne · (by decide)) (ne · (by decide))
  refine ⟨fun plain => ?_, fun first => apply (ne first (by decide)) (if_pos first), fun single => ?_,
    fun b collecting sender length => ⟨fun middle more => ?_, fun last whole => ?_, fun wrong => ?_⟩, fun position other => ?_⟩
  · rw [State.takeUpdate_plain plain, ← written]
    exact ⟨rfl, rfl⟩
  · refine State.takeUpdate_group (ne single (by decide)) written ?_
    rw [takeGroupFrame.eq_def, single, if_neg (by decide), if_pos rfl]
  · refine apply (later (.inl middle)) ?_
    rw [takeGroupFrame_later (.inl middle), collecting]
    exact (if_pos ⟨sender, length⟩).trans (if_pos ⟨middle, more⟩)
  · refine State.takeUpdate_group (later (.inr last)) written ?_
    rw [takeGroupFrame_later (.inr last), collecting]
    refine (if_pos ⟨sender, length⟩).trans ((if_neg ?_).trans (if_pos ⟨last, whole⟩))
    rw [last]
    exact fun h => absurd h.1 (by decide)
  · have position : f.header.gpos = gposMiddle ∨ f.header.gpos = gposLast := wrong.imp And.left And.left
    refine apply (later position) ?_
    rw [takeGroupFrame_later position, collecting]
    refine (if_pos ⟨sender, length⟩).trans ((if_neg ?_).trans (if_neg ?_))
    · obtain ⟨-, full⟩ | ⟨last, -⟩ := wrong
      · exact fun h => absurd h.2 (not_lt.mpr full)
      · rw [last]
        exact fun h => absurd h.1 (by decide)
    · obtain ⟨middle, -⟩ | ⟨-, short⟩ := wrong
      · rw [middle]
        exact fun h => absurd h.1 (by decide)
      · exact fun h => short h.2
  · refine apply (later position) ?_
    rw [takeGroupFrame_later position]
    cases collecting : s.group with
    | none => rfl
    | some b => exact if_neg fun h => (other b collecting).elim (absurd h.1) (absurd h.2)

end Sys2Proof.Machine
end

section
/-! The claim window: its opening, with the judgement of the items, and its resolution, with the composition of the frame (R75, R88
to R92, R101, R102, R150, R158, R172). -/

namespace Sys2Proof.Machine

/-! ### The judgement of the items at an opening (R75, R150, R158, R172) -/

theorem Monitor.judgeStall_eq (m : Monitor) (server : Option Station) : m.judgeStall server =
    { m with stall := m.stall.filter fun i => server == some i.server } := by
  obtain ⟨running, count, stall⟩ := m
  unfold Monitor.judgeStall
  cases stall with
  | none => rfl
  | some i =>
    dsimp only
    rw [Option.filter_some]
    by_cases same : server = some i.server
    · rw [if_pos same, if_pos (beq_iff_eq.mpr same)]
    · rw [if_neg same, if_neg (by rw [beq_iff_eq]; exact same)]

/-- What the judgement removes from the front of the give queue: READY heads whose asker or responder has gone. -/
theorem giveJudge_dropped (v : View) (me : Station) (xs : List GiveEntry) :
    (∃ dropped, xs = dropped ++ giveJudge v me xs ∧
      ∀ e ∈ dropped, e.state = .ready ∧ (v.present e.asker = false ∨ v.repairResponder e.asker e.segment ≠ some me)) ∧
    ∀ e rest, giveJudge v me xs = e :: rest → e.state = .ready →
      v.present e.asker = true ∧ v.repairResponder e.asker e.segment = some me := by
  refine ⟨⟨_, List.takeWhile_append_dropWhile.symm, fun e mem => ?_⟩, fun e rest left ready => ?_⟩
  · have goes := List.mem_takeWhile_imp mem
    rw [Bool.and_eq_true, beq_iff_eq, Bool.or_eq_true, Bool.not_eq_true', bne_iff_ne] at goes
    exact goes
  · have stays := List.head?_dropWhile_not (fun e : GiveEntry =>
      e.state == .ready && (!v.present e.asker || v.repairResponder e.asker e.segment != some me)) xs
    unfold giveJudge at left
    rw [left] at stays
    change (e.state == .ready && (!v.present e.asker || v.repairResponder e.asker e.segment != some me)) = false at stays
    rw [ready, beq_self_eq_true, Bool.true_and, Bool.or_eq_false_iff, Bool.not_eq_false', bne_eq_false_iff_eq] at stays
    exact stays

/-- The judgement of a GROUP head moves the queue, the commit state and the flags alone. -/
theorem State.judgeGroupHead_frame (s : State) : s.judgeGroupHead = { s with
    out := s.judgeGroupHead.out
    commit := { s.commit with state := s.judgeGroupHead.commit.state }
    rep := { s.rep with flags := s.judgeGroupHead.rep.flags } } := by
  unfold State.judgeGroupHead
  repeat' split
  all_goals rfl

theorem State.judgeGroupHead_fails {s : State} {hd r : RecordIx} {n a : Nat} {rest : List OutEntry} {before after : List RecordIx}
    (out : s.out = ⟨.group hd n, .waiting, a⟩ :: rest) (chain : chainFrom s.commit.staging n hd = before ++ r :: after)
    (first : ∀ q ∈ before, s.writable (segmentOf s.commit.staging[q].line) = true)
    (fails : s.writable (segmentOf s.commit.staging[r].line) = false) :
    s.judgeGroupHead = State.failChain { s with out := rest } .chainAborted r := by
  have found : (s.commit.chain hd n).find? (fun r => !s.writable (segmentOf s.commit.staging[r].line)) = some r := by
    rw [Commit.chain, chain, List.find?_append, List.find?_eq_none.mpr fun q mem => by rw [first q mem]; exact Bool.false_ne_true,
      Option.none_or]
    exact List.find?_cons_of_pos (by rw [fails]; rfl)
  rw [State.judgeGroupHead, out]
  dsimp only
  rw [found]

theorem State.judgeGroupHead_stays {s : State} (writable : ∀ hd n a rest, s.out = ⟨.group hd n, .waiting, a⟩ :: rest →
    ∀ r ∈ chainFrom s.commit.staging n hd, s.writable (segmentOf s.commit.staging[r].line) = true) : s.judgeGroupHead = s := by
  unfold State.judgeGroupHead
  split
  next hd n a rest out =>
    have none : (s.commit.chain hd n).find? (fun r => !s.writable (segmentOf s.commit.staging[r].line)) = .none :=
      List.find?_eq_none.mpr fun r mem => by rw [writable hd n a rest out r mem]; exact Bool.false_ne_true
    rw [none]
  · rfl

theorem State.moveToken_eq (s : State) : s.moveToken = { s with
    catchup := { s.catchup with
      token := s.catchup.token.map fun k => ((s.catchup.ringFrom k).find? s.jobReady).getD k } } := by
  unfold State.moveToken
  cases token : s.catchup.token with
  | none =>
    rw [Option.map_none]
    dsimp only
    rw [← token]
  | some k =>
    dsimp only
    rw [Option.map_some]
    cases (s.catchup.ringFrom k).find? s.jobReady with
    | some => rfl
    | none =>
      rw [Option.getD_none, ← token]

/-- The state in which the GROUP head is judged at an opening. -/
def State.itemsJudged (s : State) (v : View) : State := { s.judgeStalls with gives := giveJudge v s.me s.gives }

theorem State.judgeItems_view {s : State} {v : View} (view : s.heldView = some v) :
    s.judgeItems = (s.itemsJudged v).judgeGroupHead.moveToken := by
  rw [State.judgeItems, view]
  rfl

theorem State.itemsJudged_monitor (s : State) (v : View) (g : Segment) : (s.itemsJudged v).catchup.monitors[g] =
    { s.catchup.monitors[g] with stall := s.catchup.monitors[g].stall.filter fun i => s.ownServer g == some i.server } :=
  (CatchUp.mapMonitors_get _ _ g).trans (Monitor.judgeStall_eq _ _)

/-- The state after the items' judgement and the claim's choice, before a held write is re-taken. -/
def State.opened (s : State) : State :=
  { State.judgeItems { s with bus := s.bus.openWindow } with
    bus := { (State.judgeItems { s with bus := s.bus.openWindow }).bus with
      claim := (State.judgeItems { s with bus := s.bus.openWindow }).chosenItem } }

theorem State.openWindow_eq (s : State) : s.openWindow = s.opened.retake .queueWait := rfl

/-- Settles O46: the judgement of the items part by part. -/
theorem openingChoosesTheClaim : Obligations.OpeningChoosesTheClaim := by
  intro s unit free phase
  have can : s.bus.windowCanOpen = true := by
    rw [BusUnit.windowCanOpen, unit]
    obtain ⟨claiming, due⟩ | ⟨continuing, next⟩ | ⟨breaking, next, breakIn⟩ := phase
    · rw [claiming, due]; rfl
    · rw [continuing, next]; rfl
    · rw [breaking, next, breakIn]; rfl
  have opening : exec .claimWindowOpening s = .next s.openWindow.settle := congrArg _ (if_pos can)
  obtain ⟨x, hx⟩ : ∃ x : State, x = { s with bus := s.bus.openWindow } := ⟨_, rfl⟩
  obtain ⟨y, hy⟩ : ∃ y : State, y = x.judgeItems := ⟨_, rfl⟩
  have opened : s.opened = { y with bus := { y.bus with claim := y.chosenItem } } := by rw [hy, hx]; rfl
  have chosen : s.opened.chosenItem = y.chosenItem := by rw [opened]; rfl
  have view : x.heldView = s.heldView := by rw [hx]; rfl
  have kept : s.openWindow = s.opened ∧ y.bus = x.bus ∧ y.port = x.port := by
    have same : y.bus = x.bus ∧ y.port = x.port := by
      rw [hy]
      cases held : x.heldView with
      | none =>
        rw [State.judgeItems, held]
        exact ⟨rfl, rfl⟩
      | some v =>
        rw [State.judgeItems_view held, State.moveToken_eq, State.judgeGroupHead_frame]
        exact ⟨rfl, rfl⟩
    refine ⟨?_, same⟩
    rw [State.openWindow_eq]
    refine State.retake_other _ _ fun r request => free r ?_
    rw [opened] at request
    have port : y.port = s.port := same.2.trans (by rw [hx])
    exact port ▸ request
  obtain ⟨taken, bus, -⟩ := kept
  have claimed : s.openWindow.bus = { s.bus with
      phase := some .claiming, window := .quiet, positions := 0, owner := none, cls := none, run := .none, next := none,
      copyRun := none, breakIn := false, claim := s.openWindow.chosenItem } := by
    rw [taken, chosen, opened]
    change { y.bus with claim := y.chosenItem } = _
    rw [bus, hx]
    rfl
  refine ⟨s.openWindow, _, opening, State.settle_settled _, claimed, fun noView => ?_, fun v held => ?_⟩
  · have same : y = x := by
      rw [hy, State.judgeItems, view, noView]
    rw [taken, opened, same, hx]
  · have heldX : x.heldView = some v := view.trans held
    obtain ⟨z, hz⟩ : ∃ z : State, z = x.itemsJudged v := ⟨_, rfl⟩
    have judged : y = z.judgeGroupHead.moveToken := by rw [hy, State.judgeItems_view heldX, hz]
    have moved : y = { z.judgeGroupHead with catchup := { z.judgeGroupHead.catchup with
        token := z.judgeGroupHead.catchup.token.map fun k =>
          ((z.judgeGroupHead.catchup.ringFrom k).find? z.judgeGroupHead.jobReady).getD k } } := judged.trans (State.moveToken_eq _)
    have head := z.judgeGroupHead_frame
    have rest {α : Type} (f : State → α) : f z.judgeGroupHead = f { z with
        out := z.judgeGroupHead.out, commit := { z.commit with state := z.judgeGroupHead.commit.state },
        rep := { z.rep with flags := z.judgeGroupHead.rep.flags } } := congrArg f head
    have frame : y = { z with
        out := z.judgeGroupHead.out, commit := { z.commit with state := z.judgeGroupHead.commit.state },
        rep := { z.rep with flags := z.judgeGroupHead.rep.flags },
        catchup := { z.catchup with
          token := z.catchup.token.map fun k => ((z.catchup.ringFrom k).find? z.judgeGroupHead.jobReady).getD k } } := by
      rw [moved]
      exact rest fun u => ({ u with catchup := { u.catchup with
        token := u.catchup.token.map fun k => ((u.catchup.ringFrom k).find? z.judgeGroupHead.jobReady).getD k } } : State)
    have ready : z.judgeGroupHead.jobReady = s.jobReady := by
      refine (rest State.jobReady).trans ?_
      rw [hz, hx]
      rfl
    have out : z.out = s.out := by rw [hz, hx]; rfl
    have commit : z.commit = s.commit := by rw [hz, hx]; rfl
    have rep : z.rep = s.rep := by rw [hz, hx]; rfl
    have writable (g : Segment) : z.writable g = s.writable g := by rw [hz, hx]; rfl
    rw [taken, opened, frame, ready]
    obtain ⟨dropped, left⟩ := giveJudge_dropped v s.me s.gives
    have gives : z.gives = giveJudge v s.me s.gives := by rw [hz, hx]; rfl
    refine ⟨?_, fun g => ?_, ?_, ?_, fun hd n a tail queue before r after chain first fails => ?_, fun all => ?_, ?_, ?_, ?_⟩
    · rw [hz, hx]
      rfl
    · change z.catchup.monitors[g] = _
      have server : x.ownServer g = v.server s.me g := by
        rw [State.ownServer, heldX, hx]
        rfl
      rw [hz, State.itemsJudged_monitor, server, hx]
    · change ∃ dropped, s.gives = dropped ++ z.gives ∧ _
      rw [gives]
      exact dropped
    · change ∀ e rest, z.gives = e :: rest → _
      rw [gives]
      exact left
    · have failed : z.judgeGroupHead = State.failChain { z with out := tail } .chainAborted r :=
        State.judgeGroupHead_fails (out.trans queue) (by rw [commit]; exact chain)
          (by simp only [commit, writable]; exact first) (by rw [commit, writable]; exact fails)
      change z.judgeGroupHead.out = _ ∧ z.judgeGroupHead.commit.state = _ ∧ z.judgeGroupHead.rep.flags = _
      rw [failed, ← rep]
      exact ⟨rfl, rfl, rfl⟩
    · have stays : z.judgeGroupHead = z := State.judgeGroupHead_stays (by rw [out, commit]; simp only [writable]; exact all)
      rw [stays]
      exact ⟨out, commit, rep⟩
    · rw [hz, hx]
      rfl
    · rw [hz, hx]
      rfl
    · rw [hz, hx]
      rfl

/-! ### The claim resolved, and the composition (R88 to R92, R101, R102) -/

theorem State.canResolve_iff {s : State} {p : Nat} (unit : s.bus.unit = .following) (phase : s.bus.phase = some .claiming)
    (window : s.bus.window = .counting) : s.canResolve p = true ↔ ∀ q, s.ownPosition = some q → p ≤ q := by
  rw [State.canResolve, unit, phase, window]
  change s.ownPosition.all (fun q => decide (p ≤ q)) = true ↔ _
  rw [Option.all_eq_true]
  simp only [decide_eq_true_iff]

/-- The frame of the resolution begins, with or without a frame of this station's own. -/
def State.frameBegun (s : State) (p : Fin 64) (owner : Station) (c : Fin 4) (own : Option InFlight) : State :=
  { s with bus := (s.bus.countTo p.val).beginFrame owner c (runAtClaim owner c) own }

theorem State.resolveClaim_heard {s : State} {p : Fin 64} {owner : Station} {c : Fin 4} (stands : stationAt p s.lastWinner = owner)
    (cls : classAt p = c) (lost : ∀ i, s.bus.claim = some i → s.ownPosition ≠ some p.val) :
    s.resolveClaim p = s.frameBegun p owner c none := by
  unfold State.resolveClaim
  rw [stands, cls]
  dsimp only
  split
  · rfl
  · next i claim => exact if_neg (lost i claim)

theorem State.resolveClaim_won {s u : State} {p : Fin 64} {owner : Station} {c : Fin 4} {i : Item} {f : Frame}
    (stands : stationAt p s.lastWinner = owner) (cls : classAt p = c) (claim : s.bus.claim = some i)
    (won : s.ownPosition = some p.val) (composed : s.compose i = some (f, u)) :
    s.resolveClaim p = u.frameBegun p owner c (some ⟨i, f⟩) := by
  unfold State.resolveClaim
  rw [stands, cls, claim]
  dsimp only
  rw [if_pos won, composed]
  rfl

theorem State.sendAsk_toAsk {s : State} {before after : List RepairEntry} {e : RepairEntry} {asks rejections : Nat}
    {of : Option Station} (list : s.repair = before ++ e :: after) (others : ∀ x ∈ before ++ after, x.line ≠ e.line)
    (toAsk : e.state = .asking .toAsk asks rejections of) : s.sendAsk e.line = some (composeAsk s.me e,
      { s with repair := before ++ { e with state := .asking .inFlight asks rejections of } :: after }) := by
  rw [State.sendAsk, list, repairFor_split before after e e.line rfl others, Option.bind_some, toAsk]
  dsimp only
  rw [repairMap_split before after e e.line rfl others]

/-- The first record's frame of a chain is composed of its head. -/
theorem State.groupFrame_head (s : State) {head : RecordIx} {count : Nat} (some' : 1 ≤ count) : s.groupFrame head count 0 =
    composeUpdate s.me s.commit.staging[head].line s.commit.staging[head].mask s.commit.staging[head].data
      (if count = 1 then gposSingle else gposFirst) count := by
  obtain ⟨n, rfl⟩ := Nat.exists_eq_add_of_le' some'
  rfl

/-- Settles O47: the resolution by this station's own position, and the items' composition. -/
theorem claimResolvedBeginsTheFrame : Obligations.ClaimResolvedBeginsTheFrame := by
  intro s p owner c unit phase window distance class'
  have stands : stationAt p s.lastWinner = owner := Fin.ext distance.symm
  have cls : classAt p = c := Fin.ext class'.symm
  have position {i : Item} (claim : s.bus.claim = some i) :
      s.ownPosition = some (16 * i.cls.val + (s.me.val + 31 - s.lastWinner.val) % 16) := by
    rw [State.ownPosition, claim]
    rfl
  have resolves (can : ∀ q, s.ownPosition = some q → p.val ≤ q) : exec (.claimResolved p) s = .next (s.resolveClaim p) :=
    congrArg Host.Outcome.next (if_pos ((State.canResolve_iff unit phase window).mpr can))
  refine ⟨fun b own run => rfl, fun later => ?_, fun i claim earlier => ?_, fun i claim here f u composed => ?_, rfl, rfl, rfl,
    fun x v view => ?_, fun g i stall => ?_, fun e rest gives => ?_, fun before e after asks rejections of list absent absent' toAsk =>
      State.sendAsk_toAsk list (fun x mem => (List.mem_append.mp mem).elim (absent x) (absent' x)) toAsk,
    fun g l m d mark st n rest out => ?_, fun head count st n rest out some' => ?_, fun k j token held => ?_⟩
  · have after (q : Nat) (own : s.ownPosition = some q) : p.val < q := by
      cases claim : s.bus.claim with
      | none =>
        rw [State.ownPosition, claim] at own
        cases own
      | some i =>
        rw [position claim] at own
        exact Option.some.inj own ▸ later i claim
    rw [resolves fun q own => (after q own).le,
      State.resolveClaim_heard stands cls fun i _ own => absurd (after p.val own) (Nat.lt_irrefl _)]
    rfl
  · refine congrArg Host.Outcome.next (if_neg ?_)
    rw [State.canResolve_iff unit phase window]
    exact fun all => absurd (all _ (position claim)) (not_le.mpr earlier)
  · have own := (position claim).trans (congrArg some here)
    rw [resolves fun q h => (Option.some.inj (own.symm.trans h)).le, State.resolveClaim_won stands cls claim own composed]
    rfl
  · rw [State.compose, view]
    rfl
  · rw [State.compose, stall]
    rfl
  · rw [State.compose, State.sendGive, gives]
  · rw [State.compose, State.sendOutbound, out]
    rfl
  · rw [State.compose, State.sendOutbound, out, ← s.groupFrame_head some']
  · rw [State.compose, State.sendCopy, token, Option.bind_some, held]
    rfl

end Sys2Proof.Machine
end


section
/-! SUPPORT. The frame end at a station that holds a view, cut at its parts; and the limits (O54). -/

namespace Sys2Proof.Machine

/-- A state with the slot driven. -/
def State.driven (s : State) (slot : SlotDrive) : State := { s with bus := { s.bus with slot := some slot } }

/-- What the bus unit does behind the end field. -/
def State.closeFrame (s : State) (c : Fin 4) : State := { s with bus := s.bus.endFrame c (s.join.station == .joined) }

/-- The frame at whose end a station stands that did not send it. -/
def State.endedPeer (s : State) (f : Option Frame) (owner : Station) (c : Fin 4) (slots : Slots) : Ended :=
  ⟨owner, c, f, none, s.judgeFrame f owner c, slots⟩

theorem State.ended_peer (s : State) (owner : Station) (c : Fin 4) (heard : Option Heard) (slots : Slots)
    (h : s.bus.inFlight = none) : s.ended owner c heard slots = s.endedPeer (heard.bind readFrame) owner c slots := by
  unfold State.ended
  rw [h]
  rfl

theorem State.ended_own (s : State) (owner : Station) (c : Fin 4) (heard : Option Heard) (slots : Slots) (i : InFlight)
    (h : s.bus.inFlight = some i) :
    s.ended owner c heard slots = ⟨owner, c, some i.frame, some i, Judgement.sound, slots⟩ := by
  unfold State.ended
  rw [h]

theorem State.frameEnd_inFrame (s : State) (owner : Station) (c : Fin 4) (heard : Option Heard) (slots : Slots)
    (h : InFrame s owner c) : s.frameEnd heard slots = s.endFrame (s.ended owner c heard slots) := by
  obtain ⟨hu, hp, ho, hc⟩ := h
  unfold State.frameEnd
  rw [hu, hp, ho, hc]

theorem State.driveSlot_own (s : State) (e : Ended) (i : InFlight) (h : e.own = some i) : s.driveSlot e = s := by
  unfold State.driveSlot
  rw [h]
  rfl

/-- A frame that passes the checks is acknowledged. -/
theorem State.driveSlot_sound (s : State) (e : Ended) (hv : s.validates = true) (ho : e.own = none)
    (hm : e.judged.marks = false) : s.driveSlot e = s.driven .ack := by
  obtain ⟨_, _, hd, _⟩ := Judgement.parts hm
  unfold State.driveSlot
  rw [ho, hv, hm, hd]
  rfl

/-- A marked frame is rejected, and a duplicate logged. -/
theorem State.driveSlot_marked (s : State) (e : Ended) (hv : s.validates = true) (ho : e.own = none)
    (hm : e.judged.marks = true) : s.driveSlot e = if e.judged.duplicate then
      (s.driven .reject).raise (busEntry .duplicateNumber none none (some s.me) e.cls.val) else s.driven .reject := by
  unfold State.driveSlot
  rw [ho, hv, hm]
  rfl

theorem State.driveSlot_quietBus (s : State) (e : Ended) : (s.driveSlot e).heldView = s.heldView :=
  (State.driveSlot_mild s e).heldView

theorem State.validates_of_heldView {s : State} {v : View} (h : s.heldView = some v) : s.validates = true := by
  obtain ⟨_, hg⟩ := State.view_of_heldView h
  unfold State.validates
  rw [hg]
  rfl

/-- The end of a frame at a station that holds a view. -/
theorem State.endFrame_withView (s : State) (v : View) (e : Ended) (hv : s.heldView = some v) :
    s.endFrame e = State.settle (((s.driveSlot e).endWithView v e).closeFrame e.cls) := by
  have held : (s.driveSlot e).heldView = some v := (State.driveSlot_quietBus s e).trans hv
  unfold State.endFrame
  dsimp only
  rw [held]
  rfl

theorem View.accepts_eq_false (v : View) (sl : Slots) (h : ∃ x, v.present x = true ∧ rejectSlot sl x = true) :
    v.accepts sl = false := by
  obtain ⟨x, hx, hr⟩ := h
  rw [← Bool.not_eq_true, View.accepts_iff]
  intro h
  rw [h x hx] at hr
  cases hr

/-- A peer's frame that is accepted and was read whole. -/
theorem State.endWithView_taken (s : State) (v : View) (e : Ended) (f : Frame) (ha : v.accepts e.slots = true)
    (ho : e.own = none) (hf : e.frame = some f) (hu : e.judged.unreadable = false) :
    s.endWithView v e = State.conclude s (s.takePeerFrame v f) e (f.viewEffect v) v true false := by
  unfold State.endWithView
  rw [ha, ho, hf, hu]
  rfl

/-- A peer's frame that is rejected. -/
theorem State.endWithView_rejected (s : State) (v : View) (e : Ended) (ha : v.accepts e.slots = false)
    (ho : e.own = none) : s.endWithView v e = State.conclude s s e v v false false := by
  unfold State.endWithView
  rw [ha, ho]
  rfl

theorem Judgement.unreadable_of_sound {j : Judgement} (h : j.marks = false) : j.unreadable = false := by
  obtain ⟨h1, h2, _, _⟩ := Judgement.parts h
  unfold Judgement.unreadable
  rw [h1, h2]
  rfl

/-! ### The limits -/

/-- A frame of these kinds changes nothing of the view and logs nothing. -/
theorem State.takePeerFrame_plain (s : State) (v : View) (f : Frame) (k : FrameKind) (hk : f.kind? = some k)
    (h : k ∈ [FrameKind.update, .ask, .empty]) : f.viewEffect v = v ∧ (s.takePeerFrame v f).rep = s.rep := by
  unfold Frame.viewEffect State.takePeerFrame
  simp only [List.mem_cons, List.not_mem_nil, or_false] at h
  rcases h with rfl | rfl | rfl
  · rw [hk]
    refine ⟨rfl, ?_⟩
    dsimp only
    unfold State.takeUpdate
    dsimp only
    split_ifs <;> rfl
  · rw [hk]
    refine ⟨rfl, ?_⟩
    dsimp only
    unfold State.takeAsk
    split_ifs <;> rfl
  · rw [hk]
    exact ⟨rfl, rfl⟩

/-- The counts of the stations present in the view of the frame. -/
theorem View.member_countAccepted_self (v : View) (o x : Station) (sl : Slots) (m : Member) (h : v.member x = some m) :
    (v.countAccepted v o sl).member x = some
      (if x = o ∨ (ackSlot sl x = true ∧ rejectSlot sl x = false) then { m with miss := 0, reject := 0 }
        else { m with miss := m.miss + 1 }) := by
  have hp : v.present x = true := by
    unfold View.present
    rw [h]
    rfl
  have hc : (x == o || droveAck sl x) = true ↔ x = o ∨ (ackSlot sl x = true ∧ rejectSlot sl x = false) := by
    unfold droveAck
    rw [Bool.or_eq_true, beq_iff_eq, Bool.and_eq_true, Bool.not_eq_true']
  rw [View.member_countAccepted, h, Option.map_some, if_pos hp]
  unfold Member.countAccepted
  by_cases hx : x = o ∨ (ackSlot sl x = true ∧ rejectSlot sl x = false)
  · rw [if_pos (hc.mpr hx), if_pos hx]
  · rw [if_neg (fun h => hx (hc.mp h)), if_neg hx]

/-- The counted view has the members of the frame's view. -/
theorem Ended.present_counted (e : Ended) (v : View) (accepted : Bool) (x : Station) :
    (e.counted v v accepted).present x = v.present x := by
  unfold Ended.counted
  cases accepted
  · rw [if_neg Bool.false_ne_true]
    unfold View.countRejected
    rw [View.present_mapMembers]
  · rw [if_pos rfl, View.present_countAccepted]

theorem damagedFrame_exec (s : State) (slots : Slots) :
    exec (.damagedFrame slots) s = .next (s.frameEnd none slots) := rfl

/-- The markings of an accepted frame without effects on the view or the log (R110, R112). -/
theorem State.frameEnd_marksAccepted (s : State) (v : View) (owner : Station) (c : Fin 4) (slots : Slots)
    (hin : InFrame s owner c) (hv : s.heldView = some v) (hself : v.present s.me = true) (hfl : s.bus.inFlight = none)
    (hl : s.join.leaveAttempts < frameRetryLimit) (h : Heard) (f : Frame) (k : FrameKind)
    (hk : k ∈ [FrameKind.update, .ask, .empty]) (hr : readFrame h = some f) (hf : f.kind? = some k)
    (hm : (s.judgeFrame (some f) owner c).marks = false) (hrej : ∀ x, v.present x = true → rejectSlot slots x = false) :
    ∃ u, s.frameEnd (some h) slots = State.settle u ∧
      MarkingsTaken s u (v.countAccepted v owner slots) ((v.countAccepted v owner slots).limits v owner slots) owner := by
  have he : s.ended owner c (some h) slots = s.endedPeer (some f) owner c slots := by
    rw [State.ended_peer _ _ _ _ _ hfl, Option.bind_some, hr]
  have hd := State.driveSlot_sound s (s.endedPeer (some f) owner c slots) (State.validates_of_heldView hv) rfl hm
  have hheld : (s.driven .ack).heldView = some v := hv
  obtain ⟨hview, hrep⟩ := State.takePeerFrame_plain (s.driven .ack) v f k hf hk
  have hmild := State.takePeerFrame_mild (s.driven .ack) v f
  obtain ⟨_, hatt, _, _⟩ := State.takePeerFrame_frame (s.driven .ack) v f
  have htaken := State.endWithView_taken (s.driven .ack) v (s.endedPeer (some f) owner c slots) f
    ((v.accepts_iff slots).mpr hrej) rfl rfl (Judgement.unreadable_of_sound hm)
  rw [hview] at htaken
  have hmarks := State.conclude_markings (s.driven .ack) s ((s.driven .ack).takePeerFrame v f)
    (s.endedPeer (some f) owner c slots) v v (v.countAccepted v owner slots) true rfl (congrArg Reporting.log hrep)
    hmild.station hmild.me (hmild.inGroup.trans (State.view_of_heldView hheld).2) (by rw [hatt]; exact hl)
    (by rw [View.present_countAccepted, hmild.me]; exact hself) (fun x => View.present_countAccepted v v owner x slots)
  refine ⟨_, (State.frameEnd_inFrame s owner c _ slots hin).trans ?_, MarkingsTaken.endFrame _ _ _ _ _ c hmarks⟩
  rw [he, State.endFrame_withView s v _ hv, hd, htaken]
  rfl

/-- The markings of a frame that did not arrive whole and is rejected (R111, R112). -/
theorem State.frameEnd_marksRejected (s : State) (v : View) (owner : Station) (c : Fin 4) (slots : Slots)
    (hin : InFrame s owner c) (hv : s.heldView = some v) (hself : v.present s.me = true) (hfl : s.bus.inFlight = none)
    (hl : s.join.leaveAttempts < frameRetryLimit) (hrej : ∃ x, v.present x = true ∧ rejectSlot slots x = true) :
    ∃ u, s.frameEnd none slots = State.settle u ∧
      MarkingsTaken s u (v.countRejected v owner slots) ((v.countRejected v owner slots).limits v owner slots) owner := by
  have he : s.ended owner c none slots = s.endedPeer none owner c slots := State.ended_peer _ _ _ _ _ hfl
  have hd := State.driveSlot_marked s (s.endedPeer none owner c slots) (State.validates_of_heldView hv) rfl rfl
  have hheld : (s.driven .reject).heldView = some v := hv
  have hmarks := State.conclude_markings (s.driven .reject) s (s.driven .reject)
    (s.endedPeer none owner c slots) v v (v.countRejected v owner slots) false rfl rfl rfl rfl
    (State.view_of_heldView hheld).2 hl
    ((Ended.present_counted (s.endedPeer none owner c slots) v false _).trans hself)
    (Ended.present_counted (s.endedPeer none owner c slots) v false)
  refine ⟨_, (State.frameEnd_inFrame s owner c _ slots hin).trans ?_, MarkingsTaken.endFrame _ _ _ _ _ c hmarks⟩
  rw [he, State.endFrame_withView s v _ hv, hd,
    if_neg (show ¬(s.endedPeer none owner c slots).judged.duplicate = true from Bool.false_ne_true), State.endWithView_rejected _ v (s.endedPeer none owner c slots) (View.accepts_eq_false v slots hrej) rfl]
  rfl

/-- Settles O54: who is at a limit, what marking leaves of the view, how the counts of an accepted frame move, and what the
markings leave of this station. -/
theorem limitsMarkAbsent : Obligations.LimitsMarkAbsent := by
  unfold Obligations.LimitsMarkAbsent
  refine ⟨fun w v owner slots => ⟨w.limits_pairwise v owner slots, fun x cause => w.mem_limits v owner slots x cause⟩, ?_, ?_, ?_⟩
  · rintro v _ xs rfl
    exact ⟨v.lastWinner_markAbsent xs, fun x => ⟨v.member_markAbsent_none xs x, fun m hx hm => v.state_markAbsent xs x m hx hm⟩⟩
  · rintro v _ owner slots rfl
    refine ⟨rfl, fun x hx => ?_, fun x m hm => v.member_countAccepted_self owner x slots m hm⟩
    rw [View.member_countAccepted, hx]
    rfl
  · rintro s v w owner c slots _ hin hv hself hfl hl rfl
    constructor
    · rintro h f k hk hr hf hm hrej rfl
      obtain ⟨u, hu, hmarks⟩ := s.frameEnd_marksAccepted v owner c slots hin hv hself hfl hl h f k hk hr hf hm hrej
      exact ⟨u, _, (FrameKind.row_exec k h slots s).trans (congrArg Host.Outcome.next hu), State.settle_settled u, hmarks⟩
    · rintro hrej rfl
      obtain ⟨u, hu, hmarks⟩ := s.frameEnd_marksRejected v owner c slots hin hv hself hfl hl hrej
      exact ⟨u, _, (damagedFrame_exec s slots).trans (congrArg Host.Outcome.next hu), State.settle_settled u, hmarks⟩

end Sys2Proof.Machine
end


section
/-! SUPPORT. The writes that a frame end assigns to this station reach the other blocks (O53). -/

namespace Sys2Proof.Machine

/-! ### The writes on the blocks -/

theorem CatchUp.mapJobs_get (c : CatchUp) (f : Job → Job) (k : JobIx) : (c.mapJobs f).jobs[k] = (c.jobs[k]).map f := by
  unfold CatchUp.mapJobs
  rw [Fin.getElem_fin, Vector.getElem_ofFn]

theorem CatchUp.mapJobs_id (c : CatchUp) : (c.mapJobs fun j => j) = c := by
  have hj : (Vector.ofFn fun k : JobIx => (c.jobs[k]).map fun j => j) = c.jobs := by
    ext k hk : 1
    rw [Vector.getElem_ofFn, Option.map_id']
    rfl
  unfold CatchUp.mapJobs
  rw [hj]

theorem CatchUp.mapJobs_mapJobs (c : CatchUp) (f g : Job → Job) : (c.mapJobs f).mapJobs g = c.mapJobs fun j => g (f j) := by
  have hj : (Vector.ofFn fun k : JobIx => ((c.mapJobs f).jobs[k]).map g) =
      Vector.ofFn fun k : JobIx => (c.jobs[k]).map fun j => g (f j) := by
    refine congrArg Vector.ofFn (funext fun k => ?_)
    rw [CatchUp.mapJobs_get, Option.map_map]
    rfl
  show CatchUp.mk _ _ _ _ = CatchUp.mk _ _ _ _
  rw [hj]
  rfl

theorem HeldLine.patch_takes (h : HeldLine) (w : LineWrite) (g : Segment) :
    LineTakes w g h (if lineAt g h.offset = w.line then h.patch w else h) := by
  by_cases hl : lineAt g h.offset = w.line
  · rw [if_pos hl]
    exact ⟨rfl, fun hne => absurd hl hne, fun _ => patch_wordsTaken w h.data h.void⟩
  · rw [if_neg hl]
    exact ⟨rfl, fun _ => rfl, fun h => absurd h hl⟩

theorem givePatch_takes (w : LineWrite) (xs : List GiveEntry) : List.Forall₂ (GiveTakes w) xs (givePatch xs w) := by
  refine forall₂_map _ (fun e => ?_) xs
  by_cases h : e.state = .ready ∧ e.line = w.line
  · rw [if_pos h]
    exact ⟨fun _ _ => ⟨rfl, patch_wordsTaken w e.data e.void⟩, fun hn => absurd h (by tauto)⟩
  · rw [if_neg h]
    exact ⟨fun h1 h2 => absurd ⟨h1, h2⟩ h, fun _ => rfl⟩

theorem repairCure_eq (xs : List RepairEntry) (w : LineWrite) (h : ∀ e ∈ xs, e.bad ≠ 0) :
    repairCure xs w = xs.filterMap fun e =>
      if e.line = w.line then
        if e.bad &&& ~~~(w.mask &&& ~~~w.poison) = 0 then none
        else some { e with bad := e.bad &&& ~~~(w.mask &&& ~~~w.poison) }
      else some e := by
  unfold repairCure repairMap LineWrite.plainMask
  rw [← List.filterMap_eq_filter, List.filterMap_map]
  refine List.filterMap_congr fun e he => ?_
  dsimp only [Function.comp]
  by_cases hl : e.line = w.line
  · rw [if_pos hl, if_pos hl]
    by_cases hb : e.bad &&& ~~~(w.mask &&& ~~~w.poison) = 0
    · rw [if_pos hb]
      exact Option.guard_eq_none_iff.mpr (by simpa using hb)
    · rw [if_neg hb]
      exact Option.guard_eq_some_iff.mpr ⟨rfl, by simpa using hb⟩
  · rw [if_neg hl, if_neg hl]
    exact Option.guard_eq_some_iff.mpr ⟨rfl, by simpa using h e he⟩

theorem State.enterWrites_nil (s : State) : s.enterWrites [] = s := by
  have hc : (s.catchup.mapJobs fun j => [].foldl Job.snoop j) = s.catchup := s.catchup.mapJobs_id
  unfold State.enterWrites
  rw [hc, List.append_nil]
  rfl

theorem State.enterWrites_cons (s : State) (w : LineWrite) (ws : List LineWrite) :
    s.enterWrites (w :: ws) = (s.enterWrites [w]).enterWrites ws := by
  unfold State.enterWrites
  rw [CatchUp.mapJobs_mapJobs, List.append_assoc]
  simp only [List.foldl_cons, List.foldl_nil, List.singleton_append]

/-! ### The frame end -/

/-- After a peer's frame the bus unit alone moves once the blocks have taken the view. -/
theorem State.goodFrameEnd_blocks (s : State) (v : View) (h : Heard) (f : Frame) (owner : Station) (c : Fin 4) (slots : Slots)
    (hr : readFrame h = some f) (g : GoodFrame s v f owner c slots) : ∃ (t : State) (w : View) (flag : Bool) (b : BusUnit),
      w = (f.viewEffect v).countAccepted v owner slots ∧
      t = ({ (s.driven .ack).takePeerFrame v f with view := some w } : State).setFlagIf flag .peerChange ∧
      s.frameEnd (some h) slots = State.settle { State.reactBlocks (s.driven .ack) t w with bus := b } := by
  obtain ⟨e, flag, _, t, _, w, rfl, hown, hw, ht, rfl, hend⟩ := s.goodFrameEnd v h f owner c slots hr g
  obtain ⟨x, hx⟩ : ∃ x, x = State.reactBlocks (s.driven .ack) t w := ⟨_, rfl⟩
  have hafter : x.afterFrame e true = { x with bus := { x.bus with breakIn := e.open && x.urgentPending } } := by
    unfold State.afterFrame
    rw [hown]
    rfl
  change s.frameEnd (some h) slots = State.settle (((State.reactBlocks (s.driven .ack) t w).afterFrame e true).closeFrame c) at hend
  rw [← hx, hafter] at hend
  subst hx
  exact ⟨t, w, flag, _, hw, ht, hend⟩

/-- The repair entries behind the reactions are entries of before, still on their lines with their masks. -/
theorem State.reactBlocks_repairMem (b s : State) (v : View) (hw : s.walker.state ≠ .held) (e : RepairEntry)
    (he : e ∈ (State.reactBlocks b s v).repair) : ∃ e' ∈ s.repair, e'.line = e.line ∧ e'.bad = e.bad := by
  have hwalker : (State.reviewBlocks b s v).walker = s.walker := by
    rw [(State.reviewBlocks_reviewed b s v).frame]
  have hlist := ((State.reactBlocks_released b s v).list (by rw [hwalker]; exact hw)).2
  rw [hlist, State.reviewBlocks_repair] at he
  exact s.judgeEntry_mem v s.repair e he

/-- A served job keeps its lines through the reactions. -/
theorem State.reactBlocks_jobLines (b s : State) (v : View) (k : JobIx) (j : Job) (h : s.catchup.jobs[k] = some j)
    (hs : v.serves s.me j.station j.segment = true) : ∃ j', (State.reactBlocks b s v).catchup.jobs[k] = some j' ∧
      ∃ w, j' = { j with waiting := w } := by
  have hk : (State.reviewBlocks b s v).catchup.jobs[k] = some j := by
    rw [State.reviewBlocks_catchup]
    exact CatchUp.review_keeps s.catchup v s.me s.runMax k j h hs
  obtain ⟨w, hw⟩ := (State.reactBlocks_released b s v).jobs k j hk
  exact ⟨_, hw, w, rfl⟩

theorem State.takePeerFrame_updateWrites (s : State) (v : View) (f : Frame) (hk : f.kind? = some .update)
    (hg : f.header.gpos = gposNone) : s.takePeerFrame v f =
      ({ s with group := none } : State).enterWrites (if v.isMember s.me f.segment then [f.updateWrite] else []) := by
  unfold State.takePeerFrame
  rw [hk]
  dsimp only
  unfold State.takeUpdate
  exact if_pos hg

/-- A COPY to this station enters its lines, and counts them. -/
theorem State.takePeerFrame_copyWrites (s : State) (v : View) (f : Frame) (hk : f.kind? = some .copy)
    (hs : f.copyStation = s.me) (hm : v.isMember s.me f.segment = true) : ∃ m r, s.takePeerFrame v f =
      { ({ s with group := none } : State).enterWrites f.copyWrites with
        catchup := { (s.enterWrites f.copyWrites).catchup with monitors := m }, rep := r } := by
  unfold State.takePeerFrame
  rw [hk]
  dsimp only
  unfold State.takeCopy
  rw [if_pos ⟨hs, hm⟩]
  cases f.copyLast
  · exact ⟨_, _, rfl⟩
  · exact ⟨_, _, rfl⟩

/-- What the writes of a frame end leave at the end of it. -/
theorem State.frameEnd_writes (s : State) (v : View) (h : Heard) (f : Frame) (owner : Station) (c : Fin 4) (slots : Slots)
    (ws : List LineWrite) (hr : readFrame h = some f) (g : GoodFrame s v f owner c slots) (hw : s.walker.state ≠ .held)
    (hsp : ((s.driven .ack).takePeerFrame v f).sp = (s.enterWrites ws).sp)
    (hgives : ((s.driven .ack).takePeerFrame v f).gives = (s.enterWrites ws).gives)
    (hrepair : ((s.driven .ack).takePeerFrame v f).repair = (s.enterWrites ws).repair)
    (hjobs : ((s.driven .ack).takePeerFrame v f).catchup.jobs = (s.enterWrites ws).catchup.jobs) :
    ∃ u, s.frameEnd (some h) slots = State.settle u ∧ u.sp = (s.enterWrites ws).sp ∧ u.gives = (s.enterWrites ws).gives ∧
      (∀ e ∈ u.repair, ∃ e' ∈ (s.enterWrites ws).repair, e'.line = e.line ∧ e'.bad = e.bad) ∧
      (f.viewEffect v = v → ∀ (x : JobIx) j, (s.enterWrites ws).catchup.jobs[x] = some j →
        v.serves s.me j.station j.segment = true →
        ∃ j', u.catchup.jobs[x] = some j' ∧ j'.buffer = j.buffer ∧ j'.ahead = j.ahead) := by
  obtain ⟨t, w, flag, b, hview, ht, hend⟩ := s.goodFrameEnd_blocks v h f owner c slots hr g
  have hq := State.setFlagIf_quiet ({ (s.driven .ack).takePeerFrame v f with view := some w } : State) flag .peerChange
  have hreact := State.reactBlocks_quiet (s.driven .ack) t w
  obtain ⟨_, _, hwalk, _⟩ := State.takePeerFrame_frame (s.driven .ack) v f
  have hme : t.me = s.me := by
    rw [ht, hq.mild.me]
    exact (State.takePeerFrame_mild (s.driven .ack) v f).me
  refine ⟨_, hend, ?_, ?_, fun e he => ?_, fun hv x j hj hs => ?_⟩
  · exact hreact.sp.trans ((congrArg State.sp ht).trans (hq.sp.trans hsp))
  · exact hreact.gives.trans ((congrArg State.gives ht).trans (hq.gives.trans hgives))
  · rw [← hrepair]
    have htr : t.repair = ((s.driven .ack).takePeerFrame v f).repair := by rw [ht, State.setFlagIf_repair]
    rw [← htr]
    refine State.reactBlocks_repairMem (s.driven .ack) t w ?_ e he
    rw [ht, State.setFlagIf_walker]
    show ((s.driven .ack).takePeerFrame v f).walker.state ≠ _
    rw [hwalk]
    exact hw
  · have hj' : t.catchup.jobs[x] = some j := by
      rw [ht, State.setFlagIf_catchup]
      show ((s.driven .ack).takePeerFrame v f).catchup.jobs[x] = _
      rw [hjobs]
      exact hj
    have hserves : w.serves t.me j.station j.segment = true := by
      rw [hview, hme, View.serves_countAccepted, hv]
      exact hs
    obtain ⟨j', hj', _, rfl⟩ := State.reactBlocks_jobLines (s.driven .ack) t w x j hj' hserves
    exact ⟨_, hj', rfl, rfl⟩

theorem Frame.viewEffect_update (f : Frame) (v : View) (h : f.kind? = some .update) : f.viewEffect v = v := by
  unfold Frame.viewEffect
  rw [h]

/-- Settles O53: one write at a time on the jobs, the give queue and the repair list, and the writes of an accepted UPDATE or COPY
at the end of its frame. -/
theorem acceptedWritesReachTheBlocks : Obligations.AcceptedWritesReachTheBlocks := by
  unfold Obligations.AcceptedWritesReachTheBlocks
  refine ⟨?_, State.enterWrites_nil, State.enterWrites_cons, ?_⟩
  · rintro s _ w rfl
    refine ⟨rfl, fun k hk => ?_, fun k j hj => ?_, givePatch_takes w s.gives, repairCure_eq s.repair w⟩
    · refine (CatchUp.mapJobs_get _ _ k).trans ?_
      rw [hk]
      rfl
    · refine ⟨_, _, (CatchUp.mapJobs_get _ _ k).trans (by rw [hj]; rfl), ?_, ?_⟩
      · exact forall₂_map _ (fun h => h.patch_takes w j.segment) j.buffer
      · exact forall₂_map _ (fun h => h.patch_takes w j.segment) j.ahead
  · intro s v h f k owner c slots ws hr hk g hw hcase
    have row := FrameKind.row_exec k h slots s
    rcases hcase with ⟨rfl, hg, rfl⟩ | ⟨rfl, hs, rfl⟩
    · have htake := (s.driven .ack).takePeerFrame_updateWrites v f hk hg
      obtain ⟨u, hu, hsp, hgives, hrep, hjobs⟩ := s.frameEnd_writes v h f owner c slots
        (if v.isMember s.me f.segment then [f.updateWrite] else []) hr g hw
        (by rw [htake]; rfl) (by rw [htake]; rfl) (by rw [htake]; rfl) (by rw [htake]; rfl)
      exact ⟨u, _, row.trans (congrArg Host.Outcome.next hu), State.settle_settled u, hsp, hgives, hrep,
        fun _ => hjobs (f.viewEffect_update v hk)⟩
    · obtain ⟨_, _, _, hinc⟩ := Judgement.parts g.checks
      have hin : f.inconsistent v = false := by
        unfold State.judgeFrame at hinc
        dsimp only at hinc
        rw [g.view] at hinc
        exact hinc
      have hm : v.isMember s.me f.segment = true := by
        rw [← hs]
        exact Frame.copy_member hin hk
      obtain ⟨m, r, htake⟩ := (s.driven .ack).takePeerFrame_copyWrites v f hk hs hm
      obtain ⟨u, hu, hsp, hgives, hrep, _⟩ := s.frameEnd_writes v h f owner c slots f.copyWrites hr g hw
        (by rw [htake]; rfl) (by rw [htake]; rfl) (by rw [htake]; rfl) (by rw [htake]; rfl)
      exact ⟨u, _, row.trans (congrArg Host.Outcome.next hu), State.settle_settled u, hsp, hgives, hrep,
        fun h => by cases h⟩

end Sys2Proof.Machine
end


section
/-! SUPPORT. The blocks after a changed view: the jobs, the monitors, the local states and the spent head (O55). -/

namespace Sys2Proof.Machine

/-! ### The jobs -/

theorem View.serves_iff (v : View) (me x : Station) (g : Segment) :
    v.serves me x g = true ↔ v.server x g = some me ∧ v.settled x = true := by
  unfold View.serves
  rw [Bool.and_eq_true, beq_iff_eq]

/-- The table after a changed view. -/
theorem CatchUp.review_table (c : CatchUp) (v : View) (me : Station) (runMax : Nat) :
    (∀ (k : JobIx) j, (c.review v me runMax).jobs[k] = some j → v.serves me j.station j.segment = true) ∧
    (∀ (k : JobIx) j, c.jobs[k] = some j → v.serves me j.station j.segment = true →
      (c.review v me runMax).jobs[k] = some j) ∧
    (∀ (k : JobIx) j, (c.review v me runMax).jobs[k] = some j →
      c.jobs[k] = some j ∨ j = ⟨j.station, j.segment, runMax, [], [], none, none, 0⟩) ∧
    (∀ x g, v.serves me x g = true →
      (∃ (k : JobIx) (j : Job), (c.review v me runMax).jobs[k] = some j ∧ j.station = x ∧ j.segment = g) ∨
        ∀ k : JobIx, (c.review v me runMax).jobs[k] ≠ none) ∧
    ∀ x g y h, v.serves me x g = true → v.serves me y h = true → g < h ∨ (g = h ∧ x < y) →
      (∃ (k : JobIx) (j : Job), (c.review v me runMax).jobs[k] = some j ∧ j.station = y ∧ j.segment = h) →
      (∃ (k : JobIx) (j : Job), c.jobs[k] = some j ∧ j.station = y ∧ j.segment = h) ∨
        ∃ (k : JobIx) (j : Job), (c.review v me runMax).jobs[k] = some j ∧ j.station = x ∧ j.segment = g := by
  obtain ⟨served, origin, provided⟩ := c.review_spec v me runMax
  refine ⟨served, fun k j hj hs => c.review_keeps v me runMax k j hj hs, origin, fun x g hs => ?_,
    fun x g y h hx hy hlt hj => ?_⟩
  · exact (provided x g hs).imp_left (CatchUp.hasJob_iff _ x g).mp
  · have order := CatchUp.review_order c _ v me runMax rfl x y g h hx hy hlt ((CatchUp.hasJob_iff _ y h).mpr hj)
    exact order.imp (CatchUp.hasJob_iff _ y h).mp (CatchUp.hasJob_iff _ x g).mp

theorem ring_filter_split (before after : List JobIx) (k : JobIx) (h : k ∉ before ++ after) :
    (before ++ k :: after).filter (· != k) = before ++ after := by
  have keep : ∀ xs : List JobIx, k ∉ xs → xs.filter (· != k) = xs := fun xs hx =>
    List.filter_eq_self.mpr fun a ha => bne_iff_ne.mpr fun e => hx (e ▸ ha)
  rw [List.mem_append, not_or] at h
  rw [List.filter_append, List.filter_cons_of_neg (by simp), keep before h.1, keep after h.2]

/-- A job leaves the table and the ring, and the token moves on from it. -/
theorem CatchUp.removeJob_ring (c : CatchUp) (k : JobIx) (before after : List JobIx) (ring : c.ring = before ++ k :: after)
    (alone : k ∉ before ++ after) : (c.removeJob k).jobs = c.jobs.set k none ∧ (c.removeJob k).ring = before ++ after ∧
    (c.token = some k → (c.removeJob k).token = (after ++ before).head?) ∧
    (c.token ≠ some k → before ++ after ≠ [] → (c.removeJob k).token = c.token) := by
  have left : c.ring.filter (· != k) = before ++ after := by rw [ring]; exact ring_filter_split before after k alone
  have token : (c.removeJob k).token =
      if (before ++ after).isEmpty then none else if c.token = some k then some (c.following k) else c.token := by
    unfold CatchUp.removeJob
    dsimp only
    rw [left]
  refine ⟨rfl, left, fun h => ?_, fun h hne => ?_⟩
  · rw [token, if_pos h]
    have next := CatchUp.following_ring ring fun hk => alone (List.mem_append_left after hk)
    cases before with
    | nil =>
      cases after with
      | nil => rfl
      | cons b bs => rw [if_neg (by simp), next]; rfl
    | cons a as =>
      rw [if_neg (by simp), next]
      cases after <;> rfl
  · rw [token, if_neg (by simpa using hne), if_neg h]

/-! ### The monitors -/

theorem State.reviewMonitor_outside {s : State} {g : Segment} (h : s.localState g ≠ .catching) (before : Option Station)
    (m : Monitor) : s.reviewMonitor before g m = ⟨false, 0, none⟩ := by
  unfold State.reviewMonitor
  exact if_neg h

theorem State.reviewMonitor_catching {s : State} {g : Segment} (h : s.localState g = .catching) (before : Option Station)
    (m : Monitor) : s.reviewMonitor before g m =
      if m.running = false then ⟨true, 0, none⟩ else if before ≠ s.ownServer g then ⟨true, 0, m.stall⟩ else m := by
  unfold State.reviewMonitor
  rw [if_pos h]
  cases m.running
  · rfl
  · by_cases hb : before = s.ownServer g
    · rw [if_neg (by simp), if_neg (by simpa using hb), if_neg (by simp), if_neg (not_not.mpr hb)]
    · rw [if_neg (by simp), if_pos (by simpa using hb), if_neg (by simp), if_pos hb]
      rfl

theorem State.reviewMonitor_running {s : State} {g : Segment} (h : s.localState g = .catching) (before : Option Station)
    (m : Monitor) : (s.reviewMonitor before g m).running = true := by
  rw [State.reviewMonitor_catching h]
  split_ifs with h1 h2
  · rfl
  · rfl
  · simpa using h1

/-! ### The local states -/

theorem LocalState.posts_iff (l : LocalState) : l.posts = true ↔ l = .current ∨ l = .catching := by
  cases l <;> simp [LocalState.posts]

theorem State.leaves_iff (before s : State) (g : Segment) : State.leaves before s g = true ↔
    (before.localState g = .current ∨ before.localState g = .catching) ∧ s.localState g ≠ .current ∧
      s.localState g ≠ .catching := by
  unfold State.leaves
  rw [Bool.and_eq_true, LocalState.posts_iff, Bool.not_eq_true', ← Bool.not_eq_true, LocalState.posts_iff, not_or]

theorem State.reviewSegment_same (before s : State) (g : Segment) (h : before.localState g = s.localState g) :
    State.reviewSegment before s g = s := by
  have hl : State.leaves before s g = false := by
    rw [← Bool.not_eq_true, State.leaves_iff, h]
    tauto
  have hb : (before.localState g != s.localState g) = false := by rw [h, bne_self_eq_false]
  unfold State.reviewSegment
  dsimp only
  rw [hl, hb]
  rfl

/-- Segments that do not change leave a review to the one that may. -/
theorem State.reviewSegments_only (before s : State) (g : Segment)
    (h : ∀ i : Segment, i ≠ g → before.localState i = s.localState i) :
    State.reviewSegments before s = State.reviewSegment before s g := by
  have others : ∀ (gs : List Segment) (x : State), (∀ i, x.localState i = s.localState i) → g ∉ gs →
      gs.foldl (State.reviewSegment before) x = x := by
    intro gs
    induction gs with
    | nil => exact fun _ _ _ => rfl
    | cons a gs ih =>
      intro x hx hg
      rw [List.mem_cons, not_or] at hg
      rw [List.foldl_cons, State.reviewSegment_same before x a ((h a (Ne.symm hg.1)).trans (hx a).symm)]
      exact ih x hx hg.2
  obtain ⟨as, bs, (hsplit : segments = as ++ g :: bs)⟩ := List.append_of_mem (List.mem_finRange g : g ∈ segments)
  have nodup : (as ++ g :: bs).Nodup := hsplit ▸ (List.nodup_finRange 8 : segments.Nodup)
  obtain ⟨_, hbs, hdis⟩ := List.nodup_append'.mp nodup
  have has : g ∉ as := fun ha => hdis ha List.mem_cons_self
  unfold State.reviewSegments
  rw [hsplit, List.foldl_append, others as s (fun _ => rfl) has, List.foldl_cons]
  exact others bs _ (State.reviewSegment_reviewed before s g).localState (List.nodup_cons.mp hbs).1

/-- One segment's change of local state. -/
theorem State.reviewSegment_changed (before s : State) (g : Segment) (h : before.localState g ≠ s.localState g) :
    State.reviewSegment before s g =
      if State.leaves before s g then (s.setFlag .segmentChange).discardSegment g else s.setFlag .segmentChange := by
  have hb : (before.localState g != s.localState g) = true := bne_iff_ne.mpr h
  unfold State.reviewSegment
  dsimp only
  rw [hb]
  rfl

theorem State.discardSegment_out (s : State) (g : Segment) :
    (s.discardSegment g).out = s.out.filter fun e => !e.updateOf g := by
  unfold State.discardSegment
  dsimp only
  by_cases h : (s.out.filter fun e => e.updateOf g).length = 0
  · rw [if_pos h]
    rw [List.length_eq_zero_iff, List.filter_eq_nil_iff] at h
    exact (List.filter_eq_self.mpr fun e he => by simpa using h e he).symm
  · rw [if_neg h]
    rfl

theorem State.discardSegment_logs (s : State) (g : Segment) (n : Nat)
    (hn : n = (s.out.filter fun e => e.updateOf g).length) (h : 0 < n) :
    (s.discardSegment g).rep = s.rep.raise ⟨.outboundDiscard, .port, some g, none, none, n⟩ := by
  subst hn
  unfold State.discardSegment
  dsimp only
  rw [if_neg (by omega)]
  rfl

/-- What the review of the segments does where at most one changes. -/
theorem State.reviewSegments_one (before s : State) (g : Segment)
    (alone : ∀ i : Segment, i ≠ g → before.localState i = s.localState i) :
    (before.localState g = s.localState g → State.reviewSegments before s = s) ∧
    (before.localState g ≠ s.localState g →
      StatusFlag.segmentChange.isIn (State.reviewSegments before s).rep.flags = true ∧
      ((before.localState g ≠ .current ∧ before.localState g ≠ .catching) ∨ s.localState g = .current ∨
          s.localState g = .catching → (State.reviewSegments before s).out = s.out) ∧
      (before.localState g = .current ∨ before.localState g = .catching → s.localState g ≠ .current →
        s.localState g ≠ .catching →
        (State.reviewSegments before s).out = s.out.filter (fun e => !e.updateOf g) ∧
          ∀ n, n = (s.out.filter fun e => e.updateOf g).length → 0 < n →
            (State.reviewSegments before s).rep =
              (s.rep.setFlag .segmentChange).raise ⟨.outboundDiscard, .port, some g, none, none, n⟩)) := by
  refine ⟨fun h => ?_, fun h => ⟨State.reviewSegments_flag before s g h, fun hstay => ?_, fun hb h1 h2 => ?_⟩⟩
  · exact (State.reviewSegments_only before s g alone).trans (State.reviewSegment_same before s g h)
  · have hl : ¬State.leaves before s g = true := by
      rw [State.leaves_iff]
      tauto
    rw [State.reviewSegments_only before s g alone, State.reviewSegment_changed before s g h, if_neg hl]
    rfl
  · rw [State.reviewSegments_only before s g alone, State.reviewSegment_changed before s g h,
      if_pos ((State.leaves_iff before s g).mpr ⟨hb, h1, h2⟩)]
    exact ⟨State.discardSegment_out _ g, fun n hn hpos => State.discardSegment_logs (s.setFlag .segmentChange) g n hn hpos⟩

/-! ### The spent head -/

theorem State.headLeaves_update (before s : State) (g : Segment) (l : Line) (m : WordMask) (d : Vector Word 4) (mark : Bool)
    (st : OutState) (n : Nat) (rest : List OutEntry) (h : s.out = ⟨.update g l m d mark, st, n⟩ :: rest) :
    State.headLeaves before s = State.leaves before s g := by
  have any : State.headLeaves before s = segments.any fun i => (g == i) && State.leaves before s i := by
    unfold State.headLeaves
    rw [h]
    rfl
  rw [any, Bool.eq_iff_iff, List.any_eq_true]
  constructor
  · rintro ⟨i, _, hi⟩
    rw [Bool.and_eq_true, beq_iff_eq] at hi
    obtain ⟨rfl, hi⟩ := hi
    exact hi
  · intro hl
    exact ⟨g, List.mem_finRange g, by rw [beq_self_eq_true, hl]; rfl⟩

/-- A spent head whose segment stays falls before the reviews. -/
theorem State.reviewHead_spent (before s : State) (g : Segment) (l : Line) (m : WordMask) (d : Vector Word 4) (mark : Bool)
    (st : OutState) (n : Nat) (rest : List OutEntry) (h : s.out = ⟨.update g l m d mark, st, n⟩ :: rest) (hn : 8 ≤ n)
    (stays : State.leaves before s g = false) : State.reviewHead before s =
      ({ s with out := rest } : State).raise ⟨.frameDiscarded, .bus, some (segmentOf l), some l, none, m.toNat⟩ := by
  unfold State.reviewHead
  rw [State.headLeaves_update before s g l m d mark st n rest h, stays, if_neg Bool.false_ne_true]
  unfold State.discardSpentHead
  rw [h]
  dsimp only
  rw [if_pos (show frameRetryLimit ≤ n from hn)]
  rfl

theorem State.reviewRosters_raise (s : State) (v : View) (rest : List OutEntry) (e : LogEntry) :
    (({ s with out := rest } : State).raise e).reviewRosters v = ({ s.reviewRosters v with out := rest } : State).raise e := by
  have hme : (({ s with out := rest } : State).raise e).me = s.me :=
    (State.raise_quiet ({ s with out := rest } : State) e).mild.me
  unfold State.reviewRosters
  rw [hme]
  rfl

theorem State.reviewBlocks_spentHead (before s : State) (v : View) (g : Segment) (l : Line) (m : WordMask)
    (d : Vector Word 4) (mark : Bool) (st : OutState) (n : Nat) (rest : List OutEntry)
    (h : s.out = ⟨.update g l m d mark, st, n⟩ :: rest) (hn : 8 ≤ n) (hrest : ∀ e ∈ rest, e.attempts < 8)
    (stays : State.leaves before s g = false) : State.reviewBlocks before s v = State.reviewBlocks before
      (({ s with out := rest } : State).raise ⟨.frameDiscarded, .bus, some (segmentOf l), some l, none, m.toNat⟩) v := by
  obtain ⟨x, hx⟩ : ∃ x, x = ({ s with out := rest } : State).raise
      ⟨.frameDiscarded, .bus, some (segmentOf l), some l, none, m.toNat⟩ := ⟨_, rfl⟩
  have stays' : State.leaves before (s.reviewRosters v) g = false := by
    unfold State.leaves at stays ⊢
    rw [(s.reviewRosters_reviewed v).localState]
    exact stays
  have hs : State.reviewHead before (s.reviewRosters v) = x.reviewRosters v := by
    rw [State.reviewHead_spent before (s.reviewRosters v) g l m d mark st n rest h hn stays', hx]
    exact (s.reviewRosters_raise v rest _).symm
  have hxout : (x.reviewRosters v).out = rest := by rw [hx]; rfl
  have hx' : State.reviewHead before (x.reviewRosters v) = x.reviewRosters v :=
    State.reviewHead_same before _ (by rw [hxout]; exact hrest)
  rw [← hx]
  unfold State.reviewBlocks
  rw [hs, hx']

/-! ### The frame end -/

theorem State.reviewBlocks_afterSegments (before s : State) (v : View) :
    Quiet (State.reviewSegments before (State.reviewHead before (s.reviewRosters v))) (State.reviewBlocks before s v) := by
  unfold State.reviewBlocks
  exact ((State.reviewRun_quiet _ v).trans (State.catchup_quiet _ _)).trans
    ((State.reviewMonitors_quiet _ _).trans (State.reviewRepair_quiet _ v))

theorem State.reviewBlocks_beforeSegments (before s : State) (v : View) (g : Segment) :
    (State.reviewHead before (s.reviewRosters v)).localState g = s.localState g :=
  ((s.reviewRosters_reviewed v).trans (State.reviewHead_reviewed before _)).localState g

/-- The reactions flag a changed segment. -/
theorem State.reactBlocks_flag (before s : State) (v : View) (g : Segment) (h : before.localState g ≠ s.localState g) :
    StatusFlag.segmentChange.isIn (State.reactBlocks before s v).rep.flags = true := by
  have flag := State.reviewSegments_flag before (State.reviewHead before (s.reviewRosters v)) g
    (by rw [State.reviewBlocks_beforeSegments]; exact h)
  unfold State.reactBlocks
  exact ((State.releaseSince_quiet _ _).trans (State.reviewPort_quiet before _)).mild.flags _
    ((State.reviewBlocks_afterSegments before s v).mild.flags _ flag)

/-- The reactions leave no UPDATE entry of a segment that left CURRENT and CATCHING. -/
theorem State.reactBlocks_clear (before s : State) (v : View) (g : Segment)
    (hb : before.localState g = .current ∨ before.localState g = .catching) (h1 : s.localState g ≠ .current)
    (h2 : s.localState g ≠ .catching) : ClearOf g (State.reactBlocks before s v) := by
  have hstate : (State.reviewBlocks before s v).localState g = s.localState g :=
    (State.reviewBlocks_reviewed before s v).localState g
  have clear : ClearOf g (State.reviewBlocks before s v) := by
    refine ⟨fun e he => ?_, by rw [hstate]; exact h1, by rw [hstate]; exact h2⟩
    refine State.reviewSegments_discards before (State.reviewHead before (s.reviewRosters v)) g hb ?_ ?_ e
      (State.reviewBlocks_mem before s v e he)
    · rw [State.reviewBlocks_beforeSegments]; exact h1
    · rw [State.reviewBlocks_beforeSegments]; exact h2
  exact ClearOf.reviewPort g before _ (ClearOf.releaseSince g _ before.repair clear)

theorem State.reactBlocks_monitors (before s : State) (v : View) (g : Segment) :
    (State.reactBlocks before s v).catchup.monitors[g] =
      s.reviewMonitor (before.ownServer g) g s.catchup.monitors[g] := by
  have kept : (State.reactBlocks before s v).catchup.monitors = (State.reviewBlocks before s v).catchup.monitors := by
    rw [(State.reactBlocks_released before s v).frame]
  rw [kept, State.reviewBlocks_catchup, CatchUp.mapMonitors_get, CatchUp.review_monitors]

/-- The jobs behind the reactions are those of the review, but for what they wait for. -/
theorem State.reactBlocks_job (before s : State) (v : View) (k : JobIx) :
    (∀ j, (State.reactBlocks before s v).catchup.jobs[k] = some j →
      ∃ j', (s.catchup.review v s.me s.runMax).jobs[k] = some j' ∧ j'.station = j.station ∧ j'.segment = j.segment) ∧
    ∀ j', (s.catchup.review v s.me s.runMax).jobs[k] = some j' →
      ∃ j, (State.reactBlocks before s v).catchup.jobs[k] = some j ∧ j.station = j'.station ∧ j.segment = j'.segment := by
  have released := State.reactBlocks_released before s v
  have reviewed : (State.reviewBlocks before s v).catchup.jobs = (s.catchup.review v s.me s.runMax).jobs := by
    rw [State.reviewBlocks_catchup]
    rfl
  constructor
  · intro j hj
    cases h : (s.catchup.review v s.me s.runMax).jobs[k] with
    | none =>
      rw [released.free k (by rw [reviewed]; exact h)] at hj
      cases hj
    | some j' =>
      obtain ⟨_, hw⟩ := released.jobs k j' (by rw [reviewed]; exact h)
      rw [hw] at hj
      cases hj
      exact ⟨j', rfl, rfl, rfl⟩
  · intro j' h
    obtain ⟨_, hw⟩ := released.jobs k j' (by rw [reviewed]; exact h)
    exact ⟨_, hw, rfl, rfl⟩

/-- What follows the view once the blocks have reacted to it. -/
theorem State.reactBlocks_follow (before s : State) (v : View) :
    (∀ (x : JobIx) j, (State.reactBlocks before s v).catchup.jobs[x] = some j →
      v.serves s.me j.station j.segment = true) ∧
    (∀ x g, v.serves s.me x g = true → (∃ (n : JobIx) (j : Job),
        (State.reactBlocks before s v).catchup.jobs[n] = some j ∧ j.station = x ∧ j.segment = g) ∨
      ∀ n : JobIx, (State.reactBlocks before s v).catchup.jobs[n] ≠ none) := by
  obtain ⟨served, _, _, provided, _⟩ := s.catchup.review_table v s.me s.runMax
  refine ⟨fun x j hj => ?_, fun x g hs => ?_⟩
  · obtain ⟨j', hj', hst, hsg⟩ := (State.reactBlocks_job before s v x).1 j hj
    rw [← hst, ← hsg]
    exact served x j' hj'
  · rcases provided x g hs with ⟨n, j', hj', rfl, rfl⟩ | full
    · obtain ⟨j, hj, hst, hsg⟩ := (State.reactBlocks_job before s v n).2 j' hj'
      exact Or.inl ⟨n, j, hj, hst, hsg⟩
    · refine Or.inr fun n => ?_
      obtain ⟨j', hj'⟩ := Option.ne_none_iff_exists'.mp (full n)
      obtain ⟨j, hj, _⟩ := (State.reactBlocks_job before s v n).2 j' hj'
      rw [hj]
      exact Option.some_ne_none j

/-- The blocks at the end of a peer's frame follow the view it leaves. -/
theorem State.frameEnd_follows (s : State) (v : View) (h : Heard) (f : Frame) (owner : Station) (c : Fin 4) (slots : Slots)
    (hr : readFrame h = some f) (g : GoodFrame s v f owner c slots) :
    ∃ u w, s.frameEnd (some h) slots = State.settle u ∧ u.view = some w ∧
      (∀ (x : JobIx) j, u.catchup.jobs[x] = some j → w.serves s.me j.station j.segment = true) ∧
      (∀ x g, w.serves s.me x g = true → (∃ (n : JobIx) (j : Job), u.catchup.jobs[n] = some j ∧ j.station = x ∧ j.segment = g) ∨
        ∀ n : JobIx, u.catchup.jobs[n] ≠ none) ∧
      (∀ g : Segment, (u.localState g ≠ .catching → u.catchup.monitors[g] = ⟨false, 0, none⟩) ∧
        (u.localState g = .catching → u.catchup.monitors[g].running = true ∧
          (s.catchup.monitors[g].running = false → u.catchup.monitors[g] = ⟨true, 0, none⟩))) ∧
      ((∃ g, u.localState g ≠ s.localState g) → StatusFlag.segmentChange.isIn u.rep.flags = true) ∧
      ∀ g, s.localState g = .current ∨ s.localState g = .catching → u.localState g ≠ .current → u.localState g ≠ .catching →
        ∀ e ∈ u.out, e.updateOf g = false := by
  obtain ⟨t, w, flag, b, hview, ht, hend⟩ := s.goodFrameEnd_blocks v h f owner c slots hr g
  have hq := State.setFlagIf_quiet ({ (s.driven .ack).takePeerFrame v f with view := some w } : State) flag .peerChange
  have hreact := State.reactBlocks_quiet (s.driven .ack) t w
  have hme : t.me = s.me := by
    rw [ht, hq.mild.me]
    exact (State.takePeerFrame_mild (s.driven .ack) v f).me
  have hlocal : ∀ i, (State.reactBlocks (s.driven .ack) t w).localState i = t.localState i := hreact.mild.localState
  have hbefore : ∀ i, (s.driven .ack).localState i = s.localState i := fun _ => rfl
  have hrun : ∀ i : Segment, t.catchup.monitors[i].running = s.catchup.monitors[i].running := by
    intro i
    rw [ht, State.setFlagIf_catchup]
    exact State.takePeerFrame_running (s.driven .ack) v f i
  obtain ⟨served, provided⟩ := State.reactBlocks_follow (s.driven .ack) t w
  rw [hme] at served provided
  have local' : ∀ i, State.localState { State.reactBlocks (s.driven .ack) t w with bus := b } i = t.localState i := hlocal
  refine ⟨_, w, hend, ?_, served, provided, fun i => ⟨fun hi => ?_, fun hi => ⟨?_, fun hstop => ?_⟩⟩, ?_, fun i hi h1 h2 => ?_⟩
  · exact hreact.mild.view.trans ((congrArg State.view ht).trans hq.mild.view)
  · rw [local'] at hi
    exact (State.reactBlocks_monitors (s.driven .ack) t w i).trans (State.reviewMonitor_outside hi _ _)
  · rw [local'] at hi
    exact (congrArg Monitor.running (State.reactBlocks_monitors (s.driven .ack) t w i)).trans
      (State.reviewMonitor_running hi _ _)
  · rw [local'] at hi
    refine (State.reactBlocks_monitors (s.driven .ack) t w i).trans ((State.reviewMonitor_catching hi _ _).trans (if_pos ?_))
    rw [hrun]
    exact hstop
  · rintro ⟨i, hi⟩
    rw [local'] at hi
    exact State.reactBlocks_flag (s.driven .ack) t w i (Ne.symm hi)
  · rw [local'] at h1 h2
    exact (State.reactBlocks_clear (s.driven .ack) t w i hi h1 h2).1

/-- Settles O55: the jobs, the ring and the token, the monitors, the local states and the spent head, each by its own lemma, and
all of them at the end of a peer's frame. -/
theorem blocksFollowTheView : Obligations.BlocksFollowTheView := by
  unfold Obligations.BlocksFollowTheView
  refine ⟨View.serves_iff, ?_, fun c k j hfree hlow => c.createJob_free k j hfree hlow,
    fun c k before after ring alone => c.removeJob_ring k before after ring alone, ?_, ?_, ?_, ?_⟩
  · rintro c _ v me runMax rfl
    exact c.review_table v me runMax
  · exact fun s before g m => ⟨fun h => State.reviewMonitor_outside h before m, fun h => State.reviewMonitor_catching h before m⟩
  · rintro before s _ rfl g alone
    exact State.reviewSegments_one before s g alone
  · intro before s v g l m d mark st n rest hout hn hrest
    refine ⟨fun hstay => ?_, fun hb h1 h2 => ?_⟩
    · exact State.reviewBlocks_spentHead before s v g l m d mark st n rest hout hn hrest
        (Bool.eq_false_iff.mpr (mt (State.leaves_iff before s g).mp hstay))
    · unfold State.reviewHead
      rw [State.headLeaves_update before s g l m d mark st n rest hout, (State.leaves_iff before s g).mpr ⟨hb, h1, h2⟩]
      rfl
  · intro s v h f k owner c slots hr _ g
    obtain ⟨u, w, hu, rest⟩ := s.frameEnd_follows v h f owner c slots hr g
    exact ⟨u, _, w, (FrameKind.row_exec k h slots s).trans (congrArg Host.Outcome.next hu), State.settle_settled u, rest⟩

end Sys2Proof.Machine
end


section
/-! SUPPORT. What another station's accepted frame leaves of the view and of this station, kind by kind (O51). -/

namespace Sys2Proof.Machine

/-! ### The view -/

section
variable {f : Frame} (v : View)

theorem Frame.viewEffect_join (h : f.kind? = some .join) : f.viewEffect v = v.join f.sender .awaiting f.declarations := by
  unfold Frame.viewEffect
  rw [h]

theorem Frame.viewEffect_roster {rc : RosterContent} (h : f.kind? = some .roster) (hc : f.rosterContent = some rc) :
    f.viewEffect v = v.settle rc.joiner := by
  unfold Frame.viewEffect
  rw [h]
  dsimp only
  rw [hc]

theorem Frame.viewEffect_copy (h : f.kind? = some .copy) : f.viewEffect v =
    v.copied f.copyStation f.segment f.header.offset.toNat f.header.count.toNat f.copyLast := by
  unfold Frame.viewEffect
  rw [h]

theorem Frame.viewEffect_stall (h : f.kind? = some .stall) : f.viewEffect v = v.passOver f.sender f.segment f.stallServer := by
  unfold Frame.viewEffect
  rw [h]

theorem Frame.viewEffect_plain {k : FrameKind} (h : f.kind? = some k) (hk : k ∈ [FrameKind.update, .ask, .give, .empty]) :
    f.viewEffect v = v := by
  unfold Frame.viewEffect
  simp only [List.mem_cons, List.not_mem_nil, or_false] at hk
  rcases hk with rfl | rfl | rfl | rfl <;> rw [h]
end

/-- Who is present after a frame: its owner comes with a JOIN and goes with a LEAVE. -/
theorem Frame.present_owner (f : Frame) (v : View) (k : FrameKind) (h : f.kind? = some k) :
    (∀ x, x ≠ f.sender → (f.viewEffect v).present x = v.present x) ∧
    (k = .leave → (f.viewEffect v).present f.sender = false) ∧ (k = .join → (f.viewEffect v).present f.sender = true) ∧
    (k ≠ .leave → k ≠ .join → (f.viewEffect v).present f.sender = v.present f.sender) := by
  have effect := Frame.present_viewEffect f v
  rw [h] at effect
  refine ⟨fun x hx => ?_, ?_, ?_, fun h1 h2 => ?_⟩
  · have hb : (x == f.sender) = false := beq_eq_false_iff_ne.mpr hx
    rw [effect]
    cases k <;> simp [hb, bne]
  · rintro rfl
    rw [effect]
    simp
  · rintro rfl
    rw [effect]
    simp
  · rw [effect]
    cases k with
    | leave => exact absurd rfl h1
    | join => exact absurd rfl h2
    | roster | stall | update | ask | give | copy | empty => rfl

theorem View.joined_member (v : View) (x : Station) (st : Standing) (ds : Declarations) :
    ∃ m, (v.join x st ds).member x = some m ∧ m.standing = st ∧ ∀ g : Segment, m.declared[g] = ds.lookup g := by
  have hp : ((v.join x st ds).member x).isSome = true := by
    have := View.present_join v x x st ds
    rw [beq_self_eq_true, Bool.true_or] at this
    exact this
  obtain ⟨m, hm⟩ := Option.isSome_iff_exists.mp hp
  obtain ⟨_, _, hst, hd⟩ := View.member_join v x st ds m hm
  refine ⟨m, hm, hst, fun g => ?_⟩
  rw [hd, Fin.getElem_fin, Vector.getElem_ofFn]

theorem View.awaiting_join (v : View) (x : Station) (ds : Declarations) : (v.join x .awaiting ds).awaiting x = true := by
  obtain ⟨m, hm, hst, _⟩ := v.joined_member x .awaiting ds
  unfold View.awaiting
  rw [hm]
  dsimp only
  rw [hst]
  rfl

theorem View.declared_join (v : View) (x : Station) (st : Standing) (ds : Declarations) (g : Segment) :
    (v.join x st ds).declared x g = ds.lookup g := by
  obtain ⟨m, hm, _, hd⟩ := v.joined_member x st ds
  unfold View.declared
  rw [hm]
  exact hd g

theorem View.settled_settle (v : View) (x : Station) (h : v.present x = true) : (v.settle x).settled x = true := by
  obtain ⟨m, hm⟩ := Option.isSome_iff_exists.mp (show (v.member x).isSome = true from h)
  unfold View.settled View.settle
  rw [View.member_modifyMember, if_pos rfl, hm]
  rfl

theorem View.state_copied (v : View) (x : Station) (g : Segment) (first n : Nat) (last : Bool) (cursor : Nat)
    (passed : StationSet) (h : v.state x g = .catching cursor passed) :
    (v.copied x g first n last).state x g = if last then .current else .catching (first + n) passed := by
  have hp : v.present x = true := View.present_of_state (by rw [h]; exact MemberState.noConfusion)
  unfold View.copied
  rw [h]
  dsimp only
  rw [View.state_setState, if_pos ⟨rfl, rfl, hp⟩]

/-- An accepted STALL, by whether it leaves the pair a server. -/
theorem View.state_stall (v : View) (x : Station) (g : Segment) (p : Station) (cursor : Nat) (passed : StationSet)
    (h : v.state x g = .catching cursor passed) (server : v.server x g = some p) :
    ((∃ y, y ≠ x ∧ v.isCurrent y g = true ∧ (passed ||| StationSet.single p).has y = false) →
      (v.passOver x g p).state x g = .catching cursor (passed ||| StationSet.single p)) ∧
    ((∀ y, y ≠ x → v.isCurrent y g = true → (passed ||| StationSet.single p).has y = true) →
      (v.passOver x g p).state x g = .catching cursor 0) := by
  obtain ⟨hst, hspent⟩ := v.state_passOver x g p cursor passed h
  have other : p ≠ x ∧ v.isCurrent p g = true := by
    unfold View.server at server
    rw [h] at server
    have hp := List.find?_some server
    simp only [Bool.and_eq_true, bne_iff_ne] at hp
    exact hp.1
  refine ⟨fun ⟨y, hy, hc, hn⟩ => ?_, fun hall => ?_⟩
  · rw [hst, if_neg]
    rw [hspent]
    rintro ⟨_, hall⟩
    rw [hall y hy hc] at hn
    cases hn
  · rw [hst, if_pos (hspent.mpr ⟨⟨p, other⟩, hall⟩)]

/-! ### This station -/

theorem GoodFrame.sender {s : State} {v : View} {f : Frame} {owner : Station} {c : Fin 4} {slots : Slots}
    (g : GoodFrame s v f owner c slots) : f.sender = owner := by
  obtain ⟨_, hm, _, _⟩ := Judgement.parts g.checks
  exact Frame.sender_of_sound hm

theorem GoodFrame.consistent {s : State} {v : View} {f : Frame} {owner : Station} {c : Fin 4} {slots : Slots}
    (g : GoodFrame s v f owner c slots) : f.inconsistent v = false := by
  obtain ⟨_, _, _, hi⟩ := Judgement.parts g.checks
  unfold State.judgeFrame at hi
  dsimp only at hi
  rw [g.view] at hi
  exact hi

theorem GoodFrame.wellFormed {s : State} {v : View} {f : Frame} {owner : Station} {c : Fin 4} {slots : Slots} {k : FrameKind}
    (g : GoodFrame s v f owner c slots) (hk : f.kind? = some k) : f.kindMalformed k = false := by
  obtain ⟨_, hm, _, _⟩ := Judgement.parts g.checks
  change f.malformed owner c = false at hm
  unfold Frame.malformed at hm
  rw [hk] at hm
  exact (Bool.or_eq_false_iff.mp hm).2

/-- The segments a sound JOIN declares are each declared once. -/
theorem GoodFrame.declared_once {s : State} {v : View} {f : Frame} {owner : Station} {c : Fin 4} {slots : Slots}
    (g : GoodFrame s v f owner c slots) (hk : f.kind? = some .join) : (f.declarations.map Prod.fst).Nodup := by
  have hm := (Bool.or_eq_false_iff.mp (g.wellFormed hk : f.joinMalformed = false)).2
  exact ascendingSegments_nodup f.declarations (by simpa using hm)

theorem GoodFrame.stalledServer {s : State} {v : View} {f : Frame} {owner : Station} {c : Fin 4} {slots : Slots}
    (g : GoodFrame s v f owner c slots) (hk : f.kind? = some .stall) : v.server owner f.segment = some f.stallServer := by
  have hi := g.consistent
  unfold Frame.inconsistent at hi
  rw [hk] at hi
  rw [← g.sender]
  simpa using hi

theorem State.takeGive_group (s : State) (v : View) (f : Frame) : (s.takeGive v f).group = s.group := by
  unfold State.takeGive
  by_cases h : f.giveAsker = s.me ∧ v.isMember s.me f.segment = true
  · rw [if_pos h]
    cases repairFor s.repair f.line with
    | none => rfl
    | some e =>
      dsimp only
      rw [State.enterWrites_group]
      split_ifs <;> rfl
  · rw [if_neg h]

theorem State.takePeerFrame_group {s : State} {v : View} {f : Frame} {k : FrameKind} (hk : f.kind? = some k)
    (h : k ≠ .update) : (s.takePeerFrame v f).group = none := by
  unfold State.takePeerFrame
  rw [hk]
  cases k with
  | update => exact absurd rfl h
  | join =>
    dsimp only
    split_ifs <;> rfl
  | ask =>
    dsimp only [State.takeAsk]
    split_ifs <;> rfl
  | give =>
    exact State.takeGive_group _ v f
  | copy =>
    dsimp only
    unfold State.takeCopy
    dsimp only
    split_ifs
    · rw [State.setFlagIf_group]
      rfl
    · rfl
  | roster | stall | leave | empty => rfl

/-- The frames that enter no writes here. -/
theorem State.takePeerFrame_noWrites {s : State} {v : View} {f : Frame} {k : FrameKind} (hk : f.kind? = some k)
    (h : k ∈ [FrameKind.join, .roster, .stall, .leave, .ask, .empty] ∨
      (k = .give ∧ (f.giveAsker ≠ s.me ∨ v.isMember s.me f.segment = false)) ∨ (k = .copy ∧ f.copyStation ≠ s.me)) :
    (s.takePeerFrame v f).sp = s.sp := by
  unfold State.takePeerFrame
  rw [hk]
  rcases h with h | ⟨rfl, h⟩ | ⟨rfl, h⟩
  · simp only [List.mem_cons, List.not_mem_nil, or_false] at h
    rcases h with rfl | rfl | rfl | rfl | rfl | rfl
    · dsimp only
      split_ifs <;> rfl
    · rfl
    · rfl
    · rfl
    · dsimp only [State.takeAsk]
      split_ifs <;> rfl
    · rfl
  · dsimp only [State.takeGive]
    rw [if_neg]
    rintro ⟨ha, hm⟩
    rcases h with h | h
    · exact h ha
    · rw [show v.isMember s.me f.segment = true from hm] at h
      cases h
  · dsimp only [State.takeCopy]
    rw [if_neg fun hc => h hc.1]

/-- A GIVE to this station for a line it repairs enters its words. -/
theorem State.takePeerFrame_give {s : State} {v : View} {f : Frame} {e : RepairEntry} (hk : f.kind? = some .give)
    (ha : f.giveAsker = s.me) (hm : v.isMember s.me f.segment = true) (he : repairFor s.repair f.line = some e) :
    ∃ r, s.takePeerFrame v f = ({ s with group := none, repair := repairCovered s.repair f.giveWrite, rep := r } :
      State).enterWrites (if f.giveWrite.mask == 0 then [] else [f.giveWrite]) := by
  unfold State.takePeerFrame
  rw [hk]
  dsimp only
  unfold State.takeGive
  rw [if_pos ⟨ha, hm⟩]
  dsimp only
  rw [he]
  dsimp only
  split_ifs
  · exact ⟨_, rfl⟩
  · exact ⟨_, rfl⟩
  · exact ⟨_, rfl⟩
  · exact ⟨_, rfl⟩

theorem Frame.giveWrite_mask (f : Frame) (h : f.giveVoid ≠ 15) : (f.giveWrite.mask == 0) = false := by
  rw [beq_eq_false_iff_ne]
  unfold Frame.giveWrite
  dsimp only
  revert h
  generalize f.giveVoid = m
  revert m
  decide

theorem repairFor_isSome {xs : List RepairEntry} {l : Line} (h : ∃ e ∈ xs, e.line = l) : ∃ e, repairFor xs l = some e := by
  obtain ⟨e, he, hl⟩ := h
  exact Option.isSome_iff_exists.mp (List.find?_isSome.mpr ⟨e, he, beq_iff_eq.mpr hl⟩)

/-- A GIVE that covers the bad words of the only repair entry ends it. -/
theorem repairCovered_all (e : RepairEntry) (f : Frame) (hl : e.line = f.line) (h : e.bad &&& f.giveVoid = 0) :
    repairCovered [e] f.giveWrite = [] := by
  have plain : e.bad &&& ~~~f.giveWrite.plainMask = 0 := by
    have covered : f.giveWrite.plainMask = ~~~f.giveVoid &&& ~~~0 := rfl
    have hm : ~~~(~~~f.giveVoid &&& ~~~0) = f.giveVoid := by
      generalize f.giveVoid = m
      revert m
      decide
    rw [covered, hm, h]
  unfold repairCovered repairCure repairMap
  rw [List.map_cons, List.map_nil, if_pos (show e.line = f.giveWrite.line from hl)]
  dsimp only
  rw [plain]
  rfl

theorem repairCure_nil (ws : List LineWrite) : ws.foldl repairCure [] = [] := by
  induction ws with
  | nil => rfl
  | cons w ws ih => exact ih

theorem State.takePeerFrame_repaired {s : State} {v : View} {f : Frame} {e : RepairEntry} (hk : f.kind? = some .give)
    (ha : f.giveAsker = s.me) (hm : v.isMember s.me f.segment = true) (hr : s.repair = [e]) (hl : e.line = f.line)
    (hb : e.bad &&& f.giveVoid = 0) : (s.takePeerFrame v f).repair = [] := by
  obtain ⟨e', he'⟩ := repairFor_isSome (xs := s.repair) ⟨e, by rw [hr]; exact List.mem_singleton_self e, hl⟩
  obtain ⟨r, htake⟩ := State.takePeerFrame_give hk ha hm he'
  rw [htake]
  show List.foldl repairCure (repairCovered s.repair f.giveWrite) _ = []
  rw [hr, repairCovered_all e f hl hb]
  exact repairCure_nil _

/-- An ASK to this station as responder takes a new place in the give queue. -/
theorem State.takePeerFrame_ask {s : State} {v : View} {f : Frame} (hk : f.kind? = some .ask)
    (hr : v.repairResponder f.sender f.segment = some s.me) (room : s.gives.length < 4)
    (fresh : ∀ e ∈ s.gives, e.asker ≠ f.sender ∨ e.line ≠ f.line) : (s.takePeerFrame v f).gives =
      s.gives ++ [⟨f.sender, f.segment, f.line, .toRead, 0, Vector.replicate 4 0, 0⟩] := by
  have hany : (s.gives.any fun e => e.asker == f.sender && e.line == f.line) = false := by
    rw [List.any_eq_false]
    intro e he
    rw [Bool.and_eq_true, beq_iff_eq, beq_iff_eq]
    exact fun ⟨h1, h2⟩ => (fresh e he).elim (fun h => h h1) fun h => h h2
  unfold State.takePeerFrame
  rw [hk]
  dsimp only
  have taken : ∀ x : State, v.repairResponder f.sender f.segment = some x.me →
      (x.takeAsk v f).gives = giveTake x.gives f.sender f.segment f.line := by
    intro x hx
    unfold State.takeAsk
    rw [if_pos hx]
  refine (taken { s with group := none } hr).trans ?_
  show giveTake s.gives f.sender f.segment f.line = _
  unfold giveTake
  rw [hany, if_neg Bool.false_ne_true, if_pos (show s.gives.length < giveCapacity from room)]

/-- What a JOIN leaves of the states, seen through the counted view. -/
theorem View.state_joinCounted (v d : View) (o x : Station) (sl : Slots) (ds : Declarations) (hn : (ds.map Prod.fst).Nodup)
    (w : View) (hw : w = (v.join x .awaiting ds).countAccepted d o sl) (g : Segment) :
    (ds.lookup g = none → w.state x g = .none) ∧
    (∀ m, ds.lookup g = some m →
      (Clashes v x g m → w.state x g = .mismatch) ∧
      (¬Clashes v x g m → (∃ y, y ≠ x ∧ v.isCurrent y g = true) → w.state x g = .catching 0 0) ∧
      (¬Clashes v x g m → (∀ y, y ≠ x → v.isCurrent y g = false) → w.state x g = .current ∧
        ∀ y cursor passed, y ≠ x → v.state y g = .catching cursor passed → w.state y g = .catching 0 0)) ∧
    ∀ y, y ≠ x → ((∀ cursor passed, v.state y g ≠ .catching cursor passed) → w.state y g = v.state y g) ∧
      (v.present x = false → (ds.lookup g = none ∨ ∃ z, z ≠ x ∧ v.isCurrent z g = true) →
        w.state y g = v.state y g) := by
  subst hw
  simp only [View.state_countAccepted]
  exact v.state_join x .awaiting ds hn g

/-- Settles O51: the view by kind from what the frame's own effect and the counting leave of it, this station by kind from what it
takes, and the rest from the one peer frame end. -/
theorem peerFrameIsTaken : Obligations.PeerFrameIsTaken := by
  unfold Obligations.PeerFrameIsTaken
  intro s v h f k owner c slots hr hk g
  obtain ⟨u, hend, hview, hzero, hown, hpeer, hslot, hflight, hempty, hquiet, hphase⟩ :=
    s.peerFrameEnd v h f owner c slots hr g
  obtain ⟨hsp, hgroup, hgives, hstore, hhealth, hpending, hstation, _, hconfig, hrepair⟩ := hown
  change u.sp = ((s.driven .ack).takePeerFrame v f).sp at hsp
  obtain ⟨_, _, _, ws, hws⟩ := State.takePeerFrame_frame (s.driven .ack) v f
  have hsender := g.sender
  obtain ⟨hothers, hleaves, hjoins, hstays⟩ := f.present_owner v k hk
  obtain ⟨w, hw⟩ : ∃ w, w = (f.viewEffect v).countAccepted v owner slots := ⟨_, rfl⟩
  have hstate : ∀ x i, w.state x i = (f.viewEffect v).state x i := fun x i => by rw [hw, View.state_countAccepted]
  have hdeclared : ∀ x i, w.declared x i = (f.viewEffect v).declared x i := fun x i => by
    rw [hw, View.declared_countAccepted]
  have hsettled : ∀ x, w.settled x = (f.viewEffect v).settled x ∧ w.awaiting x = (f.viewEffect v).awaiting x := fun x => by
    rw [hw]
    exact View.settled_countAccepted _ v owner x slots
  have hpresent : ∀ x, w.present x = (f.viewEffect v).present x := fun x => by rw [hw, View.present_countAccepted]
  rw [← hw] at hview hzero
  refine ⟨u, _, w, (FrameKind.row_exec k h slots s).trans (congrArg Host.Outcome.next hend), State.settle_settled u, hview,
    by rw [hw]; rfl, hzero, fun x hx => (hpresent x).trans (hothers x (by rw [hsender]; exact hx)), ?present, ?join, ?roster,
    ?copy, ?stall, ?joinStates, ?plain, ?update, ?give, ?repaired, ?copied, ?noWrites, ?ask, ?group, hslot, hflight, hempty,
    hquiet, hphase, ?sp, hstore, hhealth, hpending, hstation, hconfig⟩
  case present =>
    rw [hpresent, ← hsender]
    cases k with
    | leave => exact hleaves rfl
    | join => exact hjoins rfl
    | roster | stall | update | ask | give | copy | empty => exact hstays FrameKind.noConfusion FrameKind.noConfusion
  case join =>
    rintro rfl
    rw [← hsender]
    refine ⟨(hsettled f.sender).2.trans ?_, fun i => (hdeclared f.sender i).trans ?_, hpeer hk⟩
    · rw [Frame.viewEffect_join v hk, View.awaiting_join]
    · rw [Frame.viewEffect_join v hk, View.declared_join]
  case roster =>
    rintro rfl rc hrc hp
    rw [(hsettled rc.joiner).1, Frame.viewEffect_roster v hk hrc]
    exact v.settled_settle rc.joiner hp
  case copy =>
    rintro rfl cursor passed hc
    rw [hstate, Frame.viewEffect_copy v hk]
    exact v.state_copied f.copyStation f.segment _ _ _ cursor passed hc
  case stall =>
    rintro rfl cursor passed hc
    rw [hstate, Frame.viewEffect_stall v hk, hsender]
    exact v.state_stall owner f.segment f.stallServer cursor passed hc (g.stalledServer hk)
  case joinStates =>
    rintro rfl i
    rw [Frame.viewEffect_join v hk, hsender] at hw
    exact v.state_joinCounted v owner owner slots f.declarations (g.declared_once hk) w hw i
  case plain =>
    intro hplain x
    have heff := Frame.viewEffect_plain v hk hplain
    exact ⟨by rw [(hsettled x).1, heff], fun i => ⟨by rw [hstate, heff], by rw [hdeclared, heff]⟩⟩
  case update =>
    rintro rfl hg
    rw [hsp, State.takePeerFrame_updateWrites (s.driven .ack) v f hk hg]
    rfl
  case give =>
    rintro rfl ha hm he hv
    obtain ⟨e, he⟩ := repairFor_isSome he
    obtain ⟨r, htake⟩ := State.takePeerFrame_give (s := s.driven .ack) hk ha hm he
    rw [hsp, htake, f.giveWrite_mask hv]
    rfl
  case repaired =>
    rintro rfl ha hm hwalk e he hl hb
    exact hrepair (State.takePeerFrame_repaired (s := s.driven .ack) hk ha hm he hl hb) hwalk
  case copied =>
    rintro rfl hs
    have hm : v.isMember s.me f.segment = true := hs ▸ Frame.copy_member g.consistent hk
    obtain ⟨m, r, htake⟩ := (s.driven .ack).takePeerFrame_copyWrites v f hk hs hm
    rw [hsp, htake]
    rfl
  case noWrites =>
    intro hcase
    rw [hsp, State.takePeerFrame_noWrites (s := s.driven .ack) hk hcase]
    rfl
  case ask =>
    rintro rfl hresp room fresh
    rw [← hsender] at hresp fresh ⊢
    exact hgives.trans (State.takePeerFrame_ask (s := s.driven .ack) hk hresp room fresh)
  case group =>
    exact fun hne => hgroup.trans (State.takePeerFrame_group hk hne)
  case sp =>
    rw [hsp]
    rw [hws]
    rfl

end Sys2Proof.Machine
end


section
/-! SUPPORT. A WRITE held in REPAIR_WAIT, which O57 and O58 do not exclude: the repair list that a frame end changes releases it,
and its new entry stands in the queue behind those the two statements name. -/

namespace Sys2Proof.Machine

/-! ### The state -/

/-- The UPDATE of word 0 of line 0 that this station sends. -/
def ownUpdate : InFlight := ⟨.outbound, composeUpdate 0 0 1 (Vector.replicate 4 0) gposNone 0⟩

/-- A view in which this station alone is present, CURRENT in segment 0. -/
def aloneCurrent : View :=
  { members := (Vector.replicate 16 none).set 0 (some
      { standing := .settled, declared := (Vector.replicate 8 none).set 0 (some 1#16),
        states := (Vector.replicate 8 MemberState.none).set 0 .current, miss := 0, reject := 0 })
    lastWinner := 0 }

/-- Station 0, JOINED and CURRENT in the MIRRORED segment 0, at the end of its UPDATE of line 0, with a repair entry in a segment
that is LOCAL, and a WRITE to line 1 held in REPAIR_WAIT. -/
def heldWrite : State :=
  { State.reset with
    rep := { State.reset.rep with config := State.reset.rep.config.set 1 0x20001#32 }
    view := some aloneCurrent
    join := { State.reset.join with station := .joined }
    bus := { State.reset.bus with
      unit := .following, phase := some .inFrame, owner := some 0, cls := some 1, inFlight := some ownUpdate }
    out := [⟨.update 0 0 1 (Vector.replicate 4 0) true, .sending, 0⟩]
    repair := [⟨1, 2048, 1, .asking .toAsk 0 0 none, .localRead⟩]
    port := ⟨some ⟨.write 7, 4, .repairWait, none, none⟩, none⟩ }

theorem heldWrite_frame : InFrame heldWrite heldWrite.me 1 := ⟨rfl, rfl, rfl, rfl⟩

theorem heldWrite_noQueueWait : heldWrite.NoQueueWait := by
  rintro r hr
  cases hr
  exact Stage.noConfusion

theorem aloneCurrent_present (x : Station) : aloneCurrent.present x = true ↔ x = 0 := by
  revert x
  decide

/-- Accepted, the UPDATE leaves the queue, and the released write enters it. -/
theorem heldWrite_accepted :
    (heldWrite.frameEnd (some ownUpdate.frame.heard) 0).out.length = 1 := by
  decide +kernel

/-- Rejected, the UPDATE stays in the queue, and the released write enters behind it. -/
theorem heldWrite_rejected :
    (heldWrite.frameEnd (some ownUpdate.frame.heard) 2).out.length = 2 := by
  decide +kernel

theorem exec_row_out {k : FrameKind} {h : Heard} {slots : Slots} {s u t : State}
    (he : exec (k.row h slots) s = .next t) (hs : Settled u t) : u.out = (s.frameEnd (some h) slots).out := by
  rw [FrameKind.row_exec] at he
  cases he
  exact hs.out.symm

/-- Refutes O57: the UPDATE of `heldWrite` ends its repair list, the WRITE held in REPAIR_WAIT is judged again and enters the queue,
which is then not the rest of the queue before. -/
theorem not_ownFrameIsTaken : ¬ Obligations.OwnFrameIsTaken := by
  unfold Obligations.OwnFrameIsTaken
  intro holds
  have frame : OwnFrame heldWrite aloneCurrent ownUpdate 1 0 :=
    ⟨heldWrite_frame, rfl, by decide, rfl, fun x hx => ⟨by simp [rejectSlot], fun hne => absurd ((aloneCurrent_present x).mp hx) hne⟩,
      by decide⟩
  obtain ⟨u, t, hexec, hsettled, _, _, _, _, _, _, _, _, _, hupdate, _⟩ := holds _ _ _ _ _ frame
  obtain ⟨hentry, _⟩ := hupdate (by decide) rfl
  obtain ⟨_, hrest⟩ := hentry _ _ _ _ _ _ _ _ rfl
  have hout : u.out = [] := hrest heldWrite_noQueueWait (by simp)
  rw [exec_row_out (hexec .update ownUpdate.frame.heard) hsettled] at hout
  have hlen := heldWrite_accepted
  rw [hout] at hlen
  cases hlen

/-- Refutes O58: the UPDATE of `heldWrite`, rejected, is not alone in the queue, for the repair list changes at that frame end as
well, and the WRITE held in REPAIR_WAIT enters behind it. -/
theorem not_ownRejectionIsRetried : ¬ Obligations.OwnRejectionIsRetried := by
  unfold Obligations.OwnRejectionIsRetried
  intro holds
  have below : (aloneCurrent.countRejected aloneCurrent heldWrite.me 2).BelowLimits := by
    unfold View.BelowLimits
    decide
  obtain ⟨u, t, hexec, hsettled, _, _, _, _, _, _, houtbound, _⟩ :=
    holds heldWrite aloneCurrent _ ownUpdate 1 2 heldWrite_frame rfl (by decide) rfl ⟨0, by decide, by decide⟩ rfl below
      heldWrite_noQueueWait
  obtain ⟨hentry, _⟩ := houtbound rfl (by decide)
  obtain ⟨hretry, _⟩ := hentry _ _ _ _ _ _ _ _ rfl
  have hout := hretry (by decide)
  rw [exec_row_out (hexec .update ownUpdate.frame.heard) hsettled] at hout
  have hlen := heldWrite_rejected
  rw [hout] at hlen
  cases hlen

end Sys2Proof.Machine
end


section
/-! SUPPORT. What going OFFLINE leaves, whatever the station held. -/

namespace Sys2Proof.Machine

/-! ### A walker without a view hands nothing to the repair list -/

theorem State.repairable_outside {s : State} (h : s.heldView = none) (l : Line) : s.repairable l = false := by
  unfold State.repairable State.ownState
  rw [h]
  exact Bool.and_false _

theorem State.handWord_outside {s : State} (h : s.heldView = none) (o : Origin) (l : Line) (i : WordIx) :
    s.handWord o l i = (.lost, s.raise (wordLost o l (WordMask.single i))) := by
  unfold State.handWord
  rw [s.repairable_outside h]
  rfl

theorem State.handStep_outside (l : Line) (is : List WordIx) (s : State) (h : s.heldView = none) :
    (State.handStep l is s).repair = s.repair := by
  induction is generalizing s with
  | nil => rfl
  | cons i is ih =>
    unfold State.handStep
    rw [s.handWord_outside h]
    have raised := (State.raise_quiet s (wordLost .scrub l (WordMask.single i))).mild.heldView.trans h
    exact ih _ raised

theorem State.wakeWalker_outside {s : State} (h : s.heldView = none) : s.wakeWalker.repair = s.repair := by
  unfold State.wakeWalker State.handOn
  split_ifs
  · split
    · exact State.handStep_outside _ _ s h
    · rfl
  · rfl

theorem State.corruptHeldRead_port (s : State) : s.corruptHeldRead = { s with port := s.corruptHeldRead.port } := by
  unfold State.corruptHeldRead
  repeat' split
  all_goals rfl

/-! ### The queue and the chain fall -/

theorem State.discardSpentHead_frame (s : State) :
    s.discardSpentHead = { s with out := s.discardSpentHead.out, rep := s.discardSpentHead.rep } := by
  unfold State.discardSpentHead
  repeat' split
  all_goals rfl

theorem State.abortChain_frame (s : State) :
    s.abortChain = { s with commit := s.abortChain.commit, rep := s.abortChain.rep } := by
  unfold State.abortChain
  split_ifs <;> rfl

theorem State.discardQueue_frame (s : State) : s.discardQueue = { s with out := [], rep := s.discardQueue.rep } := by
  by_cases h : s.out = []
  · rw [State.discardQueue_empty h]
    exact congrArg (fun q => ({ s with out := q } : State)) h
  · unfold State.discardQueue
    rw [if_neg (by simpa using h)]
    rfl

/-! ### The whole -/

/-- What is left where the station has gone OFFLINE. -/
structure Torn (s z : State) (cause : OfflineCause) : Prop where
  bus     : z.bus = (s.teardown cause).bus
  join    : z.join = (s.teardown cause).join
  view    : z.view = none
  group   : z.group = none
  gives   : z.gives = []
  repair  : z.repair = []
  out     : z.out = []
  sp      : z.sp = s.sp
  store   : z.store = s.store
  health  : z.health = s.health
  pending : z.pending = s.pending
  log     : s.rep.log <+: z.rep.log

/-- The state when the queue and the chain have fallen, before the view does. -/
def State.emptied (b s : State) : State := (s.releaseSince b.repair).discardSpentHead.abortChain.discardQueue

theorem State.emptied_bus (b s : State) : (State.emptied b s).bus = s.bus ∧ (State.emptied b s).join = s.join ∧
    (State.emptied b s).out = [] := by
  have released := (State.releaseSince_released s b.repair).frame
  obtain ⟨x, hx⟩ : ∃ x, x = s.releaseSince b.repair := ⟨_, rfl⟩
  rw [← hx] at released
  unfold State.emptied
  rw [← hx, State.discardQueue_frame, State.abortChain_frame, State.discardSpentHead_frame]
  exact ⟨(congrArg State.bus released).trans rfl, (congrArg State.join released).trans rfl, rfl⟩

theorem State.emptied_quiet (b s : State) : Quiet s (State.emptied b s) :=
  (((s.releaseSince_quiet b.repair).trans (State.discardSpentHead_quiet _)).trans (State.abortChain_quiet _)).trans
    (State.discardQueue_quiet _)

/-- Without a view the held requests of an OFFLINE station leave the repair list and the queue as they are. -/
theorem State.answerHeld_outside {y : State} (h : y.heldView = none) :
    (y.wakeWalker.corruptHeldRead.retake .queueWait).bus = y.bus ∧
    (y.wakeWalker.corruptHeldRead.retake .queueWait).join = y.join ∧
    (y.wakeWalker.corruptHeldRead.retake .queueWait).repair = y.repair ∧
    (y.wakeWalker.corruptHeldRead.retake .queueWait).out = y.out := by
  obtain ⟨w, xs, r, hw⟩ := y.wakeWalker_frame
  have hrepair := State.wakeWalker_outside h
  have hc := State.corruptHeldRead_port y.wakeWalker
  have hview : y.wakeWalker.corruptHeldRead.heldView = none := by
    rw [hc, hw]
    exact h
  have ht := State.retake_outside hview .queueWait
  obtain ⟨z, hz⟩ : ∃ z, z = y.wakeWalker.corruptHeldRead.retake .queueWait := ⟨_, rfl⟩
  rw [← hz] at ht ⊢
  rw [ht, hc]
  refine ⟨?_, ?_, hrepair, ?_⟩
  · show y.wakeWalker.bus = y.bus
    rw [hw]
  · show y.wakeWalker.join = y.join
    rw [hw]
  · show y.wakeWalker.out = y.out
    rw [hw]

theorem State.goOffline_torn (b s : State) (cause : OfflineCause) : Torn s (State.goOffline b s cause) cause := by
  obtain ⟨hbus, hjoin, hout⟩ := State.emptied_bus b s
  have hq := State.emptied_quiet b s
  obtain ⟨x, hx⟩ : ∃ x, x = State.emptied b s := ⟨_, rfl⟩
  rw [← hx] at hbus hjoin hout hq
  have hgo : State.goOffline b s cause = ((((((x.teardown cause).setFlag .offline).setFlagIf s.heldView.isSome .peerChange).setFlagIf
      (State.segmentsChanged b (x.teardown cause)) .segmentChange).wakeWalker).corruptHeldRead).retake .queueWait := by
    rw [hx]
    rfl
  obtain ⟨y, hy⟩ : ∃ y, y = ((((x.teardown cause).setFlag .offline).setFlagIf s.heldView.isSome .peerChange).setFlagIf
      (State.segmentsChanged b (x.teardown cause)) .segmentChange) := ⟨_, rfl⟩
  have hflags : Quiet (x.teardown cause) y := by
    rw [hy]
    exact ((State.setFlag_quiet _ _).trans (State.setFlagIf_quiet _ _ _)).trans (State.setFlagIf_quiet _ _ _)
  have hview : y.heldView = none := hflags.mild.heldView.trans rfl
  rw [← hy] at hgo
  obtain ⟨zbus, zjoin, zrepair, zout⟩ := State.answerHeld_outside hview
  have hz : Quiet y (State.goOffline b s cause) := by
    rw [hgo]
    exact ((State.wakeWalker_quiet y).trans (State.corruptHeldRead_quiet _)).trans (State.retake_quiet _ _)
  have hlast : x.lastWinner = s.lastWinner := by
    unfold State.lastWinner
    rw [hq.mild.heldView, hbus]
  have tornBus : (x.teardown cause).bus = (s.teardown cause).bus := by
    unfold State.teardown
    rw [hlast, hbus]
  have tornJoin : (x.teardown cause).join = (s.teardown cause).join := by
    unfold State.teardown
    rw [hjoin]
  have ybus : y.bus = (x.teardown cause).bus := by rw [hy, State.setFlagIf_bus, State.setFlagIf_bus, State.setFlag_bus]
  have yjoin : y.join = (x.teardown cause).join := by rw [hy, State.setFlagIf_join, State.setFlagIf_join, State.setFlag_join]
  have yrepair : y.repair = [] := by rw [hy, State.setFlagIf_repair, State.setFlagIf_repair, State.setFlag_repair]; rfl
  have yout : y.out = x.out := by rw [hy, State.setFlagIf_out, State.setFlagIf_out, State.setFlag_out]; rfl
  rw [← hgo] at zbus zjoin zrepair zout
  exact ⟨(zbus.trans ybus).trans tornBus, (zjoin.trans yjoin).trans tornJoin, hz.mild.view.trans (hflags.mild.view.trans rfl),
    hz.group.trans (hflags.group.trans rfl), hz.gives.trans (hflags.gives.trans rfl), zrepair.trans yrepair,
    zout.trans (yout.trans hout), hz.sp.trans (hflags.sp.trans hq.sp),
    hz.mild.store.trans (hflags.mild.store.trans hq.mild.store), hz.mild.health.trans (hflags.mild.health.trans hq.mild.health),
    hz.mild.pending.trans (hflags.mild.pending.trans hq.mild.pending),
    hq.mild.log.trans (hflags.mild.log.trans hz.mild.log)⟩

end Sys2Proof.Machine
end


section
/-! SUPPORT. What every frame end leaves alone, and the frame end at a station without a view (O59). -/

namespace Sys2Proof.Machine

/-! ### What no conclusion of a frame touches -/

/-- The store, what runs on it, the queue of commands and the slot stand, and the log only grows. -/
structure Calm (s t : State) : Prop where
  sp      : t.sp = s.sp
  store   : t.store = s.store
  health  : t.health = s.health
  pending : t.pending = s.pending
  slot    : t.bus.slot = s.bus.slot
  log     : s.rep.log <+: t.rep.log

theorem Calm.trans {a b c : State} (h : Calm a b) (k : Calm b c) : Calm a c :=
  ⟨k.sp.trans h.sp, k.store.trans h.store, k.health.trans h.health, k.pending.trans h.pending, k.slot.trans h.slot,
    h.log.trans k.log⟩

theorem Quiet.calm {s t : State} (h : Quiet s t) : Calm s t :=
  ⟨h.sp, h.mild.store, h.mild.health, h.mild.pending, h.slot, h.mild.log⟩

theorem Torn.calm {s t : State} {cause : OfflineCause} (h : Torn s t cause) : Calm s t :=
  ⟨h.sp, h.store, h.health, h.pending, (congrArg BusUnit.slot h.bus).trans rfl, h.log⟩

theorem State.takeView_quiet (s : State) (e : Ended) (v during : View) (ms : List Marking) (joined : Bool) :
    Quiet { s with view := some v, group := s.group.filter fun b => !(ms.map Prod.fst).contains b.sender }
      (s.takeView e v during ms joined) :=
  (State.logMarkings_quiet _ _ _).trans (State.setFlagIf_quiet _ _ _)

theorem State.takeView_bus (s : State) (e : Ended) (v during : View) (ms : List Marking) (joined : Bool) :
    (s.takeView e v during ms joined).bus = s.bus := by
  have logged : ∀ (xs : List Marking) (y : State), (y.logMarkings e.owner xs).bus = y.bus := by
    intro xs
    induction xs with
    | nil => exact fun _ => rfl
    | cons x xs ih => exact fun y => ih _
  unfold State.takeView
  rw [State.setFlagIf_bus, logged]

theorem State.afterView_calm (b s : State) (e : Ended) (v : View) (ms : List Marking) (a : Bool) :
    Calm s (State.afterView b s e v ms a) := by
  unfold State.afterView
  split_ifs
  · exact (State.goOffline_torn b s _).calm
  · exact (State.raise_quiet s _).calm.trans (State.goOffline_torn b _ _).calm
  · exact ((State.reactBlocks_quiet b s v).trans (State.afterFrame_quiet _ e a)).calm

theorem State.conclude_calm (b s : State) (e : Ended) (taken during : View) (a l : Bool) :
    Calm s (State.conclude b s e taken during a l) := by
  obtain ⟨sp, store, health, pending, slot, log⟩ := (State.takeView_quiet s e
    ((e.counted taken during a).marked (e.marks s.me (e.counted taken during a) during l)) during
    (e.marks s.me (e.counted taken during a) during l) (e.joins a l)).calm
  exact Calm.trans ⟨sp, store, health, pending, slot, log⟩ (State.afterView_calm b _ e _ _ a)

theorem State.closeFrame_calm (s : State) (c : Fin 4) : Calm s (s.closeFrame c) := by
  refine ⟨rfl, rfl, rfl, rfl, ?_, List.prefix_rfl⟩
  unfold State.closeFrame BusUnit.endFrame
  dsimp only
  split_ifs <;> rfl

theorem State.closeFrame_tracked (s : State) (c : Fin 4) : (s.closeFrame c).bus.tracked = s.bus.tracked := by
  unfold State.closeFrame BusUnit.endFrame
  dsimp only
  split_ifs <;> rfl

theorem State.closeFrame_quietTimer (s : State) (c : Fin 4) :
    (s.closeFrame c).bus.quiet = if s.join.station == .joined then .counting else .stopped := by
  unfold State.closeFrame BusUnit.endFrame
  dsimp only
  split_ifs <;> rfl

/-- The reactions move the copy run alone of the bus unit, and the rosters alone of the join control. -/
theorem State.reactBlocks_parts (b s : State) (v : View) :
    (State.reactBlocks b s v).bus = { s.bus with copyRun := (State.reactBlocks b s v).bus.copyRun } ∧
    (State.reactBlocks b s v).join = { s.join with rosters := (State.reactBlocks b s v).join.rosters } := by
  have reviewed := (State.reviewBlocks_reviewed b s v).frame
  have released := (State.reactBlocks_released b s v).frame
  have hbus : (State.reactBlocks b s v).bus = (State.reviewBlocks b s v).bus := by rw [released]
  have hjoin : (State.reactBlocks b s v).join = (State.reviewBlocks b s v).join := by rw [released]
  rw [hbus, hjoin]
  have bus : (State.reviewBlocks b s v).bus = { s.bus with copyRun := (State.reviewBlocks b s v).bus.copyRun } := by
    rw [reviewed]
  have join : (State.reviewBlocks b s v).join = { s.join with rosters := (State.reviewBlocks b s v).join.rosters } := by
    rw [reviewed]
  exact ⟨bus, join⟩

/-- Behind a frame of another station the bus unit moves its break-in alone. -/
theorem State.afterFrame_peer (s : State) (e : Ended) (a : Bool) (h : e.own = none) :
    s.afterFrame e a = { s with bus := { s.bus with breakIn := e.open && s.urgentPending } } := by
  unfold State.afterFrame
  rw [h]
  rfl

theorem State.heldView_eq {s : State} {v : View} (h : s.inGroup = true) (hv : s.view = some v) : s.heldView = some v := by
  unfold State.heldView
  rw [if_pos h, hv]

theorem View.lastWinner_marked (w : View) (ms : List Marking) : (w.marked ms).lastWinner = w.lastWinner := by
  unfold View.marked
  split_ifs
  · rfl
  · exact View.lastWinner_markAbsent w _

/-- The winner tracked behind a peer's frame is that of the view, or that of before. -/
theorem State.conclude_tracked (b s : State) (e : Ended) (taken during : View) (a l : Bool) (ho : e.own = none)
    (hg : s.inGroup = true) :
    (State.conclude b s e taken during a l).bus.tracked = s.bus.tracked ∨
    (State.conclude b s e taken during a l).bus.tracked = (e.counted taken during a).lastWinner := by
  obtain ⟨w, hw⟩ : ∃ w, w = (e.counted taken during a).marked (e.marks s.me (e.counted taken during a) during l) := ⟨_, rfl⟩
  obtain ⟨t, ht⟩ : ∃ t, t = s.takeView e w during (e.marks s.me (e.counted taken during a) during l) (e.joins a l) := ⟨_, rfl⟩
  have hq := State.takeView_quiet s e w during (e.marks s.me (e.counted taken during a) during l) (e.joins a l)
  rw [← ht] at hq
  have hbus : t.bus = s.bus := by
    rw [ht]
    exact State.takeView_bus s e _ during _ _
  have hheld : t.heldView = some w := State.heldView_eq (hq.mild.inGroup.trans hg) hq.mild.view
  have hlast : ∀ y : State, y.heldView = t.heldView → y.lastWinner = (e.counted taken during a).lastWinner := by
    intro y hy
    unfold State.lastWinner
    rw [hy, hheld, hw]
    exact View.lastWinner_marked _ _
  have hconclude : State.conclude b s e taken during a l = State.afterView b t e w
      (e.marks s.me (e.counted taken during a) during l) a := by
    rw [ht, hw]
    rfl
  rw [hconclude]
  unfold State.afterView
  split_ifs
  · exact Or.inr ((congrArg BusUnit.tracked (State.goOffline_torn b t _).bus).trans (hlast t rfl))
  · exact Or.inr ((congrArg BusUnit.tracked (State.goOffline_torn b _ _).bus).trans
      (hlast _ (State.raise_quiet t _).mild.heldView))
  · left
    rw [State.afterFrame_peer _ _ _ ho]
    have kept : (State.reactBlocks b t w).bus.tracked = t.bus.tracked := by rw [(State.reactBlocks_parts b t w).1]
    exact kept.trans (by rw [hbus])

end Sys2Proof.Machine
end


section
/-! SUPPORT. The frame end at a station without a view (O59). -/

namespace Sys2Proof.Machine

/-! ### The view of a station alone -/

theorem lookup_map_filter {β : Type} (p : Segment → Bool) (f : Segment → β) (xs : List Segment) (g : Segment) (hg : g ∈ xs) :
    ((xs.filter p).map fun i => (i, f i)).lookup g = if p g then some (f g) else none := by
  have out : ∀ ys : List Segment, g ∉ ys → (ys.map fun i => (i, f i)).lookup g = none := by
    intro ys hy
    rw [List.lookup_eq_none_iff]
    rintro ⟨i, b⟩ hi
    obtain ⟨j, hj, he⟩ := List.mem_map.mp hi
    cases he
    have hne : g ≠ i := fun e => hy (e ▸ hj)
    simpa using hne
  have found : ∀ ys : List Segment, g ∈ ys → (ys.map fun i => (i, f i)).lookup g = some (f g) := by
    intro ys
    induction ys with
    | nil => exact fun h => absurd h List.not_mem_nil
    | cons y ys ih =>
      intro h
      rw [List.map_cons, List.lookup_cons]
      by_cases he : g = y
      · rw [he, beq_self_eq_true]
      · rw [beq_eq_false_iff_ne.mpr he]
        exact ih ((List.mem_cons.mp h).resolve_left he)
  cases hp : p g
  · rw [if_neg Bool.false_ne_true]
    exact out _ fun h => by rw [(List.mem_filter.mp h).2] at hp; cases hp
  · rw [if_pos rfl]
    exact found _ (List.mem_filter.mpr ⟨hg, hp⟩)

theorem State.lookup_declarations (s : State) (g : Segment) :
    s.declarations.lookup g = if s.mode g = .mirrored then some (s.mirrorSet g) else none := by
  unfold State.declarations
  rw [lookup_map_filter (fun g => s.mode g == .mirrored) s.mirrorSet segments g (List.mem_finRange g)]
  by_cases h : s.mode g = .mirrored
  · rw [if_pos h, if_pos (beq_iff_eq.mpr h)]
  · rw [if_neg h, if_neg (fun hb => h (beq_iff_eq.mp hb))]

theorem State.declarations_nodup (s : State) : (s.declarations.map Prod.fst).Nodup := by
  unfold State.declarations
  rw [List.map_map]
  have hid : (Prod.fst ∘ fun g => (g, s.mirrorSet g)) = (id : Segment → Segment) := rfl
  rw [hid, List.map_id]
  exact (List.nodup_finRange 8).filter _

/-- The view of a station that joins alone. -/
def State.aloneView (s : State) : View := { View.alone s.me s.declarations with lastWinner := s.me }

theorem State.aloneView_spec (s : State) : s.aloneView.lastWinner = s.me ∧
    (∀ x, s.aloneView.present x = true ↔ x = s.me) ∧ s.aloneView.settled s.me = true ∧
    ∀ g, (s.mode g = .mirrored → s.aloneView.declared s.me g = some (s.mirrorSet g) ∧ s.aloneView.state s.me g = .current) ∧
      (s.mode g ≠ .mirrored → s.aloneView.declared s.me g = none ∧ s.aloneView.state s.me g = .none) := by
  obtain ⟨e, he⟩ : ∃ e : View, e = { members := Vector.replicate 16 none, lastWinner := 15 } := ⟨_, rfl⟩
  have nobody : ∀ x, e.present x = false := by
    intro x
    rw [he]
    unfold View.present View.member
    rw [Fin.getElem_fin, Vector.getElem_replicate]
    rfl
  have noCurrent : ∀ x g, e.isCurrent x g = false := by
    intro x g
    cases h : e.isCurrent x g with
    | false => rfl
    | true =>
      have hp := nobody x
      rw [View.present_of_isCurrent h] at hp
      cases hp
  have noClash : ∀ g m, ¬Clashes e s.me g m := by
    rintro g m ⟨y, _, hy, _⟩
    rw [nobody y] at hy
    cases hy
  have alone : View.alone s.me s.declarations = e.join s.me .settled s.declarations := by
    rw [he]
    rfl
  have hp : ∀ x, s.aloneView.present x = (x == s.me || e.present x) := by
    intro x
    exact (congrArg (fun v : View => v.present x) alone).trans (View.present_join e s.me x .settled s.declarations)
  have hd : ∀ g, s.aloneView.declared s.me g = s.declarations.lookup g := by
    intro g
    exact (congrArg (fun v : View => v.declared s.me g) alone).trans (e.declared_join s.me .settled s.declarations g)
  have hs : ∀ g, s.aloneView.state s.me g = (e.join s.me .settled s.declarations).state s.me g := by
    intro g
    exact (congrArg (fun v : View => v.state s.me g) alone).trans rfl
  refine ⟨rfl, fun x => ?_, ?_, fun g => ⟨fun hm => ?_, fun hm => ?_⟩⟩
  · rw [hp, nobody, Bool.or_false, beq_iff_eq]
  · obtain ⟨m, hm, hst, _⟩ := e.joined_member s.me .settled s.declarations
    refine (congrArg (fun v : View => v.settled s.me) alone).trans ?_
    unfold View.settled
    rw [hm]
    exact beq_iff_eq.mpr hst
  · have hl := (s.lookup_declarations g).trans (if_pos hm)
    refine ⟨(hd g).trans hl, (hs g).trans ?_⟩
    exact (((e.state_join s.me .settled s.declarations s.declarations_nodup g).2.1 _ hl).2.2 (noClash g _)
      fun y _ => noCurrent y g).1
  · have hl := (s.lookup_declarations g).trans (if_neg hm)
    exact ⟨(hd g).trans hl, (hs g).trans ((e.state_join s.me .settled s.declarations s.declarations_nodup g).1 hl)⟩

/-! ### Slots -/

theorem noReject_iff (slots : Slots) : noReject slots = true ↔ ∀ x, rejectSlot slots x = false := by
  unfold noReject
  rw [List.all_eq_true]
  refine ⟨fun h x => by simpa using h x (List.mem_finRange x), fun h x _ => by simpa using h x⟩

theorem noReject_eq_false {slots : Slots} (h : ∃ x, rejectSlot slots x = true) : noReject slots = false := by
  obtain ⟨x, hx⟩ := h
  rw [← Bool.not_eq_true, noReject_iff]
  intro h
  rw [h x] at hx
  cases hx

theorem ackDriven_iff (slots : Slots) (owner : Station) :
    ackDriven slots owner = true ↔ ∃ x, x ≠ owner ∧ ackSlot slots x = true := by
  unfold ackDriven
  rw [List.any_eq_true]
  constructor
  · rintro ⟨x, _, hx⟩
    rw [Bool.and_eq_true, bne_iff_ne] at hx
    exact ⟨x, hx⟩
  · rintro ⟨x, hx⟩
    exact ⟨x, List.mem_finRange x, by rw [Bool.and_eq_true, bne_iff_ne]; exact hx⟩

end Sys2Proof.Machine
end


section
/-! SUPPORT. The frame end at a station without a view, branch by branch (O59). -/

namespace Sys2Proof.Machine

/-- The winner tracked by a station without a view. -/
def State.track (s : State) (e : Ended) : State :=
  if noReject e.slots then { s with bus := { s.bus with tracked := e.owner } } else s

theorem State.track_bus (s : State) (e : Ended) :
    s.track e = { s with bus := { s.bus with tracked := (s.track e).bus.tracked } } ∧
    (s.track e).bus.tracked = if noReject e.slots then e.owner else s.bus.tracked := by
  unfold State.track
  split_ifs <;> exact ⟨rfl, rfl⟩

theorem State.driveSlot_frame (s : State) (e : Ended) :
    ∃ slot r, s.driveSlot e = { s with bus := { s.bus with slot := slot }, rep := r } := by
  unfold State.driveSlot
  dsimp only
  split_ifs
  · exact ⟨_, _, rfl⟩
  · exact ⟨_, _, rfl⟩
  · exact ⟨_, _, rfl⟩
  · exact ⟨_, _, rfl⟩
  · exact ⟨_, _, rfl⟩

theorem State.endFrame_withoutView (s : State) (e : Ended) (h : s.inGroup = false) :
    s.endFrame e = State.settle (((s.driveSlot e).endWithoutView e).closeFrame e.cls) := by
  have held : (s.driveSlot e).heldView = none := by
    rw [State.driveSlot_quietBus]
    unfold State.heldView
    rw [h]
    rfl
  unfold State.endFrame
  dsimp only
  rw [held]
  rfl

/-! ### The branches -/

theorem State.endWithoutView_own {s : State} {e : Ended} {i : InFlight} (h : e.own = some i)
    (hj : s.join.station = .joining ∨ s.join.station = .rosterWait) : s.endWithoutView e = (s.track e).endOwnJoin e := by
  unfold State.endWithoutView State.track
  rw [h]
  cases noReject e.slots with
  | false => rcases hj with hj | hj <;> simp only [hj, Bool.false_eq_true, if_false]
  | true => rcases hj with hj | hj <;> simp only [hj, if_true]

theorem State.endWithoutView_listening {s : State} {e : Ended} (h : e.own = none) (hj : s.join.station = .listening) :
    s.endWithoutView e = (s.track e).beginJoining := by
  unfold State.endWithoutView State.track
  rw [h]
  cases noReject e.slots with
  | false => simp only [hj, Bool.false_eq_true, if_false]
  | true => simp only [hj, if_true]

theorem State.endWithoutView_roster {s : State} {e : Ended} {c : RosterContent} (h : e.own = none)
    (hj : s.join.station = .rosterWait) (hn : noReject e.slots = true) (hc : e.rosterFor s.me = some c) :
    s.endWithoutView e = (s.track e).takeRoster e c := by
  have hc' : e.rosterFor (s.track e).me = some c := by
    rw [(s.track_bus e).1]
    exact hc
  unfold State.track at hc' ⊢
  unfold State.endWithoutView
  rw [hn, if_pos rfl] at hc' ⊢
  rw [h]
  simp only [hj, hc', if_true]

theorem State.endWithoutView_noRoster {s : State} {e : Ended} (h : e.own = none) (hj : s.join.station = .rosterWait)
    (hc : e.rosterFor s.me = none ∨ noReject e.slots = false) : s.endWithoutView e = s.track e := by
  have hme : (s.track e).me = s.me := by
    rw [(s.track_bus e).1]
    rfl
  rw [← hme] at hc
  unfold State.track at hc ⊢
  unfold State.endWithoutView
  rw [h]
  cases hn : noReject e.slots with
  | false =>
    simp only [hj, Bool.false_eq_true, if_false]
    split <;> rfl
  | true =>
    rw [hn, if_pos rfl] at hc
    simp only [hj, hc.resolve_right Bool.noConfusion, if_true]

/-- In the other states nothing but the tracked winner moves. -/
theorem State.endWithoutView_idle {s : State} {e : Ended}
    (h : (e.own = none ∧ s.join.station ≠ .listening ∧ s.join.station ≠ .rosterWait) ∨
      (e.own.isSome = true ∧ s.join.station ≠ .joining ∧ s.join.station ≠ .rosterWait)) :
    s.endWithoutView e = s.track e := by
  unfold State.endWithoutView State.track
  rcases h with ⟨ho, h1, h2⟩ | ⟨ho, h1, h2⟩
  · rw [ho]
    cases hst : s.join.station with
    | listening => exact absurd hst h1
    | rosterWait => exact absurd hst h2
    | config | clocking | filling | joining | joined | leaving | offline =>
      cases noReject e.slots <;> simp only [hst, Bool.false_eq_true, if_false, if_true]
  · obtain ⟨i, hi⟩ := Option.isSome_iff_exists.mp ho
    rw [hi]
    cases hst : s.join.station with
    | joining => exact absurd hst h1
    | rosterWait => exact absurd hst h2
    | config | clocking | filling | listening | joined | leaving | offline =>
      cases noReject e.slots <;> simp only [hst, Bool.false_eq_true, if_false, if_true]

/-- At a station without a view a frame end is one of these. -/
theorem State.endWithoutView_cases (s : State) (e : Ended) : s.endWithoutView e = s.track e ∨
    (s.endWithoutView e = (s.track e).endOwnJoin e) ∨ (s.endWithoutView e = (s.track e).beginJoining) ∨
    (e.own = none ∧ noReject e.slots = true ∧ ∃ c, s.endWithoutView e = (s.track e).takeRoster e c) := by
  cases ho : e.own with
  | some i =>
    by_cases hj : s.join.station = .joining ∨ s.join.station = .rosterWait
    · exact Or.inr (Or.inl (State.endWithoutView_own ho hj))
    · rw [not_or] at hj
      exact Or.inl (State.endWithoutView_idle (Or.inr ⟨by rw [ho]; rfl, hj.1, hj.2⟩))
  | none =>
    by_cases hl : s.join.station = .listening
    · exact Or.inr (Or.inr (Or.inl (State.endWithoutView_listening ho hl)))
    by_cases hw : s.join.station = .rosterWait
    · cases hc : e.rosterFor s.me with
      | none => exact Or.inl (State.endWithoutView_noRoster ho hw (Or.inl hc))
      | some c =>
        cases hn : noReject e.slots with
        | false => exact Or.inl (State.endWithoutView_noRoster ho hw (Or.inr hn))
        | true => exact Or.inr (Or.inr (Or.inr ⟨rfl, rfl, c, State.endWithoutView_roster ho hw hn hc⟩))
    · exact Or.inl (State.endWithoutView_idle (Or.inl ⟨ho, hl, hw⟩))

/-! ### What each branch leaves -/

theorem State.heldView_none {s : State} (h : s.inGroup = false) : s.heldView = none := by
  unfold State.heldView
  rw [h]
  rfl

theorem State.failJoin_torn (s : State) : ∃ y : State, y.heldView = s.heldView ∧ y.bus = s.bus ∧ Calm s y ∧
    Torn y s.failJoin .joinFailed :=
  ⟨_, (State.raise_quiet s _).mild.heldView, rfl, (State.raise_quiet s _).calm, State.goOffline_torn s _ _⟩

theorem State.joinAlone_eq (s : State) : s.joinAlone =
    State.reactBlocks s ((s.enterJoined s.aloneView).logJoin s.aloneView) s.aloneView := rfl

theorem State.logJoin_frame (s : State) (v : View) : (s.logJoin v).bus = s.bus ∧ (s.logJoin v).join = s.join := by
  have raised : ∀ (es : List LogEntry) (y : State), (es.foldl State.raise y).bus = y.bus ∧ (es.foldl State.raise y).join = y.join := by
    intro es
    induction es with
    | nil => exact fun _ => ⟨rfl, rfl⟩
    | cons e es ih => exact fun y => ih _
  exact raised _ s

theorem State.enterJoined_calm (s : State) (v : View) : Calm s (s.enterJoined v) := ⟨rfl, rfl, rfl, rfl, rfl, List.prefix_rfl⟩

theorem State.joined_calm (s : State) (v : View) : Calm s ((s.enterJoined v).logJoin v) :=
  (s.enterJoined_calm v).trans (State.logJoin_quiet _ v).calm

theorem State.joined_bus (s : State) (v : View) : ((s.enterJoined v).logJoin v).bus = s.bus ∧
    ((s.enterJoined v).logJoin v).join =
      { s.join with station := .joined, joinPending := false, rosterTimer := false } :=
  State.logJoin_frame (s.enterJoined v) v

/-- What no branch moves, and the winner it tracks. -/
structure Tracking (s x : State) : Prop where
  calm    : Calm s x
  tracked : x.bus.tracked = s.bus.tracked

theorem State.joinAlone_tracking (s : State) : Tracking s s.joinAlone := by
  have hbus := (s.joined_bus s.aloneView).1
  rw [State.joinAlone_eq]
  refine ⟨(s.joined_calm _).trans (State.reactBlocks_quiet s _ _).calm, ?_⟩
  rw [(State.reactBlocks_parts s ((s.enterJoined s.aloneView).logJoin s.aloneView) s.aloneView).1]
  show ((s.enterJoined s.aloneView).logJoin s.aloneView).bus.tracked = _
  rw [hbus]

theorem State.failJoin_tracking {s : State} (h : s.heldView = none) : Tracking s s.failJoin := by
  obtain ⟨y, hview, hbus, hcalm, torn⟩ := s.failJoin_torn
  refine ⟨hcalm.trans torn.calm, ?_⟩
  rw [torn.bus]
  show y.lastWinner = _
  unfold State.lastWinner
  rw [hview, h, hbus]

theorem State.join_calm (s : State) (j : JoinControl) : Tracking s { s with join := j } :=
  ⟨⟨rfl, rfl, rfl, rfl, rfl, List.prefix_rfl⟩, rfl⟩

theorem Tracking.trans {a b c : State} (h : Tracking a b) (k : Tracking b c) : Tracking a c :=
  ⟨h.calm.trans k.calm, k.tracked.trans h.tracked⟩

/-- The state in which the end of a JOIN is judged. -/
def State.attempted (s : State) (accepted : Nat) (pending : Bool) : State :=
  { s with join := { s.join with attempts := s.join.attempts + 1, accepted := accepted, joinPending := pending } }

theorem State.endOwnJoin_eq (s : State) (e : Ended) : s.endOwnJoin e =
    if noReject e.slots then
      if ackDriven e.slots e.owner then
        { s with join := { s.join with
            station := .rosterWait, attempts := s.join.attempts + 1, accepted := s.join.accepted + 1, joinPending := false
            rosterTimer := true } }
      else (s.attempted (s.join.accepted + 1) s.join.joinPending).joinAlone
    else if s.join.attempts + 1 < joinLimit then s.attempted s.join.accepted true
    else (s.attempted s.join.accepted false).failJoin := by
  unfold State.endOwnJoin
  cases hn : noReject e.slots with
  | true =>
    simp only [Bool.not_true, Bool.false_eq_true, if_false, if_true]
    rfl
  | false =>
    by_cases h : s.join.attempts + 1 < joinLimit
    · simp only [Bool.not_false, Bool.false_eq_true, if_false, if_true, h, decide_true]
      rfl
    · simp only [Bool.not_false, Bool.false_eq_true, if_false, if_true, h, decide_false]
      rfl

theorem State.endOwnJoin_tracking {s : State} (h : s.inGroup = false) (e : Ended) : Tracking s (s.endOwnJoin e) := by
  rw [State.endOwnJoin_eq]
  split_ifs
  · exact s.join_calm _
  · exact (s.join_calm _).trans (State.joinAlone_tracking _)
  · exact s.join_calm _
  · exact (s.join_calm _).trans (State.failJoin_tracking (State.heldView_none h))

theorem State.takeRoster_eq (s : State) (e : Ended) (c : RosterContent) : s.takeRoster e c =
    State.conclude s ((s.enterJoined c.view).logJoin c.view) e (c.view.settle s.me) c.view true false := rfl

theorem State.takeRoster_calm (s : State) (e : Ended) (c : RosterContent) : Calm s (s.takeRoster e c) :=
  (s.joined_calm c.view).trans (State.conclude_calm s _ e _ _ true false)

theorem State.takeRoster_tracked (s : State) (e : Ended) (c : RosterContent) (ho : e.own = none)
    (ht : s.bus.tracked = e.owner) : (s.takeRoster e c).bus.tracked = e.owner := by
  have hg : ((s.enterJoined c.view).logJoin c.view).inGroup = true := by
    unfold State.inGroup
    rw [(s.joined_bus c.view).2]
    rfl
  have hwin : (e.counted (c.view.settle s.me) c.view true).lastWinner = e.owner := rfl
  rw [State.takeRoster_eq]
  rcases State.conclude_tracked s _ e (c.view.settle s.me) c.view true false ho hg with h | h
  · rw [h, (s.joined_bus c.view).1, ht]
  · rw [h, hwin]

/-- What the frame end of a station without a view leaves in every branch. -/
theorem State.endWithoutView_leaves (s : State) (e : Ended) (h : s.inGroup = false) : Calm s (s.endWithoutView e) ∧
    (s.endWithoutView e).bus.tracked = if noReject e.slots then e.owner else s.bus.tracked := by
  obtain ⟨hframe, htrack⟩ := s.track_bus e
  have calm : Calm s (s.track e) := by
    rw [hframe]
    exact ⟨rfl, rfl, rfl, rfl, rfl, List.prefix_rfl⟩
  have hg : (s.track e).inGroup = false := by
    rw [hframe]
    exact h
  rcases s.endWithoutView_cases e with hx | hx | hx | ⟨ho, hn, c, hx⟩
  · rw [hx]
    exact ⟨calm, htrack⟩
  · rw [hx]
    obtain ⟨hc, ht⟩ := State.endOwnJoin_tracking hg e
    exact ⟨calm.trans hc, ht.trans htrack⟩
  · rw [hx]
    obtain ⟨hc, ht⟩ := (s.track e).join_calm
      { (s.track e).join with station := .joining, attempts := 0, accepted := 0, joinPending := true }
    exact ⟨calm.trans hc, ht.trans htrack⟩
  · rw [hx]
    refine ⟨calm.trans (State.takeRoster_calm _ e c), ?_⟩
    rw [hn] at htrack ⊢
    exact State.takeRoster_tracked _ e c ho htrack

end Sys2Proof.Machine
end


section
/-! SUPPORT. A station that takes its ROSTER, or joins alone, and the settlement of O59. -/

namespace Sys2Proof.Machine

/-! ### The ROSTER taken -/

theorem State.takeView_unmarked (s : State) (e : Ended) (v during : View) (joined : Bool) :
    s.takeView e v during [] joined = ({ s with view := some v } : State).setFlagIf
      (joined || v.presentSet != during.presentSet) .peerChange := by
  have hg : (s.group.filter fun b => !(([] : List Marking).map Prod.fst).contains b.sender) = s.group := by
    cases s.group <;> rfl
  unfold State.takeView
  rw [hg]
  rfl

/-- With no count at a limit, a JOINED station takes the counted view and its blocks react to it. -/
theorem State.conclude_joined (before s : State) (e : Ended) (taken during w : View) (accepted : Bool)
    (hw : w = e.counted taken during accepted) (hb : w.BelowLimits) (hp : w.present s.me = true)
    (hst : s.join.station = .joined) : ∃ c : Bool, State.conclude before s e taken during accepted false =
      (State.reactBlocks before (({ s with view := some w } : State).setFlagIf c .peerChange) w).afterFrame e accepted := by
  have hm : e.marks s.me w during false = [] := by
    unfold Ended.marks withLostReject
    rw [View.limits_nil _ _ _ _ hb]
    rfl
  obtain ⟨c, hc⟩ : ∃ c, c = (e.joins accepted false || w.presentSet != during.presentSet) := ⟨_, rfl⟩
  obtain ⟨t, ht⟩ : ∃ t, t = ({ s with view := some w } : State).setFlagIf c .peerChange := ⟨_, rfl⟩
  have hconclude : State.conclude before s e taken during accepted false = State.afterView before t e w [] accepted := by
    unfold State.conclude
    dsimp only
    rw [← hw, hm, ht, hc, ← State.takeView_unmarked]
    rfl
  have hme : t.me = s.me := by
    rw [ht]
    exact (State.setFlagIf_quiet _ _ _).mild.me
  have hjoin : t.join = s.join := by rw [ht, State.setFlagIf_join]
  refine ⟨c, ?_⟩
  rw [hconclude, ← ht]
  unfold State.afterView
  rw [hme, hp, hjoin, hst, if_neg (by simp), if_neg (fun h => StationState.noConfusion h.1)]

theorem View.member_settle (v : View) (x y : Station) :
    (v.settle x).member y = if y = x then (v.member y).map fun m => { m with standing := .settled } else v.member y := by
  unfold View.settle
  exact View.member_modifyMember v x y _

theorem View.state_settle (v : View) (x y : Station) (g : Segment) : (v.settle x).state y g = v.state y g ∧
    (v.settle x).declared y g = v.declared y g := by
  unfold View.state View.declared
  rw [View.member_settle]
  cases v.member y <;> by_cases h : y = x
  all_goals simp [h]

/-- What the taking of a ROSTER that all acknowledge leaves. -/
theorem State.takeRoster_joins (s : State) (e : Ended) (c : RosterContent) (ho : e.own = none)
    (hack : AllAcknowledge c.view e.owner e.slots) (hp : c.view.present s.me = true) :
    (s.takeRoster e c).join.station = .joined ∧ (s.takeRoster e c).join.joinPending = false ∧
    (s.takeRoster e c).join.rosterTimer = false ∧ StatusFlag.joined.isIn (s.takeRoster e c).rep.flags = true ∧
    StatusFlag.peerChange.isIn (s.takeRoster e c).rep.flags = true ∧
    (s.takeRoster e c).view = some ((c.view.settle s.me).countAccepted c.view e.owner e.slots) := by
  obtain ⟨w, hw⟩ : ∃ w, w = (c.view.settle s.me).countAccepted c.view e.owner e.slots := ⟨_, rfl⟩
  obtain ⟨t, ht⟩ : ∃ t, t = (s.enterJoined c.view).logJoin c.view := ⟨_, rfl⟩
  have hentered : Quiet (s.enterJoined c.view) t := by
    rw [ht]
    exact State.logJoin_quiet _ c.view
  have hjoin : t.join = { s.join with station := .joined, joinPending := false, rosterTimer := false } := by
    rw [ht]
    exact (s.joined_bus c.view).2
  have hzero : ∀ x m, w.member x = some m → m.miss = 0 ∧ m.reject = 0 := by
    rw [hw]
    refine View.counts_zero (c.view.settle s.me) c.view e.owner e.slots hack fun x m hm hx => ?_
    have hpx : (c.view.settle s.me).present x = true := by
      unfold View.present
      rw [hm]
      rfl
    rw [View.present_settle, hx] at hpx
    cases hpx
  have hbelow : w.BelowLimits := fun x m hm => by
    obtain ⟨h1, h2⟩ := hzero x m hm
    rw [h1, h2]
    exact ⟨by decide, by decide⟩
  have hme : t.me = s.me := hentered.mild.me
  have hpw : w.present t.me = true := by
    rw [hw, hme, View.present_countAccepted, View.present_settle]
    exact hp
  obtain ⟨flag, hconclude⟩ := State.conclude_joined s t e (c.view.settle s.me) c.view w true hw hbelow hpw
    (by rw [hjoin])
  obtain ⟨y, hy⟩ : ∃ y, y = ({ t with view := some w } : State).setFlagIf flag .peerChange := ⟨_, rfl⟩
  have hroster : s.takeRoster e c = (State.reactBlocks s y w).afterFrame e true := by
    rw [State.takeRoster_eq, ← ht, hconclude, hy]
  have hquiet : Quiet y (s.takeRoster e c) := by
    rw [hroster]
    exact (State.reactBlocks_quiet s y w).trans (State.afterFrame_quiet _ e true)
  have hflagged : Quiet ({ t with view := some w } : State) y := by
    rw [hy]
    exact State.setFlagIf_quiet _ _ _
  have hlast : (s.takeRoster e c).join = { y.join with rosters := (s.takeRoster e c).join.rosters } := by
    rw [hroster, State.afterFrame_peer _ _ _ ho]
    exact (State.reactBlocks_parts s y w).2
  have hyjoin : y.join = t.join := by rw [hy, State.setFlagIf_join]
  have flags : ∀ f : StatusFlag, f.isIn (s.enterJoined c.view).rep.flags = true → f.isIn (s.takeRoster e c).rep.flags = true :=
    fun f hf => hquiet.mild.flags f (hflagged.mild.flags f (hentered.mild.flags f hf))
  refine ⟨?_, ?_, ?_, flags _ ?_, flags _ ?_, ?_⟩
  · rw [hlast, hyjoin, hjoin]
  · rw [hlast, hyjoin, hjoin]
  · rw [hlast, hyjoin, hjoin]
  · exact (State.setFlag_quiet _ .peerChange).mild.flags _ (StatusFlag.isIn_mask .joined _)
  · exact StatusFlag.isIn_mask .peerChange _
  · rw [hquiet.mild.view, hflagged.mild.view, hw]

/-- The view of a ROSTER taken: that of the image, with this station SETTLED. -/
theorem View.settled_roster (v d : View) (o x : Station) (sl : Slots) (hp : v.present x = true) (w : View)
    (hw : w = (v.settle x).countAccepted d o sl) : w.lastWinner = o ∧ (∀ y, w.present y = v.present y) ∧
      w.settled x = true ∧ ∀ y g, w.state y g = v.state y g ∧ w.declared y g = v.declared y g := by
  subst hw
  refine ⟨rfl, fun y => ?_, ?_, fun y g => ⟨?_, ?_⟩⟩
  · rw [View.present_countAccepted, View.present_settle]
  · rw [(View.settled_countAccepted _ d o x sl).1]
    exact v.settled_settle x hp
  · rw [View.state_countAccepted]
    exact (v.state_settle x y g).1
  · rw [View.declared_countAccepted]
    exact (v.state_settle x y g).2

/-! ### The joiner alone -/

theorem State.joinAlone_joins (s : State) : s.joinAlone.join.station = .joined ∧ s.joinAlone.join.joinPending = false ∧
    s.joinAlone.join.rosterTimer = false ∧ s.joinAlone.view = some s.aloneView := by
  have hjoin := (s.joined_bus s.aloneView).2
  have hlast := (State.reactBlocks_parts s ((s.enterJoined s.aloneView).logJoin s.aloneView) s.aloneView).2
  have hview := (State.reactBlocks_quiet s ((s.enterJoined s.aloneView).logJoin s.aloneView) s.aloneView).mild.view.trans
    (State.logJoin_quiet (s.enterJoined s.aloneView) s.aloneView).mild.view
  rw [State.joinAlone_eq, hlast, hjoin]
  exact ⟨rfl, rfl, rfl, hview⟩

/-- What the end of this station's own JOIN leaves. -/
theorem State.endOwnJoin_spec (s : State) (e : Ended) :
    ((∃ x, rejectSlot e.slots x = true) → s.join.attempts + 1 < 3 →
      (s.endOwnJoin e).join = { s.join with attempts := s.join.attempts + 1, joinPending := true } ∧
      (s.endOwnJoin e).view = s.view) ∧
    ((∃ x, rejectSlot e.slots x = true) → s.join.attempts = 2 →
      (s.endOwnJoin e).join.station = .offline ∧ (s.endOwnJoin e).join.cause = some .joinFailed ∧
      (s.endOwnJoin e).view = none) ∧
    ((∀ x, rejectSlot e.slots x = false) → (∃ x, x ≠ e.owner ∧ ackSlot e.slots x = true) →
      (s.endOwnJoin e).join = { s.join with
        station := .rosterWait, attempts := s.join.attempts + 1, accepted := s.join.accepted + 1, joinPending := false
        rosterTimer := true } ∧ (s.endOwnJoin e).view = s.view) ∧
    ((∀ x, rejectSlot e.slots x = false) → (∀ x, x ≠ e.owner → ackSlot e.slots x = false) →
      (s.endOwnJoin e).join.station = .joined ∧ (s.endOwnJoin e).join.joinPending = false ∧
      (s.endOwnJoin e).join.rosterTimer = false ∧ (s.endOwnJoin e).view = some s.aloneView) := by
  refine ⟨fun hr hn => ?_, fun hr hn => ?_, fun hr ha => ?_, fun hr ha => ?_⟩
  · rw [State.endOwnJoin_eq, noReject_eq_false hr, if_neg Bool.false_ne_true, if_pos (show _ < joinLimit from hn)]
    exact ⟨rfl, rfl⟩
  · rw [State.endOwnJoin_eq, noReject_eq_false hr, if_neg Bool.false_ne_true,
      if_neg (show ¬_ < joinLimit by rw [hn]; decide)]
    obtain ⟨y, _, _, _, torn⟩ := (s.attempted s.join.accepted false).failJoin_torn
    exact ⟨(congrArg JoinControl.station torn.join).trans rfl, (congrArg JoinControl.cause torn.join).trans rfl, torn.view⟩
  · rw [State.endOwnJoin_eq, (noReject_iff e.slots).mpr hr, if_pos rfl, if_pos ((ackDriven_iff e.slots e.owner).mpr ha)]
    exact ⟨rfl, rfl⟩
  · have hno : ¬ackDriven e.slots e.owner = true := by
      rw [ackDriven_iff]
      rintro ⟨x, hx, hax⟩
      rw [ha x hx] at hax
      cases hax
    rw [State.endOwnJoin_eq, (noReject_iff e.slots).mpr hr, if_pos rfl, if_neg hno]
    exact (s.attempted (s.join.accepted + 1) s.join.joinPending).joinAlone_joins

end Sys2Proof.Machine
end


section
/-! SUPPORT. The settlement of O59. -/

namespace Sys2Proof.Machine

/-- Whatever was heard of a frame, its end is one event. -/
theorem frameEnd_exec (s : State) (heard : Option Heard) (slots : Slots) :
    (heard = none → exec (.damagedFrame slots) s = .next (s.frameEnd heard slots)) ∧
    (∀ h k, heard = some h → exec (FrameKind.row k h slots) s = .next (s.frameEnd heard slots)) := by
  refine ⟨?_, fun h k => ?_⟩
  · rintro rfl
    exact damagedFrame_exec s slots
  · rintro rfl
    exact FrameKind.row_exec k h slots s

/-- A LISTENING station drives no slot. -/
theorem State.driveSlot_listening {s : State} (e : Ended) (hg : s.inGroup = false) (hj : s.join.station = .listening) :
    s.driveSlot e = s := by
  have hv : s.validates = false := by
    unfold State.validates
    rw [hg, hj]
    rfl
  unfold State.driveSlot
  rw [hv, Bool.and_false]
  rfl

theorem State.closeFrame_frame (s : State) (c : Fin 4) : s.closeFrame c = { s with bus := (s.closeFrame c).bus } := rfl

theorem State.joinAtListening (s : State) (e : Ended) (hg : s.inGroup = false) (h : e.own = none)
    (hj : s.join.station = .listening) : ∃ b, (s.driveSlot e).endWithoutView e =
      { s with bus := b, join := { s.join with station := .joining, attempts := 0, accepted := 0, joinPending := true } } := by
  refine ⟨(s.track e).bus, ?_⟩
  rw [State.driveSlot_listening e hg hj, State.endWithoutView_listening h hj]
  unfold State.beginJoining
  rw [(s.track_bus e).1]

/-- The member a sound ROSTER names is present in its image. -/
theorem State.judged_roster {s : State} {f : Frame} {owner : Station} {c : Fin 4} {rc : RosterContent}
    (hm : (s.judgeFrame (some f) owner c).marks = false) (hk : f.kind? = some .roster) (hc : f.rosterContent = some rc) :
    rc.view.present rc.joiner = true := by
  obtain ⟨_, hmal, _, _⟩ := Judgement.parts hm
  change f.malformed owner c = false at hmal
  unfold Frame.malformed at hmal
  rw [hk] at hmal
  have hr : f.rosterMalformed = false := (Bool.or_eq_false_iff.mp hmal).2
  unfold Frame.rosterMalformed at hr
  rw [hc] at hr
  dsimp only at hr
  rw [Bool.or_eq_false_iff, Bool.or_eq_false_iff] at hr
  have hw : rc.view.awaiting rc.joiner = true := by simpa using hr.1.1
  unfold View.awaiting at hw
  unfold View.present
  cases h : rc.view.member rc.joiner with
  | none =>
    rw [h] at hw
    cases hw
  | some m => rfl

theorem Ended.rosterFor_of {e : Ended} {f : Frame} {rc : RosterContent} {me : Station} (hf : e.frame = some f)
    (hk : f.kind? = some .roster) (hm : e.judged.marks = false) (hc : f.rosterContent = some rc) (hj : rc.joiner = me) :
    e.rosterFor me = some rc := by
  unfold Ended.rosterFor
  rw [hf]
  dsimp only
  rw [if_pos ⟨hk, by rw [hm]; rfl⟩, hc]
  exact Option.filter_eq_some_iff.mpr ⟨rfl, beq_iff_eq.mpr hj⟩

theorem State.rosterWait_drives {s : State} {e : Ended} (hj : s.join.station = .rosterWait) (ho : e.own = none)
    (hm : e.judged.marks = false) : s.driveSlot e = s.driven .ack := by
  refine State.driveSlot_sound s e ?_ ho hm
  unfold State.validates
  rw [hj]
  exact Bool.or_true _

/-- Settles O59: the branches of the frame end without a view, each by its own lemma. -/
theorem stationsWithoutAView : Obligations.StationsWithoutAView := by
  unfold Obligations.StationsWithoutAView
  intro s owner c heard slots hin hg
  obtain ⟨e, he⟩ : ∃ e, e = s.ended owner c heard slots := ⟨_, rfl⟩
  have hslots : e.slots = slots ∧ e.owner = owner ∧ e.cls = c := by
    rw [he]
    unfold State.ended
    cases s.bus.inFlight <;> exact ⟨rfl, rfl, rfl⟩
  obtain ⟨hsl, hown, hcls⟩ := hslots
  obtain ⟨slot, r, hdrive⟩ := s.driveSlot_frame e
  have hg1 : (s.driveSlot e).inGroup = false := by rw [hdrive]; exact hg
  obtain ⟨calm, htracked⟩ := (s.driveSlot e).endWithoutView_leaves e hg1
  obtain ⟨x, hx⟩ : ∃ x, x = (s.driveSlot e).endWithoutView e := ⟨_, rfl⟩
  rw [← hx] at calm htracked
  have hend : s.frameEnd heard slots = State.settle (x.closeFrame c) := by
    rw [State.frameEnd_inFrame s owner c heard slots hin, ← he, State.endFrame_withoutView s e hg, ← hx, hcls]
  have closed := calm.trans (x.closeFrame_calm c)
  obtain ⟨hdamaged, hrow⟩ := frameEnd_exec s heard slots
  refine ⟨_, hdamaged, hrow, x.closeFrame c, by rw [hend]; exact State.settle_settled _, ?tracked,
    closed.store.trans (by rw [hdrive]), closed.health.trans (by rw [hdrive]), closed.pending.trans (by rw [hdrive]),
    closed.sp.trans (by rw [hdrive]), ?listening, ?own, ?roster⟩
  case tracked =>
    rw [State.closeFrame_tracked, htracked, hsl, hown, hdrive]
    by_cases h : ∀ y, rejectSlot slots y = false
    · rw [if_pos h, if_pos ((noReject_iff slots).mpr h)]
    · rw [if_neg h, if_neg (fun hn => h ((noReject_iff slots).mp hn))]
  case listening =>
    intro hj hf
    have ho : e.own = none := by
      rw [he, State.ended_peer s owner c heard slots hf]
      rfl
    obtain ⟨b, hb⟩ := s.joinAtListening e hg ho hj
    rw [← hx] at hb
    have hjoin : x.join = { s.join with station := .joining, attempts := 0, accepted := 0, joinPending := true } := by rw [hb]
    refine ⟨hjoin, ?_⟩
    rw [State.closeFrame_frame x c, hb]
  case own =>
    intro i hf hj
    have ho : e.own = some i := by rw [he, State.ended_own s owner c heard slots i hf]
    have hxj : x = (s.track e).endOwnJoin e := by
      rw [hx, State.driveSlot_own s e i ho]
      exact State.endWithoutView_own ho hj
    have hview : (s.track e).view = s.view := by rw [(s.track_bus e).1]
    have hjc : (s.track e).join = s.join := by rw [(s.track_bus e).1]
    have hrep : (s.track e).rep = s.rep := by rw [(s.track_bus e).1]
    have halone : (s.track e).aloneView = s.aloneView := by
      rw [(s.track_bus e).1]
      rfl
    obtain ⟨again, failed, waits, alone⟩ := (s.track e).endOwnJoin_spec e
    rw [← hxj, hsl, hjc, hview] at again waits
    rw [← hxj, hsl, hjc] at failed
    rw [← hxj, hsl, halone] at alone
    rw [hown] at waits alone
    refine ⟨again, failed, waits, fun hr ha => ?_⟩
    obtain ⟨hst, hpending, htimer, hxv⟩ := alone hr ha
    refine ⟨hst, hpending, htimer, ?_, s.aloneView, hxv, s.aloneView_spec⟩
    rw [State.closeFrame_quietTimer, hst]
    rfl
  case roster =>
    intro f rc hf hfl hj hm hk hc hjoiner hr hack
    have hpeer : e = s.endedPeer (some f) owner c slots := by
      rw [he, State.ended_peer s owner c heard slots hfl, hf]
    have ho : e.own = none := by rw [hpeer]; rfl
    have hmarks : e.judged.marks = false := by rw [hpeer]; exact hm
    have hfor : e.rosterFor s.me = some rc := Ended.rosterFor_of (by rw [hpeer]; rfl) hk hmarks hc hjoiner
    have hdr : s.driveSlot e = s.driven .ack := State.rosterWait_drives hj ho hmarks
    have hxr : x = ((s.driven .ack).track e).takeRoster e rc := by
      rw [hx, hdr]
      exact State.endWithoutView_roster ho hj (by rw [hsl]; exact (noReject_iff slots).mpr hr) hfor
    have hme : ((s.driven .ack).track e).me = s.me := by
      rw [((s.driven .ack).track_bus e).1]
      rfl
    have hpresent : rc.view.present s.me = true := hjoiner ▸ State.judged_roster hm hk hc
    obtain ⟨hst, hpending, htimer, hjf, hpf, hview⟩ := ((s.driven .ack).track e).takeRoster_joins e rc ho
      (by rw [hown, hsl]; exact hack) (by rw [hme]; exact hpresent)
    rw [← hxr] at hst hpending htimer hjf hpf hview
    rw [hme, hown, hsl] at hview
    refine ⟨closed.slot.trans (by rw [hdr]; rfl), hst, hpending, htimer, ?_, hjf, hpf, _, hview,
      View.settled_roster rc.view rc.view owner s.me slots hpresent _ rfl⟩
    rw [State.closeFrame_quietTimer, hst]
    rfl

end Sys2Proof.Machine
end


section
/-! SUPPORT. A frame of another station that some check marks (O56). -/

namespace Sys2Proof.Machine

/-! ### The counts of a rejected frame -/

theorem View.atFault_mem (v : View) (o : Station) (sl : Slots) (x : Station) (hx : v.present x = true) :
    ((∃ a, Acknowledged v o sl a) → ((v.atFault o sl).contains x = true ↔ rejectSlot sl x = true)) ∧
    ((∀ a, ¬Acknowledged v o sl a) → ((v.atFault o sl).contains x = true ↔ x = o)) := by
  have mem : ∀ p : Station → Bool, (v.presentList.filter p).contains x = true ↔ p x = true := by
    intro p
    rw [List.contains_iff_mem, List.mem_filter, View.mem_presentList]
    exact ⟨fun h => h.2, fun h => ⟨hx, h⟩⟩
  have he := v.ackers_isEmpty o sl
  unfold View.atFault
  refine ⟨fun ⟨a, ha⟩ => ?_, fun hno => ?_⟩
  · rw [if_neg (fun h => he.mp h a ha)]
    exact mem _
  · rw [if_pos (he.mpr hno), mem, beq_iff_eq]

theorem View.ackers_mem (v : View) (o : Station) (sl : Slots) (x : Station) :
    (v.ackers o sl).contains x = true ↔ Acknowledged v o sl x := by
  unfold View.ackers Acknowledged droveAck
  rw [List.contains_iff_mem, List.mem_filter, View.mem_presentList]
  simp only [Bool.and_eq_true, bne_iff_ne, Bool.not_eq_true']

/-- What a rejected frame makes of a present member (R111). -/
theorem View.member_countRejected (v : View) (o x : Station) (sl : Slots) (m : Member) (hm : v.member x = some m) :
    ∃ n, (v.countRejected v o sl).member x = some { m with reject := n } ∧
      ((∃ a, Acknowledged v o sl a) →
        n = if rejectSlot sl x then m.reject + 1 else if x ≠ o ∧ ackSlot sl x then 0 else m.reject) ∧
      ((∀ a, ¬Acknowledged v o sl a) → n = if x = o then m.reject + 1 else m.reject) := by
  have hx : v.present x = true := by
    unfold View.present
    rw [hm]
    rfl
  obtain ⟨fault, alone⟩ := v.atFault_mem o sl x hx
  have hack := v.ackers_mem o sl x
  refine ⟨if (v.atFault o sl).contains x then m.reject + 1 else if (v.ackers o sl).contains x then 0 else m.reject, ?_,
    fun hex => ?_, fun hno => ?_⟩
  · unfold View.countRejected
    rw [View.member_mapMembers, hm, Option.map_some]
    split_ifs <;> rfl
  · by_cases hr : rejectSlot sl x = true
    · rw [if_pos ((fault hex).mpr hr), if_pos hr]
    · rw [if_neg (fun h => hr ((fault hex).mp h)), if_neg hr]
      by_cases ha : x ≠ o ∧ ackSlot sl x = true
      · rw [if_pos (hack.mpr ⟨hx, ha.1, ha.2, Bool.eq_false_iff.mpr hr⟩), if_pos ha]
      · rw [if_neg (fun h => ha ⟨(hack.mp h).2.1, (hack.mp h).2.2.1⟩), if_neg ha]
  · have hna : ¬(v.ackers o sl).contains x = true := fun h => hno x (hack.mp h)
    by_cases ho : x = o
    · rw [if_pos ((alone hno).mpr ho), if_pos ho]
    · rw [if_neg (fun h => ho ((alone hno).mp h)), if_neg hna, if_neg ho]

/-! ### A REJECT that is lost -/

theorem mem_of_lookup_marking {ms : List Marking} {x : Station} {cause : OfflineCause} (h : ms.lookup x = some cause) :
    (x, cause) ∈ ms := by
  induction ms with
  | nil => cases h
  | cons m ms ih =>
    obtain ⟨y, k⟩ := m
    rw [List.lookup_cons] at h
    cases hxy : x == y with
    | true =>
      rw [hxy] at h
      cases h
      rw [eq_of_beq hxy]
      exact List.mem_cons_self
    | false =>
      rw [hxy] at h
      exact List.mem_cons_of_mem _ (ih h)

theorem lookup_filterMap_keyed (f : Station → Option OfflineCause) (xs : List Station) (x : Station) (hx : x ∈ xs) :
    (xs.filterMap fun y => (f y).map fun c => (y, c)).lookup x = f x := by
  induction xs with
  | nil => cases hx
  | cons y ys ih =>
    by_cases hxy : x = y
    · rw [hxy]
      cases hf : f y with
      | none =>
        rw [List.filterMap_cons_none (by rw [hf]; rfl), List.lookup_eq_none_iff]
        rintro ⟨z, k⟩ hz
        obtain ⟨z', hz', he⟩ := List.mem_filterMap.mp hz
        obtain ⟨k', hk', he⟩ := Option.map_eq_some_iff.mp he
        cases he
        have hne : y ≠ z := by
          rintro rfl
          rw [hf] at hk'
          cases hk'
        simpa using hne
      | some c =>
        rw [List.filterMap_cons_some (b := (y, c)) (by rw [hf]; rfl), List.lookup_cons, beq_self_eq_true]
    · have hmem := (List.mem_cons.mp hx).resolve_left hxy
      cases hf : f y with
      | none => rw [List.filterMap_cons_none (by rw [hf]; rfl), ih hmem]
      | some c =>
        rw [List.filterMap_cons_some (b := (y, c)) (by rw [hf]; rfl), List.lookup_cons, beq_eq_false_iff_ne.mpr hxy, ih hmem]

/-- A station whose REJECT was lost is marked with MISSED, unless the limits mark it with another cause (R108). -/
theorem lookup_withLostReject (ms : List Marking) (me : Station) (h : ∀ cause, (me, cause) ∈ ms → cause = .missed) :
    (withLostReject ms me true).lookup me = some .missed := by
  unfold withLostReject
  by_cases hc : (ms.map Prod.fst).contains me = true
  · rw [if_neg (by rw [hc]; simp)]
    cases hl : ms.lookup me with
    | none =>
      rw [lookup_marking_none] at hl
      exact absurd (List.contains_iff_mem.mp hc) hl
    | some cause => rw [h cause (mem_of_lookup_marking hl)]
  · rw [if_pos (by rw [Bool.eq_false_iff.mpr hc]; rfl)]
    have keyed : (fun x => if x = me then some (me, OfflineCause.missed) else (ms.lookup x).map fun c => (x, c)) =
        fun x => (if x = me then some OfflineCause.missed else ms.lookup x).map fun c => (x, c) := by
      funext x
      by_cases hx : x = me
      · rw [if_pos hx, if_pos hx, hx]
        rfl
      · rw [if_neg hx, if_neg hx]
    rw [keyed, lookup_filterMap_keyed _ stations me (List.mem_finRange me), if_pos rfl]

theorem lookup_some_contains {ms : List Marking} {x : Station} {cause : OfflineCause} (h : ms.lookup x = some cause) :
    (ms.map Prod.fst).contains x = true :=
  List.contains_iff_mem.mpr (List.mem_map_of_mem (mem_of_lookup_marking h))

/-- Below the limits, an accepted frame brings a station to its miss limit alone. -/
theorem View.limits_missed (v : View) (o : Station) (sl : Slots) (h : v.BelowLimits) (x : Station) (cause : OfflineCause)
    (hx : (x, cause) ∈ (v.countAccepted v o sl).limits v o sl) : cause = .missed := by
  obtain ⟨m, hm, hcase⟩ := (View.mem_limits _ v o sl x cause).mp hx
  rcases hcase with ⟨_, rfl⟩ | ⟨_, hr, _⟩
  · rfl
  · rw [View.member_countAccepted] at hm
    obtain ⟨k, hk, hkm⟩ := Option.map_eq_some_iff.mp hm
    have hlow : k.reject < 4 := (h x k hk).2
    have hreject : m.reject ≤ k.reject := by
      rw [← hkm]
      unfold Member.countAccepted
      split_ifs
      · exact Nat.zero_le _
      · exact le_rfl
      · exact le_rfl
    omega

end Sys2Proof.Machine
end


section
/-! SUPPORT. The branches of a marked frame's end, and the settlement of O56. -/

namespace Sys2Proof.Machine

/-! ### The branches -/

/-- A peer's frame that is accepted though it could not be read: this station's REJECT was lost. -/
theorem State.endWithView_lost (s : State) (v : View) (e : Ended) (ha : v.accepts e.slots = true) (ho : e.own = none)
    (hu : e.judged.unreadable = true) : s.endWithView v e = State.conclude s s e v v true true := by
  unfold State.endWithView
  rw [ha, ho, hu]
  rfl

/-- Whatever becomes of a peer's frame, the store, the queue of commands and the slot stand, and the log only grows. -/
theorem State.endWithView_peer (s : State) (v : View) (e : Ended) (ho : e.own = none) :
    (s.endWithView v e).store = s.store ∧ (s.endWithView v e).health = s.health ∧
    (s.endWithView v e).pending = s.pending ∧ (s.endWithView v e).bus.slot = s.bus.slot ∧
    s.rep.log <+: (s.endWithView v e).rep.log := by
  have parts {t : State} (h : Calm s t) : t.store = s.store ∧ t.health = s.health ∧ t.pending = s.pending ∧
      t.bus.slot = s.bus.slot ∧ s.rep.log <+: t.rep.log := ⟨h.store, h.health, h.pending, h.slot, h.log⟩
  cases ha : v.accepts e.slots with
  | false =>
    rw [s.endWithView_rejected v e ha ho]
    exact parts (State.conclude_calm _ _ _ _ _ _ _)
  | true =>
    cases hu : e.judged.unreadable with
    | true =>
      rw [s.endWithView_lost v e ha ho hu]
      exact parts (State.conclude_calm _ _ _ _ _ _ _)
    | false =>
      cases hf : e.frame with
      | none =>
        have hnone : s.endWithView v e = State.conclude s s e v v true false := by
          unfold State.endWithView
          rw [ha, ho, hu, hf]
          rfl
        rw [hnone]
        exact parts (State.conclude_calm _ _ _ _ _ _ _)
      | some f =>
        rw [s.endWithView_taken v e f ha ho hf hu]
        have hmild := s.takePeerFrame_mild v f
        have hbus := (s.takePeerFrame_frame v f).1
        have calm := State.conclude_calm s (s.takePeerFrame v f) e (f.viewEffect v) v true false
        exact ⟨calm.store.trans hmild.store, calm.health.trans hmild.health, calm.pending.trans hmild.pending,
          calm.slot.trans (congrArg BusUnit.slot hbus), hmild.log.trans calm.log⟩

/-- A station that marks itself goes OFFLINE. -/
theorem State.conclude_self (b s : State) (e : Ended) (taken during : View) (a l : Bool) (cause : OfflineCause)
    (hms : (e.marks s.me (e.counted taken during a) during l).lookup s.me = some cause) (hg : s.inGroup = true) :
    ∃ y : State, Calm s y ∧ y.bus = s.bus ∧ y.lastWinner = (e.counted taken during a).lastWinner ∧
      Torn y (State.conclude b s e taken during a l) cause := by
  obtain ⟨ms, hm⟩ : ∃ ms, ms = e.marks s.me (e.counted taken during a) during l := ⟨_, rfl⟩
  obtain ⟨w, hw⟩ : ∃ w, w = (e.counted taken during a).marked ms := ⟨_, rfl⟩
  obtain ⟨t, ht⟩ : ∃ t, t = s.takeView e w during ms (e.joins a l) := ⟨_, rfl⟩
  rw [← hm] at hms
  have hq := State.takeView_quiet s e w during ms (e.joins a l)
  rw [← ht] at hq
  have hbus : t.bus = s.bus := by
    rw [ht]
    exact State.takeView_bus s e _ during _ _
  have hme : t.me = s.me := hq.mild.me
  have habsent : w.present t.me = false := by
    rw [hw, hme, View.present_marked, lookup_some_contains hms]
    rfl
  have hconclude : State.conclude b s e taken during a l = State.goOffline b t cause := by
    have hafter : State.conclude b s e taken during a l = State.afterView b t e w ms a := by
      rw [ht, hw, hm]
      rfl
    rw [hafter]
    unfold State.afterView
    rw [habsent, if_pos (by rfl), hme, hms]
    rfl
  have hlast : t.lastWinner = (e.counted taken during a).lastWinner := by
    unfold State.lastWinner
    rw [State.heldView_eq (hq.mild.inGroup.trans hg) hq.mild.view, hw]
    exact View.lastWinner_marked _ _
  have calm := hq.calm
  refine ⟨t, ⟨calm.sp, calm.store, calm.health, calm.pending, calm.slot, calm.log⟩, hbus, hlast, ?_⟩
  rw [hconclude]
  exact State.goOffline_torn b t cause

/-- What the driving of REJECT at a marked frame leaves. -/
theorem State.driveSlot_rejects {s : State} {v : View} {e : Ended} (hv : s.heldView = some v) (ho : e.own = none)
    (hm : e.judged.marks = true) : (s.driveSlot e).bus.slot = some .reject ∧ ((s.driveSlot e).heldView = some v ∧
      (s.driveSlot e).me = s.me) ∧
    (e.judged.duplicate = true → Logged s (s.driveSlot e) [⟨.duplicateNumber, .bus, none, none, some s.me, e.cls.val⟩]) := by
  have hd := State.driveSlot_marked s e (State.validates_of_heldView hv) ho hm
  refine ⟨?_, ⟨(s.driveSlot_mild e).heldView.trans hv, (s.driveSlot_mild e).me⟩, fun hdup hroom => ?_⟩
  · rw [hd]
    split_ifs <;> rfl
  · rw [hd, if_pos hdup, State.raise_taken (s := s.driven .reject) _
      (show s.rep.log.length < 4 by simpa using hroom)]
    exact List.prefix_rfl

/-- Settles O56: rejected, accepted although unreadable, and accepted although a duplicate or inconsistent. -/
theorem damagedFrameMovesCounts : Obligations.DamagedFrameMovesCounts := by
  unfold Obligations.DamagedFrameMovesCounts
  intro s v w heard owner c slots hin hv hself hfl hl hmarks
  obtain ⟨e, he⟩ : ∃ e, e = s.endedPeer (heard.bind readFrame) owner c slots := ⟨_, rfl⟩
  have ho : e.own = none := by rw [he]; rfl
  have hsl : e.slots = slots := by rw [he]; rfl
  have hown : e.owner = owner := by rw [he]; rfl
  have hcls : e.cls = c := by rw [he]; rfl
  have hjudged : e.judged = s.judgeFrame (heard.bind readFrame) owner c := by rw [he]; rfl
  obtain ⟨slot, r, hframe⟩ := s.driveSlot_frame e
  obtain ⟨hslot, ⟨hheld, hme⟩, hdup⟩ := State.driveSlot_rejects hv ho (by rw [hjudged]; exact hmarks)
  have hlog := (s.driveSlot_mild e).log
  obtain ⟨d, hd⟩ : ∃ d, d = s.driveSlot e := ⟨_, rfl⟩
  rw [← hd] at hframe hslot hheld hme hdup hlog
  have hdsp : d.sp = s.sp := by rw [hframe]
  have hdjoin : d.join = s.join := by rw [hframe]
  obtain ⟨_, hin'⟩ := State.view_of_heldView hheld
  obtain ⟨hstore, hhealth, hpending, hxslot, hxlog⟩ := d.endWithView_peer v e ho
  obtain ⟨x, hx⟩ : ∃ x, x = d.endWithView v e := ⟨_, rfl⟩
  rw [← hx] at hstore hhealth hpending hxslot hxlog
  have hend : s.frameEnd heard slots = State.settle (x.closeFrame c) := by
    rw [State.frameEnd_inFrame s owner c heard slots hin, State.ended_peer s owner c heard slots hfl, ← he,
      State.endFrame_withView s v e hv, ← hd, ← hx, hcls]
  have closed := x.closeFrame_calm c
  obtain ⟨hdamaged, hrow⟩ := frameEnd_exec s heard slots
  refine ⟨_, hdamaged, hrow, x.closeFrame c, by rw [hend]; exact State.settle_settled _,
    closed.slot.trans (hxslot.trans hslot), hstore.trans (by rw [hframe]), hhealth.trans (by rw [hframe]),
    hpending.trans (by rw [hframe]), ?rejected, ?lost, ?read⟩
  case rejected =>
    rintro hrej rfl hbelow
    have hxr : x = State.conclude d d e v v false false := by
      rw [hx]
      exact State.endWithView_rejected d v e (by rw [hsl]; exact View.accepts_eq_false v slots hrej) ho
    have hcount : e.counted v v false = v.countRejected v owner slots := by rw [he]; rfl
    obtain ⟨quiet, _⟩ := State.conclude_quiet d d e v v false (by rw [hcount]; exact hbelow)
      (by rw [Ended.present_counted, hme]; exact hself) (by rw [hdjoin]; exact hl)
    rw [← hxr, hcount] at quiet
    refine ⟨quiet.mild.view, quiet.sp.trans hdsp, quiet.group.trans ?_, quiet.gives.trans ?_, quiet.mild.station.trans ?_,
      rfl, fun y => ?_, fun y m hm => v.member_countRejected owner y slots m hm⟩
    · rw [hframe]
    · rw [hframe]
    · rw [hframe]
    · rw [← hcount]
      exact Ended.present_counted e v false y
  case lost =>
    intro hrej hbelow hunread
    have hxl : x = State.conclude d d e v v true true := by
      rw [hx]
      exact State.endWithView_lost d v e (by rw [hsl]; exact (v.accepts_iff slots).mpr hrej) ho (by rw [hjudged]; exact hunread)
    have hcount : e.counted v v true = v.countAccepted v owner slots := by rw [he]; rfl
    have hmarked : (e.marks d.me (e.counted v v true) v true).lookup d.me = some .missed := by
      refine lookup_withLostReject _ d.me fun cause hc => ?_
      rw [hcount, hown, hsl] at hc
      exact v.limits_missed owner slots hbelow d.me cause hc
    obtain ⟨y, calm, _, hlast, torn⟩ := State.conclude_self d d e v v true true .missed hmarked hin'
    rw [← hxl] at torn
    rw [hcount] at hlast
    have hstation : x.join.station = .offline := (congrArg JoinControl.station torn.join).trans rfl
    refine ⟨(torn.sp.trans calm.sp).trans hdsp, hstation, (congrArg JoinControl.cause torn.join).trans rfl, torn.view,
      torn.group, torn.gives, torn.repair, torn.out, ?_, ?_⟩
    · rw [State.closeFrame_tracked, torn.bus]
      exact hlast
    · rw [State.closeFrame_quietTimer, hstation]
      rfl
  case read =>
    intro f hf hmal
    rw [hf] at hjudged
    have hef : e.frame = some f := by rw [he]; exact hf
    have hread : e.judged.unreadable = false := by
      rw [hjudged]
      exact hmal
    have taken (hack : AllAcknowledge v owner slots) :
        x = State.conclude d (d.takePeerFrame v f) e (f.viewEffect v) v true false := by
      rw [hx]
      exact State.endWithView_taken d v e f (by rw [hsl]; exact (v.accepts_iff slots).mpr fun y hy => (hack y hy).1) ho hef hread
    refine ⟨fun hsender => ?_, fun hack hk hg => ?_, fun hack hk hs hnot => ?_⟩
    · have hduplicate : e.judged.duplicate = true := by
        rw [hjudged]
        exact beq_iff_eq.mpr hsender
      rw [hcls] at hdup
      exact fun hroom => (hdup hduplicate hroom).trans hxlog
    · have heffect := f.viewEffect_update v hk
      have hxt := taken hack
      rw [heffect] at hxt
      have hcount : e.counted v v true = v.countAccepted v owner slots := by rw [he]; rfl
      have hzero := View.counts_zero v v owner slots hack fun y m hm hp => by
        unfold View.present at hp
        rw [hm] at hp
        cases hp
      have hmild := d.takePeerFrame_mild v f
      have hleave := (d.takePeerFrame_frame v f).2.1
      obtain ⟨quiet, _⟩ := State.conclude_quiet d (d.takePeerFrame v f) e v v true
        (by
          rw [hcount]
          intro y m hm
          obtain ⟨h1, h2⟩ := hzero y m hm
          rw [h1, h2]
          exact ⟨by decide, by decide⟩)
        (by rw [Ended.present_counted, hmild.me, hme]; exact hself) (by rw [hleave, hdjoin]; exact hl)
      rw [← hxt, hcount] at quiet
      refine ⟨quiet.sp.trans ?_, quiet.mild.station.trans (hmild.station.trans (by rw [hdjoin])), _, quiet.mild.view, rfl, hzero⟩
      show (d.takePeerFrame v f).sp = _
      rw [State.takePeerFrame_updateWrites d v f hk hg, hme]
      rw [State.enterWrites_sp]
      dsimp only
      rw [hdsp]
    · have hsame : (d.takePeerFrame v f).sp = d.sp := by
        unfold State.takePeerFrame
        rw [hk]
        dsimp only
        unfold State.takeCopy
        rw [if_neg]
        rintro ⟨_, hm⟩
        change v.isMember d.me f.segment = true at hm
        rw [hme, hnot] at hm
        cases hm
      have calm := State.conclude_calm d (d.takePeerFrame v f) e (f.viewEffect v) v true false
      rw [← taken hack] at calm
      exact (calm.sp.trans hsame).trans hdsp

end Sys2Proof.Machine
end


section
/-! SUPPORT. The ends of the held requests' waits, and the settlement of O45. -/

namespace Sys2Proof.Machine

/-! ### A request judged again -/

/-- A write to a segment of which the station is CURRENT or CATCHING enters the queue, if the queue takes it. -/
theorem State.judge_queues {s : State} {r : Request} {d : Word} {q : List OutEntry} (hd : r.direction = .write d)
    (hj : s.join.station = .joined) (hf : s.fillPending r.segment = false)
    (hl : s.localState r.segment = .current ∨ s.localState r.segment = .catching)
    (hq : queueTake s.commit.staging s.out r.line r.word d = some q) :
    s.judge r = ({ s with out := q } : State).answer .done 0 := by
  have offer : s.offerWrite r d = ({ s with out := q } : State).answer .done 0 := by
    unfold State.offerWrite
    rw [hq]
  have write : s.judgeWrite r d = s.offerWrite r d := by
    unfold State.judgeWrite
    rcases hl with hl | hl <;> rw [hl] <;> exact if_pos hj
  unfold State.judge State.judgeSegment
  rw [hj, hf, hd]
  exact write.trans offer

/-- A request whose segment waits for its fill is held for it. -/
theorem State.judge_fills {s : State} {r : Request} (hj : s.join.station = .filling) (hf : s.fillPending r.segment = true) :
    s.judge r = s.holdRequest r .fillWait := by
  unfold State.judge State.judgeSegment
  rw [hj, hf]
  rfl

/-! ### What a release leaves of the port -/

theorem State.releaseRead_other {s : State} (h : ∀ r, s.port.request = some r → r.stage ≠ .repairWait) : s.releaseRead = s := by
  unfold State.releaseRead
  cases hr : s.port.request with
  | none => rfl
  | some r => exact if_neg (h r hr)

theorem State.wakeWalker_port (s : State) : s.wakeWalker.port = s.port := by
  obtain ⟨w, xs, r, h⟩ := s.wakeWalker_frame
  rw [h]

/-- A request that waits for neither a word nor a slot stands through a release. -/
theorem State.releaseSince_keeps (s : State) (before : List RepairEntry)
    (h : ∀ r, s.port.request = some r → r.stage ≠ .repairWait ∧ r.stage ≠ .slotWait) :
    (s.releaseSince before).port = s.port ∧ (s.releaseSince before).out = s.out := by
  have held : ∀ room, (s.releaseHeld room).port = s.port ∧ (s.releaseHeld room).out = s.out := by
    intro room
    have hread := State.releaseRead_other fun r hr => (h r hr).1
    unfold State.releaseHeld
    rw [hread]
    dsimp only
    split
    · have hport : (s.releaseJobs room).wakeWalker.port = s.port := State.wakeWalker_port _
      have hout : (s.releaseJobs room).wakeWalker.out = s.out := State.wakeWalker_out _
      rw [State.retake_other _ _ fun r hr => (h r (by rw [← hport]; exact hr)).2]
      exact ⟨hport, hout⟩
    · exact ⟨rfl, rfl⟩
  unfold State.releaseSince
  split_ifs
  · exact ⟨rfl, rfl⟩
  · exact held _

/-- A read whose entry has gone is judged again. -/
theorem State.releaseHeld_judges {s : State} {r : Request} (room : Bool) (hw : s.walker.state ≠ .held)
    (hr : s.port.request = some r) (hst : r.stage = .repairWait) (hgone : repairFor s.repair r.line = none)
    (after : ∀ r', (s.judge r).port.request = some r' → r'.stage = .storeWait) :
    (s.releaseHeld room).port = (s.judge r).port := by
  have hread : s.releaseRead = s.judge r := by
    unfold State.releaseRead
    rw [hr]
    dsimp only
    rw [if_pos hst, hgone]
  obtain ⟨p, o, hj⟩ := s.judge_portAndQueue r
  have hwalk : (s.judge r).walker.state ≠ .held := by
    rw [hj]
    exact hw
  unfold State.releaseHeld
  rw [hread]
  dsimp only
  split
  · rw [State.wakeWalker_same (show (State.releaseJobs (s.judge r) room).walker.state ≠ .held from hwalk)]
    rw [State.retake_other _ _ fun r' h' => by rw [after r' h']; exact Stage.noConfusion]
    rfl
  · rfl

/-- A read that waits for a slot is judged again at room. -/
theorem State.releaseHeld_retakes {s : State} {r : Request} (hw : s.walker.state ≠ .held)
    (hr : s.port.request = some r) (hst : r.stage = .slotWait) :
    s.releaseHeld true = (s.releaseJobs true).judge r := by
  have hread : s.releaseRead = s := State.releaseRead_other fun r' h' => by
    rw [hr] at h'
    cases h'
    rw [hst]
    exact Stage.noConfusion
  unfold State.releaseHeld
  rw [hread]
  dsimp only
  rw [if_pos rfl, State.wakeWalker_same (show (s.releaseJobs true).walker.state ≠ .held from hw)]
  exact State.retake_held hr hst

/-! ### The start -/

/-- START_WAIT ends at the entry to FILLING. -/
theorem State.startWait_ends {s : State} {r : Request} (hr : s.port.request = some r) (hst : r.stage = .startWait)
    (hj : s.join.station = .clocking) (hc : s.rep.clock = .switching) :
    ∃ t, exec .busClockSwitchDone s = .next t ∧
      (s.store.marker = .invalid ∨ s.fillFlag r.segment = true → t.port.request = some { r with stage := .fillWait }) ∧
      (s.store.marker = .valid → s.fillFlag r.segment = false → RequestJudged s r t.port) := by
  have done : exec .busClockSwitchDone s = .next s.busReady.enterFilling.settle := congrArg _ (if_pos ⟨hj, hc⟩)
  obtain ⟨x, hx⟩ : ∃ x, x = s.busReady.fillingEntered := ⟨_, rfl⟩
  have hreq : x.port.request = some r := by rw [hx]; exact hr
  have hfilling : x.join.station = .filling := by rw [hx]; rfl
  have hfill : x.sp.fill[r.segment] = if s.store.marker == .invalid || s.fillFlag r.segment then .waiting else .none := by
    rw [hx]
    exact Vector.getElem_ofFn _
  have hentered : s.busReady.enterFilling = (x.judge r).leaveFilling := by
    rw [State.enterFilling_eq, ← hx, State.retake_held hreq hst]
  obtain ⟨m, w, st, hleft, _⟩ := (x.judge r).leaveFilling_frame
  have hport : s.busReady.enterFilling.settle.port = (x.judge r).port := by
    rw [(State.settle_settled _).port, hentered, hleft]
  have hnoView : s.heldView = none := State.heldView_none (by unfold State.inGroup; rw [hj]; rfl)
  have hnoView' : x.heldView = none := by rw [hx]; rfl
  have hconfig : x.rep.config = s.rep.config := by rw [hx]; rfl
  refine ⟨_, done, fun hcold => ?_, fun hvalid hflag => ?_⟩
  · have hwaiting : x.sp.fill[r.segment] = .waiting := by
      rw [hfill, if_pos]
      rcases hcold with h | h
      · rw [h]
        rfl
      · rw [h, Bool.or_true]
    rw [hport, State.judge_fills hfilling (State.fillPending_true (.inl hwaiting)), State.holdRequest_port]
  · have hfree : x.sp.fill[r.segment] = .none := by
      rw [hfill, hvalid, hflag]
      rfl
    rw [hport]
    refine (State.judge_judged s x r ?_ (State.fillPending_false (by rw [hfree]; nofun) (by rw [hfree]; nofun))
      (State.localState_outside hnoView hnoView' hconfig) (by rw [hx]; rfl) fun g => ?_).1
    · unfold State.started
      rw [hfilling]
      rfl
    · unfold State.ownCursor State.ownState
      rw [hnoView, hnoView']

end Sys2Proof.Machine
end


section
/-! SUPPORT. The held requests at a frame end and at the repair timer, and the settlement of O45. -/

namespace Sys2Proof.Machine

/-- Counting alone changes no local state and no cursor. -/
theorem State.localState_counted {s t : State} {v : View} {o : Station} {sl : Slots} (hs : s.heldView = some v)
    (ht : t.heldView = some (v.countAccepted v o sl)) (config : t.rep.config = s.rep.config) (g : Segment) :
    t.localState g = s.localState g ∧ t.ownCursor g = s.ownCursor g := by
  have me : t.me = s.me := by rw [State.me, State.me, Reporting.field, Reporting.field, config]
  have mode : t.mode g = s.mode g := by rw [State.mode, State.mode, Reporting.descriptor, Reporting.descriptor, config]
  constructor
  · rw [State.localState, State.localState, mode, hs, ht, me]
    dsimp only
    rw [View.localState_countAccepted]
  · exact State.ownCursor_of_ownState (State.ownState_of_state hs ht me (fun i => View.state_countAccepted v v o s.me sl i) g)

/-- The judgements of the blocks leave what a held request is judged by. -/
theorem State.reviewBlocks_keeps (b s : State) (v : View) :
    (State.reviewBlocks b s v).port = s.port ∧ (State.reviewBlocks b s v).sp = s.sp ∧
    (State.reviewBlocks b s v).commit = s.commit ∧ (State.reviewBlocks b s v).walker = s.walker ∧
    (State.reviewBlocks b s v).join.station = s.join.station ∧ ∀ g, (State.reviewBlocks b s v).localState g = s.localState g ∧
      (State.reviewBlocks b s v).ownCursor g = s.ownCursor g := by
  have reviewed := State.reviewBlocks_reviewed b s v
  refine ⟨?_, ?_, ?_, ?_, ?_, fun g => ⟨reviewed.localState g, State.ownCursor_of_ownState (reviewed.ownState g)⟩⟩
  all_goals rw [reviewed.frame]

theorem State.started_of_inGroup {s : State} (h : s.inGroup = true) : s.started = true := by
  unfold State.inGroup at h
  unfold State.started
  rcases Bool.or_eq_true_iff.mp h with h | h
  · rw [eq_of_beq h]
    rfl
  · rw [eq_of_beq h]
    rfl

/-! ### QUEUE_WAIT -/

/-- The reactions put a write held in QUEUE_WAIT into a queue that takes it. -/
theorem State.reactBlocks_queues {b s : State} {v : View} {r : Request} {d : Word} {q : List OutEntry}
    (hr : s.port.request = some r) (hst : r.stage = .queueWait) (hd : r.direction = .write d)
    (hj : s.join.station = .joined) (hf : s.fillPending r.segment = false)
    (hl : s.localState r.segment = .current ∨ s.localState r.segment = .catching)
    (hsame : ∀ g, b.localState g = s.localState g) (hatt : ∀ e ∈ s.out, e.attempts < frameRetryLimit)
    (hq : queueTake s.commit.staging s.out r.line r.word d = some q) :
    (State.reactBlocks b s v).port = answered .done 0 ∧ (State.reactBlocks b s v).out = q := by
  obtain ⟨yport, ysp, ycommit, _, ystation, ylocal⟩ := State.reviewBlocks_keeps b s v
  have yout := State.reviewBlocks_out b s v hsame hatt
  obtain ⟨y, hy⟩ : ∃ y, y = State.reviewBlocks b s v := ⟨_, rfl⟩
  rw [← hy] at yport ysp ycommit ystation ylocal yout
  have stage : ∀ r', y.port.request = some r' → r'.stage ≠ .repairWait ∧ r'.stage ≠ .slotWait := by
    intro r' h'
    rw [yport, hr] at h'
    cases h'
    rw [hst]
    exact ⟨Stage.noConfusion, Stage.noConfusion⟩
  obtain ⟨zport, zout⟩ := y.releaseSince_keeps b.repair stage
  have zquiet := State.releaseSince_quiet y b.repair
  have zframe := (State.releaseSince_released y b.repair).frame
  obtain ⟨z, hz⟩ : ∃ z, z = y.releaseSince b.repair := ⟨_, rfl⟩
  rw [← hz] at zport zout zquiet zframe
  have zcommit : z.commit = y.commit := by rw [zframe]
  have zrequest : z.port.request = some r := by rw [zport, yport, hr]
  have zpending : z.fillPending r.segment = false := by
    unfold State.fillPending at hf ⊢
    rw [zquiet.sp, ysp]
    exact hf
  have hjudge : z.retake .queueWait = ({ z with out := q } : State).answer .done 0 := by
    rw [State.retake_held zrequest hst]
    refine State.judge_queues hd (by rw [zquiet.mild.station, ystation, hj]) zpending ?_ ?_
    · rw [zquiet.mild.localState, (ylocal _).1]
      exact hl
    · rw [zcommit, ycommit, zout, yout]
      exact hq
  have hreact : State.reactBlocks b s v = ({ z with out := q } : State).answer .done 0 := by
    unfold State.reactBlocks
    rw [← hy, ← hz]
    unfold State.reviewPort
    rw [hjudge]
    rfl
  rw [hreact]
  exact ⟨State.answer_port _ _ _, rfl⟩

theorem State.afterFrame_port (s : State) (e : Ended) (a : Bool) :
    (s.afterFrame e a).port = s.port ∧ (s.afterFrame e a).out = s.out := by
  have group : ∀ x : State, (x.continueGroup a).port = x.port ∧ (x.continueGroup a).out = x.out := by
    intro x
    unfold State.continueGroup
    split <;> exact ⟨rfl, rfl⟩
  have copy : ∀ x : State, x.continueCopy.port = x.port ∧ x.continueCopy.out = x.out := by
    intro x
    unfold State.continueCopy
    split
    · exact ⟨rfl, rfl⟩
    · split
      · rename_i ending _
        cases ending <;> exact ⟨rfl, rfl⟩
      · split <;> exact ⟨rfl, rfl⟩
  unfold State.afterFrame
  split
  · exact group s
  · exact copy s
  · exact ⟨rfl, rfl⟩
  · exact ⟨rfl, rfl⟩

/-- This station's own UPDATE leaves the head of the queue. -/
theorem State.takeOwnFrame_update {s : State} {v : View} {f : Frame} {g : Segment} {l : Line} {m : WordMask} {d : Vector Word 4}
    {mark : Bool} {st : OutState} {n : Nat} {rest : List OutEntry} (hk : f.kind? = some .update)
    (ho : s.out = ⟨.update g l m d mark, st, n⟩ :: rest) :
    s.takeOwnFrame v f = ({ s with group := none, out := rest } : State).enterWrites (s.ownWrites v f) := by
  have taken : State.outboundAccepted { s with group := none } = { s with group := none, out := rest } := by
    unfold State.outboundAccepted
    rw [show ({ s with group := none } : State).out = _ from ho]
  unfold State.takeOwnFrame
  rw [hk]
  dsimp only
  unfold State.takeOwnUpdate
  rw [taken]

/-- QUEUE_WAIT ends at this station's own accepted UPDATE. -/
theorem State.queueWait_ends {s : State} {r : Request} {v : View} {i : InFlight} {c : Fin 4} {slots : Slots} {g : Segment}
    {l : Line} {m : WordMask} {d : Vector Word 4} {mark : Bool} {st : OutState} {n : Nat} {rest q : List OutEntry} {data : Word}
    (frame : OwnFrame s v i c slots) (hk : i.frame.kind? = some .update)
    (hout : s.out = ⟨.update g l m d mark, st, n⟩ :: rest) (hatt : ∀ e ∈ rest, e.attempts < frameRetryLimit)
    (hj : s.join.station = .joined) (hr : s.port.request = some r) (hst : r.stage = .queueWait)
    (hd : r.direction = .write data) (hf : s.fillPending r.segment = false)
    (hl : s.localState r.segment = .current ∨ s.localState r.segment = .catching)
    (hq : queueTake s.commit.staging rest r.line r.word data = some q) (heard : Option Heard) :
    ∃ u, s.frameEnd heard slots = State.settle u ∧ u.port = answered .done 0 ∧ u.out = q := by
  have htake := State.takeOwnFrame_update (v := v) hk hout
  obtain ⟨flag, t, w, hw, ht, e, x, _, hx, hend⟩ := s.ownFrameEnd v i c slots heard frame
    (fun h => by rw [hk] at h; cases h) (by rw [htake]; exact frame.leave)
  rw [i.frame.viewEffect_update v hk] at hw
  rw [htake] at ht
  have hq' := State.setFlagIf_quiet
    ({ ({ s with group := none, out := rest } : State).enterWrites (s.ownWrites v i.frame) with view := some w } : State)
    flag .peerChange
  rw [← ht] at hq'
  have hstation : t.join.station = s.join.station := hq'.mild.station
  have hheld : t.heldView = some (v.countAccepted v s.me slots) := by
    rw [← hw]
    exact State.heldView_eq (hq'.mild.inGroup.trans (State.view_of_heldView frame.view).2) hq'.mild.view
  have hcounted := State.localState_counted frame.view hheld hq'.mild.config
  have htout : t.out = rest := by rw [ht, State.setFlagIf_out]; rfl
  have htport : t.port = s.port := by rw [ht, State.setFlagIf_port]; rfl
  have htcommit : t.commit = s.commit := by rw [ht, State.setFlagIf_commit]; rfl
  have htsp : t.sp.fill = s.sp.fill := by rw [hq'.sp]; rfl
  obtain ⟨hport, hqueue⟩ := State.reactBlocks_queues (b := s) (s := t) (v := w) (by rw [htport]; exact hr) hst hd
    (hstation.trans hj) (by unfold State.fillPending at hf ⊢; rw [htsp]; exact hf) (by rw [(hcounted _).1]; exact hl)
    (fun g => (hcounted g).1.symm) (by rw [htout]; exact hatt) (by rw [htcommit, htout]; exact hq)
  obtain ⟨aport, aout⟩ := (State.reactBlocks s t w).afterFrame_port e true
  rw [← hx] at aport aout
  exact ⟨_, hend, aport.trans hport, aout.trans hqueue⟩

/-! ### REPAIR_WAIT -/

/-- The reactions judge a request again whose repair entry has gone. -/
theorem State.reactBlocks_repaired {s0 b s : State} {v : View} {r : Request} (hr : s.port.request = some r)
    (hst : r.stage = .repairWait) (hrep : s.repair = []) (hb : b.repair ≠ []) (hw : s.walker.state ≠ .held)
    (hg : s.inGroup = true) (hf : s.fillPending r.segment = false) (hatt : ∀ e ∈ s.out, e.attempts < frameRetryLimit)
    (hsame : ∀ g, b.localState g = s.localState g)
    (hl : ∀ g, s.localState g = s0.localState g ∧ s.ownCursor g = s0.ownCursor g) (hout : s.out = s0.out) :
    (State.reactBlocks b s v).repair = [] ∧ RequestJudged s0 r (State.reactBlocks b s v).port := by
  refine ⟨State.reactBlocks_repair b s v hrep hw, ?_⟩
  obtain ⟨yport, ysp, _, ywalker, ystation, ylocal⟩ := State.reviewBlocks_keeps b s v
  have yout := State.reviewBlocks_out b s v hsame hatt
  have yrepair := State.reviewBlocks_repair b s v
  rw [hrep] at yrepair
  obtain ⟨y, hy⟩ : ∃ y, y = State.reviewBlocks b s v := ⟨_, rfl⟩
  rw [← hy] at yport ysp ywalker ystation ylocal yout yrepair
  have yfill : y.fillPending r.segment = false := by
    unfold State.fillPending at hf ⊢
    rw [ysp]
    exact hf
  have ygroup : y.inGroup = true := by
    unfold State.inGroup at hg ⊢
    rw [ystation]
    exact hg
  obtain ⟨judged, waits⟩ := State.judge_judged s0 y r (State.started_of_inGroup ygroup) yfill
    (fun g => (ylocal g).1.trans (hl g).1) (yout.trans hout) (fun g => (ylocal g).2.trans (hl g).2)
  rcases waits with anything | waits
  · exact anything _
  · have released : (y.releaseSince b.repair).port = (y.judge r).port := by
      unfold State.releaseSince
      rw [if_neg (by rw [yrepair]; exact Ne.symm hb)]
      exact State.releaseHeld_judges _ (by rw [ywalker]; exact hw) (by rw [yport]; exact hr) hst
        (by rw [yrepair]; rfl) waits
    have hport : (State.reactBlocks b s v).port = (y.judge r).port := by
      unfold State.reactBlocks
      rw [← hy, State.reviewPort_storeWait b _ fun r' h' => waits r' (by rw [← released]; exact h'), released]
    rw [hport]
    exact judged

/-- An accepted UPDATE that covers the bad words of the only repair entry ends it. -/
theorem repairCure_all (e : RepairEntry) (f : Frame) (hl : e.line = f.line) (h : e.bad &&& ~~~f.updateMask = 0) :
    repairCure [e] f.updateWrite = [] := by
  have covered : f.updateWrite.plainMask = f.updateMask &&& ~~~0 := rfl
  have hm : ~~~(f.updateMask &&& ~~~0) = ~~~f.updateMask := by
    generalize f.updateMask = m
    revert m
    decide
  unfold repairCure repairMap
  rw [List.map_cons, List.map_nil, if_pos (show e.line = f.updateWrite.line from hl)]
  dsimp only
  rw [covered, hm, h]
  rfl

/-- REPAIR_WAIT ends at an accepted UPDATE that covers the bad words. -/
theorem State.repairWait_ends {s : State} {r : Request} {v : View} {h : Heard} {f : Frame} {owner : Station} {c : Fin 4}
    {slots : Slots} {e : RepairEntry} (hread : readFrame h = some f) (hk : f.kind? = some .update)
    (frame : GoodFrame s v f owner c slots) (hg : f.header.gpos = gposNone) (hm : v.isMember s.me f.segment = true)
    (hrep : s.repair = [e]) (hline : e.line = f.line) (hbad : e.bad &&& ~~~f.updateMask = 0)
    (hr : s.port.request = some r) (hst : r.stage = .repairWait) (hf : s.fillPending r.segment = false)
    (hw : s.walker.state ≠ .held) (hatt : ∀ x ∈ s.out, x.attempts < frameRetryLimit) :
    ∃ u, s.frameEnd (some h) slots = State.settle u ∧ u.repair = [] ∧ RequestJudged s r u.port := by
  obtain ⟨t, w, flag, b, hview, ht, hend⟩ := s.goodFrameEnd_blocks v h f owner c slots hread frame
  have htake := (s.driven .ack).takePeerFrame_updateWrites v f hk hg
  rw [if_pos (show v.isMember (s.driven .ack).me f.segment = true from hm)] at htake
  rw [htake] at ht
  rw [f.viewEffect_update v hk] at hview
  have hq := State.setFlagIf_quiet
    ({ ({ s.driven .ack with group := none } : State).enterWrites [f.updateWrite] with view := some w } : State) flag .peerChange
  rw [← ht] at hq
  have hgroup : t.inGroup = true := hq.mild.inGroup.trans (State.view_of_heldView frame.view).2
  have hheld : t.heldView = some (v.countAccepted v owner slots) := by
    rw [← hview]
    exact State.heldView_eq hgroup hq.mild.view
  have hcounted := State.localState_counted frame.view hheld hq.mild.config
  have htout : t.out = s.out := by rw [ht, State.setFlagIf_out]; rfl
  have htport : t.port = s.port := by rw [ht, State.setFlagIf_port]; rfl
  have htwalker : t.walker = s.walker := by rw [ht, State.setFlagIf_walker]; rfl
  have htrepair : t.repair = [] := by
    rw [ht, State.setFlagIf_repair]
    show repairCure s.repair f.updateWrite = []
    rw [hrep]
    exact repairCure_all e f hline hbad
  have htfill : t.sp.fill = s.sp.fill := by rw [hq.sp]; rfl
  obtain ⟨hgone, hjudged⟩ := State.reactBlocks_repaired (s0 := s) (b := s.driven .ack) (s := t) (v := w)
    (by rw [htport]; exact hr) hst htrepair (show s.repair ≠ [] by rw [hrep]; exact List.cons_ne_nil _ _)
    (by rw [htwalker]; exact hw) hgroup (by unfold State.fillPending at hf ⊢; rw [htfill]; exact hf)
    (by rw [htout]; exact hatt) (fun i => (hcounted i).1.symm) hcounted htout
  exact ⟨_, hend, hgone, hjudged⟩

/-! ### SLOT_WAIT -/

/-- SLOT_WAIT ends where the third ask of an entry has passed unanswered. -/
theorem State.slotWait_ends {s : State} {r : Request} {before after : List RepairEntry} {e : RepairEntry} {asks rejections : Nat}
    {asked : Option Station} (hrep : s.repair = before ++ e :: after) (others : ∀ x ∈ before ++ after, x.line ≠ e.line)
    (hstate : e.state = .asking .timing asks rejections asked) (spent : 3 ≤ asks) (hw : s.walker.state ≠ .held)
    (hr : s.port.request = some r) (hst : r.stage = .slotWait) (hstarted : s.started = true)
    (hf : s.fillPending r.segment = false) :
    ∃ t, exec (.repairTimerExpiry e.line) s = .next t ∧ RequestJudged s r t.port := by
  have failed : e.expire = ({ e with state := .failed }, true) := by
    rw [RepairEntry.expire, hstate]
    exact if_neg (not_lt.mpr spent)
  obtain ⟨x, hx⟩ : ∃ x, x = State.raise { s with repair := before ++ { e with state := .failed } :: after } (repairFailed e) :=
    ⟨_, rfl⟩
  have raised := State.raise_quiet ({ s with repair := before ++ { e with state := .failed } :: after } : State) (repairFailed e)
  rw [← hx] at raised
  have hreq : x.port.request = some r := by rw [hx]; exact hr
  have hxw : x.walker.state ≠ .held := by rw [hx]; exact hw
  have hlocal : ∀ g, (x.releaseJobs true).localState g = s.localState g :=
    ((State.releaseJobs_quiet x true).mild.localState · |>.trans (raised.mild.localState _))
  have hcursor : ∀ g, (x.releaseJobs true).ownCursor g = s.ownCursor g := by
    intro g
    refine State.ownCursor_of_ownState ?_
    unfold State.ownState
    rw [((State.releaseJobs_quiet x true).mild.heldView.trans raised.mild.heldView),
      ((State.releaseJobs_quiet x true).mild.me.trans raised.mild.me)]
    rfl
  refine ⟨(x.releaseHeld true).settle, ?_, ?_⟩
  · rw [exec_repairTimerExpiry hrep others, failed, hx]
    rfl
  · rw [(State.settle_settled _).port, State.releaseHeld_retakes hxw hreq hst]
    refine (State.judge_judged s (x.releaseJobs true) r ?_ ?_ hlocal ?_ hcursor).1
    · unfold State.started at hstarted ⊢
      rw [(State.releaseJobs_quiet x true).mild.station, raised.mild.station]
      exact hstarted
    · unfold State.fillPending at hf ⊢
      rw [(State.releaseJobs_quiet x true).sp, raised.sp]
      exact hf
    · show x.out = s.out
      rw [hx]
      rfl

/-- Settles O45: the end of each wait, by the event that ends it. -/
theorem heldRequestsAreReleased : Obligations.HeldRequestsAreReleased := by
  unfold Obligations.HeldRequestsAreReleased
  intro s r hr
  refine ⟨fun hj hc hst => State.startWait_ends hr hst hj hc, fun hwait hfilling => ⟨?_, ?_, ?_⟩⟩
  · intro v i c slots g l m d mark st n rest data frame hk _ hout hlen hatt hj hst hd hl hnew
    have hq := queueTake_new s.commit.staging rest { s with out := rest } r.line r.word data rfl rfl hnew hlen
    obtain ⟨u, hu, hport, hqueue⟩ := State.queueWait_ends frame hk hout hatt hj hr hst hd
      (State.fillPending_false hwait hfilling) hl hq none
    refine ⟨u, _, fun k h => ?_, State.settle_settled u, hport, hqueue⟩
    rw [FrameKind.row_exec, ← hu, State.frameEnd_inFrame s s.me c _ slots frame.inFrame,
      State.frameEnd_inFrame s s.me c _ slots frame.inFrame, State.ended_own s _ _ _ _ i frame.own,
      State.ended_own s _ _ _ _ i frame.own]
  · intro v h f owner c slots e hread hk frame hg hm hrep hline hbad hst _ hw hatt
    obtain ⟨u, hu, hgone, hjudged⟩ := State.repairWait_ends hread hk frame hg hm hrep hline hbad hr hst
      (State.fillPending_false hwait hfilling) hw hatt
    have settled := State.settle_settled u
    exact ⟨_, (FrameKind.row_exec .update h slots s).trans (congrArg Host.Outcome.next hu), settled.repair.trans hgone,
      by rw [settled.port]; exact hjudged⟩
  · intro before after e asks rejections asked hrep others hstate spent hw hst hstarted
    exact State.slotWait_ends hrep others hstate spent hw hr hst hstarted (State.fillPending_false hwait hfilling)

end Sys2Proof.Machine
end
